-- ==== Sys2Proof/Word.lean ====
section
/-! DEFINITION. The word types of the model. Bit vectors stand for what the manual treats as bits: bytes, fuse
rows, keys. Offsets, coordinates, widths, counts, serials and sense codes are numbers. -/

namespace Sys2Proof

/-- A byte of job memory, of a die-port frame, or of a string (one byte per character, R185). -/
abbrev Byte := BitVec 8

/-- The 32 bits of a fuse row, bit 31 the most significant (00_scope, conventions). -/
abbrev FuseRow := BitVec 32

/-- A 256-bit key. Key byte 0 is bits 255..248 (R4). -/
abbrev Key := BitVec 256

/-- A site port, and the site engine of the same number (00_scope section 2). -/
abbrev Site := Fin 24

/-- A burn channel BC0 to BC3 (R47). -/
abbrev Chan := Fin 4

/-- Bytes of job memory: 4 MiB (R140). -/
def jobMemorySize : Nat := 4194304

/-- The largest value of a 32-bit counter (00_scope, conventions; R182). -/
def counterMax : Nat := 4294967295

/-- 2^40, above every serial (R92, R94). -/
def serialTop : Nat := 1099511627776

end Sys2Proof
end

