-- ==== Sys2Proof/Syntax.lean ====
section
/-! DEFINITION. The commands and events of the KM-624: one constructor per row of `spec/opcode_table.json`. The table
gives the rows no fields, so the operands are what the rule of each row needs from outside the board. -/

namespace Sys2Proof

/-- A response frame of a die: ten bytes, status, eight data bytes, check (R13, section 11.4). `data` holds the eight
data bytes with the first in bits 63..56, as frames travel most significant byte first. -/
structure ResponseFrame where
  status : Byte
  data : BitVec 64
  check : Byte
  deriving DecidableEq, Repr

/-- How far an escrow record in progress has come when a reset is taken (R166, R174, R175). -/
inductive RecordCut where
  /-- It is abandoned: its first `words` 32-bit words stand in its slots, and it is not counted (R174 step 1). -/
  | abandoned (words : Nat)
  /-- Its record count is written and it is reported to the site or the die table unit that asked for it (R166 steps 3
  and 4, R175), whose acts on the report are carried out (R133); the chain unit has not acted yet, and a page that the
  record fills is not handed over yet. -/
  | counted
  deriving DecidableEq, Repr

/-- What a reset finds at the board's inputs and in its unfinished writes. Log 13.
`contact` is the level of the CONTACT input (R186), `regulation` has bit c set where channel c's regulator reports
good (R62), `record` says how far an escrow record in progress has come (R174, R175), and `dumpWords` how many 32-bit
words of a dump in progress are written (R139, R140). -/
structure ResetInputs where
  contact : Bool
  regulation : BitVec 4
  record : RecordCut
  dumpWords : Nat
  deriving DecidableEq, Repr

/-- One command or event of the block. -/
inductive Instr where
  /-- CONTROL command 1 (R150). `writerFirst`: the escrow writer takes it before the chain unit (log 11). -/
  | nudge (writerFirst : Bool)
  /-- CONTROL command 2 (R149). -/
  | continueCmd
  /-- CONTROL command 3 (R153). -/
  | release
  /-- CONTROL command 4 (R177). -/
  | engineReset (inputs : ResetInputs)
  /-- A full-word write to EVENTS (R180). -/
  | eventsWrite (value : BitVec 32)
  /-- A full-word write to EVENT_ENABLE (R180, R181). -/
  | eventEnableWrite (value : BitVec 32)
  /-- A write of `size` bytes at `offset` of the memory window that gives no command and has no effect (R176). -/
  | otherRegisterWrite (offset size : Nat) (value : BitVec 32)
  /-- Power is applied (R184). `tookNew`: the reserve memory ended a write in flight with its new value (R91). -/
  | powerOnReset (inputs : ResetInputs) (tookNew : Bool)
  /-- The PCIe link resets the board (R184). -/
  | linkReset (inputs : ResetInputs)
  /-- The key unit has read H and the reset ends (R177). -/
  | resetComplete
  /-- The filtered CONTACT level rises (R186). -/
  | contactRise
  /-- The filtered CONTACT level falls (R186). -/
  | contactFall
  /-- The key unit finishes a LOAD_KEYS (R89). -/
  | keyImportComplete
  /-- Ten bytes arrive in answer to a HELLO (R65). -/
  | helloResponse (site : Site) (frame : ResponseFrame)
  /-- Ten bytes arrive in answer to a ROW_CHECK (R18). -/
  | rowCheckResponse (site : Site) (frame : ResponseFrame)
  /-- Ten bytes arrive in answer to an ARM_BIT (R26). -/
  | armBitResponse (site : Site) (frame : ResponseFrame)
  /-- Ten bytes arrive in answer to a SENSE_BIT (R28). -/
  | senseBitResponse (site : Site) (frame : ResponseFrame)
  /-- Ten bytes arrive in answer to a READ_TAG (R21). -/
  | readTagResponse (site : Site) (frame : ResponseFrame)
  /-- The frame timeout of a site's attempt runs out (R14). -/
  | frameTimeout (site : Site)
  /-- A channel's pulse elapsed reaches its width (R51). -/
  | pulseComplete (chan : Chan)
  /-- A channel's regulation flag becomes lost (R49). -/
  | regulationLost (chan : Chan)
  /-- A channel's regulation flag becomes good (R49). -/
  | regulationRestored (chan : Chan)
  /-- A channel's settle timer reaches 50 µs (R48). -/
  | settleTimerExpiry (chan : Chan)
  /-- A site's settle delay after a pulse ends (R28). -/
  | siteSettleDelayEnd (site : Site)
  /-- A waiting request's grant timer reaches the grant limit (R57). -/
  | grantLimitExpiry (site : Site)
  /-- The die table unit serves a lookup (R123). -/
  | dieLookup
  /-- The die table unit serves a request to hold a place (R124). -/
  | placeHold
  /-- The die table unit serves a request to give back a place (R124). -/
  | placeGiveBack
  /-- The die table unit serves a request to turn a place into an entry (R124). -/
  | placeToEntry
  /-- The die table unit serves a request to make a VOID entry (R125). -/
  | voidEntry
  /-- The die table unit serves a request to settle an entry (R126). -/
  | entrySettle
  /-- The die table unit serves a request to park a context (R131). -/
  | contextPark
  /-- The die table unit serves a clear (R128). -/
  | tableClear
  /-- The die table unit serves a void-all (R136). -/
  | voidAllParked
  /-- The die table unit serves a dump (R138). -/
  | tableDump
  /-- The composition unit finishes the request in hand (R111). -/
  | compositionComplete
  /-- The key unit serves the head of the derivation queue (R101). -/
  | derivationQueueServe
  /-- A reservation write reports success (R95). -/
  | reservationSuccess
  /-- A reservation write reports failure (R96). `tookNew`: the memory holds the new value all the same (R91). -/
  | reservationFailure (tookNew : Bool)
  /-- The derivation in progress completes (R103). -/
  | derivationComplete
  /-- The escrow writer finishes writing the record at the head of its queue (R166). -/
  | escrowRecordWrite
  deriving DecidableEq, Repr

end Sys2Proof
end

