-- ==== Sys2Proof/Decode.lean ====
section
/-! DEFINITION. The rows of `spec/opcode_table.json` carry no bits, so no word spells a command. What software does
spell is a register write: `commandOfWrite` says which command a full-word write of the register window gives
(R176, R177). -/

namespace Sys2Proof

/-- The command a word spells by the table's bits: none, since no row of the table gives bits. -/
def decodeTableWord (_nbits _w : Nat) : Option Instr := none

/-- The command that a write of `size` bytes of `value` at `offset` of the memory window gives (R176, R177). CONTROL
takes the whole written value as the code, and a narrow write, an unknown code, a read-only register or an unoccupied
offset gives OTHER_REGISTER_WRITE. So does a write of more than four bytes, though it may cover a whole register: R176
speaks of whole and narrower writes only, and this choice is the model's (log 33). `inputs` and `writerFirst` are the
operands that the written word does not hold. -/
def commandOfWrite (offset size : Nat) (value : BitVec 32) (inputs : ResetInputs) (writerFirst : Bool) : Instr :=
  if size = 4 ∧ offset = 4194304 then
    match value.toNat with
    | 1 => .nudge writerFirst
    | 2 => .continueCmd
    | 3 => .release
    | 4 => .engineReset inputs
    | _ => .otherRegisterWrite offset size value
  else if size = 4 ∧ offset = 4194312 then .eventsWrite value
  else if size = 4 ∧ offset = 4194316 then .eventEnableWrite value
  else .otherRegisterWrite offset size value

end Sys2Proof
end

