-- ==== Sys2Proof/Config.lean ====
section
/-! DEFINITION. What the manual leaves to an implementation, and the free values of the model: constants without a
body, so that nothing can be proved from a value of them. -/

namespace Sys2Proof

/-- The internal import key, fixed when the card is built (R87). -/
opaque Config.importKey : Key

/-- What unwrapping a root blob's 36 wrapped bytes under the import key gives: root key and root id (R88).
The algorithm is outside the manual (00_scope section 5). Log 17. -/
opaque Config.unwrapRoot : Key → List Byte → Key × BitVec 32

/-- What unwrapping a transport blob's 32 wrapped bytes under the import key gives (R88). Log 17. -/
opaque Config.unwrapTransport : Key → List Byte → Key

/-- The integrity tag over the plain content of a root blob (R88). Log 17. -/
opaque Config.rootTag : Key → Key × BitVec 32 → BitVec 64

/-- The integrity tag over the plain content of a transport blob (R88). Log 17. -/
opaque Config.transportTag : Key → Key → BitVec 64

/-- The one-way keyed function of R102: root key, serial, lot name, wafer number, x and y. Log 17. -/
opaque Config.deriveKey : Key → Nat → List Byte → Nat → Nat → Nat → Key

/-- The die key enciphered under the escrow transport key (R105). Log 17. -/
opaque Config.encipher : Key → Key → Key

/-- The 64-bit tag of R105 over the enciphered key, the serial, x, y, the wafer number and the root id, under the
escrow transport key. Log 17. -/
opaque Config.wrapTag : Key → Key → Nat → Nat → Nat → Nat → BitVec 32 → BitVec 64

/-- FREE VALUE: what a lock state byte other than 0 and 1 in a HELLO response is taken as (R17 gives 0 and 1).
Log 15. -/
opaque Config.lockStateOf : Byte → Bool

/-- FREE VALUE: the eight data bytes of a REFUSED answer to a request of this command code, row, bit and argument (R13
gives data 0 for BAD_FRAME only). Log 35. -/
opaque Config.refusedData : Byte → Nat → Nat → BitVec 32 → BitVec 64

/-- FREE VALUE: what the n-th power-on makes of the (offset, byte) pairs of job memory (R140: undefined). Logs 2, 36. -/
opaque Config.powerOnImage : Nat → List (Nat × Byte) → List (Nat × Byte)

/-- FREE VALUE: the order in which the n-th group of simultaneous arrivals from several sites is taken (R100, R122,
R165: either order). Log 10. -/
opaque Config.arrivalOrder : Nat → List Site

end Sys2Proof
end

