-- ==== Sys2Proof/Machine/State.lean ====
section
/-! DEFINITION. The state of the board as plain data, block by block, and the state after reset. -/

namespace Sys2Proof.Machine

/-! ### Job memory (R140) -/

/-- Job memory as (offset, byte) pairs, offsets strictly rising, no byte equal to 0, which is what an unlisted offset
reads as (log 2). -/
abbrev Memory := List Host.Cell

/-- The canonical form from a lower bound on the offsets. -/
def Memory.wfFrom : Nat → Memory → Bool
  | _, [] => true
  | low, (a, b) :: rest =>
    decide (low ≤ a) && decide (a < jobMemorySize) && decide (b ≠ 0) && Memory.wfFrom (a + 1) rest

/-- The canonical form of job memory: offsets strictly rising and below 4 MiB, no entry 0. -/
def Memory.wf (m : Memory) : Bool := Memory.wfFrom 0 m

/-! ### Register window and statistics (chapter 10) -/

/-- The last reset cause, in the order of STATUS bits 19..18 (R178). -/
inductive ResetCause where
  | power
  | link
  | engine
  deriving DecidableEq, Repr

/-- The register window's own state (R177 to R181). -/
structure RegisterBlock where
  lastReset : ResetCause
  resetting : Bool
  events : BitVec 9
  enable : BitVec 9
  /-- Whether the card's MSI is enabled: an input from the link (R181). Log 20. -/
  msiEnabled : Bool
  /-- MSI messages sent: the output of the register window (R181). -/
  msiSent : Nat
  deriving DecidableEq, Repr

/-- The sixteen statistics counters in the order of the STATS body (section 11.2, R182). -/
inductive Counter where
  | keysIssued
  | diesBurned
  | diesResumed
  | diesFailed
  | diesVoided
  | diesVerified
  | verifyMismatch
  | pulses
  | remaps
  | sparesRejected
  | frameRetries
  | contactFails
  | channelUnlocks
  | grantTimeouts
  | releases
  | evictions
  deriving DecidableEq, Repr

/-! ### Dies, profiles and the wafer context -/

/-- A die, named by its wafer coordinates (00_scope, conventions). -/
structure Die where
  x : Nat
  y : Nat
  deriving DecidableEq, Repr

/-- The access kind of a window (R9, section 11.1). -/
inductive Access where
  | none
  | readOnly
  | program
  deriving DecidableEq, Repr

/-- One window of a profile's protection table (R9). -/
structure Window where
  base : Nat
  size : Nat
  access : Access
  deriving DecidableEq, Repr

/-- The wafer's copy of its profile (R22, section 11.1). -/
structure Profile where
  w0 : Nat
  wmax : Nat
  cmax : Nat
  tb : Nat
  tu : Nat
  grantLimit : Nat
  growth : Nat
  pmax : Nat
  settleDelay : Nat
  frameTimeout : Nat
  frameRetries : Nat
  spareCount : Nat
  recordBase : Nat
  spareBase : Nat
  remapBase : Nat
  lockRow : Nat
  windows : List Window
  deriving DecidableEq, Repr

/-- The field a NUM step prints (R115). -/
inductive NumField where
  | wafer
  | x
  | y
  | site
  deriving DecidableEq, Repr

/-- A step of the composition list before its END (R110). -/
inductive CompStep where
  | lot (n : Nat)
  | skip (n : Nat)
  | lit (c : Byte)
  | supp (c : Byte)
  | num (field : NumField) (n : Nat)
  deriving DecidableEq, Repr

/-- The wafer context, present while wafer open is set (R145). -/
structure WaferContext where
  profile : Profile
  lot : List Byte
  number : Nat
  pad : Byte
  table : List Byte
  steps : List CompStep
  dry : Bool
  deriving DecidableEq, Repr

/-! ### Site entries and the burn state -/

/-- The action of a site entry (section 11.2). -/
inductive Action where
  | provision
  | verify
  | identify
  | skip
  deriving DecidableEq, Repr

/-- The lane order a site entry asks for (R11). -/
inductive LaneRequest where
  | normal
  | reversed
  | auto
  deriving DecidableEq, Repr

/-- The lane order in use (R11). -/
inductive LaneOrder where
  | normal
  | reversed
  deriving DecidableEq, Repr

/-- What a die-port lane carries (R11). -/
inductive LaneSignal where
  | clock
  | select
  | dataToDie
  | dataFromDie
  deriving DecidableEq, Repr

/-- The tester's part of a site entry (R142). -/
structure SiteEntry where
  site : Site
  action : Action
  lanes : LaneRequest
  arb : Nat
  die : Die
  expected : BitVec 16
  deriving DecidableEq, Repr

/-- Stage of a burn (R23, R30). -/
inductive Stage where
  | record
  | remap
  | lock
  deriving DecidableEq, Repr

/-- State of a record or remap row (R23). -/
inductive RowState where
  | notStarted
  | inProgress
  | done
  deriving DecidableEq, Repr

/-- The current row of a burn (R23). -/
inductive CurRow where
  | logical (k : Fin 12)
  | remap (j : Fin 2)
  | lock
  deriving DecidableEq, Repr

/-- Where the burn stands on its current row (R23). -/
inductive BurnStep where
  | bits
  | verify
  | lockCheck
  deriving DecidableEq, Repr

/-- The burn state of a provisioning (R23). `width` is W, `bitPulses` p, `rowStress` S_row, `maxStress` the largest
finished stress. -/
structure BurnState where
  stage : Stage
  rowStates : Vector RowState 12
  physRows : Vector Nat 12
  remapStates : Vector RowState 2
  cur : CurRow
  bit : Nat
  step : BurnStep
  width : Nat
  bitPulses : Nat
  rowStress : Nat
  unsensed : Bool
  spareWanted : Bool
  remaps : List (Fin 12 × Nat)
  rejected : List Nat
  totalPulses : Nat
  maxStress : Nat
  deriving DecidableEq, Repr

/-- The wrapped key: the enciphered key and its tag (R105). -/
structure WrappedKey where
  cipher : Key
  tag : BitVec 64
  deriving DecidableEq, Repr

/-- A composed identity: 16 characters and their codes (R116). -/
structure Identity where
  chars : List Byte
  codes : List Nat
  deriving DecidableEq, Repr

/-- Why a site's entry ended early (R63, R78). -/
inductive StopCause where
  | none
  | release
  | contact
  | supply
  | halt
  deriving DecidableEq, Repr

/-- The CLOSE outcomes (R170, section 11.3). -/
inductive CloseOutcome where
  | burned
  | failedFuse
  | failedRemapRow
  | failedLock
  | voidUnused
  | voidMismatch
  | voidEvicted
  | voidWaferEnd
  deriving DecidableEq, Repr

/-- The site results (R84, section 11.2). -/
inductive SiteResult where
  | burned
  | voidMismatch
  | alreadyDone
  | alreadyLocked
  | released
  | halted
  | verified
  | mismatch
  | identified
  | notLocked
  | skipped
  | failedFuse
  | failedRemapRow
  | failedLock
  | failedContact
  | failedSupply
  | refusedVoid
  | refusedFailed
  | refusedWindow
  | refusedGeometry
  | refusedNotBlank
  | refusedCompose
  | refusedTableFull
  | refusedNoKeys
  | refusedAlloc
  | refusedSerials
  | parkedReleased
  | parkedContact
  | parkedSupply
  | parkedHalt
  deriving DecidableEq, Repr

/-- The six die-port commands (R13). -/
inductive DieCommand where
  | hello
  | rowCheck
  | armBit
  | senseBit
  | readRow
  | readTag
  deriving DecidableEq, Repr

/-- An exchange in flight: the request's fields (R13) and the resends made so far (R14). -/
structure Exchange where
  cmd : DieCommand
  row : Nat
  bit : Nat
  arg : BitVec 32
  resends : Nat
  deriving DecidableEq, Repr

/-- The states of a site engine other than IDLE (section 4.2). IDLE is the absence of a context (R63). -/
inductive SiteState where
  | hail
  | lookup
  | prep
  | issueWait
  | escrowWait
  | resumeCheck
  | burnRow
  | waitGrant
  | pulsing
  | settling
  | sensing
  | rowVerify
  | spareSelect
  | remapBurn
  | lockBurn
  | closing
  | parking
  | reading
  | final
  deriving DecidableEq, Repr

/-- A site context (R63). `index` is the entry's place in the block, `checkIndex` the blank-check row (R68) or resume
row (R75) in hand, `tag0` the data of READ_TAG part 0 (R21), `timer` the time of the attempt or settle delay in
0.1 µs, and `closeWritten` is set once the CLOSE has been reported written (R76). -/
structure SiteCtx where
  index : Nat
  state : SiteState
  action : Action
  die : Die
  arb : Nat
  lanesAsked : LaneRequest
  expected : BitVec 16
  lanesUsed : LaneOrder
  rows : Option Nat
  locked : Option Bool
  retries : Nat
  placeHeld : Bool
  serial : Option Nat
  key : Option Key
  check : Option (BitVec 16)
  wrapped : Option WrappedKey
  identity : Option Identity
  targets : Option (Vector FuseRow 12)
  burn : Option BurnState
  touchdowns : Option Nat
  stop : StopCause
  haltPending : Bool
  outcome : Option CloseOutcome
  result : Option SiteResult
  exch : Option Exchange
  checkIndex : Nat
  tag0 : BitVec 64
  timer : Nat
  closeWritten : Bool
  deriving DecidableEq, Repr

/-! ### Burn channels and arbiter (chapter 3) -/

/-- The state of a burn channel (R47). The grant owner and pulse width are present in DRIVING only, the settle timer
runs in SETTLING only. Times are in 0.1 µs. -/
inductive ChannelState where
  | settling (timer : Nat)
  | ready
  | driving (owner : Site) (width elapsed : Nat)
  | offline
  deriving DecidableEq, Repr

/-- A burn channel: its state and its regulation flag (R47). -/
structure Channel where
  state : ChannelState
  good : Bool
  deriving DecidableEq, Repr

/-- A request of the waiting set (section 3.5). `timer` is the grant timer in 0.1 µs. -/
structure GrantRequest where
  site : Site
  arb : Nat
  width : Nat
  timer : Nat
  deriving DecidableEq, Repr

/-! ### Key unit (chapter 5) -/

/-- The state of the serial allocator, in the order of STATUS bits 23..22 (R92, R178). -/
inductive AllocState where
  | ready
  | reserving
  | fault
  | exhausted
  deriving DecidableEq, Repr

/-- A request of the derivation queue (R100). -/
structure DerivRequest where
  site : Site
  die : Die
  deriving DecidableEq, Repr

/-- The working store of a derivation in progress (R102). -/
structure Derivation where
  serial : Nat
  key : Key
  deriving DecidableEq, Repr

/-- The working store of a LOAD_KEYS: the two blobs as read (R89). -/
structure ImportStore where
  rootBlob : List Byte
  transportBlob : List Byte
  deriving DecidableEq, Repr

/-- The key unit with the serial reserve memory (R87, R91, R92). `h` is H as the key unit holds it, `reserve` what the
reserve memory holds, `writeInFlight` the value of a reservation write that has not ended. -/
structure KeyUnit where
  rootKey : Key
  rootId : BitVec 32
  transportKey : Key
  loaded : Bool
  importing : Option ImportStore
  next : Nat
  limit : Nat
  h : Nat
  alloc : AllocState
  reserve : Nat
  writeInFlight : Option Nat
  queue : List DerivRequest
  derivation : Option Derivation
  deriving DecidableEq, Repr

/-! ### Composition unit (chapter 6) -/

/-- A request of the composition unit (R111). -/
structure CompRequest where
  site : Site
  lot : List Byte
  number : Nat
  die : Die
  deriving DecidableEq, Repr

/-! ### Die table unit (chapter 7) -/

/-- The state of a die table entry (R121). -/
inductive EntryState where
  | issued
  | parked
  | burned
  | failed
  | void
  deriving DecidableEq, Repr

/-- A die table entry (R121). -/
structure DieEntry where
  state : EntryState
  serial : Nat
  deriving DecidableEq, Repr

/-- A held place: a site and its die (R121, R124). -/
structure Place where
  site : Site
  die : Die
  deriving DecidableEq, Repr

/-- Whether a context in the list waits to be resumed or is closing, bound to a waiting park or not (R130, R132). -/
inductive ParkStatus where
  | held
  | closing (bound : Option Site)
  deriving DecidableEq, Repr

/-- A parked context (R129). -/
structure ParkedContext where
  status : ParkStatus
  die : Die
  serial : Nat
  key : Key
  check : BitVec 16
  identity : Identity
  burn : BurnState
  touchdowns : Nat
  deriving DecidableEq, Repr

/-- A request waiting at the die table unit (R122). -/
inductive TableRequest where
  | lookup (site : Site) (die : Die)
  | hold (site : Site) (die : Die)
  | giveBack (site : Site)
  | toEntry (site : Site) (die : Die) (serial : Nat)
  | voidEntry (site : Site) (die : Die)
  | settle (site : Site) (die : Die) (outcome : CloseOutcome)
  | park (site : Site)
  | clear
  | voidAll
  | dump (buffer capacity : Nat)
  deriving DecidableEq, Repr

/-- The die table unit (R121, R129, R130). `entries` rises by y, then x; `parked` is in park order. -/
structure DieTableUnit where
  entries : List (Die × DieEntry)
  places : List Place
  parked : List ParkedContext
  queue : List TableRequest
  deriving DecidableEq, Repr

/-! ### Escrow writer (chapter 9) -/

/-- Where a stalled writer looks for its page (R162). -/
inductive StallSource where
  | anchor
  | link (page : Nat)
  deriving DecidableEq, Repr

/-- The state of the escrow writer (R162). -/
inductive WriterState where
  | idle
  | opened (page slot records : Nat)
  | stalled (source : StallSource)
  deriving DecidableEq, Repr

/-- The contents of a CLOSE record (R170). -/
structure CloseRecord where
  serial : Nat
  die : Die
  outcome : CloseOutcome
  pulses : Nat
  touchdowns : Nat
  stress : Nat
  remaps : List (Fin 12 × Nat)
  deriving DecidableEq, Repr

/-- The contents of an ISSUE record (R169). -/
structure IssueRecord where
  serial : Nat
  waferSeq : Nat
  rootId : BitVec 32
  lot : List Byte
  number : Nat
  die : Die
  identity : List Byte
  check : BitVec 16
  wrapped : WrappedKey
  deriving DecidableEq, Repr

/-- An escrow record (section 9.4). The counters of a WAFER_SUMMARY are taken when it is written (R171). -/
inductive EscrowRecord where
  | restart (cause : ResetCause) (h : Nat)
  | waferOpen
  | issue (r : IssueRecord)
  | close (r : CloseRecord)
  | summary
  deriving DecidableEq, Repr

/-- The block a record's writing is reported to (R165). -/
inductive ReportTo where
  | nobody
  | site (n : Site)
  | dieTable
  | chain
  deriving DecidableEq, Repr

/-- A request of the write queue (R165). -/
structure RecordRequest where
  record : EscrowRecord
  report : ReportTo
  deriving DecidableEq, Repr

/-- The escrow writer (R162). -/
structure EscrowWriter where
  writer : WriterState
  seq : Nat
  queue : List RecordRequest
  flushPending : Bool
  deriving DecidableEq, Repr

/-! ### Chain unit (chapter 8) -/

/-- Why the chain unit holds (R145). -/
inductive HoldReason where
  | headerFault
  | linkFault
  | release
  | halt
  deriving DecidableEq, Repr

/-- The state of the chain unit; the hold reason is present in HELD (R145). -/
inductive UnitState where
  | idle
  | waiting
  | running
  | held (reason : HoldReason)
  deriving DecidableEq, Repr

/-- The block result codes (R144). -/
inductive BlockResult where
  | ok
  | released
  | halted
  | blockInvalid
  | noWafer
  | waferOpen
  | profileInvalid
  | keysRejected
  deriving DecidableEq, Repr

/-- What is left of the block in hand: the parts of its body that work still needs, and the progress (R142, R145).
A touchdown is `started` once its entries have started, `released` and `halted` once a release or halt was taken. -/
inductive Work where
  | loadKeys
  | touchdown (entries : List SiteEntry) (started released halted : Bool)
  | waferEnd
  | dump
  deriving DecidableEq, Repr

/-- The block in hand (R142). -/
structure Block where
  offset : Nat
  notify : Bool
  haltOnError : Bool
  work : Work
  deriving DecidableEq, Repr

/-- The chain unit (R145). `arrival` is the model's own: a block offset at which the unit has still to arrive (log 21). -/
structure ChainUnit where
  state : UnitState
  expected : Option Nat
  offset : Option Nat
  block : Option Block
  lastDone : Option Nat
  wafer : Option WaferContext
  waferSeq : Nat
  arrival : Option Nat
  deriving DecidableEq, Repr

/-! ### The whole board -/

/-- The state of the board, the commands that wait for it, and the model's two fields for free values. -/
structure State where
  reg : RegisterBlock
  counters : Vector Nat 16
  mem : Memory
  chain : ChainUnit
  sites : Vector (Option SiteCtx) 24
  chans : Vector Channel 4
  waiting : List GrantRequest
  keys : KeyUnit
  comp : List CompRequest
  dies : DieTableUnit
  escrow : EscrowWriter
  contact : Bool
  tieOrder : List Site
  freeCount : Nat
  pending : List Instr
  deriving DecidableEq, Repr

/-- Why a step stops with a fault: nothing does. No rule of the spec names a condition that stops the board; header
faults, link faults and the allocator's FAULT are states of it. -/
inductive Fault where
  deriving DecidableEq, Repr

/-- Why a command is refused. -/
inductive Refusal where
  /-- Raised by `exec` for a command without a meaning; safe. No arm of `exec` raises it. -/
  | notModelled (mnemonic : String)
  deriving DecidableEq, Repr

/-! ### Reset -/

/-- The key unit of a card as built, after its first power-on: no keys, H = 1 (R87, R91, R98, R107). -/
def KeyUnit.reset : KeyUnit where
  rootKey := 0
  rootId := 0
  transportKey := 0
  loaded := false
  importing := none
  next := 1
  limit := 1
  h := 1
  alloc := .ready
  reserve := 1
  writeInFlight := none
  queue := []
  derivation := none

/-- The chain unit after a hardware reset (R145). -/
def ChainUnit.reset : ChainUnit where
  state := .idle
  expected := none
  offset := none
  block := none
  lastDone := none
  wafer := none
  waferSeq := 0
  arrival := none

/-- The escrow writer after any reset (R162). -/
def EscrowWriter.reset : EscrowWriter where
  writer := .idle
  seq := 1
  queue := []
  flushPending := false

/-- The die table unit after any reset (R139). -/
def DieTableUnit.reset : DieTableUnit where
  entries := []
  places := []
  parked := []
  queue := []

/-- The board after a power-on reset has ended (R184): the card as built, CONTACT low, every regulator good, job memory
all 0. Log 1 and log 2 name what the spec leaves open here. -/
def State.reset : State where
  reg := { lastReset := .power, resetting := false, events := 0, enable := 0, msiEnabled := true, msiSent := 0 }
  counters := Vector.replicate 16 0
  mem := []
  chain := .reset
  sites := Vector.replicate 24 none
  chans := Vector.replicate 4 { state := .settling 0, good := true }
  waiting := []
  keys := .reset
  comp := []
  dies := .reset
  escrow := .reset
  contact := false
  tieOrder := []
  freeCount := 0
  pending := []

end Sys2Proof.Machine
end

