-- ==== Sys2Proof/Machine/Ops.lean ====
section
/-! DEFINITION. The named operations over job memory, counters and the parts of State: byte order, reads and writes of
job memory, the saturating counters, one update per part of State, and the order of simultaneous arrivals. -/

namespace Sys2Proof.Machine

/-! ### Byte order (R185: job memory is little-endian) -/

/-- The number a little-endian byte list stands for. -/
def leNat : List Byte → Nat
  | [] => 0
  | b :: bs => b.toNat + 256 * leNat bs

/-- The `n` little-endian bytes of a number, its higher bits dropped. -/
def leBytes : Nat → Nat → List Byte
  | 0, _ => []
  | n + 1, v => BitVec.ofNat 8 v :: leBytes n (v / 256)

/-- The 32 bytes of a key, key byte 0 (bits 255..248) first (R4). -/
def keyBytes (k : Key) : List Byte :=
  (List.range 32).map fun i => BitVec.ofNat 8 (k.toNat >>> (8 * (31 - i)))

/-! ### Job memory (R140) -/

/-- The byte at an offset; an unlisted offset reads as 0 (log 2). -/
def Memory.read : Memory → Nat → Byte
  | [], _ => 0
  | (a', b) :: rest, a => if a = a' then b else Memory.read rest a

/-- Put a byte at an offset, keeping the offsets rising and no entry 0. -/
def Memory.put : Memory → Nat → Byte → Memory
  | [], a, b => if b = 0 then [] else [(a, b)]
  | (a', b') :: rest, a, b =>
    if a < a' then (if b = 0 then (a', b') :: rest else (a, b) :: (a', b') :: rest)
    else if a = a' then (if b = 0 then rest else (a, b) :: rest)
    else (a', b') :: Memory.put rest a b

/-- Write one byte. There is no byte at or above 4 MiB, and the engine judges every offset before it uses it
(log 22). -/
def Memory.write (m : Memory) (a : Nat) (b : Byte) : Memory :=
  if a < jobMemorySize then m.put a b else m

/-- Write bytes at rising offsets. -/
def Memory.writeBytes : Memory → Nat → List Byte → Memory
  | m, _, [] => m
  | m, a, b :: bs => Memory.writeBytes (m.write a b) (a + 1) bs

/-- Read `n` bytes at rising offsets. -/
def Memory.readBytes (m : Memory) (a : Nat) : Nat → List Byte
  | 0 => []
  | n + 1 => m.read a :: Memory.readBytes m (a + 1) n

/-- A two-byte field. -/
def Memory.read16 (m : Memory) (a : Nat) : Nat := leNat (m.readBytes a 2)

/-- A four-byte field. -/
def Memory.read32 (m : Memory) (a : Nat) : Nat := leNat (m.readBytes a 4)

/-- Write a field of `n` bytes, least significant first. -/
def Memory.writeField (m : Memory) (a n v : Nat) : Memory := m.writeBytes a (leBytes n v)

/-- Job memory holding the given bytes and 0 everywhere else. -/
def Memory.ofCells (cells : List (Nat × Byte)) : Memory :=
  cells.foldl (fun m c => m.write c.1 c.2) []

/-- An offset valid for an object of a length: a multiple of 64 that leaves the object within 4 MiB (00_scope,
conventions). -/
def validOffset (offset length : Nat) : Bool :=
  decide (offset % 64 = 0) && decide (offset + length ≤ jobMemorySize)

/-! ### Updates of State, one per part -/

def State.setReg (s : State) (r : RegisterBlock) : State := { s with reg := r }
def State.setCounters (s : State) (c : Vector Nat 16) : State := { s with counters := c }
def State.setMem (s : State) (m : Memory) : State := { s with mem := m }
def State.setChain (s : State) (c : ChainUnit) : State := { s with chain := c }
def State.setSites (s : State) (v : Vector (Option SiteCtx) 24) : State := { s with sites := v }
def State.setChans (s : State) (v : Vector Channel 4) : State := { s with chans := v }
def State.setWaiting (s : State) (w : List GrantRequest) : State := { s with waiting := w }
def State.setKeys (s : State) (k : KeyUnit) : State := { s with keys := k }
def State.setComp (s : State) (q : List CompRequest) : State := { s with comp := q }
def State.setDies (s : State) (d : DieTableUnit) : State := { s with dies := d }
def State.setEscrow (s : State) (e : EscrowWriter) : State := { s with escrow := e }
def State.setContact (s : State) (b : Bool) : State := { s with contact := b }

/-- Write bytes into job memory. -/
def State.store (s : State) (a : Nat) (bs : List Byte) : State := s.setMem (s.mem.writeBytes a bs)

/-- Write a little-endian field into job memory. -/
def State.storeField (s : State) (a n v : Nat) : State := s.setMem (s.mem.writeField a n v)

/-- Give a site engine a context. -/
def State.setSite (s : State) (n : Site) (c : SiteCtx) : State :=
  s.setSites (s.sites.set n (some c))

/-- Give a burn channel a state. -/
def State.setChan (s : State) (c : Chan) (ch : Channel) : State :=
  s.setChans (s.chans.set c ch)

/-! ### Counters (R182) -/

/-- The place of a counter in the STATS order (section 11.2). -/
def Counter.index : Counter → Fin 16
  | .keysIssued => 0
  | .diesBurned => 1
  | .diesResumed => 2
  | .diesFailed => 3
  | .diesVoided => 4
  | .diesVerified => 5
  | .verifyMismatch => 6
  | .pulses => 7
  | .remaps => 8
  | .sparesRejected => 9
  | .frameRetries => 10
  | .contactFails => 11
  | .channelUnlocks => 12
  | .grantTimeouts => 13
  | .releases => 14
  | .evictions => 15

/-- One more, holding at 4,294,967,295 (00_scope, conventions; R182). -/
def satInc (n : Nat) : Nat := if n < counterMax then n + 1 else n

/-- The value of a counter. -/
def State.counter (s : State) (c : Counter) : Nat := s.counters[c.index]

/-- A counter's event is taken (R182). -/
def State.bump (s : State) (c : Counter) : State :=
  s.setCounters (s.counters.set c.index (satInc (s.counter c)))

/-- Every counter cleared (R183). -/
def State.clearCounters (s : State) : State := s.setCounters (Vector.replicate 16 0)

/-! ### Order of simultaneous arrivals (log 10) -/

/-- All sites, by number. -/
def allSites : List Site := List.finRange 24

/-- The order in which the sites are reached now: the free order first, then the sites it leaves out. -/
def State.siteOrder (s : State) : List Site :=
  s.tieOrder.dedup ++ allSites.filter fun n => !s.tieOrder.contains n

/-- A fresh free order for the next group of simultaneous arrivals. -/
def State.freshOrder (s : State) : State :=
  { s with tieOrder := Config.arrivalOrder s.freeCount, freeCount := s.freeCount + 1 }

end Sys2Proof.Machine
end

