-- ==== Sys2Proof/Machine/Flags.lean ====
section
/-! DEFINITION. The sticky event bits, the MSI message, and the STATUS word (R178 to R181). -/

namespace Sys2Proof.Machine

/-- The nine events, in the order of their bits (R179). -/
inductive Event where
  | blockDone
  | chainWait
  | held
  | escrowReady
  | escrowStall
  | channelUnlock
  | contactLost
  | allocFault
  | chainFault
  deriving DecidableEq, Repr

/-- The bit of an event (R179). -/
def Event.bit : Event → Nat
  | .blockDone => 0
  | .chainWait => 1
  | .held => 2
  | .escrowReady => 3
  | .escrowStall => 4
  | .channelUnlock => 5
  | .contactLost => 6
  | .allocFault => 7
  | .chainFault => 8

/-- The EVENTS word with one bit set. -/
def Event.mask (e : Event) : BitVec 9 := BitVec.ofNat 9 (2 ^ e.bit)

/-- The enabled pending set of a register block (R181). -/
def RegisterBlock.pendingSet (r : RegisterBlock) : BitVec 9 := r.events &&& r.enable

/-- From `old` to `new`, one MSI message is sent when the enabled pending set goes from empty to non-empty while the
card's MSI is enabled (R181). -/
def RegisterBlock.notify (old new : RegisterBlock) : RegisterBlock :=
  if old.pendingSet = 0 ∧ new.pendingSet ≠ 0 ∧ new.msiEnabled then { new with msiSent := new.msiSent + 1 } else new

/-- A source sets its event bit (R179, R181). -/
def RegisterBlock.setEvent (r : RegisterBlock) (e : Event) : RegisterBlock :=
  r.notify { r with events := r.events ||| e.mask }

/-- A write to EVENTS clears each bit written with 1 (R180); it sends no message (R181). -/
def RegisterBlock.clearEvents (r : RegisterBlock) (v : BitVec 32) : RegisterBlock :=
  { r with events := r.events &&& ~~~(v.truncate 9) }

/-- A write to EVENT_ENABLE replaces the enable bits (R180, R181). -/
def RegisterBlock.writeEnable (r : RegisterBlock) (v : BitVec 32) : RegisterBlock :=
  r.notify { r with enable := v.truncate 9 }

/-- A source sets its event bit in EVENTS. -/
def State.raise (s : State) (e : Event) : State := s.setReg (s.reg.setEvent e)

/-! ### STATUS (R178) -/

/-- The unit state code of STATUS bits 17..16. -/
def UnitState.code : UnitState → Nat
  | .idle => 0
  | .waiting => 1
  | .running => 2
  | .held _ => 3

/-- The reset cause code of STATUS bits 19..18 and of a RESTART record (section 11.3). -/
def ResetCause.code : ResetCause → Nat
  | .power => 0
  | .link => 1
  | .engine => 2

/-- The allocator state code of STATUS bits 23..22. -/
def AllocState.code : AllocState → Nat
  | .ready => 0
  | .reserving => 1
  | .fault => 2
  | .exhausted => 3

/-- The number of channels in READY (R47). -/
def State.readyChannels (s : State) : Nat :=
  (s.chans.toList.filter fun c => c.state == .ready).length

/-- Whether the escrow writer is STALLED (R162). -/
def WriterState.isStalled : WriterState → Bool
  | .stalled _ => true
  | _ => false

/-- The STATUS word as its sources stand (R178). The expected tag reads 0 when absent. -/
def State.status (s : State) : BitVec 32 :=
  BitVec.ofNat 32 <|
    (s.chain.expected.getD 0) % 65536 + s.chain.state.code * 2 ^ 16 + s.reg.lastReset.code * 2 ^ 18 +
      s.keys.loaded.toNat * 2 ^ 20 + s.chain.wafer.isSome.toNat * 2 ^ 21 + s.keys.alloc.code * 2 ^ 22 +
      s.readyChannels * 2 ^ 24 + s.contact.toNat * 2 ^ 27 + s.escrow.writer.isStalled.toNat * 2 ^ 28 +
      s.reg.resetting.toNat * 2 ^ 29

/-- SERIAL_MARK: H divided by 256, rounded down (R99). -/
def State.serialMark (s : State) : BitVec 32 := BitVec.ofNat 32 (s.keys.h / 256)

end Sys2Proof.Machine
end

