-- ==== Sys2Proof/Machine/Operands.lean ====
section
/-! DEFINITION. The structures the engine reads from job memory (chapter 11) and the die-port frames (R13): how each is
read, and which of them pass the checks of intake. -/

namespace Sys2Proof.Machine

/-! ### Header (R141, section 11.1) -/

/-- The header fields that the chain unit reads. -/
structure Header where
  signature : Nat
  anchor : Nat
  startTag : Nat
  escrowAnchor : Nat
  deriving DecidableEq, Repr

/-- The header at offset 0. -/
def readHeader (m : Memory) : Header where
  signature := m.read32 0
  anchor := m.read32 4
  startTag := m.read16 8
  escrowAnchor := m.read32 12

/-- A chain anchor or link is valid for a 64-byte block header: a multiple of 64, at least 1088, at most 4 MiB − 64
(R141, R148). -/
def validBlockOffset (offset : Nat) : Bool := decide (1088 ≤ offset) && validOffset offset 64

/-- The header passes (R141). -/
def Header.passes (h : Header) : Bool :=
  decide (h.signature = 0x3436324B) && validBlockOffset h.anchor && decide (h.startTag ≠ 0)

/-! ### Profiles (R9, R22, section 11.1) -/

/-- A window access code. -/
def accessOfCode : Nat → Option Access
  | 0 => some .none
  | 1 => some .readOnly
  | 2 => some .program
  | _ => none

/-- Window j of a profile at `a`; none when its access is no access kind. -/
def readWindow (m : Memory) (a j : Nat) : Option Window :=
  (accessOfCode (m.read (a + 32 + 8 * j + 4)).toNat).map fun acc =>
    { base := m.read16 (a + 32 + 8 * j), size := m.read16 (a + 32 + 8 * j + 2), access := acc }

/-- Profile `i` of the header's profile table; none when the window count is not 1..8 or a window read has no access
kind (R9, R185: only windows 0 to window count − 1 are read). -/
def readProfile (m : Memory) (i : Nat) : Option Profile :=
  let a := 64 + 256 * i
  let count := (m.read (a + 18)).toNat
  if 1 ≤ count ∧ count ≤ 8 then
    ((List.range count).mapM (readWindow m a)).map fun ws =>
      { w0 := m.read16 a, wmax := m.read16 (a + 2), cmax := m.read16 (a + 4), tb := m.read16 (a + 6),
        tu := m.read16 (a + 8), grantLimit := m.read16 (a + 10), growth := (m.read (a + 12)).toNat,
        pmax := (m.read (a + 13)).toNat, settleDelay := (m.read (a + 14)).toNat,
        frameTimeout := (m.read (a + 15)).toNat, frameRetries := (m.read (a + 16)).toNat,
        spareCount := (m.read (a + 17)).toNat, recordBase := m.read16 (a + 20), spareBase := m.read16 (a + 22),
        remapBase := m.read16 (a + 24), lockRow := m.read16 (a + 26), windows := ws }
  else none

/-- A window passes: size a power of two from 1 to 512, base a multiple of the size and at most 511 (R9). -/
def Window.accepted (w : Window) : Bool :=
  [1, 2, 4, 8, 16, 32, 64, 128, 256, 512].contains w.size && decide (w.base % w.size = 0) && decide (w.base ≤ 511)

/-- Every burn parameter lies in its accepted range (R22). -/
def Profile.paramsAccepted (p : Profile) : Bool :=
  decide (1 ≤ p.w0 ∧ p.w0 ≤ p.wmax ∧ p.wmax ≤ 4095) && decide (p.growth ≤ 15) &&
    decide (1 ≤ p.pmax ∧ p.pmax ≤ 15) && decide (1 ≤ p.cmax ∧ p.cmax ≤ 65535) &&
    decide (p.tb < p.tu ∧ p.tu ≤ 1023) && decide (p.spareCount ≤ 8)

/-- The profile's burn parameters and window table are accepted (R22, R9). -/
def Profile.accepted (p : Profile) : Bool :=
  p.paramsAccepted && p.windows.all Window.accepted &&
    decide (1 ≤ p.windows.length ∧ p.windows.length ≤ 8)

/-- The frame timeout in µs: 0 and 1 are taken as 2 (R14). -/
def Profile.timeoutUs (p : Profile) : Nat := max 2 p.frameTimeout

/-- The most resends of an exchange: above 3 is taken as 3 (R14). -/
def Profile.maxResends (p : Profile) : Nat := min 3 p.frameRetries

/-- The grant limit in units of 10 µs: 0 is taken as 1 (R57). -/
def Profile.grantUnits (p : Profile) : Nat := max 1 p.grantLimit

/-- The settle delay in µs: 0 is taken as 1 (R22). -/
def Profile.settleUs (p : Profile) : Nat := max 1 p.settleDelay

/-- A profile of zeros: what a site would read with no wafer open. No site runs then (R151). -/
def Profile.empty : Profile where
  w0 := 0
  wmax := 0
  cmax := 0
  tb := 0
  tu := 0
  grantLimit := 0
  growth := 0
  pmax := 0
  settleDelay := 0
  frameTimeout := 0
  frameRetries := 0
  spareCount := 0
  recordBase := 0
  spareBase := 0
  remapBase := 0
  lockRow := 0
  windows := []

/-- The profile of the open wafer. -/
def State.profile (s : State) : Profile :=
  match s.chain.wafer with
  | some w => w.profile
  | none => .empty

/-- Whether the open wafer is a dry run. -/
def State.dryRun (s : State) : Bool :=
  match s.chain.wafer with
  | some w => w.dry
  | none => false

/-- The thresholds that travel in a ROW_CHECK: Tu in the upper half, Tb in the lower (R13, R18). -/
def Profile.thresholds (p : Profile) : BitVec 32 := BitVec.ofNat 32 (p.tu * 65536 + p.tb)

/-! ### WAFER_START bodies (R108 to R110, R157, section 11.2) -/

/-- The character table is accepted: 64 printable characters, no two the same (R108). -/
def tableAccepted (t : List Byte) : Bool :=
  t.all (fun c => decide (0x20 ≤ c.toNat ∧ c.toNat ≤ 0x7E)) && decide t.Nodup

/-- A NUM field code. -/
def numFieldOfCode : Nat → Option NumField
  | 0 => some .wafer
  | 1 => some .x
  | 2 => some .y
  | 3 => some .site
  | _ => none

/-- One composition step that is not END; none when its kind or an argument is out of range (R110). -/
def stepOfBytes (kind arg wid : Byte) : Option CompStep :=
  match kind.toNat with
  | 1 => if 1 ≤ arg.toNat ∧ arg.toNat ≤ 12 then some (.lot arg.toNat) else none
  | 2 => if 1 ≤ arg.toNat ∧ arg.toNat ≤ 12 then some (.skip arg.toNat) else none
  | 3 => some (.lit arg)
  | 4 => some (.supp arg)
  | 5 => if 1 ≤ wid.toNat ∧ wid.toNat ≤ 4 then (numFieldOfCode arg.toNat).map fun f => .num f wid.toNat else none
  | _ => none

/-- The steps from step place `a` on, up to the first END or `left` places; none when a step read is malformed
(R110). -/
def readSteps (m : Memory) (a : Nat) : Nat → Option (List CompStep)
  | 0 => some []
  | left + 1 =>
    if m.read a = 0 then some []
    else
      match stepOfBytes (m.read a) (m.read (a + 1)) (m.read (a + 2)), readSteps m (a + 4) left with
      | some st, some rest => some (st :: rest)
      | _, _ => none

/-- The wafer context that an accepted WAFER_START at `b` opens, or the result that refuses it (R157, checks in the
order of R110: burn parameters and window table, character table, lot name, composition list). -/
def readWaferStart (m : Memory) (b : Nat) : Except BlockResult WaferContext :=
  let lotLength := (m.read (b + 64)).toNat
  let index := (m.read (b + 65)).toNat
  let dry := (m.read (b + 66)).toNat
  let table := m.readBytes (b + 96) 64
  let lot := m.readBytes (b + 72) lotLength
  if 3 < index ∨ 1 < dry ∨ jobMemorySize < b + 224 then .error .blockInvalid
  else
    match readProfile m index with
    | none => .error .profileInvalid
    | some p =>
      if !p.accepted then .error .profileInvalid
      else if !tableAccepted table then .error .profileInvalid
      else if lotLength = 0 ∨ 12 < lotLength ∨ !lot.all table.contains then .error .blockInvalid
      else
        match readSteps m (b + 160) 16 with
        | none => .error .blockInvalid
        | some steps =>
          .ok { profile := p, lot := lot, number := m.read16 (b + 68), pad := m.read (b + 67), table := table,
                steps := steps, dry := decide (dry = 1) }

/-! ### TOUCHDOWN bodies (R142, R151, section 11.2) -/

/-- An action code. -/
def actionOfCode : Nat → Option Action
  | 1 => some .provision
  | 2 => some .verify
  | 3 => some .identify
  | 4 => some .skip
  | _ => none

/-- A lane order code. -/
def lanesOfCode : Nat → Option LaneRequest
  | 0 => some .normal
  | 1 => some .reversed
  | 2 => some .auto
  | _ => none

/-- The site entry at `a`; none when a field of it is out of range (R151). -/
def readEntry (m : Memory) (a : Nat) : Option SiteEntry :=
  let site := (m.read a).toNat
  let arb := (m.read (a + 3)).toNat
  let x := m.read16 (a + 4)
  let y := m.read16 (a + 6)
  match actionOfCode (m.read (a + 1)).toNat, lanesOfCode (m.read (a + 2)).toNat with
  | some act, some lanes =>
    if h : site < 24 then
      if arb ≤ 63 ∧ x ≤ 1023 ∧ y ≤ 1023 ∧ (act = .provision → arb ≠ 0) then
        some { site := ⟨site, h⟩, action := act, lanes := lanes, arb := arb, die := ⟨x, y⟩,
               expected := BitVec.ofNat 16 (m.read16 (a + 8)) }
      else none
    else none
  | _, _ => none

/-- No two entries name the same site, the same die or the same arbitration number (R151). -/
def entriesDistinct (es : List SiteEntry) : Bool :=
  decide (es.map SiteEntry.site).Nodup && decide (es.map SiteEntry.die).Nodup && decide (es.map SiteEntry.arb).Nodup

/-- The site entries of a TOUCHDOWN at `b` that passes validation; none when it is refused with BLOCK_INVALID (R151). -/
def readTouchdown (m : Memory) (b : Nat) : Option (List SiteEntry) :=
  let count := (m.read (b + 64)).toNat
  if 1 ≤ count ∧ count ≤ 24 ∧ b + 80 + 48 * count ≤ jobMemorySize then
    match (List.range count).mapM fun e => readEntry m (b + 80 + 48 * e) with
    | some es => if entriesDistinct es then some es else none
    | none => none
  else none

/-! ### DUMP bodies (R160) -/

/-- A DUMP block's buffer passes its checks. -/
def dumpAccepted (b buffer capacity : Nat) : Bool :=
  decide (b + 88 ≤ jobMemorySize) && decide (buffer % 64 = 0) && decide (1088 ≤ buffer) &&
    decide (buffer + capacity ≤ jobMemorySize) &&
    !(decide (0 < capacity) && decide (buffer < b + 88) && decide (b < buffer + capacity))

/-! ### Die-port lanes (R11) -/

/-- What lanes 0, 1, 2 and 3 of a site port carry in an order (R11). -/
def LaneOrder.lanes : LaneOrder → Vector LaneSignal 4
  | .normal => #v[.clock, .select, .dataToDie, .dataFromDie]
  | .reversed => #v[.dataFromDie, .dataToDie, .select, .clock]

/-- The lane that carries a signal in an order (R11). -/
def LaneOrder.laneOf (o : LaneOrder) (g : LaneSignal) : Nat := o.lanes.toList.idxOf g

/-! ### Die-port frames (R13, R17, section 11.4) -/

/-- Command codes (R13). -/
def DieCommand.code : DieCommand → Byte
  | .hello => 1
  | .rowCheck => 2
  | .armBit => 3
  | .senseBit => 4
  | .readRow => 5
  | .readTag => 6

/-- Status codes (R13). -/
def statusOk : Byte := 0
def statusRefused : Byte := 1
def statusBadFrame : Byte := 2

/-- The sum of a frame's bytes mod 256. -/
def byteSum (bs : List Byte) : Byte := bs.foldl (· + ·) 0

/-- The request bytes before the check (section 11.4, most significant byte first). -/
def Exchange.body (e : Exchange) : List Byte :=
  [e.cmd.code, BitVec.ofNat 8 (e.row / 256), BitVec.ofNat 8 e.row, BitVec.ofNat 8 e.bit,
    e.arg.extractLsb' 24 8, e.arg.extractLsb' 16 8, e.arg.extractLsb' 8 8, e.arg.extractLsb' 0 8]

/-- The nine bytes of a request frame: the check makes their sum 0 mod 256 (R13). -/
def Exchange.frame (e : Exchange) : List Byte := e.body ++ [0 - byteSum e.body]

/-- The ten bytes of a response frame. -/
def responseBytes (f : ResponseFrame) : List Byte :=
  f.status :: (List.range 8).map (fun i => f.data.extractLsb' (8 * (7 - i)) 8) ++ [f.check]

/-- A response is good when its ten bytes sum to 0 mod 256 (R14). -/
def responseGood (f : ResponseFrame) : Bool := decide (byteSum (responseBytes f) = 0)

/-- HELLO data: the row count (R17). -/
def helloRows (d : BitVec 64) : Nat := (d.extractLsb' 48 16).toNat

/-- HELLO data: the lock state; a byte other than 0 and 1 is a free value (R17, log 15). -/
def helloLocked (d : BitVec 64) : Bool :=
  let b := d.extractLsb' 40 8
  if b = 0 then false else if b = 1 then true else Config.lockStateOf b

/-- ROW_CHECK data: the blown mask (R18). -/
def blownMask (d : BitVec 64) : FuseRow := d.extractLsb' 32 32

/-- ROW_CHECK data: the marginal mask (R18). -/
def marginalMask (d : BitVec 64) : FuseRow := d.extractLsb' 0 32

/-- SENSE_BIT data: the sense code (R19). -/
def senseCode (d : BitVec 64) : Nat := (d.extractLsb' 48 16).toNat

/-- READ_TAG part 1 data: identity stream bytes 8..11 (R21). -/
def tagStreamTail (d : BitVec 64) : BitVec 32 := d.extractLsb' 32 32

/-- READ_TAG part 1 data: C (R21). -/
def tagCheck (d : BitVec 64) : BitVec 16 := d.extractLsb' 16 16

/-- How a response to a request is judged (R14): a failed attempt, or the end of the exchange. -/
inductive Judgement where
  | failed
  | refused
  | ok (data : BitVec 64)
  deriving DecidableEq, Repr

/-- The judgement of a response frame to a command (R14). A status that is none of the three ends no exchange
(log 14). -/
def judge (cmd : DieCommand) (f : ResponseFrame) : Judgement :=
  if !responseGood f then .failed
  else if f.status = statusOk then
    if cmd = .hello ∧ ¬(16 ≤ helloRows f.data ∧ helloRows f.data ≤ 512) then .failed else .ok f.data
  else if f.status = statusRefused then
    if cmd = .hello then .failed else .refused
  else .failed

end Sys2Proof.Machine
end

