-- ==== Sys2Proof/Machine/Composition.lean ====
section
/-! DEFINITION. Identity composition (chapter 6): a function of the wafer context and the request (R118). -/

namespace Sys2Proof.Machine

/-- Why a composition ends without an identity (R111). -/
inductive ComposeError where
  | overflow
  | badChar
  deriving DecidableEq, Repr

/-- The four items of a composition (R112). `out` is the output in order of placing; the position is its length. -/
structure Composition where
  out : List Byte
  cursor : Nat
  supp : Byte
  deriving DecidableEq, Repr

/-- The initial state of a composition (R112). -/
def Composition.start : Composition where
  out := []
  cursor := 0
  supp := 0x30

/-- Place characters at the end of the output. -/
def Composition.place (c : Composition) (cs : List Byte) : Composition := { c with out := c.out ++ cs }

/-- The n characters a LOT finds from the cursor on: lot characters, then the pad character (R113). -/
def lotChars (w : WaferContext) (cursor : Nat) : Nat → List Byte
  | 0 => []
  | n + 1 => (w.lot[cursor]?).getD w.pad :: lotChars w (min 12 (cursor + 1)) n

/-- Whether a pad character is among the n that a LOT finds: the cursor then reaches the lot name's length (R113). -/
def lotPads (w : WaferContext) (cursor n : Nat) : Bool := decide (0 < n) && decide (w.lot.length < cursor + n)

/-- LOT n (R113). -/
def composeLot (w : WaferContext) (c : Composition) (n : Nat) : Except ComposeError Composition :=
  if 16 < c.out.length + n then .error .overflow
  else if lotPads w c.cursor n ∧ !w.table.contains w.pad then .error .badChar
  else .ok { c.place (lotChars w c.cursor n) with cursor := min 12 (c.cursor + n) }

/-- LIT c (R114). -/
def composeLit (w : WaferContext) (c : Composition) (ch : Byte) : Except ComposeError Composition :=
  if c.out.length = 16 then .error .overflow
  else if !w.table.contains ch then .error .badChar
  else .ok (c.place [ch])

/-- The number of decimal digits of a value up to 65535 (R115). -/
def digitCount (v : Nat) : Nat :=
  if v < 10 then 1 else if v < 100 then 2 else if v < 1000 then 3 else if v < 10000 then 4 else 5

/-- The d decimal digit characters of a value, most significant first (R115). -/
def digitChars : Nat → Nat → List Byte
  | 0, _ => []
  | d + 1, v => digitChars d (v / 10) ++ [BitVec.ofNat 8 (48 + v % 10)]

/-- NUM with a value, in n positions (R115). -/
def composeNum (w : WaferContext) (c : Composition) (v n : Nat) : Except ComposeError Composition :=
  let d := digitCount v
  let digits := digitChars d v
  if n < d then .error .overflow
  else if 16 < c.out.length + n then .error .overflow
  else if !digits.all w.table.contains ∨ (d < n ∧ !w.table.contains c.supp) then .error .badChar
  else .ok (c.place (List.replicate (n - d) c.supp ++ digits))

/-- The value of a NUM field (R115). -/
def numValue (r : CompRequest) : NumField → Nat
  | .wafer => r.number
  | .x => r.die.x
  | .y => r.die.y
  | .site => r.site.val

/-- One composition step (R113 to R115). -/
def composeStep (w : WaferContext) (r : CompRequest) (c : Composition) : CompStep → Except ComposeError Composition
  | .lot n => composeLot w c n
  | .skip n => .ok { c with cursor := min 12 (c.cursor + n) }
  | .lit ch => composeLit w c ch
  | .supp ch => .ok { c with supp := ch }
  | .num f n => composeNum w c (numValue r f) n

/-- The steps of a list in order; the first error ends the composition (R112). -/
def composeSteps (w : WaferContext) (r : CompRequest) : Composition → List CompStep → Except ComposeError Composition
  | c, [] => .ok c
  | c, st :: rest =>
    match composeStep w r c st with
    | .ok c' => composeSteps w r c' rest
    | .error e => .error e

/-- The code of a character: the number of the table entry that equals it (R108). -/
def codeOf (table : List Byte) (c : Byte) : Nat := table.idxOf c

/-- The character of a code (R108, R119). -/
def charOf (table : List Byte) (code : Nat) : Byte := table.getD code 0

/-- The whole composition of a request: the steps, the padding, the codes (R112, R116). -/
def compose (w : WaferContext) (r : CompRequest) : Except ComposeError Identity :=
  match composeSteps w r .start w.steps with
  | .error e => .error e
  | .ok c =>
    if c.out.length < 16 ∧ !w.table.contains w.pad then .error .badChar
    else
      let chars := c.out ++ List.replicate (16 - c.out.length) w.pad
      .ok { chars := chars, codes := chars.map (codeOf w.table) }

end Sys2Proof.Machine
end

