-- ==== Sys2Proof/Machine/Burn.lean ====
section
/-! DEFINITION. Geometry and windows (R3, R9, R10), the record's targets (R4 to R6), the check word (R45), and burn
arithmetic (chapter 2) as functions on the burn state. What a site engine does with them is in `Sites.lean`. -/

namespace Sys2Proof.Machine

/-! ### Geometry and windows -/

/-- A window covers rows base .. base + size − 1 (R9). -/
def Window.covers (w : Window) (row : Nat) : Bool := decide (w.base ≤ row ∧ row < w.base + w.size)

/-- The access of a row: that of the first window that covers it, NONE without one (R10). -/
def rowAccess (ws : List Window) (row : Nat) : Access :=
  match ws.find? fun w => w.covers row with
  | some w => w.access
  | none => .none

/-- The fifteen fixed rows: record rows, remap rows, lock row (R3). -/
def Profile.fixedRows (p : Profile) : List Nat :=
  (List.range 12).map (p.recordBase + ·) ++ [p.remapBase, p.remapBase + 1, p.lockRow]

/-- The window test of the fixed rows (R10, R67). -/
def Profile.windowTest (p : Profile) : Bool :=
  p.fixedRows.all fun r => rowAccess p.windows r == .program

/-- The geometry test against the die's row count (R3, R67). -/
def Profile.geometryTest (p : Profile) (rows : Nat) : Bool :=
  p.fixedRows.all (fun r => decide (r < rows)) && decide p.fixedRows.Nodup

/-- The rows of the blank check in their order: record rows, remap row 0, remap row 1 (R68). -/
def Profile.blankRow (p : Profile) (i : Nat) : Nat :=
  if i < 12 then p.recordBase + i else p.remapBase + (i - 12)

/-- The window test and the fixed-row test of a spare (R36 steps 1 and 2). -/
def Profile.spareUsable (p : Profile) (i : Nat) : Bool :=
  rowAccess p.windows (p.spareBase + i) == .program && !p.fixedRows.contains (p.spareBase + i)

/-! ### Check word and targets -/

/-- Halfword hi of a key: key bytes 2i (high) and 2i + 1 (low) (R45). -/
def keyHalf (k : Key) (i : Nat) : Nat := (k.extractLsb' (16 * (15 - i)) 16).toNat

/-- The check word C of a key: 1 × h0 + 2 × h1 + … + 16 × h15, mod 65521 (R45). -/
def checkWord (k : Key) : BitVec 16 :=
  BitVec.ofNat 16 (((List.range 16).map fun i => (i + 1) * keyHalf k i).sum % 65521)

/-- The dry-run key: every byte 0x5A (R72). -/
def dryRunKey : Key := 0x5A5A5A5A5A5A5A5A5A5A5A5A5A5A5A5A5A5A5A5A5A5A5A5A5A5A5A5A5A5A5A5A

/-- The 96-bit identity stream as a number, stream bit 0 its most significant: sixteen 6-bit codes (R5). -/
def streamOfCodes (codes : List Nat) : Nat := codes.foldl (fun acc c => acc * 64 + c % 64) 0

/-- The sixteen codes of an identity stream (R5). -/
def codesOfStream (v : BitVec 96) : List Nat :=
  (List.range 16).map fun i => (v.extractLsb' (6 * (15 - i)) 6).toNat

/-- The twelve record targets of a key, check word, serial and identity (R4, R5). -/
def recordTargets (k : Key) (c : BitVec 16) (serial : Nat) (codes : List Nat) : Vector FuseRow 12 :=
  let v : BitVec 96 := BitVec.ofNat 96 (streamOfCodes codes)
  Vector.ofFn fun r : Fin 12 =>
    if r.val < 8 then k.extractLsb' (32 * (7 - r.val)) 32
    else if r.val = 8 then c ++ BitVec.ofNat 16 serial
    else v.extractLsb' (32 * (11 - r.val)) 32

/-- A remap entry as a byte: valid bit, logical row, spare index (R6). -/
def remapByte (e : Fin 12 × Nat) : Byte := BitVec.ofNat 8 (128 + e.1.val * 8 + e.2 % 8)

/-- Entry place i of a remap list, 0 where no entry falls (R6). -/
def remapPlace (l : List (Fin 12 × Nat)) (i : Nat) : Byte :=
  match l[i]? with
  | some e => remapByte e
  | none => 0

/-- The target of remap row j: entries 4j .. 4j + 3, byte 0 in bits 31..24 (R6). -/
def remapTarget (l : List (Fin 12 × Nat)) (j : Fin 2) : FuseRow :=
  remapPlace l (4 * j.val) ++ remapPlace l (4 * j.val + 1) ++ remapPlace l (4 * j.val + 2) ++
    remapPlace l (4 * j.val + 3)

/-- The highest 1-bit of a target below bit `n` (R30: bits are burned from 31 down). -/
def topBitBelow : Nat → FuseRow → Option Nat
  | 0, _ => none
  | n + 1, t => if t.getLsbD n then some n else topBitBelow n t

/-! ### The bit loop (R24 to R29) -/

/-- The burn state when a burn begins (R23). -/
def BurnState.begin (p : Profile) : BurnState where
  stage := .record
  rowStates := Vector.replicate 12 .notStarted
  physRows := Vector.ofFn fun k : Fin 12 => p.recordBase + k.val
  remapStates := Vector.replicate 2 .notStarted
  cur := .logical 0
  bit := 31
  step := .bits
  width := p.w0
  bitPulses := 0
  rowStress := 0
  unsensed := false
  spareWanted := false
  remaps := []
  rejected := []
  totalPulses := 0
  maxStress := 0

/-- A bit enters the loop (R24). -/
def BurnState.enterBit (b : BurnState) (p : Profile) (bit : Nat) : BurnState :=
  { b with bit := bit, step := .bits, width := p.w0, bitPulses := 0, unsensed := false }

/-- The width of the next pulse: min(W, Cmax − S_row) (R25). -/
def BurnState.pulseWidth (b : BurnState) (p : Profile) : Nat := min b.width (p.cmax - b.rowStress)

/-- The test before a pulse fails the bit: p = Pmax, or no allowance left (R25). -/
def BurnState.bitSpent (b : BurnState) (p : Profile) : Bool :=
  decide (b.bitPulses = p.pmax) || decide (b.pulseWidth p = 0)

/-- A pulse of width w is charged (R27). -/
def BurnState.charge (b : BurnState) (w : Nat) : BurnState :=
  { b with rowStress := b.rowStress + w, bitPulses := b.bitPulses + 1, totalPulses := b.totalPulses + 1, unsensed := true }

/-- W after a sense code above Tb: min(Wmax, W + floor(W × G / 8)) (R29). -/
def grownWidth (p : Profile) (w : Nat) : Nat := min p.wmax (w + w * p.growth / 8)

/-- A sense code above Tb: the width grows, the pulse is sensed (R28, R29). -/
def BurnState.grow (b : BurnState) (p : Profile) : BurnState :=
  { b with width := grownWidth p b.width, unsensed := false }

/-! ### Rows (R30 to R34, R39 to R41) -/

/-- The physical row of the current row (R4, R39, R40). -/
def BurnState.curPhys (b : BurnState) (p : Profile) : Nat :=
  match b.cur with
  | .logical k => b.physRows[k]
  | .remap j => p.remapBase + j.val
  | .lock => p.lockRow

/-- The target of the current row. The lock row's bits to burn are 2, 1 and 0 (R40). -/
def BurnState.curTarget (b : BurnState) (targets : Vector FuseRow 12) : FuseRow :=
  match b.cur with
  | .logical k => targets[k]
  | .remap j => remapTarget b.remaps j
  | .lock => 7

/-- The state of the current row (R23). The lock row has none: it counts as begun. -/
def BurnState.curState (b : BurnState) : RowState :=
  match b.cur with
  | .logical k => b.rowStates[k]
  | .remap j => b.remapStates[j]
  | .lock => .inProgress

/-- Set the state of the current row. -/
def BurnState.setCurState (b : BurnState) (st : RowState) : BurnState :=
  match b.cur with
  | .logical k => { b with rowStates := b.rowStates.set k st }
  | .remap j => { b with remapStates := b.remapStates.set j st }
  | .lock => b

/-- The current physical row is finished: its S_row enters the largest finished stress (R23, R33). -/
def BurnState.finishRow (b : BurnState) : BurnState := { b with maxStress := max b.maxStress b.rowStress }

/-- The first 1-bit of the current row enters the loop, or the row goes to its verify when it has none
(R31, R37). -/
def BurnState.startBits (b : BurnState) (p : Profile) (target : FuseRow) : BurnState :=
  match topBitBelow 32 target with
  | some i => b.enterBit p i
  | none => { b with step := .verify, unsensed := false }

/-- A pre-check passes (R31): the row is IN_PROGRESS, S_row is 0, its first 1-bit enters the loop. -/
def BurnState.preCheckPassed (b : BurnState) (p : Profile) (target : FuseRow) : BurnState :=
  ({ b.setCurState .inProgress with rowStress := 0 }).startBits p target

/-- A record row is judged bad (R34). -/
def BurnState.rowBad (b : BurnState) : BurnState :=
  { (b.setCurState .inProgress).finishRow with spareWanted := true }

/-- The burn moves to the row after the current one (R30). The next row starts with no charge; the lock row's bit 2
enters the loop (R40). -/
def BurnState.moveOn (b : BurnState) (p : Profile) : BurnState :=
  match b.cur with
  | .logical k =>
    if h : k.val + 1 < 12 then
      { b with cur := .logical ⟨k.val + 1, h⟩, bit := 31, step := .bits, rowStress := 0 }
    else { b with stage := .remap, cur := .remap 0, bit := 31, step := .bits, rowStress := 0 }
  | .remap j =>
    if j = 0 then { b with cur := .remap 1, bit := 31, step := .bits, rowStress := 0 }
    else ({ b with stage := .lock, cur := .lock, rowStress := 0 }).enterBit p 2
  | .lock => b

/-- The current row is DONE and the burn moves on (R33, R39). -/
def BurnState.rowDone (b : BurnState) (p : Profile) : BurnState :=
  ((b.setCurState .done).finishRow).moveOn p

/-- The lock bit in hand is judged, done or failed: the next one enters the loop, or the lock check follows (R40). -/
def BurnState.lockBitJudged (b : BurnState) (p : Profile) : BurnState :=
  match b.bit with
  | 0 => { b with step := .lockCheck, unsensed := false }
  | i + 1 => b.enterBit p i

/-- The lock bits whose test fails are passed over (R25, R40), from lock bit `n` down; a bit that can be pulsed, or the
lock check, is left in hand. -/
def BurnState.lockSettle (p : Profile) : Nat → BurnState → BurnState
  | 0, b => if b.step = .bits ∧ b.bitSpent p then b.lockBitJudged p else b
  | n + 1, b => if b.step = .bits ∧ b.bitSpent p then BurnState.lockSettle p n (b.lockBitJudged p) else b

/-- A bit of the current row is done (R32, R39, R40). -/
def BurnState.bitDone (b : BurnState) (p : Profile) (target : FuseRow) : BurnState :=
  match b.cur with
  | .lock => b.lockBitJudged p
  | _ =>
    match topBitBelow b.bit target with
    | some i => b.enterBit p i
    | none => { b with step := .verify, unsensed := false }

/-! ### Spares (R35 to R38) -/

/-- Whether a spare index is neither named in the remap list nor rejected (R35). -/
def BurnState.spareFree (b : BurnState) (i : Nat) : Bool :=
  !(b.remaps.map Prod.snd).contains i && !b.rejected.contains i

/-- The free spare indexes in rising order (R35). -/
def BurnState.freeSpares (b : BurnState) (p : Profile) : List Nat :=
  (List.range p.spareCount).filter b.spareFree

/-- A candidate is rejected (R36). -/
def BurnState.reject (b : BurnState) (i : Nat) : BurnState := { b with rejected := b.rejected ++ [i] }

/-- A candidate is accepted for the current logical row (R37). -/
def BurnState.accept (b : BurnState) (p : Profile) (k : Fin 12) (i : Nat) (target : FuseRow) : BurnState :=
  ({ b with
      remaps := b.remaps ++ [(k, i)], physRows := b.physRows.set k (p.spareBase + i), spareWanted := false,
      rowStress := 0, rowStates := b.rowStates.set k .inProgress }).startBits p target

/-! ### Judgements on rows -/

/-- A pre-check or blank check passes (R18). -/
def masksClean (d : BitVec 64) : Bool := decide (blownMask d = 0) && decide (marginalMask d = 0)

/-- A row verify or resume re-check passes (R18). -/
def masksMatch (target : FuseRow) (d : BitVec 64) : Bool :=
  decide (blownMask d = target) && decide (marginalMask d = 0)

/-- The lock check: at least two of blown-mask bits 2, 1, 0 (R41). -/
def lockBlown (m : FuseRow) : Bool :=
  decide (2 ≤ (m.getLsbD 2).toNat + (m.getLsbD 1).toNat + (m.getLsbD 0).toNat)

/-! ### Resume (R75) -/

/-- Row i of the resume check, logical rows 0..11 then remap rows 0 and 1: its state. -/
def BurnState.resumeState (b : BurnState) (i : Nat) : RowState :=
  if h : i < 12 then b.rowStates[i] else if h : i - 12 < 2 then b.remapStates[i - 12] else .notStarted

/-- The physical row and the target of row i of the resume check (R44, R75). -/
def BurnState.resumeRow (b : BurnState) (p : Profile) (targets : Vector FuseRow 12) (i : Nat) : Nat × FuseRow :=
  if h : i < 12 then (b.physRows[i], targets[i])
  else if h : i - 12 < 2 then (p.remapBase + (i - 12), remapTarget b.remaps ⟨i - 12, h⟩)
  else (0, 0)

/-- The first row at or after `i` that the burn state marks DONE (R75). -/
def BurnState.nextDone (b : BurnState) (i : Nat) : Option Nat :=
  (List.range 14).find? fun j => decide (i ≤ j) && (b.resumeState j == .done)

/-- The number of logical rows in state DONE (R138). -/
def BurnState.rowsDone (b : BurnState) : Nat := (b.rowStates.toList.filter (· == .done)).length

end Sys2Proof.Machine
end

