-- ==== Sys2Proof/Machine/Escrow.lean ====
section
/-! DEFINITION. The escrow writer (chapter 9): record layouts, opening and handing over pages, flushes, and writing the
record at the head of the queue. What a written record's requester does is in
`EscrowEvents.lean`. -/

namespace Sys2Proof.Machine

/-! ### Record layouts (section 11.3, R185) -/

/-- A byte list cut or filled with 0 to a length. -/
def padTo (n : Nat) (bs : List Byte) : List Byte := (bs ++ List.replicate n 0).take n

/-- A serial or H in its 8-byte field: bits 39..0, the rest 0 (R185). -/
def serialField (n : Nat) : List Byte := leBytes 5 n ++ [0, 0, 0]

/-- CLOSE outcome codes (section 11.3). -/
def CloseOutcome.code : CloseOutcome → Nat
  | .burned => 1
  | .failedFuse => 2
  | .failedRemapRow => 3
  | .failedLock => 4
  | .voidUnused => 5
  | .voidMismatch => 6
  | .voidEvicted => 7
  | .voidWaferEnd => 8

/-- The slots a record occupies (section 9.4). -/
def EscrowRecord.slots : EscrowRecord → Nat
  | .issue _ => 2
  | .summary => 2
  | _ => 1

/-- The bytes of an ISSUE record up to its last field (section 11.3). The enciphered key stands as 32 bytes in the order of
R4 and R105, bits 255..248 at the lowest offset, where R185 stores a multi-byte field least significant byte first: no
rule says which holds for this field, and the order is the model's choice (DESIGN CHOICE, log 37). -/
def IssueRecord.bytes (r : IssueRecord) : List Byte :=
  [3, 0, 0, 0] ++ leBytes 4 r.waferSeq ++ serialField r.serial ++ leBytes 4 r.rootId.toNat ++ leBytes 2 r.number ++
    leBytes 2 r.die.x ++ leBytes 2 r.die.y ++ leBytes 2 r.check.toNat ++ padTo 12 r.lot ++ padTo 16 r.identity ++
    keyBytes r.wrapped.cipher ++ leBytes 8 r.wrapped.tag.toNat

/-- The bytes of a CLOSE record up to its last field (section 11.3). -/
def CloseRecord.bytes (r : CloseRecord) : List Byte :=
  [4, BitVec.ofNat 8 r.outcome.code, BitVec.ofNat 8 r.remaps.length, BitVec.ofNat 8 r.touchdowns] ++
    leBytes 2 r.die.x ++ leBytes 2 r.die.y ++ serialField r.serial ++ leBytes 4 r.pulses ++ leBytes 2 r.stress ++
    [0, 0] ++ padTo 8 (r.remaps.map remapByte)

/-- The bytes of the sixteen counters in the STATS order (section 11.2). -/
def counterBytes (c : Vector Nat 16) : List Byte := c.toList.flatMap (leBytes 4)

/-- The bytes of a record over its slots, unused bytes 0 (R185). The counters are those at the writing (R171). -/
def EscrowRecord.bytes (r : EscrowRecord) (counters : Vector Nat 16) : List Byte :=
  padTo (64 * r.slots) <|
    match r with
    | .restart cause h => [1, BitVec.ofNat 8 cause.code, 0, 0, 0, 0, 0, 0] ++ serialField h
    | .waferOpen => [2]
    | .issue i => i.bytes
    | .close c => c.bytes
    | .summary => [5, 0, 0, 0] ++ counterBytes counters

/-! ### Pages (R161, R163, R167) -/

/-- Owner codes of a page header (section 11.3). -/
def ownerEngine : Nat := 1
def ownerHostRead : Nat := 2

/-- A page offset is valid: a multiple of 64, at least 1088, the page within 4 MiB (R161). -/
def validPage (offset : Nat) : Bool := decide (1088 ≤ offset) && validOffset offset 1088

/-- The offset of slot `n` of a page (section 11.3). -/
def slotOffset (page n : Nat) : Nat := page + 64 + 64 * n

/-- Set the escrow writer's state. -/
def State.setWriter (s : State) (w : WriterState) : State := s.setEscrow { s.escrow with writer := w }

/-- The writer enters STALLED, or stays there (R163): an entry sets ESCROW_STALL, a re-examination does not. -/
def State.stallWriter (s : State) (source : StallSource) (entry : Bool) : State :=
  let t := s.setWriter (.stalled source)
  if entry then t.raise .escrowStall else t

/-- The writer opens the page at an offset, or stalls (R163). -/
def State.openPage (s : State) (offset : Nat) (source : StallSource) (entry : Bool) : State :=
  if validPage offset ∧ s.mem.read32 offset = ownerEngine then
    ((s.storeField (offset + 4) 4 s.escrow.seq).storeField (offset + 8) 4 0).setWriter (.opened offset 0 0)
  else s.stallWriter source entry

/-- The page sequence after a hand-over: 4,294,967,295 is followed by 1 (R162). -/
def nextSeq (n : Nat) : Nat := if n < counterMax then n + 1 else 1

/-- Steps 1 and 2 of R167: record count, page sequence, owner HOST_READ. -/
def State.releasePage (s : State) (page records : Nat) : State :=
  ((s.storeField (page + 8) 4 records).storeField (page + 4) 4 s.escrow.seq).storeField page 4 ownerHostRead

/-- The open page is handed over and the next one opened (R167). -/
def State.handOver (s : State) : State :=
  match s.escrow.writer with
  | .opened page _ records =>
    let next := s.mem.read32 (page + 12)
    let t := (s.releasePage page records).raise .escrowReady
    (t.setEscrow { t.escrow with seq := nextSeq t.escrow.seq }).openPage next (.link page) true
  | _ => s

/-- The head of the queue has room in the open page (R166): a record is then being written (log 12). -/
def State.recordInProgress (s : State) : Bool :=
  match s.escrow.writer, s.escrow.queue with
  | .opened _ slot _, r :: _ => decide (slot + r.record.slots ≤ 16)
  | _, _ => false

/-- A hand-over of a page that holds records (R168). -/
def State.handOverRecords (s : State) : State :=
  match s.escrow.writer with
  | .opened _ _ records => if records = 0 then s else s.handOver
  | _ => s

/-- A flush (R168): flush pending while a record is being written, else the hand-over of a page that holds records. -/
def State.flush (s : State) : State :=
  if s.recordInProgress then s.setEscrow { s.escrow with flushPending := true } else s.handOverRecords

/-- A request joins the end of the write queue (R165). -/
def State.queueRecord (s : State) (r : EscrowRecord) (report : ReportTo) : State :=
  s.setEscrow { s.escrow with queue := s.escrow.queue ++ [{ record := r, report := report }] }

/-- The chain unit hands over the escrow anchor: RESTART is queued, then the anchor page is opened (R163, R171). -/
def State.takeAnchor (s : State) (anchor : Nat) : State :=
  (s.queueRecord (.restart s.reg.lastReset s.keys.h) .nobody).openPage anchor .anchor true

/-- A NUDGE at the writer (R164). -/
def State.nudgeWriter (s : State) : State :=
  match s.escrow.writer with
  | .stalled .anchor => s.openPage (s.mem.read32 12) .anchor false
  | .stalled (.link page) => s.openPage (s.mem.read32 (page + 12)) (.link page) false
  | _ => s

/-- The writer hands over a page whose last slot is too small for a two-slot head (R166). -/
def State.makeRoom (s : State) : State :=
  match s.escrow.writer, s.escrow.queue with
  | .opened _ slot _, r :: _ => if slot + r.record.slots ≤ 16 then s else s.handOver
  | _, _ => s

/-- Steps 1 to 4 of R166 without the report: the head is written and leaves the queue. Answers the block to report to,
or none when no record can be written. -/
def State.writeHead (s : State) : Option (State × RecordRequest) :=
  match s.escrow.writer, s.escrow.queue with
  | .opened page slot records, r :: rest =>
    if slot + r.record.slots ≤ 16 then
      let t := (s.store (slotOffset page slot) (r.record.bytes s.counters)).storeField (page + 8) 4 (records + 1)
      some (t.setEscrow
        { t.escrow with writer := .opened page (slot + r.record.slots) (records + 1), queue := rest }, r)
    else none
  | _, _ => none

/-- Step 5 of R166: a full page is handed over. -/
def State.handOverFull (s : State) : State :=
  match s.escrow.writer with
  | .opened _ 16 _ => s.handOver
  | _ => s

/-! ### Reset (R174) -/

/-- The words of a record in progress that were already written stay in its slots (R174 step 1, log 13). -/
def State.abandonRecord (s : State) (words : Nat) : State :=
  match s.escrow.writer, s.escrow.queue with
  | .opened page slot _, r :: _ =>
    if slot + r.record.slots ≤ 16 then
      s.store (slotOffset page slot) ((r.record.bytes s.counters).take (4 * words))
    else s
  | _, _ => s

/-- An engine reset hands over an open page that holds records, without the event and without a next page (R174
step 2). -/
def State.resetHandOver (s : State) : State :=
  match s.escrow.writer with
  | .opened page _ records => if records = 0 then s else s.releasePage page records
  | _ => s

end Sys2Proof.Machine
end

