-- ==== Sys2Proof/Machine/Channels.lean ====
section
/-! DEFINITION. The burn channels and the channel arbiter (chapter 3). -/

namespace Sys2Proof.Machine

/-- Change a site's context, if it has one. -/
def State.modSite (s : State) (n : Site) (f : SiteCtx → SiteCtx) : State :=
  match s.sites[n] with
  | some c => s.setSite n (f c)
  | none => s

/-- The channels by number. -/
def allChans : List Chan := [0, 1, 2, 3]

/-! ### The waiting set (section 3.5) -/

/-- The request with the highest arbitration number (R56). -/
def topRequest : List GrantRequest → Option GrantRequest
  | [] => none
  | r :: rs =>
    match topRequest rs with
    | some t => if r.arb < t.arb then some t else some r
    | none => some r

/-- A site's request leaves the waiting set (R55). -/
def State.leaveWaiting (s : State) (n : Site) : State :=
  s.setWaiting (s.waiting.filter fun r => decide (r.site ≠ n))

/-- A site's request is in the waiting set. -/
def State.isWaiting (s : State) (n : Site) : Bool := s.waiting.any fun r => decide (r.site = n)

/-- A request joins the waiting set and its grant timer starts at 0 (R55). -/
def State.joinWaiting (s : State) (n : Site) (arb width : Nat) : State :=
  s.setWaiting ({ site := n, arb := arb, width := width, timer := 0 } :: s.waiting)

/-! ### Grants (R50, R56) -/

/-- A grant of a channel to a request (R50): the request leaves the set, the channel becomes DRIVING, the site enters
PULSING. -/
def State.grant (s : State) (c : Chan) (r : GrantRequest) : State :=
  ((s.leaveWaiting r.site).setChan c { s.chans[c] with state := .driving r.site r.width 0 }).modSite r.site
    fun x => { x with state := .pulsing }

/-- The channel is granted to the highest request if it is READY and a request waits (R56). -/
def State.grantTo (s : State) (c : Chan) : State :=
  if s.chans[c].state = .ready then
    match topRequest s.waiting with
    | some r => s.grant c r
    | none => s
  else s

/-- Grants while a READY channel and a waiting request remain, lowest-numbered channel first (R56). -/
def State.arbitrate (s : State) : State := allChans.foldl State.grantTo s

/-! ### Pulses (R27, R51 to R53) -/

/-- A pulse of width w that ended at a site is charged (R27). -/
def State.chargePulse (s : State) (n : Site) (w : Nat) : State :=
  match s.sites[n] with
  | some x =>
    match x.burn with
    | some b => (s.setSite n { x with burn := some (b.charge w) }).bump .pulses
    | none => s
  | none => s

/-- The site begins its settle delay (R28). -/
def State.beginSettle (s : State) (n : Site) : State :=
  s.modSite n fun x => { x with state := .settling, timer := 0 }

/-- A channel enters OFFLINE: CHANNEL_UNLOCK and its count (R49). -/
def State.goOffline (s : State) (c : Chan) : State :=
  ((s.setChan c { s.chans[c] with state := .offline }).raise .channelUnlock).bump .channelUnlocks

/-- A release cuts the pulse of a DRIVING channel, which becomes READY (R53). -/
def State.cutPulse (s : State) (c : Chan) : State :=
  match s.chans[c].state with
  | .driving owner w _ => (s.setChan c { s.chans[c] with state := .ready }).chargePulse owner w
  | _ => s

/-- A release at the channels and the arbiter: every pulse in flight is cut and the waiting set is emptied, without a
grant (R53, R59). -/
def State.releaseChannels (s : State) : State := allChans.foldl State.cutPulse (s.setWaiting [])

/-! ### Reset (R48, R62) -/

/-- A channel at a reset: SETTLING with its timer at 0, or OFFLINE at once when its regulation reads lost. -/
def State.resetChannel (regulation : BitVec 4) (s : State) (c : Chan) : State :=
  let good := regulation.getLsbD c.val
  let t := s.setChan c { state := .settling 0, good := good }
  if good then t else t.goOffline c

/-- The channels and the arbiter at a reset (R62). -/
def State.resetChannels (s : State) (regulation : BitVec 4) : State :=
  allChans.foldl (State.resetChannel regulation) (s.setWaiting [])

/-! ### Needles (R54, R186) -/

/-- The channel the switch matrix joins to a needle: the DRIVING channel granted to its site, none in a dry run. -/
def State.needle (s : State) (n : Site) : Option Chan :=
  if s.dryRun then none
  else allChans.find? fun c =>
    match s.chans[c].state with
    | .driving owner _ _ => decide (owner = n)
    | _ => false

end Sys2Proof.Machine
end

