-- ==== Sys2Proof/Machine/Tables.lean ====
section
/-! DEFINITION. The die table, the held places, the parked context list and the request queue of the die table unit
(R121 to R134) as operations on the unit's state. -/

namespace Sys2Proof.Machine

/-- The order of the die table and of a dump: rising y, then rising x (R138). -/
def Die.before (a b : Die) : Bool := decide (a.y < b.y) || (decide (a.y = b.y) && decide (a.x < b.x))

/-- The entry of a die; none when the die is absent (R121). -/
def tableFind : List (Die × DieEntry) → Die → Option DieEntry
  | [], _ => none
  | (d', e) :: rest, d => if d' = d then some e else tableFind rest d

/-- Make or replace the entry of a die, keeping the order. -/
def tableSet : List (Die × DieEntry) → Die → DieEntry → List (Die × DieEntry)
  | [], d, e => [(d, e)]
  | (d', e') :: rest, d, e =>
    if d' = d then (d, e) :: rest
    else if d.before d' then (d, e) :: (d', e') :: rest
    else (d', e') :: tableSet rest d e

/-- Remove the entry of a die. -/
def tableErase (t : List (Die × DieEntry)) (d : Die) : List (Die × DieEntry) := t.filter fun p => decide (p.1 ≠ d)

/-- Change the state of a die's entry, its serial kept; an absent die stays absent. -/
def tableMark (t : List (Die × DieEntry)) (d : Die) (st : EntryState) : List (Die × DieEntry) :=
  match tableFind t d with
  | some e => tableSet t d { e with state := st }
  | none => t

/-- The most entries and held places together (R121). -/
def tableCapacity : Nat := 8192

/-- The most contexts in the parked list (R130). -/
def parkedCapacity : Nat := 64

/-- Entries and held places together number fewer than 8192 (R124, R125). -/
def DieTableUnit.hasRoom (u : DieTableUnit) : Bool := decide (u.entries.length + u.places.length < tableCapacity)

/-- Drop a site's held place (R124). -/
def DieTableUnit.dropPlace (u : DieTableUnit) (n : Site) : DieTableUnit :=
  { u with places := u.places.filter fun p => decide (p.site ≠ n) }

/-- Make or replace a die's entry. -/
def DieTableUnit.setEntry (u : DieTableUnit) (d : Die) (e : DieEntry) : DieTableUnit :=
  { u with entries := tableSet u.entries d e }

/-- Change the state of a die's entry. -/
def DieTableUnit.mark (u : DieTableUnit) (d : Die) (st : EntryState) : DieTableUnit :=
  { u with entries := tableMark u.entries d st }

/-- The request at the head of the queue is served: it leaves the queue (R122). -/
def DieTableUnit.pop (u : DieTableUnit) : DieTableUnit := { u with queue := u.queue.tail }

/-- A context waits to be resumed (R130). -/
def ParkedContext.isHeld (c : ParkedContext) : Bool := decide (c.status = .held)

/-- The held context of a die (R123, R134). -/
def heldContext (l : List ParkedContext) (d : Die) : Option ParkedContext := l.find? fun c => c.isHeld && decide (c.die = d)

/-- The closing context of a die (R133). -/
def closingContext (l : List ParkedContext) (d : Die) : Option ParkedContext :=
  l.find? fun c => !c.isHeld && decide (c.die = d)

/-- Take one context out of the list, the others keeping their order (R134). -/
def removeContext (l : List ParkedContext) (c : ParkedContext) : List ParkedContext := l.erase c

/-- The held context that stands first in the list (R132). -/
def oldestHeld (l : List ParkedContext) : Option ParkedContext := l.find? ParkedContext.isHeld

/-- The first held context becomes closing, bound to a park or not, keeping its place (R132, R136). -/
def closeFirstHeld (bound : Option Site) : List ParkedContext → List ParkedContext
  | [] => []
  | c :: rest => if c.isHeld then { c with status := .closing bound } :: rest else c :: closeFirstHeld bound rest

/-- The CLOSE of a parked context with an outcome of the die table unit (R132, R136). -/
def ParkedContext.closeRecord (c : ParkedContext) (outcome : CloseOutcome) : CloseRecord where
  serial := c.serial
  die := c.die
  outcome := outcome
  pulses := c.burn.totalPulses
  touchdowns := c.touchdowns
  stress := c.burn.maxStress
  remaps := c.burn.remaps

/-- A request of a site's that a release or halt withdraws while it waits: lookup, hold or VOID entry (R127). -/
def TableRequest.withdrawn (r : TableRequest) (n : Site) : Bool :=
  match r with
  | .lookup m _ => decide (m = n)
  | .hold m _ => decide (m = n)
  | .voidEntry m _ => decide (m = n)
  | _ => false

/-- A site has a lookup, hold or VOID-entry request waiting at the unit. -/
def State.hasTableRequest (s : State) (n : Site) : Bool := s.dies.queue.any fun r => r.withdrawn n

/-- A request joins the end of the die table unit's queue (R122). -/
def State.queueTable (s : State) (r : TableRequest) : State :=
  s.setDies { s.dies with queue := s.dies.queue ++ [r] }

/-- A site's waiting lookup, hold or VOID-entry request leaves the unit unanswered (R127). -/
def State.withdrawTable (s : State) (n : Site) : State :=
  s.setDies { s.dies with queue := s.dies.queue.filter fun r => !r.withdrawn n }

/-- A site's request leaves the composition unit (R111). -/
def State.withdrawComp (s : State) (n : Site) : State :=
  s.setComp (s.comp.filter fun r => decide (r.site ≠ n))

/-- A site has a request at the composition unit. -/
def State.hasCompRequest (s : State) (n : Site) : Bool := s.comp.any fun r => decide (r.site = n)

/-- A site's request leaves the derivation queue; if it was the head, a derivation in progress is abandoned and takes
no serial (R104). -/
def State.withdrawDerivation (s : State) (n : Site) : State :=
  let head := match s.keys.queue with
    | r :: _ => decide (r.site = n)
    | [] => false
  s.setKeys
    { s.keys with
      queue := s.keys.queue.filter fun r => decide (r.site ≠ n)
      derivation := if head then none else s.keys.derivation }

end Sys2Proof.Machine
end

