-- ==== Sys2Proof/Machine/Sites.lean ====
section
/-! DEFINITION. The site engines (chapter 4) as operations on State: exchanges, the ways into FINAL, CLOSING and
PARKING, how a release and a halt reach a site, and the next step of a burn. -/

namespace Sys2Proof.Machine

/-! ### Results (R84, section 11.2) -/

/-- Site result codes (section 11.2). -/
def SiteResult.code : SiteResult → Nat
  | .burned => 0x10
  | .voidMismatch => 0x11
  | .alreadyDone => 0x12
  | .alreadyLocked => 0x13
  | .released => 0x14
  | .halted => 0x15
  | .verified => 0x16
  | .mismatch => 0x17
  | .identified => 0x18
  | .notLocked => 0x19
  | .skipped => 0x1A
  | .failedFuse => 0x20
  | .failedRemapRow => 0x21
  | .failedLock => 0x22
  | .failedContact => 0x23
  | .failedSupply => 0x24
  | .refusedVoid => 0x30
  | .refusedFailed => 0x31
  | .refusedWindow => 0x32
  | .refusedGeometry => 0x33
  | .refusedNotBlank => 0x34
  | .refusedCompose => 0x35
  | .refusedTableFull => 0x36
  | .refusedNoKeys => 0x37
  | .refusedAlloc => 0x38
  | .refusedSerials => 0x39
  | .parkedReleased => 0x40
  | .parkedContact => 0x41
  | .parkedSupply => 0x42
  | .parkedHalt => 0x43

/-- A result of class FAILED, REFUSED or PARKED: a code of 0x20 or above (R84, R185). -/
def SiteResult.startsHalt (r : SiteResult) : Bool := decide (0x20 ≤ r.code)

/-- The result of an entry that ends early with no pulse delivered (R78, first line). -/
def StopCause.endResult : StopCause → SiteResult
  | .release => .released
  | .contact => .failedContact
  | .supply => .failedSupply
  | .halt => .halted
  | .none => .released

/-- The result of an entry that parks (R78, second line). -/
def StopCause.parkResult : StopCause → SiteResult
  | .release => .parkedReleased
  | .contact => .parkedContact
  | .supply => .parkedSupply
  | .halt => .parkedHalt
  | .none => .parkedReleased

/-- The result of an entry that closes with an outcome (R76, R78, R84). -/
def closeResult (outcome : CloseOutcome) (stop : StopCause) : SiteResult :=
  match outcome with
  | .burned => .burned
  | .failedFuse => .failedFuse
  | .failedRemapRow => .failedRemapRow
  | .failedLock => .failedLock
  | .voidMismatch => .voidMismatch
  | .voidUnused => stop.endResult
  | .voidEvicted => stop.endResult
  | .voidWaferEnd => stop.endResult

/-- The outcome is one of the FAILED_ outcomes (R42, R85). -/
def CloseOutcome.isFailed : CloseOutcome → Bool
  | .failedFuse => true
  | .failedRemapRow => true
  | .failedLock => true
  | _ => false

/-! ### Contexts and exchanges -/

/-- The context a site forms from its entry (R63, R64). -/
def SiteEntry.context (e : SiteEntry) (index : Nat) : SiteCtx where
  index := index
  state := if e.action = .skip then .final else .hail
  action := e.action
  die := e.die
  arb := e.arb
  lanesAsked := e.lanes
  expected := e.expected
  lanesUsed := .normal
  rows := none
  locked := none
  retries := 0
  placeHeld := false
  serial := none
  key := none
  check := none
  wrapped := none
  identity := none
  targets := none
  burn := none
  touchdowns := none
  stop := .none
  haltPending := false
  outcome := none
  result := none
  exch := none
  checkIndex := 0
  tag0 := 0
  timer := 0
  closeWritten := false

/-- The burn state of a context, or the state a burn begins with when it holds none. -/
def SiteCtx.burnState (c : SiteCtx) (p : Profile) : BurnState := c.burn.getD (.begin p)

/-- The record targets of a context, or zeros when it holds none. -/
def SiteCtx.burnTargets (c : SiteCtx) : Vector FuseRow 12 := c.targets.getD (Vector.replicate 12 0)

/-- The total pulses of a context: 0 without a burn state (R78). -/
def SiteCtx.totalPulses (c : SiteCtx) : Nat :=
  match c.burn with
  | some b => b.totalPulses
  | none => 0

/-- A site's lanes are driven only during an exchange (R186). -/
def SiteCtx.lanesDriven (c : SiteCtx) : Bool := c.exch.isSome

/-- What lane l of a site port carries: the signal of the order in use during an exchange, else nothing (R11, R186). -/
def SiteCtx.lane (c : SiteCtx) (l : Fin 4) : Option LaneSignal :=
  if c.lanesDriven then some c.lanesUsed.lanes[l] else none

/-- The site sends a request and waits in a state (R13, R14). -/
def State.send (s : State) (n : Site) (c : SiteCtx) (st : SiteState) (cmd : DieCommand) (row bit : Nat)
    (arg : BitVec 32) : State :=
  s.setSite n
    { c with
      state := st, timer := 0
      exch := some { cmd := cmd, row := row, bit := bit, arg := arg, resends := 0 } }

/-- The site sends ROW_CHECK with the profile's thresholds (R18). -/
def State.sendRowCheck (s : State) (n : Site) (c : SiteCtx) (st : SiteState) (row : Nat) : State :=
  s.send n c st .rowCheck row 0 s.profile.thresholds

/-! ### FINAL (R84) -/

/-- The serial reported: the context's, or the die table entry's for the three results that name it (R84). -/
def reportedSerial (c : SiteCtx) (tableSerial : Option Nat) : Nat := (tableSerial <|> c.serial).getD 0

/-- Bytes 10..47 of a site entry as the engine writes them, reserved bytes 0 (R84, R185, log 19). -/
def entryBytes (c : SiteCtx) (result : SiteResult) (tableSerial : Option Nat) : List Byte :=
  [0, 0, BitVec.ofNat 8 result.code, if c.lanesUsed = .normal then 0 else 1,
    BitVec.ofNat 8 ((c.burn.map fun b => b.remaps.length).getD 0), 0] ++
    serialField (reportedSerial c tableSerial) ++ leBytes 4 c.totalPulses ++ leBytes 4 c.retries ++
    padTo 16 ((c.identity.map Identity.chars).getD [])

/-- The offset of byte 10 of a site's entry in the block in hand. -/
def State.entryOffset (s : State) (c : SiteCtx) : Option Nat :=
  s.chain.block.map fun b => b.offset + 80 + 48 * c.index + 10

/-- The site enters FINAL: its entry is written, its result reported (R84). -/
def State.enterFinal (s : State) (n : Site) (c : SiteCtx) (result : SiteResult) (tableSerial : Option Nat) : State :=
  let t := match s.entryOffset c with
    | some a => s.store a (entryBytes c result tableSerial)
    | none => s
  t.setSite n { c with state := .final, result := some result, exch := none }

/-! ### CLOSING and PARKING (R76 to R78) -/

/-- The CLOSE a site queues (R76): for VOID_UNUSED no pulses, no stress, no remap entry. -/
def SiteCtx.closeRecord (c : SiteCtx) (outcome : CloseOutcome) : CloseRecord where
  serial := c.serial.getD 0
  die := c.die
  outcome := outcome
  pulses := if outcome = .voidUnused then 0 else c.totalPulses
  touchdowns := c.touchdowns.getD 1
  stress := if outcome = .voidUnused then 0 else (c.burn.map BurnState.maxStress).getD 0
  remaps := if outcome = .voidUnused then [] else (c.burn.map BurnState.remaps).getD []

/-- The site enters CLOSING with an outcome (R74, R76). In a dry run no CLOSE is queued and the settlement is asked for
at once (R76, R126, log 8); a FAILED_ outcome then counts here (R85). -/
def State.beginClosing (s : State) (n : Site) (c : SiteCtx) (outcome : CloseOutcome) : State :=
  let t := s.setSite n { c with state := .closing, outcome := some outcome, exch := none, closeWritten := false }
  if s.dryRun then
    (if outcome.isFailed then t.bump .diesFailed else t).queueTable (.settle n c.die outcome)
  else t.queueRecord (.close (c.closeRecord outcome)) (.site n)

/-- The site enters PARKING and asks for its context to be parked (R77). -/
def State.beginParking (s : State) (n : Site) (c : SiteCtx) : State :=
  (s.setSite n { c with state := .parking, exch := none }).queueTable (.park n)

/-- A provisioning that holds a serial ends early: VOID_UNUSED without a pulse, a park with one (R78). -/
def State.stopBurn (s : State) (n : Site) (c : SiteCtx) (cause : StopCause) : State :=
  let d := { c with stop := cause }
  if c.totalPulses = 0 then s.beginClosing n d .voidUnused else s.beginParking n d

/-- The site gives back a place it holds (R124). -/
def State.giveBack (s : State) (n : Site) (c : SiteCtx) : State :=
  if c.placeHeld then s.queueTable (.giveBack n) else s

/-- An entry without a serial ends early by a release or a halt (R78, R79, R81). -/
def State.endEarly (s : State) (n : Site) (c : SiteCtx) (cause : StopCause) : State :=
  (s.giveBack n c).enterFinal n { c with stop := cause, placeHeld := false } cause.endResult none

/-! ### Release and halt at a site (R79, R81) -/

/-- A release reaches a site (R79). -/
def State.releaseSite (s : State) (n : Site) : State :=
  match s.sites[n] with
  | none => s
  | some c =>
    match c.state with
    | .hail => s.endEarly n c .release
    | .lookup => (s.withdrawTable n).endEarly n c .release
    | .prep => ((s.withdrawComp n).withdrawTable n).endEarly n c .release
    | .issueWait => (s.withdrawDerivation n).endEarly n c .release
    | .escrowWait => s.stopBurn n c .release
    | .reading => s.endEarly n c .release
    | .closing => s
    | .parking => s
    | .final => s
    | _ => s.stopBurn n c .release

/-- A halt reaches a site: halt pending is set, and a site already at its boundary ends (R81). A request that waits at
the die table unit is withdrawn (R127, log 9). -/
def State.haltSite (s : State) (n : Site) : State :=
  match s.sites[n] with
  | none => s
  | some c =>
    let h := { c with haltPending := true }
    match c.state with
    | .hail => s.setSite n h
    | .lookup => if s.hasTableRequest n then (s.withdrawTable n).endEarly n h .halt else s.setSite n h
    | .prep => if s.hasTableRequest n then (s.withdrawTable n).endEarly n h .halt else s.setSite n h
    | .issueWait => (s.withdrawDerivation n).endEarly n h .halt
    | .escrowWait => s.stopBurn n h .halt
    | .waitGrant => (s.leaveWaiting n).stopBurn n h .halt
    | .reading => s.setSite n h
    | .closing => s.setSite n h
    | .parking => s.setSite n h
    | .final => s
    | _ => s.setSite n h

/-- A site's result starts the halt of the block in hand: a TOUCHDOWN with HALT_ON_ERROR, no halt and no release taken
yet (R154, R155). -/
def Block.haltsOn (b : Block) (r : SiteResult) : Bool :=
  match b.work with
  | .touchdown _ true false false => b.haltOnError && r.startsHalt
  | _ => false

/-- The block with its halt marked as taken. -/
def Block.markHalted (b : Block) : Block :=
  match b.work with
  | .touchdown es st rel _ => { b with work := .touchdown es st rel true }
  | _ => b

/-- The halt is passed to every site engine of the block (R154), in the order of simultaneous arrivals (log 10). -/
def State.startHalt (s : State) (b : Block) : State :=
  let t := s.setChain { s.chain with block := some b.markHalted }
  (t.siteOrder.foldl State.haltSite t).freshOrder

/-- The chain unit judges a reported result for a halt (R154). -/
def State.reportResult (s : State) (r : SiteResult) : State :=
  match s.chain.block with
  | some b => if b.haltsOn r then s.startHalt b else s
  | none => s

/-- The site enters FINAL and reports to the chain unit, which may start a halt (R84, R154). -/
def State.finish (s : State) (n : Site) (c : SiteCtx) (result : SiteResult) (tableSerial : Option Nat := none) : State :=
  (s.enterFinal n c result tableSerial).reportResult result

/-! ### The next step of a burn (R44, R73) -/

/-- The site tests candidates from the given free spares on: an unusable one is rejected and counted, the first usable
one is pre-checked, and without one the burn ends FAILED_FUSE (R35, R36, R38). -/
def State.selectSpare (s : State) (n : Site) (c : SiteCtx) (b : BurnState) : List Nat → State
  | [] => s.beginClosing n { c with burn := some b } .failedFuse
  | i :: rest =>
    if s.profile.spareUsable i then
      s.sendRowCheck n { c with burn := some b } .spareSelect (s.profile.spareBase + i)
    else State.selectSpare (s.bump .sparesRejected) n c (b.reject i) rest

/-- The site state of the stage that the current row belongs to (R73). -/
def CurRow.stageState : CurRow → SiteState
  | .logical _ => .burnRow
  | .remap _ => .remapBurn
  | .lock => .lockBurn

/-- The site arms the current bit (R26). -/
def State.armBit (s : State) (n : Site) (c : SiteCtx) (b : BurnState) : State :=
  s.send n { c with burn := some b } b.cur.stageState .armBit (b.curPhys s.profile) b.bit 0

/-- The current bit has failed, by its test or by a REFUSED ARM_BIT, outside the LOCK stage: a record row wants a spare,
a remap row ends the burn (R32, R34, R39). -/
def State.rowFailed (s : State) (n : Site) (c : SiteCtx) (b : BurnState)
    (next : State → Site → SiteCtx → BurnState → State) : State :=
  match b.cur with
  | .logical _ => next s n c b.rowBad
  | _ => s.beginClosing n { c with burn := some b.finishRow } .failedRemapRow

/-- A burn with spare wanted takes its next candidate (R35). -/
def State.trySpares (s : State) (n : Site) (c : SiteCtx) (b : BurnState) : State :=
  s.selectSpare n c b (b.freeSpares s.profile)

/-- The first or next step of a burn, from its burn state alone (the table of R44, in the states of R73). -/
def State.burnStep (s : State) (n : Site) (c : SiteCtx) (b : BurnState) : State :=
  let p := s.profile
  let d := { c with burn := some b }
  if b.unsensed then s.send n d .sensing .senseBit (b.curPhys p) b.bit 0
  else if b.spareWanted then s.trySpares n c b
  else
    match b.cur with
    | .lock =>
      let b' := b.lockSettle p 2
      if b'.step = .lockCheck then s.sendRowCheck n { c with burn := some b' } .lockBurn p.lockRow
      else s.armBit n c b'
    | _ =>
      if b.curState = .notStarted then s.sendRowCheck n d b.cur.stageState (b.curPhys p)
      else if b.step = .bits then
        if b.bitSpent p then s.rowFailed n c b State.trySpares else s.armBit n c b
      else s.sendRowCheck n d .rowVerify (b.curPhys p)

/-- The burn goes on after an exchange, or stops there when a halt is pending (R81). -/
def State.burnOn (s : State) (n : Site) (c : SiteCtx) (b : BurnState) : State :=
  if c.haltPending then s.stopBurn n { c with burn := some b } .halt else s.burnStep n c b

/-- A record row has just been judged bad: FAILED_FUSE at once without a spare left (R38), else the burn goes on. -/
def State.afterBadRow (s : State) (n : Site) (c : SiteCtx) (b : BurnState) : State :=
  if b.freeSpares s.profile = [] then s.beginClosing n { c with burn := some b } .failedFuse else s.burnOn n c b

/-- The burn of a provisioning begins (R71, R72). -/
def State.beginBurn (s : State) (n : Site) (c : SiteCtx) : State :=
  let b := BurnState.begin s.profile
  s.burnStep n { c with touchdowns := some 1 } b

/-- The next row of the resume check at or after row `i`, or the first step of the burn (R75, R44). -/
def State.resumeFrom (s : State) (n : Site) (c : SiteCtx) (b : BurnState) (i : Nat) : State :=
  match b.nextDone i with
  | some j =>
    s.sendRowCheck n { c with burn := some b, checkIndex := j } .resumeCheck
      (b.resumeRow s.profile c.burnTargets j).1
  | none => s.burnStep n c b

/-! ### Exchange outcomes, state by state -/

/-- A HELLO ended OK (R65). -/
def State.helloOk (s : State) (n : Site) (c : SiteCtx) (d : BitVec 64) : State :=
  let lock := helloLocked d
  let c' := { c with rows := some (helloRows d), locked := some lock, exch := none }
  match c.action with
  | .provision =>
    if c.haltPending then s.endEarly n c' .halt
    else (s.setSite n { c' with state := .lookup }).queueTable (.lookup n c.die)
  | _ =>
    if !lock then s.finish n c' .notLocked
    else if c.haltPending then s.endEarly n c' .halt
    else s.send n c' .reading .readTag 0 0 0

/-- The blank check of row `i` of its list passed (R68, R69): the next row, or the request to the composition unit. -/
def State.blankPassed (s : State) (n : Site) (c : SiteCtx) : State :=
  if c.haltPending then s.endEarly n { c with exch := none } .halt
  else if c.checkIndex + 1 < 14 then
    s.sendRowCheck n { c with checkIndex := c.checkIndex + 1 } .prep (s.profile.blankRow (c.checkIndex + 1))
  else
    let t := s.setSite n { c with exch := none }
    match s.chain.wafer with
    | some w => t.setComp (t.comp ++ [{ site := n, lot := w.lot, number := w.number, die := c.die }])
    | none => t

/-- The blank check failed: the site asks for a VOID entry (R68, R125). -/
def State.blankFailed (s : State) (n : Site) (c : SiteCtx) : State :=
  (s.setSite n { c with exch := none }).queueTable (.voidEntry n c.die)

/-- A pre-check, single check, or lock check of the row in hand was answered (R31, R39, R41). `clean` says whether both
masks were 0, `blown` is the blown mask, 0 after a REFUSED. -/
def State.rowChecked (s : State) (n : Site) (c : SiteCtx) (clean : Bool) (blown : FuseRow) : State :=
  let p := s.profile
  let b := c.burnState p
  let target := b.curTarget c.burnTargets
  match b.cur with
  | .logical _ =>
    if clean then s.burnOn n c (b.preCheckPassed p target) else s.afterBadRow n c b.rowBad
  | .remap _ =>
    if clean then s.burnOn n c (if target = 0 then b.rowDone p else b.preCheckPassed p target)
    else s.rowFailed n c b State.afterBadRow
  | .lock =>
    s.beginClosing n { c with burn := some b.finishRow } (if lockBlown blown then .burned else .failedLock)

/-- A row verify was answered (R33, R39). -/
def State.rowVerified (s : State) (n : Site) (c : SiteCtx) (pass : Bool) : State :=
  let b := c.burnState s.profile
  if pass then s.burnOn n c (b.rowDone s.profile) else s.rowFailed n c b State.afterBadRow

/-- The pre-check of a candidate spare was answered (R36, R37). -/
def State.spareChecked (s : State) (n : Site) (c : SiteCtx) (clean : Bool) : State :=
  let p := s.profile
  let b := c.burnState p
  match b.freeSpares p, b.cur with
  | i :: _, .logical k =>
    if clean then (s.bump .remaps).burnOn n c (b.accept p k i (b.curTarget c.burnTargets))
    else (s.bump .sparesRejected).afterBadRow n c (b.reject i)
  | _, _ => s

/-- A re-check of a DONE row was answered (R75). -/
def State.resumeChecked (s : State) (n : Site) (c : SiteCtx) (pass : Bool) : State :=
  let b := c.burnState s.profile
  if !pass then s.beginClosing n c .voidMismatch
  else if c.haltPending then s.stopBurn n c .halt
  else s.resumeFrom n c b (c.checkIndex + 1)

/-- A ROW_CHECK ended with masks, or REFUSED (`none`), by the state that sent it (R15, R18). -/
def State.rowCheckEnded (s : State) (n : Site) (c : SiteCtx) (d : Option (BitVec 64)) : State :=
  let b := c.burnState s.profile
  let clean := (d.map masksClean).getD false
  let pass := fun t : FuseRow => (d.map (masksMatch t)).getD false
  match c.state with
  | .prep => if clean then s.blankPassed n c else s.blankFailed n c
  | .resumeCheck => s.resumeChecked n c (pass (b.resumeRow s.profile c.burnTargets c.checkIndex).2)
  | .rowVerify => s.rowVerified n c (pass (b.curTarget c.burnTargets))
  | .spareSelect => s.spareChecked n c clean
  | .burnRow => s.rowChecked n c clean ((d.map blownMask).getD 0)
  | .remapBurn => s.rowChecked n c clean ((d.map blownMask).getD 0)
  | .lockBurn => s.rowChecked n c clean ((d.map blownMask).getD 0)
  | _ => s

/-- An ARM_BIT ended OK: the site joins the waiting set and the arbiter grants (R26, R55, R56). With a halt pending the
bit stays armed and the burn stops (R81). -/
def State.armed (s : State) (n : Site) (c : SiteCtx) : State :=
  if c.haltPending then s.stopBurn n c .halt
  else
    ((s.setSite n { c with state := .waitGrant, exch := none }).joinWaiting n c.arb
      ((c.burnState s.profile).pulseWidth s.profile)).arbitrate

/-- An ARM_BIT was REFUSED: the bit has failed without a pulse (R26, R15). -/
def State.armRefused (s : State) (n : Site) (c : SiteCtx) : State :=
  let b := c.burnState s.profile
  match b.cur with
  | .lock => s.burnOn n c (b.lockBitJudged s.profile)
  | _ => s.rowFailed n c b State.afterBadRow

/-- A SENSE_BIT ended with a sense code (R28, R29). -/
def State.sensed (s : State) (n : Site) (c : SiteCtx) (code : Nat) : State :=
  let p := s.profile
  let b := c.burnState p
  if code ≤ p.tb then
    s.burnOn n c ({ b with unsensed := false }.bitDone p (b.curTarget c.burnTargets))
  else s.burnOn n c (b.grow p)

/-- The characters of an identity stream under the wafer's table (R83, R119). -/
def decodeIdentity (w : Option WaferContext) (stream : BitVec 96) : Identity :=
  let codes := codesOfStream stream
  { chars := codes.map (charOf ((w.map WaferContext.table).getD [])), codes := codes }

/-- A READ_TAG part ended OK (R21, R82, R83). -/
def State.tagRead (s : State) (n : Site) (c : SiteCtx) (part : BitVec 32) (d : BitVec 64) : State :=
  if part = 0 then s.send n { c with tag0 := d } .reading .readTag 0 0 1
  else
    match c.action with
    | .verify =>
      if tagCheck d = c.expected then (s.bump .diesVerified).finish n c .verified
      else (s.bump .verifyMismatch).finish n c .mismatch
    | _ => s.finish n { c with identity := some (decodeIdentity s.chain.wafer (c.tag0 ++ tagStreamTail d)) } .identified

/-- An exchange ended with outcome CONTACT, already counted (R80). -/
def State.contactLost (s : State) (n : Site) (c : SiteCtx) : State :=
  match c.state with
  | .hail => s.finish n { c with stop := .contact } .failedContact
  | .prep => (s.giveBack n c).finish n { c with stop := .contact, placeHeld := false } .failedContact
  | .reading => s.finish n { c with stop := .contact } .failedContact
  | _ => s.stopBurn n c .contact

/-! ### Attempts (R14, R12) -/

/-- One more resend of a site's request (R14). -/
def State.resend (s : State) (n : Site) (c : SiteCtx) (e : Exchange) : State :=
  (s.setSite n
    { c with exch := some { e with resends := e.resends + 1 }, retries := satInc c.retries, timer := 0 }).bump
    .frameRetries

/-- The last permitted attempt of an exchange failed (R14): outcome CONTACT, but for the NORMAL-order HELLO of an AUTO
search, which the REVERSED attempt follows uncounted (R12). -/
def State.exchangeFailed (s : State) (n : Site) (c : SiteCtx) : State :=
  if c.state = .hail ∧ c.lanesAsked = .auto ∧ c.lanesUsed = .normal then
    s.send n { c with lanesUsed := .reversed } .hail .hello 0 0 0
  else (s.bump .contactFails).contactLost n { c with exch := none }

/-- An attempt of a site's exchange failed (R14). -/
def State.attemptFailed (s : State) (n : Site) (c : SiteCtx) (e : Exchange) : State :=
  if e.resends < s.profile.maxResends then s.resend n c e else s.exchangeFailed n c

/-- A response frame to a command reaches a site (R14): a frame that answers no exchange in flight is discarded, a bad
one fails the attempt, and a good one goes to `ended`: its data, or none when the command was REFUSED. -/
def State.respond (s : State) (n : Site) (cmd : DieCommand) (f : ResponseFrame)
    (ended : State → Site → SiteCtx → Exchange → Option (BitVec 64) → State) : State :=
  match s.sites[n] with
  | none => s
  | some c =>
    match c.exch with
    | none => s
    | some e =>
      if e.cmd = cmd then
        match judge cmd f with
        | .failed => s.attemptFailed n c e
        | .refused => ended s n c e none
        | .ok d => ended s n c e (some d)
      else s

end Sys2Proof.Machine
end

