-- ==== Sys2Proof/Machine/Chain.lean ====
section
/-! DEFINITION. The chain unit (chapter 8): header, arrival at blocks, the block kinds, completion and holds. -/

namespace Sys2Proof.Machine

/-! ### Holds and waits (R145) -/

/-- The unit enters HELD: the event and the flush (R145). -/
def State.enterHeld (s : State) (reason : HoldReason) : State :=
  ((s.setChain { s.chain with state := .held reason }).raise .held).flush

/-- The unit enters WAITING at a block: the event and the flush (R145, R147). -/
def State.enterWaiting (s : State) (offset : Nat) : State :=
  ((s.setChain { s.chain with state := .waiting, offset := some offset }).raise .chainWait).flush

/-- A header or link fault (R146, R148). No block is in hand. -/
def State.chainFault (s : State) (reason : HoldReason) : State :=
  ((s.setChain { s.chain with offset := none }).raise .chainFault).enterHeld reason

/-- Every site engine returns to IDLE as the chain unit leaves the block (R64). -/
def State.leaveSites (s : State) : State := s.setSites (Vector.replicate 24 none)

/-! ### Completion (R143, R148) -/

/-- Block result codes (section 11.2). -/
def BlockResult.code : BlockResult → Nat
  | .ok => 1
  | .released => 2
  | .halted => 3
  | .blockInvalid => 4
  | .noWafer => 5
  | .waferOpen => 6
  | .profileInvalid => 7
  | .keysRejected => 8

/-- The tag after a tag: 65535 is followed by 1 (R143). -/
def nextTag (t : Nat) : Nat := if t < 65535 then t + 1 else 1

/-- Step 1 of R148: the block result. -/
def State.writeResult (s : State) (offset : Nat) (r : BlockResult) : State := s.storeField (offset + 16) 1 r.code

/-- Steps 2 to 4 of R148: the done tag, BLOCK_DONE, the last done block and the next tag. -/
def State.closeBlock (s : State) (offset : Nat) (notify : Bool) : State :=
  let t := s.storeField (offset + 12) 2 (s.chain.expected.getD 0)
  let u := if notify then t.raise .blockDone else t
  u.setChain
    { u.chain with
      lastDone := some offset, expected := u.chain.expected.map nextTag, block := none, offset := none }

/-- The link field of a block, as job memory holds it now (R148). -/
def State.linkOf (s : State) (offset : Nat) : Nat := s.mem.read32 (offset + 8)

/-! ### Touchdowns (R64, R152) -/

/-- The lane order of the first HELLO (R11, R12). -/
def LaneRequest.first : LaneRequest → LaneOrder
  | .reversed => .reversed
  | _ => .normal

/-- A site engine takes its entry (R64): SKIP goes to FINAL, any other action sends HELLO. -/
def State.takeEntry (s : State) (e : SiteEntry × Nat) : State :=
  let c := e.1.context e.2
  match e.1.action with
  | .skip => s.enterFinal e.1.site c .skipped none
  | _ => s.send e.1.site { c with lanesUsed := e.1.lanes.first } .hail .hello 0 0 0

/-- The entries of the block in hand start (R152). -/
def State.startEntries (s : State) (b : Block) (es : List SiteEntry) : State :=
  es.zipIdx.foldl State.takeEntry
    (s.setChain { s.chain with block := some { b with work := .touchdown es true false false } })

/-- A site has reported its entry final. -/
def State.isFinal (s : State) (n : Site) : Bool :=
  match s.sites[n] with
  | some c => c.state == .final
  | none => false

/-- Every entry has reported final (R152). -/
def State.allFinal (s : State) (es : List SiteEntry) : Bool := es.all fun e => s.isFinal e.site

/-! ### Taking a block (R147, R151, R156 to R160) -/

/-- The block at `offset` becomes the block in hand. -/
def State.holdBlock (s : State) (b : Block) : State := s.setChain { s.chain with block := some b }

/-- LOAD_KEYS (R156): the two blobs are handed to the key unit. -/
def State.takeLoadKeys (s : State) (b : Block) : State × Option BlockResult :=
  if s.chain.wafer.isSome then (s, some .waferOpen)
  else if jobMemorySize < b.offset + 152 then (s, some .blockInvalid)
  else
    ((s.holdBlock { b with work := .loadKeys }).setKeys
      { s.keys with
        importing := some
          { rootBlob := s.mem.readBytes (b.offset + 64) 44, transportBlob := s.mem.readBytes (b.offset + 112) 40 } },
      none)

/-- An accepted WAFER_START (R157): context, clear, counters, wafer sequence, WAFER_OPEN. -/
def State.openWafer (s : State) (w : WaferContext) : State :=
  let t := ((s.setChain { s.chain with wafer := some w }).queueTable .clear).clearCounters
  (t.setChain { t.chain with waferSeq := satInc t.chain.waferSeq }).queueRecord .waferOpen .nobody

/-- WAFER_START (R157). -/
def State.takeWaferStart (s : State) (b : Block) : State × Option BlockResult :=
  if s.chain.wafer.isSome then (s, some .waferOpen)
  else
    match readWaferStart s.mem b.offset with
    | .error r => (s, some r)
    | .ok w => (s.openWafer w, some .ok)

/-- TOUCHDOWN (R151, R152): intake, then the start if CONTACT is asserted. -/
def State.takeTouchdown (s : State) (b : Block) : State × Option BlockResult :=
  if s.chain.wafer.isNone then (s, some .noWafer)
  else
    match readTouchdown s.mem b.offset with
    | none => (s, some .blockInvalid)
    | some es =>
      if s.contact then
        let t := s.startEntries b es
        if t.allFinal es then (t.leaveSites, some .ok) else (t, none)
      else (s.holdBlock { b with work := .touchdown es false false false }, none)

/-- WAFER_END (R158): the die table unit is asked to void every parked context. -/
def State.takeWaferEnd (s : State) (b : Block) : State × Option BlockResult :=
  if s.chain.wafer.isNone then (s, some .noWafer)
  else ((s.holdBlock { b with work := .waferEnd }).queueTable .voidAll, none)

/-- STATS (R159): the counters are written, and cleared when the reset-counters flag is not 0. -/
def State.takeStats (s : State) (b : Block) : State × Option BlockResult :=
  if jobMemorySize < b.offset + 132 then (s, some .blockInvalid)
  else
    let flag := s.mem.read (b.offset + 64)
    let t := s.store (b.offset + 68) (counterBytes s.counters)
    (if flag = 0 then t else t.clearCounters, some .ok)

/-- DUMP (R160): the buffer is checked and the die table unit is asked for a dump. -/
def State.takeDump (s : State) (b : Block) : State × Option BlockResult :=
  let buffer := s.mem.read32 (b.offset + 64)
  let capacity := s.mem.read32 (b.offset + 68)
  if dumpAccepted b.offset buffer capacity then
    ((s.holdBlock { b with work := .dump }).queueTable (.dump buffer capacity), none)
  else (s, some .blockInvalid)

/-- The block header at an offset (R142); the work is filled in by the kind. -/
def readBlock (m : Memory) (offset : Nat) : Block where
  offset := offset
  notify := (m.read (offset + 5)).getLsbD 0
  haltOnError := (m.read (offset + 5)).getLsbD 1
  work := .dump

/-- The unit takes a block into RUNNING and does its kind's work, as far as it goes at once (R147). A result means the
block is done; without one it stays in hand. -/
def State.takeBlock (s : State) (offset : Nat) : State × Option BlockResult :=
  let b := readBlock s.mem offset
  let t := s.setChain { s.chain with state := .running, offset := some offset }
  match (s.mem.read (offset + 4)).toNat with
  | 1 => t.takeLoadKeys b
  | 2 => t.takeWaferStart b
  | 3 => t.takeTouchdown b
  | 4 => t.takeWaferEnd b
  | 5 => t.takeStats b
  | 6 => t.takeDump b
  | _ => (t, some .blockInvalid)

/-- The block's ready tag equals the expected tag (R143, R147). -/
def State.blockReady (s : State) (offset : Nat) : Bool := decide (s.chain.expected = some (s.mem.read16 offset))

/-- The unit arrives at a block (R147), and goes on along the links for as long as blocks are ready and done at once
(R148). More blocks than `fuel` in one step leave the arrival over for the next idle step (log 21). -/
def State.arrive : Nat → State → Nat → State
  | 0, s, offset => s.setChain { s.chain with state := .running, offset := some offset, arrival := some offset }
  | fuel + 1, s, offset =>
    if s.blockReady offset then
      match s.takeBlock offset with
      | (t, none) => t
      | (t, some r) =>
        let u := (t.writeResult offset r).closeBlock offset (readBlock s.mem offset).notify
        if validBlockOffset (u.linkOf offset) then State.arrive fuel u (u.linkOf offset) else u.chainFault .linkFault
    else s.enterWaiting offset

/-- Blocks that one step can take: more than there are block offsets in job memory (log 21). -/
def chainFuel : Nat := 65536

/-- The unit arrives at a block (R147). -/
def State.arriveAt (s : State) (offset : Nat) : State := State.arrive chainFuel s offset

/-- Step 5 of R148: the link of a done block is read and judged. -/
def State.followLink (s : State) (offset : Nat) : State :=
  if validBlockOffset (s.linkOf offset) then s.arriveAt (s.linkOf offset) else s.chainFault .linkFault

/-- The block in hand is done with its result already written (R148 steps 2 to 5, R149). -/
def State.endBlock (s : State) (b : Block) : State := (s.closeBlock b.offset b.notify).followLink b.offset

/-- The block in hand is done with a result (R148). -/
def State.blockDone (s : State) (b : Block) (r : BlockResult) : State := (s.writeResult b.offset r).endBlock b

/-! ### Header (R141, R146) -/

/-- The header is read: on a pass the expected tag, the anchor to the escrow writer, and the arrival; else a header
fault (R146, R149). -/
def State.readHeaderStep (s : State) : State :=
  let h := readHeader s.mem
  if h.passes then
    ((s.setChain { s.chain with state := .running, expected := some h.startTag }).takeAnchor h.escrowAnchor).arriveAt
      h.anchor
  else s.chainFault .headerFault

/-! ### The end of a touchdown (R152 to R154) -/

/-- Once every entry of a started touchdown is final: a release or a halt is written and held, else the block is done
with OK (R152, R153, R154). -/
def State.settleTouchdown (s : State) : State :=
  match s.chain.block with
  | some b =>
    match b.work with
    | .touchdown es true released halted =>
      if s.chain.state = .running ∧ s.allFinal es then
        if released then ((s.writeResult b.offset .released).leaveSites).enterHeld .release
        else if halted then ((s.writeResult b.offset .halted).leaveSites).enterHeld .halt
        else s.leaveSites.blockDone b .ok
      else s
    | _ => s
  | none => s

/-! ### Release (R153) -/

/-- The touchdown in hand has started and is not all final: a release finds it (R153). -/
def State.releasable (s : State) : Option Block :=
  match s.chain.block with
  | some b =>
    match b.work with
    | .touchdown _ true _ _ => if s.chain.state = .running then some b else none
    | _ => none
  | none => none

/-- The block with its release marked as taken. -/
def Block.markReleased (b : Block) : Block :=
  match b.work with
  | .touchdown es st _ halted => { b with work := .touchdown es st true halted }
  | _ => b

/-- A release is taken (R153): event and count, then the channels and the waiting set, then every site, in the order of
simultaneous arrivals (log 10). -/
def State.takeRelease (s : State) (b : Block) : State :=
  let t := (s.raise .contactLost).bump .releases
  let u := (t.setChain { t.chain with block := some b.markReleased }).releaseChannels
  ((u.siteOrder.foldl State.releaseSite u).freshOrder).settleTouchdown

/-- A release, if it finds a touchdown (R150, R153). -/
def State.releaseIfRunning (s : State) : State :=
  match s.releasable with
  | some b => s.takeRelease b
  | none => s

end Sys2Proof.Machine
end

