-- ==== Sys2Proof/Machine/ChannelEvents.lean ====
section
/-! DEFINITION. The meanings of the channel and timer events (R28, R48, R49, R51, R52, R57). -/

namespace Sys2Proof.Machine

/-- PULSE_COMPLETE (R51): the site charges the pulse and begins its settle delay, the channel becomes READY and is
offered to the arbiter. -/
def execPulseComplete (c : Chan) (s : State) : Host.Outcome State Fault Refusal :=
  .next <|
    match s.chans[c].state with
    | .driving owner w _ =>
      (((s.setChan c { s.chans[c] with state := .ready }).chargePulse owner w).beginSettle owner).arbitrate
    | _ => s

/-- REGULATION_LOST (R49, R52). -/
def execRegulationLost (c : Chan) (s : State) : Host.Outcome State Fault Refusal :=
  .next <|
    let t := s.setChan c { s.chans[c] with good := false }
    match s.chans[c].state with
    | .driving owner w _ => ((t.chargePulse owner w).beginSettle owner).goOffline c
    | .offline => t
    | _ => t.goOffline c

/-- REGULATION_RESTORED (R49, R48). -/
def execRegulationRestored (c : Chan) (s : State) : Host.Outcome State Fault Refusal :=
  .next <|
    match s.chans[c].state with
    | .offline => s.setChan c { state := .settling 0, good := true }
    | _ => s.setChan c { s.chans[c] with good := true }

/-- SETTLE_TIMER_EXPIRY (R48): the channel becomes READY and is offered to the arbiter. -/
def execSettleTimerExpiry (c : Chan) (s : State) : Host.Outcome State Fault Refusal :=
  .next <|
    match s.chans[c].state with
    | .settling _ => (s.setChan c { s.chans[c] with state := .ready }).arbitrate
    | _ => s

/-- SITE_SETTLE_DELAY_END (R28): the site sends SENSE_BIT for the current bit. -/
def execSiteSettleDelayEnd (n : Site) (s : State) : Host.Outcome State Fault Refusal :=
  .next <|
    match s.sites[n] with
    | some c =>
      if c.state = .settling then
        s.send n c .sensing .senseBit ((c.burnState s.profile).curPhys s.profile) (c.burnState s.profile).bit 0
      else s
    | none => s

/-- GRANT_LIMIT_EXPIRY (R57, R61): without a request it has no effect. -/
def execGrantLimitExpiry (n : Site) (s : State) : Host.Outcome State Fault Refusal :=
  .next <|
    if s.isWaiting n then
      let t := (s.leaveWaiting n).bump .grantTimeouts
      match s.sites[n] with
      | some c => t.stopBurn n c .supply
      | none => t
    else s

end Sys2Proof.Machine
end

