-- ==== Sys2Proof/Machine/Commands.lean ====
section
/-! DEFINITION. The meanings of the register writes and of CONTACT: NUDGE, CONTINUE, RELEASE, EVENTS_WRITE,
EVENT_ENABLE_WRITE, OTHER_REGISTER_WRITE, CONTACT_RISE, CONTACT_FALL. While resetting is set every write to CONTROL is
discarded (R177; which kinds of reset that rule speaks of, and what the model chooses for the others, log 34 says). -/

namespace Sys2Proof.Machine

/-- A NUDGE at the chain unit (R146, R147, R150). -/
def State.nudgeChain (s : State) : State :=
  match s.chain.state, s.chain.offset with
  | .idle, _ => s.readHeaderStep
  | .waiting, some offset => if s.blockReady offset then s.arriveAt offset else s
  | _, _ => s

/-- A CONTINUE at the chain unit (R149). -/
def State.continueChain (s : State) : State :=
  match s.chain.state with
  | .held .headerFault => s.readHeaderStep
  | .held .linkFault =>
    match s.chain.lastDone with
    | some offset => s.followLink offset
    | none => s
  | .held .release =>
    match s.chain.block with
    | some b => if s.contact then s.endBlock b else (s.raise .contactLost).enterHeld .release
    | none => s
  | .held .halt =>
    match s.chain.block with
    | some b => s.endBlock b
    | none => s
  | _ => s

/-- NUDGE (R150, R164): the chain unit and the escrow writer take it, in either order (log 11). While resetting is set it
is discarded, after a reset of any kind (R177 and its Note). -/
def execNudge (writerFirst : Bool) (s : State) : Host.Outcome State Fault Refusal :=
  .next <|
    if s.reg.resetting then s
    else if writerFirst then s.nudgeWriter.nudgeChain else s.nudgeChain.nudgeWriter

/-- CONTINUE (R149, R150). While resetting is set it is discarded: R177 states this of an engine reset, and after a
power-on or link reset it is the model's choice (DESIGN CHOICE, log 34). -/
def execContinue (s : State) : Host.Outcome State Fault Refusal :=
  .next <| if s.reg.resetting then s else s.continueChain

/-- RELEASE (R150, R153). While resetting is set it is discarded: R177 states this of an engine reset, and after a
power-on or link reset it is the model's choice (DESIGN CHOICE, log 34). -/
def execRelease (s : State) : Host.Outcome State Fault Refusal :=
  .next <| if s.reg.resetting then s else s.releaseIfRunning

/-- EVENTS_WRITE (R180). -/
def execEventsWrite (value : BitVec 32) (s : State) : Host.Outcome State Fault Refusal :=
  .next (s.setReg (s.reg.clearEvents value))

/-- EVENT_ENABLE_WRITE (R180, R181). -/
def execEventEnableWrite (value : BitVec 32) (s : State) : Host.Outcome State Fault Refusal :=
  .next (s.setReg (s.reg.writeEnable value))

/-- OTHER_REGISTER_WRITE: discarded (R176, R177). -/
def execOtherRegisterWrite (_offset _size : Nat) (_value : BitVec 32) (s : State) : Host.Outcome State Fault Refusal :=
  .next s

/-- A TOUCHDOWN that waits for CONTACT starts (R152). -/
def State.startWaiting (s : State) : State :=
  match s.chain.block with
  | some b =>
    match b.work with
    | .touchdown es false _ _ => (s.startEntries b es).settleTouchdown
    | _ => s
  | none => s

/-- CONTACT_RISE (R152, R186): a rise from the low level starts a waiting touchdown. -/
def execContactRise (s : State) : Host.Outcome State Fault Refusal :=
  .next <| if s.contact then s else (s.setContact true).startWaiting

/-- CONTACT_FALL (R153, R186): a fall from the high level is a release during a started touchdown. -/
def execContactFall (s : State) : Host.Outcome State Fault Refusal :=
  .next <| if s.contact then (s.setContact false).releaseIfRunning else s

end Sys2Proof.Machine
end

