-- ==== Sys2Proof/Machine/CompositionEvents.lean ====
section
/-! DEFINITION. The meaning of COMPOSITION_COMPLETE (R69, R111). -/

namespace Sys2Proof.Machine

/-- The identity is returned to the site (R69): it asks for a place, or ends at a pending halt (R81). -/
def State.identityReturned (s : State) (n : Site) (c : SiteCtx) (i : Identity) : State :=
  let d := { c with identity := some i }
  if c.haltPending then s.endEarly n d .halt else (s.setSite n d).queueTable (.hold n c.die)

/-- The composition unit answers the request in hand (R69, R111): an identity, or an error that ends the entry. -/
def State.composed (s : State) (r : CompRequest) (answer : Except ComposeError Identity) : State :=
  match s.sites[r.site] with
  | some c =>
    match answer with
    | .ok i => s.identityReturned r.site c i
    | .error _ => s.finish r.site c .refusedCompose
  | none => s

/-- What the composition unit makes of a request: the request's own lot name, the wafer's list, table and pad
(R111, R118). No request waits without an open wafer. -/
def State.composeRequest (s : State) (r : CompRequest) : Except ComposeError Identity :=
  match s.chain.wafer with
  | some w => compose { w with lot := r.lot } r
  | none => .error .badChar

/-- COMPOSITION_COMPLETE (R111). -/
def execCompositionComplete (s : State) : Host.Outcome State Fault Refusal :=
  .next <|
    match s.comp with
    | r :: rest => ((s.setComp rest).composed r (s.composeRequest r)).settleTouchdown
    | [] => s

end Sys2Proof.Machine
end

