-- ==== Sys2Proof/Machine/DiePort.lean ====
section
/-! DEFINITION. The meanings of the die-port events (R12 to R21, R65): the five responses and the frame timeout. -/

namespace Sys2Proof.Machine

/-- A HELLO exchange ended; HELLO is never REFUSED (R14, R65). -/
def State.helloEnded (s : State) (n : Site) (c : SiteCtx) (_e : Exchange) (d : Option (BitVec 64)) : State :=
  match d with
  | some v => s.helloOk n c v
  | none => s

/-- HELLO_RESPONSE (R65). -/
def execHelloResponse (n : Site) (f : ResponseFrame) (s : State) : Host.Outcome State Fault Refusal :=
  .next (s.respond n .hello f State.helloEnded).settleTouchdown

/-- ROW_CHECK_RESPONSE (R18). -/
def execRowCheckResponse (n : Site) (f : ResponseFrame) (s : State) : Host.Outcome State Fault Refusal :=
  .next (s.respond n .rowCheck f fun t m c _ d => t.rowCheckEnded m c d).settleTouchdown

/-- An ARM_BIT exchange ended (R26). -/
def State.armEnded (s : State) (n : Site) (c : SiteCtx) (_e : Exchange) (d : Option (BitVec 64)) : State :=
  match d with
  | some _ => s.armed n c
  | none => s.armRefused n c

/-- ARM_BIT_RESPONSE (R26). -/
def execArmBitResponse (n : Site) (f : ResponseFrame) (s : State) : Host.Outcome State Fault Refusal :=
  .next (s.respond n .armBit f State.armEnded).settleTouchdown

/-- A SENSE_BIT exchange ended: REFUSED is a code of 1023 (R15, R28). -/
def State.senseEnded (s : State) (n : Site) (c : SiteCtx) (_e : Exchange) (d : Option (BitVec 64)) : State :=
  match d with
  | some v => s.sensed n c (senseCode v)
  | none => s.sensed n c 1023

/-- SENSE_BIT_RESPONSE (R28). -/
def execSenseBitResponse (n : Site) (f : ResponseFrame) (s : State) : Host.Outcome State Fault Refusal :=
  .next (s.respond n .senseBit f State.senseEnded).settleTouchdown

/-- A READ_TAG part ended: REFUSED is a die that is not locked (R15, R21). -/
def State.tagEnded (s : State) (n : Site) (c : SiteCtx) (e : Exchange) (d : Option (BitVec 64)) : State :=
  match d with
  | some v => s.tagRead n c e.arg v
  | none => s.finish n c .notLocked

/-- READ_TAG_RESPONSE (R21). -/
def execReadTagResponse (n : Site) (f : ResponseFrame) (s : State) : Host.Outcome State Fault Refusal :=
  .next (s.respond n .readTag f State.tagEnded).settleTouchdown

/-- The timeout of a site's attempt runs out, if an exchange is in flight (R14). -/
def State.timeoutAt (s : State) (n : Site) : State :=
  match s.sites[n] with
  | some c =>
    match c.exch with
    | some e => s.attemptFailed n c e
    | none => s
  | none => s

/-- FRAME_TIMEOUT (R14). -/
def execFrameTimeout (n : Site) (s : State) : Host.Outcome State Fault Refusal :=
  .next (s.timeoutAt n).settleTouchdown

end Sys2Proof.Machine
end

