-- ==== Sys2Proof/Machine/DumpOps.lean ====
section
/-! DEFINITION. The records of a dump (R138, section 11.2). -/

namespace Sys2Proof.Machine

/-- Die table state codes of a dump record (section 11.2). -/
def EntryState.code : EntryState → Nat
  | .issued => 1
  | .parked => 2
  | .burned => 3
  | .failed => 4
  | .void => 5

/-- A die table entry record of 16 bytes. -/
def entryRecord (e : Die × DieEntry) : List Byte :=
  leBytes 2 e.1.x ++ leBytes 2 e.1.y ++ [BitVec.ofNat 8 e.2.state.code, 0, 0, 0] ++ serialField e.2.serial

/-- A parked summary of 16 bytes. -/
def summaryRecord (c : ParkedContext) : List Byte :=
  leBytes 2 c.die.x ++ leBytes 2 c.die.y ++ [BitVec.ofNat 8 c.burn.rowsDone, BitVec.ofNat 8 c.touchdowns, 0, 0] ++
    serialField c.serial

/-- How many entry records fit in a capacity (R138). -/
def DieTableUnit.entriesDumped (u : DieTableUnit) (capacity : Nat) : Nat := min (capacity / 16) u.entries.length

/-- How many summaries fit behind them: none once an entry record did not fit (R138). -/
def DieTableUnit.summariesDumped (u : DieTableUnit) (capacity : Nat) : Nat :=
  if u.entriesDumped capacity < u.entries.length then 0 else min (capacity / 16 - u.entries.length) u.parked.length

/-- The records that a dump of a capacity writes, in their order (R138). -/
def DieTableUnit.dumpRecords (u : DieTableUnit) (capacity : Nat) : List (List Byte) :=
  (u.entries.take (u.entriesDumped capacity)).map entryRecord ++
    (u.parked.take (u.summariesDumped capacity)).map summaryRecord

/-- The bytes that a dump of a capacity writes from the start of the buffer (R138). -/
def DieTableUnit.dumpBytes (u : DieTableUnit) (capacity : Nat) : List Byte := (u.dumpRecords capacity).flatten

/-- A dump's records are written (R138). -/
def State.writeDump (s : State) (buffer capacity : Nat) : State := s.store buffer (s.dies.dumpBytes capacity)

/-- The four counts are written into the DUMP block (R138, section 11.2). -/
def State.writeDumpCounts (s : State) (b : Block) (capacity : Nat) : State :=
  (((s.storeField (b.offset + 72) 4 (s.dies.entriesDumped capacity)).storeField (b.offset + 76) 4
    (s.dies.summariesDumped capacity)).storeField (b.offset + 80) 4 s.dies.entries.length).storeField (b.offset + 84) 4
    s.dies.parked.length

end Sys2Proof.Machine
end

