-- ==== Sys2Proof/Machine/KeyEvents.lean ====
section
/-! DEFINITION. The meanings of the key unit's events (R88, R89, R94 to R97, R101 to R105): KEY_IMPORT_COMPLETE,
DERIVATION_QUEUE_SERVE, RESERVATION_SUCCESS, RESERVATION_FAILURE, DERIVATION_COMPLETE. -/

namespace Sys2Proof.Machine

/-! ### Key import (R88, R89) -/

/-- The plain content of the root blob in the working store (R88). -/
def ImportStore.root (st : ImportStore) : Key × BitVec 32 :=
  Config.unwrapRoot Config.importKey (st.rootBlob.take 36)

/-- The plain content of the transport blob in the working store (R88). -/
def ImportStore.transport (st : ImportStore) : Key :=
  Config.unwrapTransport Config.importKey (st.transportBlob.take 32)

/-- Both blobs' tags verify (R88, R89). -/
def ImportStore.verifies (st : ImportStore) : Bool :=
  decide (Config.rootTag Config.importKey st.root = BitVec.ofNat 64 (leNat (st.rootBlob.drop 36))) &&
    decide (Config.transportTag Config.importKey st.transport = BitVec.ofNat 64 (leNat (st.transportBlob.drop 32)))

/-- The key unit decides a LOAD_KEYS and erases the working store (R88, R89): on two good tags the keys are replaced. -/
def KeyUnit.import (k : KeyUnit) (st : ImportStore) : KeyUnit :=
  let base := { k with importing := none }
  if st.verifies then
    { base with rootKey := st.root.1, rootId := st.root.2, transportKey := st.transport, loaded := true }
  else base

/-- The block result that the key unit answers (R89). -/
def ImportStore.answer (st : ImportStore) : BlockResult := if st.verifies then .ok else .keysRejected

/-- The LOAD_KEYS in hand is done with the key unit's answer (R156). -/
def State.loadKeysDone (s : State) (r : BlockResult) : State :=
  match s.chain.block with
  | some b =>
    match b.work with
    | .loadKeys => s.blockDone b r
    | _ => s
  | none => s

/-- KEY_IMPORT_COMPLETE (R89). -/
def execKeyImportComplete (s : State) : Host.Outcome State Fault Refusal :=
  .next <|
    match s.keys.importing with
    | some st => (s.setKeys (s.keys.import st)).loadKeysDone st.answer
    | none => s

/-! ### Serving the derivation queue (R94, R97, R101) -/

/-- The request at the head is refused (R101): it leaves the queue, the site gives its place back and ends with the
refusal (R70). -/
def State.refuseHead (s : State) (r : DerivRequest) (result : SiteResult) : State :=
  let t := s.setKeys { s.keys with queue := s.keys.queue.tail }
  match t.sites[r.site] with
  | some c => (t.giveBack r.site c).finish r.site { c with placeHeld := false } result
  | none => t

/-- The lot name and wafer number that a derivation takes from the wafer context (R102). -/
def State.waferLot (s : State) : List Byte := (s.chain.wafer.map WaferContext.lot).getD []
def State.waferNumber (s : State) : Nat := (s.chain.wafer.map WaferContext.number).getD 0

/-- A derivation begins with the serial next (R101, R102). -/
def State.beginDerivation (s : State) (r : DerivRequest) : State :=
  s.setKeys
    { s.keys with
      derivation := some
        { serial := s.keys.next
          key := Config.deriveKey s.keys.rootKey s.keys.next s.waferLot s.waferNumber r.die.x r.die.y } }

/-- A request finds next = limit (R94): a reservation write of H + 256 starts, or the allocator is EXHAUSTED and the
request is refused (R97, log 25). -/
def State.reserveFor (s : State) (r : DerivRequest) : State :=
  if s.keys.h + 256 ≤ serialTop then
    s.setKeys { s.keys with alloc := .reserving, writeInFlight := some (s.keys.h + 256) }
  else (s.setKeys { s.keys with alloc := .exhausted }).refuseHead r .refusedSerials

/-- The tests of R101 on the request at the head, in order. -/
def State.serveHead (s : State) (r : DerivRequest) : State :=
  if !s.keys.loaded then s.refuseHead r .refusedNoKeys
  else
    match s.keys.alloc with
    | .fault => s.refuseHead r .refusedAlloc
    | .exhausted => s.refuseHead r .refusedSerials
    | .reserving => s
    | .ready => if s.keys.next < s.keys.limit then s.beginDerivation r else s.reserveFor r

/-- The key unit serves its head when no derivation is in progress and the allocator is not RESERVING (R101). -/
def State.serveQueue (s : State) : State :=
  match s.keys.derivation, s.keys.queue with
  | none, r :: _ => if s.keys.alloc = .reserving then s else s.serveHead r
  | _, _ => s

/-- DERIVATION_QUEUE_SERVE (R101). -/
def execDerivationQueueServe (s : State) : Host.Outcome State Fault Refusal :=
  .next s.serveQueue.settleTouchdown

/-! ### Reservations (R91, R95, R96, R98) -/

/-- The key unit takes a success (R95). -/
def KeyUnit.reserved (k : KeyUnit) : KeyUnit :=
  { k with h := k.h + 256, next := k.h, limit := k.h + 256, alloc := .ready }

/-- RESERVATION_SUCCESS (R95). A report that comes while a reset lasts is not acted on (R98). -/
def execReservationSuccess (s : State) : Host.Outcome State Fault Refusal :=
  .next <|
    match s.keys.writeInFlight with
    | some v =>
      let k := { s.keys with reserve := v, writeInFlight := none }
      s.setKeys (if s.reg.resetting then k else k.reserved)
    | none => s

/-- RESERVATION_FAILURE (R96). The memory holds the old value or the new one (R91, log 18). -/
def execReservationFailure (tookNew : Bool) (s : State) : Host.Outcome State Fault Refusal :=
  .next <|
    match s.keys.writeInFlight with
    | some v =>
      let k := { s.keys with reserve := if tookNew then v else s.keys.reserve, writeInFlight := none }
      if s.reg.resetting then s.setKeys k else (s.setKeys { k with alloc := .fault }).raise .allocFault
    | none => s

/-! ### Completion of a derivation (R103, R105, R70) -/

/-- The wrapped key of a die key (R105). -/
def KeyUnit.wrap (k : KeyUnit) (key : Key) (serial : Nat) (d : Die) (number : Nat) : WrappedKey :=
  let cipher := Config.encipher k.transportKey key
  { cipher := cipher, tag := Config.wrapTag k.transportKey cipher serial d.x d.y number k.rootId }

/-- The ISSUE record of a site (R169). -/
def State.issueRecord (s : State) (c : SiteCtx) (d : Derivation) (w : WrappedKey) : IssueRecord where
  serial := d.serial
  waferSeq := s.chain.waferSeq
  rootId := s.keys.rootId
  lot := s.waferLot
  number := s.waferNumber
  die := c.die
  identity := (c.identity.map Identity.chars).getD []
  check := checkWord d.key
  wrapped := w

/-- A site holds a serial, a key and a check word, and forms its record targets (R70, R72). -/
def SiteCtx.takeKey (c : SiteCtx) (serial : Nat) (key : Key) : SiteCtx :=
  { c with
    serial := some serial, key := some key, check := some (checkWord key)
    targets := some (recordTargets key (checkWord key) serial ((c.identity.map Identity.codes).getD [])) }

/-- The site takes a completed derivation (R70): its place becomes the die's ISSUED entry, its ISSUE joins the write
queue, and it enters ESCROW_WAIT. -/
def State.takeDerivation (s : State) (n : Site) (c : SiteCtx) (d : Derivation) : State :=
  let w := s.keys.wrap d.key d.serial c.die s.waferNumber
  ((s.setSite n
      { c.takeKey d.serial d.key with wrapped := some w, placeHeld := false, state := .escrowWait }).queueTable
    (.toEntry n c.die d.serial)).queueRecord (.issue (s.issueRecord c d w)) (.site n)

/-- The key unit ends a derivation (R103): next rises, the request leaves the queue, the working store is erased. -/
def KeyUnit.derived (k : KeyUnit) : KeyUnit :=
  { k with next := k.next + 1, queue := k.queue.tail, derivation := none }

/-- DERIVATION_COMPLETE (R103). -/
def execDerivationComplete (s : State) : Host.Outcome State Fault Refusal :=
  .next <|
    match s.keys.derivation, s.keys.queue with
    | some d, r :: _ =>
      let t := (s.setKeys s.keys.derived).bump .keysIssued
      match t.sites[r.site] with
      | some c => t.takeDerivation r.site c d
      | none => t
    | _, _ => s

end Sys2Proof.Machine
end

