-- ==== Sys2Proof/Machine/TableEvents.lean ====
section
/-! DEFINITION. The meanings of the die table unit's events (chapter 7): each serves the request at the head of the
unit's queue (R122), and has no effect when that head is of another kind (log 16). -/

namespace Sys2Proof.Machine

/-- The head of the unit's queue is served and leaves it (R122). -/
def State.popTable (s : State) : State := s.setDies s.dies.pop

/-! ### Lookup (R66, R67, R75, R123) -/

/-- The saturating touchdown count of a resumed context (R123). -/
def resumedTouchdowns (n : Nat) : Nat := min 255 (n + 1)

/-- A die is absent (R66, R67): ALREADY_LOCKED, or the two tests of PREP and the first row of the blank check. -/
def State.absentDie (s : State) (n : Site) (c : SiteCtx) : State :=
  if c.locked = some true then s.finish n c .alreadyLocked
  else if c.haltPending then s.endEarly n c .halt
  else if !s.profile.windowTest then s.finish n c .refusedWindow
  else if !s.profile.geometryTest (c.rows.getD 0) then s.finish n c .refusedGeometry
  else s.sendRowCheck n { c with checkIndex := 0 } .prep (s.profile.blankRow 0)

/-- A site context that has taken a parked context (R66). -/
def SiteCtx.resume (c : SiteCtx) (p : ParkedContext) : SiteCtx :=
  { c with
    serial := some p.serial, key := some p.key, check := some p.check, identity := some p.identity
    burn := some p.burn, touchdowns := some (resumedTouchdowns p.touchdowns)
    targets := some (recordTargets p.key p.check p.serial p.identity.codes)
    state := .resumeCheck }

/-- A lookup finds the die PARKED: the context is taken out of the list, the entry becomes ISSUED, and the site resumes
(R123, R134, R66, R75). -/
def State.resumeDie (s : State) (n : Site) (c : SiteCtx) (p : ParkedContext) : State :=
  let t := (s.setDies { s.dies.mark p.die .issued with parked := removeContext s.dies.parked p }).bump .diesResumed
  let d := c.resume p
  if c.haltPending then t.stopBurn n d .halt else t.resumeFrom n d p.burn 0

/-- What a site does with the answer to its lookup (R66). An ISSUED die is not looked up (R123, log 27). -/
def State.lookedUp (s : State) (n : Site) (c : SiteCtx) (die : Die) : State :=
  match tableFind s.dies.entries die with
  | none => s.absentDie n c
  | some e =>
    match e.state with
    | .burned => s.finish n c .alreadyDone (some e.serial)
    | .void => s.finish n c .refusedVoid (some e.serial)
    | .failed => s.finish n c .refusedFailed (some e.serial)
    | .parked =>
      match heldContext s.dies.parked die with
      | some p => s.resumeDie n c p
      | none => s
    | .issued => s

/-- DIE_LOOKUP (R123). -/
def execDieLookup (s : State) : Host.Outcome State Fault Refusal :=
  .next <|
    match s.dies.queue with
    | .lookup n die :: _ =>
      let t := s.popTable
      match t.sites[n] with
      | some c => (t.lookedUp n c die).settleTouchdown
      | none => t
    | _ => s

/-! ### Places (R69, R70, R72, R124) -/

/-- A place is held for a site's die. -/
def DieTableUnit.holdPlace (u : DieTableUnit) (n : Site) (die : Die) : DieTableUnit :=
  { u with places := u.places ++ [{ site := n, die := die }] }

/-- The site enters ISSUE_WAIT with its place held (R69): a live one joins the derivation queue (R100), a dry-run one
takes the dry-run key at once and begins its burn (R72), and one with a halt pending gives the place back (R127). -/
def State.placeGranted (s : State) (n : Site) (c : SiteCtx) : State :=
  let h := { c with placeHeld := true }
  if c.haltPending then s.endEarly n h .halt
  else if s.dryRun then
    (s.queueTable (.toEntry n c.die 0)).beginBurn n { c.takeKey 0 dryRunKey with placeHeld := false }
  else
    let t := s.setSite n { h with state := .issueWait }
    t.setKeys { t.keys with queue := t.keys.queue ++ [{ site := n, die := c.die }] }

/-- PLACE_HOLD (R124). -/
def execPlaceHold (s : State) : Host.Outcome State Fault Refusal :=
  .next <|
    match s.dies.queue with
    | .hold n die :: _ =>
      let t := s.popTable
      match t.sites[n] with
      | some c =>
        if t.dies.hasRoom then ((t.setDies (t.dies.holdPlace n die)).placeGranted n c).settleTouchdown
        else (t.finish n c .refusedTableFull).settleTouchdown
      | none => t
    | _ => s

/-- PLACE_GIVE_BACK (R124). -/
def execPlaceGiveBack (s : State) : Host.Outcome State Fault Refusal :=
  .next <|
    match s.dies.queue with
    | .giveBack n :: _ => s.popTable.setDies (s.popTable.dies.dropPlace n)
    | _ => s

/-- PLACE_TO_ENTRY (R124). -/
def execPlaceToEntry (s : State) : Host.Outcome State Fault Refusal :=
  .next <|
    match s.dies.queue with
    | .toEntry n die serial :: _ =>
      s.popTable.setDies ((s.popTable.dies.dropPlace n).setEntry die { state := .issued, serial := serial })
    | _ => s

/-- VOID_ENTRY (R125, R68). -/
def execVoidEntry (s : State) : Host.Outcome State Fault Refusal :=
  .next <|
    match s.dies.queue with
    | .voidEntry n die :: _ =>
      let t := s.popTable
      let u :=
        if t.dies.hasRoom then (t.setDies (t.dies.setEntry die { state := .void, serial := 0 })).bump .diesVoided else t
      match u.sites[n] with
      | some c => (u.finish n c .refusedNotBlank).settleTouchdown
      | none => u
    | _ => s

/-! ### Settlement (R76, R126) -/

/-- The entry of a die after a settlement (R126). -/
def DieTableUnit.settle (u : DieTableUnit) (die : Die) (outcome : CloseOutcome) : DieTableUnit :=
  match outcome with
  | .burned => u.mark die .burned
  | .failedFuse => u.mark die .failed
  | .failedRemapRow => u.mark die .failed
  | .failedLock => u.mark die .failed
  | .voidMismatch => u.mark die .void
  | .voidUnused => { u with entries := tableErase u.entries die }
  | .voidEvicted => u
  | .voidWaferEnd => u

/-- A context without its key, check word, wrapped key and the targets that repeat them (R76, log 31). -/
def SiteCtx.eraseKey (c : SiteCtx) : SiteCtx :=
  { c with key := none, check := none, wrapped := none, targets := none }

/-- ENTRY_SETTLE (R126): the entry changes and the site enters FINAL (R76, log 7). -/
def execEntrySettle (s : State) : Host.Outcome State Fault Refusal :=
  .next <|
    match s.dies.queue with
    | .settle n die outcome :: _ =>
      let t := s.popTable.setDies (s.popTable.dies.settle die outcome)
      match t.sites[n] with
      | some c => (t.finish n c.eraseKey (closeResult outcome c.stop)).settleTouchdown
      | none => t
    | _ => s

/-! ### Parks and evictions (R77, R130 to R133, R137) -/

/-- The context that a site parks (R77, R129). -/
def SiteCtx.parked (c : SiteCtx) (p : Profile) : ParkedContext where
  status := .held
  die := c.die
  serial := c.serial.getD 0
  key := c.key.getD 0
  check := c.check.getD 0
  identity := c.identity.getD { chars := [], codes := [] }
  burn := c.burnState p
  touchdowns := c.touchdowns.getD 1

/-- The die table unit takes a park (R131): the context joins the end of the list, the entry becomes PARKED, and the
answered site enters FINAL with its PARKED_ result and erases its copies (R77, log 32). -/
def State.joinPark (s : State) (n : Site) (c : SiteCtx) : State :=
  let u := s.dies.mark c.die .parked
  let t := s.setDies { u with parked := u.parked ++ [c.parked s.profile] }
  (t.enterFinal n c c.stop.parkResult none).modSite n fun x => { x.eraseKey with identity := none }

/-- A park is taken (R131) and the site reports its PARKED_ result to the chain unit (R84, R154). -/
def State.takePark (s : State) (n : Site) (c : SiteCtx) : State :=
  (s.joinPark n c).reportResult c.stop.parkResult

/-- A park waits for an eviction (R132): the oldest held context becomes closing and bound to it, its die VOID, its
CLOSE VOID_EVICTED is queued. -/
def State.evictFor (s : State) (n : Site) : State :=
  match oldestHeld s.dies.parked with
  | some p =>
    let u := s.dies.mark p.die .void
    ((s.setDies { u with parked := closeFirstHeld (some n) u.parked }).bump .evictions).queueRecord
      (.close (p.closeRecord .voidEvicted)) .dieTable
  | none => s

/-- In a dry run the oldest held context is evicted at once (R137). -/
def State.evictDry (s : State) : State :=
  match oldestHeld s.dies.parked with
  | some p =>
    let u := s.dies.mark p.die .void
    ((s.setDies { u with parked := removeContext u.parked p }).bump .evictions).bump .diesVoided
  | none => s

/-- A dry-run park that finds the list full (R137): the eviction and the park are one step. -/
def State.parkDry (s : State) (n : Site) (c : SiteCtx) : State :=
  let t := s.evictDry
  if t.dies.parked.length < parkedCapacity then t.takePark n c else t

/-- CONTEXT_PARK (R131, R132, R137). -/
def execContextPark (s : State) : Host.Outcome State Fault Refusal :=
  .next <|
    match s.dies.queue with
    | .park n :: _ =>
      let t := s.popTable
      match t.sites[n] with
      | some c =>
        if t.dies.parked.length < parkedCapacity then (t.takePark n c).settleTouchdown
        else if t.dryRun then (t.parkDry n c).settleTouchdown
        else t.evictFor n
      | none => t
    | _ => s

/-! ### Requests of the chain unit (R128, R136 to R138) -/

/-- TABLE_CLEAR (R128). -/
def execTableClear (s : State) : Host.Outcome State Fault Refusal :=
  .next <|
    match s.dies.queue with
    | .clear :: _ => s.popTable.setDies { s.popTable.dies with entries := [] }
    | _ => s

/-- One held context is voided at a live WAFER_END (R136): closing, bound to nothing, its die VOID, its CLOSE queued. -/
def State.voidLive (s : State) (p : ParkedContext) : State :=
  let u := s.dies.mark p.die .void
  (s.setDies { u with parked := closeFirstHeld none u.parked }).queueRecord (.close (p.closeRecord .voidWaferEnd))
    .dieTable

/-- One held context is voided at a dry-run WAFER_END (R137): it leaves the list, its die VOID, the void counted. -/
def State.voidDry (s : State) (p : ParkedContext) : State :=
  let u := s.dies.mark p.die .void
  (s.setDies { u with parked := removeContext u.parked p }).bump .diesVoided

/-- Every held context is voided, in list order (R136, R137). -/
def State.voidHeld (s : State) : State :=
  (s.dies.parked.filter ParkedContext.isHeld).foldl (if s.dryRun then State.voidDry else State.voidLive) s

/-- The unit answers the void-all: the chain unit queues the WAFER_SUMMARY (R158 step 2). -/
def State.voidAllAnswered (s : State) : State :=
  match s.chain.block with
  | some b =>
    match b.work with
    | .waferEnd => s.queueRecord .summary .chain
    | _ => s
  | none => s

/-- VOID_ALL_PARKED (R136). -/
def execVoidAllParked (s : State) : Host.Outcome State Fault Refusal :=
  .next <|
    match s.dies.queue with
    | .voidAll :: _ => s.popTable.voidHeld.voidAllAnswered
    | _ => s

/-- TABLE_DUMP (R138, R160): the records into the buffer, the counts into the block, which is then done. -/
def execTableDump (s : State) : Host.Outcome State Fault Refusal :=
  .next <|
    match s.dies.queue with
    | .dump buffer capacity :: _ =>
      let t := s.popTable.writeDump buffer capacity
      match t.chain.block with
      | some b =>
        match b.work with
        | .dump => (t.writeDumpCounts b capacity).blockDone b .ok
        | _ => t
      | none => t
    | _ => s

end Sys2Proof.Machine
end

