-- ==== Sys2Proof/Machine/EscrowEvents.lean ====
section
/-! DEFINITION. The meaning of ESCROW_RECORD_WRITE (R166): the record is written, reported (R71, R76, R133, R158), and
a full page or one with a flush pending is handed over (R167, R168). -/

namespace Sys2Proof.Machine

/-- A site's ISSUE is written (R71): the wrapped key is erased and a site still in ESCROW_WAIT begins its burn. -/
def State.issueWritten (s : State) (n : Site) : State :=
  match s.sites[n] with
  | some c =>
    if c.state = .escrowWait then s.beginBurn n { c with wrapped := none } else s.setSite n { c with wrapped := none }
  | none => s

/-- The counter of a CLOSE written by a site (R85). -/
def CloseOutcome.counter : CloseOutcome → Option Counter
  | .burned => some .diesBurned
  | .failedFuse => some .diesFailed
  | .failedRemapRow => some .diesFailed
  | .failedLock => some .diesFailed
  | .voidMismatch => some .diesVoided
  | .voidUnused => none
  | .voidEvicted => none
  | .voidWaferEnd => none

/-- A site's CLOSE is written (R76, R85): its key is erased, the CLOSE is counted, and the settlement is asked for. -/
def State.closeWritten (s : State) (n : Site) (outcome : CloseOutcome) : State :=
  match s.sites[n] with
  | some c =>
    if c.state = .closing ∧ c.closeWritten = false then
      let t := s.setSite n { c.eraseKey with closeWritten := true }
      (match outcome.counter with
        | some k => t.bump k
        | none => t).queueTable (.settle n c.die outcome)
    else s
  | none => s

/-- A site's record is written. -/
def State.siteReport (s : State) (n : Site) : EscrowRecord → State
  | .issue _ => s.issueWritten n
  | .close r => s.closeWritten n r.outcome
  | _ => s

/-- The park that a removed closing context was bound to is taken (R133 step 4), and the result its site then reports. -/
def State.takeBound (s : State) (status : ParkStatus) : State × Option SiteResult :=
  match status with
  | .closing (some n) =>
    match s.sites[n] with
    | some c => (s.joinPark n c, some c.stop.parkResult)
    | none => (s, none)
  | _ => (s, none)

/-- The CLOSE of a closing context is written (R133), and the result of a site whose park is then taken. -/
def State.closingWritten (s : State) (r : CloseRecord) : State × Option SiteResult :=
  match closingContext s.dies.parked r.die with
  | some p =>
    ((s.setDies { s.dies with parked := removeContext s.dies.parked p }).bump .diesVoided).takeBound p.status
  | none => (s, none)

/-- The die table unit's record is written. -/
def State.tableReport (s : State) : EscrowRecord → State × Option SiteResult
  | .close r => s.closingWritten r
  | _ => (s, none)

/-- What the requester of an ISSUE or CLOSE does with its report (R71, R76, R133), and the site result that follows from
it, not yet reported to the chain unit. -/
def State.requesterReport (s : State) (r : RecordRequest) : State × Option SiteResult :=
  match r.report with
  | .site n => (s.siteReport n r.record, none)
  | .dieTable => s.tableReport r.record
  | .chain => (s, none)
  | .nobody => (s, none)

/-- The chain unit's part after the requester's: the site result, if there is one, and the end of the touchdown (R152,
R154). -/
def State.settleReport (s : State) : Option SiteResult → State
  | some r => (s.reportResult r).settleTouchdown
  | none => s.settleTouchdown

/-- The WAFER_SUMMARY is written (R158 steps 4 and 5): flush, the wafer closes, the block is done with OK. -/
def State.summaryWritten (s : State) : State :=
  match s.chain.block with
  | some b =>
    match b.work with
    | .waferEnd => (s.flush.setChain { s.flush.chain with wafer := none }).blockDone b .ok
    | _ => s
  | none => s

/-- A written record is reported (R165). -/
def State.reportWritten (s : State) (r : RecordRequest) : State :=
  match r.report with
  | .nobody => s
  | .chain => s.summaryWritten
  | .site _ | .dieTable => (s.requesterReport r).1.settleReport (s.requesterReport r).2

/-- The flush that waited for this record's write is carried out (R168). -/
def State.flushAfter (s : State) (waiting : Bool) : State := if waiting then s.handOverRecords else s

/-- The head of the queue is written into the open page, with its report, hand-over and flush (R166, R168). -/
def State.writeRecord (s : State) : State :=
  match s.writeHead with
  | some (t, r) =>
    (((t.setEscrow { t.escrow with flushPending := false }).reportWritten r).handOverFull).flushAfter
      s.escrow.flushPending
  | none => s

/-- ESCROW_RECORD_WRITE (R166). -/
def execEscrowRecordWrite (s : State) : Host.Outcome State Fault Refusal :=
  .next s.makeRoom.writeRecord

end Sys2Proof.Machine
end

