-- ==== Sys2Proof/Machine/Resets.lean ====
section
/-! DEFINITION. The three resets and their end (R62, R86, R98, R107, R120, R139, R145, R150, R162, R174, R177, R183,
R184, R186). -/

namespace Sys2Proof.Machine

/-- A dump in progress is stopped: the words it reached stay, the counts are not written (R139, R140, log 13). -/
def State.stopDump (s : State) (words : Nat) : State :=
  match s.dies.queue with
  | .dump buffer capacity :: _ => s.store buffer ((s.dies.dumpBytes capacity).take (4 * words))
  | _ => s

/-- A record in progress as a reset finds it (R174 step 1, R175): abandoned, or written, counted and, where it is an
ISSUE or a CLOSE, reported: its requester has done all that the report starts, a bound park taken (R71, R76, R133). What
the chain unit would do next, and the hand-over of a page that the record fills, the reset overtakes (log 13). -/
def State.cutRecord (s : State) : RecordCut → State
  | .abandoned words => s.abandonRecord words
  | .counted =>
    match s.writeHead with
    | some (t, r) => (t.requesterReport r).1
    | none => s

/-- The escrow writer at a reset (R174, R175): the record in progress is abandoned, or stands counted and reported; an
engine reset hands over an open page that holds records, the queue is emptied and the writer takes the values of
R162. -/
def State.resetEscrow (s : State) (hardware : Bool) (cut : RecordCut) : State :=
  let t := s.cutRecord cut
  (if hardware then t else t.resetHandOver).setEscrow .reset

/-- The register window at a reset (R177, R184). -/
def RegisterBlock.atReset (r : RegisterBlock) (cause : ResetCause) (hardware : Bool) : RegisterBlock :=
  { r with lastReset := cause, resetting := true, events := 0, enable := if hardware then 0 else r.enable }

/-- The key unit at a reset, up to the reading of H (R98, R107): the queue and the working stores go, a hardware reset
clears the keys. A write in flight goes on. -/
def KeyUnit.atReset (k : KeyUnit) (hardware : Bool) : KeyUnit :=
  let base := { k with importing := none, queue := [], derivation := none }
  if hardware then { base with rootKey := 0, rootId := 0, transportKey := 0, loaded := false } else base

/-- The chain unit at a reset (R145, R150): the wafer sequence survives an engine reset. -/
def ChainUnit.atReset (c : ChainUnit) (hardware : Bool) : ChainUnit :=
  { ChainUnit.reset with waferSeq := if hardware then 0 else c.waferSeq }

/-- What every reset does (R184 and each chapter's reset section). The channels come last: a channel that enters OFFLINE
at the reset sets its event and counts after the clears (R62, R183). -/
def State.resetBoard (s : State) (cause : ResetCause) (hardware : Bool) (inp : ResetInputs) : State :=
  let a := (s.stopDump inp.dumpWords).resetEscrow hardware inp.record
  let b := (a.setReg (a.reg.atReset cause hardware)).clearCounters
  let c := (b.setChain (b.chain.atReset hardware)).setKeys (b.keys.atReset hardware)
  let d := ((c.leaveSites.setComp []).setDies .reset).setContact inp.contact
  d.resetChannels inp.regulation

/-- ENGINE_RESET (R177). While resetting is set it is discarded: R177 states this of a second one during an engine reset,
and after a power-on or link reset it is the model's choice (DESIGN CHOICE, log 34). -/
def execEngineReset (inp : ResetInputs) (s : State) : Host.Outcome State Fault Refusal :=
  .next <| if s.reg.resetting then s else s.resetBoard .engine false inp

/-- LINK_RESET (R184). -/
def execLinkReset (inp : ResetInputs) (s : State) : Host.Outcome State Fault Refusal :=
  .next (s.resetBoard .link true inp)

/-- The reserve memory after a loss of power: a write in flight left the old or the new value (R91). -/
def KeyUnit.losePower (k : KeyUnit) (tookNew : Bool) : KeyUnit :=
  match k.writeInFlight with
  | some v => { k with reserve := if tookNew then v else k.reserve, writeInFlight := none }
  | none => k

/-- Job memory's contents after a power-on are undefined (R140): a fresh free value (log 2). R174 says of the open page that
a power-on reset too leaves it as it stood: that the page is undefined with the rest is the model's choice between the
two rules, which the free value allows both (DESIGN CHOICE, log 36). -/
def State.scrambleMemory (s : State) : State :=
  { s.setMem (Memory.ofCells (Config.powerOnImage s.freeCount s.mem)) with freeCount := s.freeCount + 1 }

/-- POWER_ON_RESET (R184). -/
def execPowerOnReset (inp : ResetInputs) (tookNew : Bool) (s : State) : Host.Outcome State Fault Refusal :=
  .next <|
    let t := s.resetBoard .power true inp
    (t.setKeys (t.keys.losePower tookNew)).scrambleMemory

/-- The key unit reads H: next and limit become the H read, the allocator READY, and no derivation runs (R98, R107). -/
def KeyUnit.readMark (k : KeyUnit) : KeyUnit :=
  { k with h := k.reserve, next := k.reserve, limit := k.reserve, alloc := .ready, derivation := none }

/-- RESET_COMPLETE (R98, R177): a reset ends once the key unit has read H, after a write in flight has ended. -/
def execResetComplete (s : State) : Host.Outcome State Fault Refusal :=
  .next <|
    if s.reg.resetting ∧ s.keys.writeInFlight = none then
      (s.setKeys s.keys.readMark).setReg { s.reg with resetting := false }
    else s

end Sys2Proof.Machine
end

