-- ==== Sys2Proof/Machine/Dispatch.lean ====
section
/-! DEFINITION. The meaning of each command: one arm per constructor of Instr, one direct call each. -/

namespace Sys2Proof.Machine

def exec (i : Instr) (s : State) : Host.Outcome State Fault Refusal :=
  match i with
  | .nudge writerFirst => Sys2Proof.Machine.execNudge writerFirst s
  | .continueCmd => Sys2Proof.Machine.execContinue s
  | .release => Sys2Proof.Machine.execRelease s
  | .engineReset inputs => Sys2Proof.Machine.execEngineReset inputs s
  | .eventsWrite value => Sys2Proof.Machine.execEventsWrite value s
  | .eventEnableWrite value => Sys2Proof.Machine.execEventEnableWrite value s
  | .otherRegisterWrite offset size value => Sys2Proof.Machine.execOtherRegisterWrite offset size value s
  | .powerOnReset inputs tookNew => Sys2Proof.Machine.execPowerOnReset inputs tookNew s
  | .linkReset inputs => Sys2Proof.Machine.execLinkReset inputs s
  | .resetComplete => Sys2Proof.Machine.execResetComplete s
  | .contactRise => Sys2Proof.Machine.execContactRise s
  | .contactFall => Sys2Proof.Machine.execContactFall s
  | .keyImportComplete => Sys2Proof.Machine.execKeyImportComplete s
  | .helloResponse site frame => Sys2Proof.Machine.execHelloResponse site frame s
  | .rowCheckResponse site frame => Sys2Proof.Machine.execRowCheckResponse site frame s
  | .armBitResponse site frame => Sys2Proof.Machine.execArmBitResponse site frame s
  | .senseBitResponse site frame => Sys2Proof.Machine.execSenseBitResponse site frame s
  | .readTagResponse site frame => Sys2Proof.Machine.execReadTagResponse site frame s
  | .frameTimeout site => Sys2Proof.Machine.execFrameTimeout site s
  | .pulseComplete chan => Sys2Proof.Machine.execPulseComplete chan s
  | .regulationLost chan => Sys2Proof.Machine.execRegulationLost chan s
  | .regulationRestored chan => Sys2Proof.Machine.execRegulationRestored chan s
  | .settleTimerExpiry chan => Sys2Proof.Machine.execSettleTimerExpiry chan s
  | .siteSettleDelayEnd site => Sys2Proof.Machine.execSiteSettleDelayEnd site s
  | .grantLimitExpiry site => Sys2Proof.Machine.execGrantLimitExpiry site s
  | .dieLookup => Sys2Proof.Machine.execDieLookup s
  | .placeHold => Sys2Proof.Machine.execPlaceHold s
  | .placeGiveBack => Sys2Proof.Machine.execPlaceGiveBack s
  | .placeToEntry => Sys2Proof.Machine.execPlaceToEntry s
  | .voidEntry => Sys2Proof.Machine.execVoidEntry s
  | .entrySettle => Sys2Proof.Machine.execEntrySettle s
  | .contextPark => Sys2Proof.Machine.execContextPark s
  | .tableClear => Sys2Proof.Machine.execTableClear s
  | .voidAllParked => Sys2Proof.Machine.execVoidAllParked s
  | .tableDump => Sys2Proof.Machine.execTableDump s
  | .compositionComplete => Sys2Proof.Machine.execCompositionComplete s
  | .derivationQueueServe => Sys2Proof.Machine.execDerivationQueueServe s
  | .reservationSuccess => Sys2Proof.Machine.execReservationSuccess s
  | .reservationFailure tookNew => Sys2Proof.Machine.execReservationFailure tookNew s
  | .derivationComplete => Sys2Proof.Machine.execDerivationComplete s
  | .escrowRecordWrite => Sys2Proof.Machine.execEscrowRecordWrite s

end Sys2Proof.Machine
end

