-- ==== Sys2Proof/Machine/Tick.lean ====
section
/-! DEFINITION. What an idle step lets pass: 0.1 µs (log 4). Every timer that runs counts on, up to the value at which
its own event row comes due, and an arrival left over is carried on (log 21). -/

namespace Sys2Proof.Machine

/-- One more unit of a timer, up to its end. -/
def countTo (limit t : Nat) : Nat := min limit (t + 1)

/-- A channel's settle timer, 0 to 50 µs, or pulse elapsed, 0 to w × 0.1 µs, counts on (R47, R48, R51). -/
def Channel.tick (c : Channel) : Channel :=
  match c.state with
  | .settling t => { c with state := .settling (countTo 500 t) }
  | .driving owner w e => { c with state := .driving owner w (countTo w e) }
  | .ready => c
  | .offline => c

/-- A grant timer counts on up to the grant limit, in units of 10 µs (R57). -/
def GrantRequest.tick (p : Profile) (r : GrantRequest) : GrantRequest :=
  { r with timer := countTo (100 * p.grantUnits) r.timer }

/-- A site's settle delay or the timeout of its attempt counts on (R14, R28). -/
def SiteCtx.tick (p : Profile) (c : SiteCtx) : SiteCtx :=
  if c.state = .settling then { c with timer := countTo (10 * p.settleUs) c.timer }
  else if c.exch.isSome then { c with timer := countTo (10 * p.timeoutUs) c.timer }
  else c

/-- Every timer of the board counts on. -/
def State.runTimers (s : State) : State :=
  ((s.setChans (Vector.ofFn fun c : Chan => s.chans[c].tick)).setWaiting
    (s.waiting.map (GrantRequest.tick s.profile))).setSites
      (Vector.ofFn fun n : Site => s.sites[n].map (SiteCtx.tick s.profile))

/-- An arrival that an earlier step left over is carried on (log 21). -/
def State.resumeArrival (s : State) : State :=
  match s.chain.arrival with
  | some offset => (s.setChain { s.chain with arrival := none }).arriveAt offset
  | none => s

/-- The idle step. -/
def State.tick (s : State) : State := s.runTimers.resumeArrival

end Sys2Proof.Machine
end

