-- ==== Sys2Proof/Machine/Die.lean ====
section
/-! DEFINITION. The die on the other side of a die port, as the rules of chapter 1 give it (R1, R2, R7, R8, R13, R15,
R17 to R21). It is no part of State: the engine learns what a die does from the response rows alone (log 29). -/

namespace Sys2Proof.Machine

/-- The geometry and the internal read threshold built into a die design (R2, section 1.2), and the controller revision
(R17). -/
structure DieDesign where
  recordBase : Nat
  spareBase : Nat
  spareCount : Nat
  remapBase : Nat
  lockRow : Nat
  readThreshold : Nat
  revision : Byte
  deriving DecidableEq, Repr

/-- A die: its design, the sense codes of its rows (bit i of a row at index i), and the armed bit (R1). -/
structure FuseDie where
  design : DieDesign
  rows : List (Vector Nat 32)
  armed : Option (Nat × Fin 32)
  deriving DecidableEq, Repr

/-- A row whose 32 fuses all read clean; what a row that does not exist reads as here. -/
def cleanRow : Vector Nat 32 := Vector.replicate 32 1023

/-- The sense codes of a row. -/
def FuseDie.row (d : FuseDie) (r : Nat) : Vector Nat 32 := d.rows.getD r cleanRow

/-- The mask of a row's bits whose code meets a test. -/
def rowMask (v : Vector Nat 32) (test : Nat → Bool) : FuseRow :=
  ((List.finRange 32).map fun i : Fin 32 => if test v[i] then BitVec.ofNat 32 (2 ^ i.val) else 0).foldl (· ||| ·) 0

/-- The value of a row by the die's own read threshold (R2, R20). -/
def FuseDie.value (d : FuseDie) (r : Nat) : FuseRow := rowMask (d.row r) fun c => decide (c ≤ d.design.readThreshold)

/-- The eight remap bytes in placement order, as the die reads them (R7 step 1). -/
def FuseDie.remapBytes (d : FuseDie) : List Byte :=
  (List.range 8).map fun i => (d.value (d.design.remapBase + i / 4)).extractLsb' (8 * (3 - i % 4)) 8

/-- A remap byte that names logical row k with a spare of the design (R7 steps 2 and 3): its spare. -/
def DieDesign.spareOf (g : DieDesign) (k : Nat) (b : Byte) : Option Nat :=
  if b.getLsbD 7 ∧ (b.extractLsb' 3 4).toNat = k ∧ (b.extractLsb' 0 3).toNat < g.spareCount then
    some (b.extractLsb' 0 3).toNat
  else none

/-- The physical row that the die locates for a logical row: the spare of the last valid entry, or the record row
(R7). -/
def FuseDie.locate (d : FuseDie) (k : Nat) : Nat :=
  match (d.remapBytes.reverse.filterMap (d.design.spareOf k)).head? with
  | some i => d.design.spareBase + i
  | none => d.design.recordBase + k

/-- A row is a record row in the sense of the lock's effects (R8). -/
def FuseDie.isRecordRow (d : FuseDie) (r : Nat) : Bool := (List.range 12).any fun k => decide (d.locate k = r)

/-- A row is one of the two remap rows. -/
def FuseDie.isRemapRow (d : FuseDie) (r : Nat) : Bool :=
  decide (r = d.design.remapBase) || decide (r = d.design.remapBase + 1)

/-- The lock state, evaluated afresh (R8). -/
def FuseDie.locked (d : FuseDie) : Bool := lockBlown (d.value d.design.lockRow)

/-- The key that the die reads from its eight key rows (R21). -/
def FuseDie.readKey (d : FuseDie) : Key :=
  (List.range 8).foldl (fun (acc : Key) k => acc <<< 32 ||| (d.value (d.locate k)).zeroExtend 256) 0

/-- The response data of an empty answer. -/
def noData : BitVec 64 := 0

/-- HELLO data (R17). -/
def FuseDie.helloData (d : FuseDie) : BitVec 64 :=
  BitVec.ofNat 16 d.rows.length ++ (if d.locked then (1 : Byte) else 0) ++ d.design.revision ++ (0 : BitVec 32)

/-- ROW_CHECK data against Tb and Tu (R18). -/
def FuseDie.checkData (d : FuseDie) (r tb tu : Nat) : BitVec 64 :=
  rowMask (d.row r) (fun c => decide (c ≤ tb)) ++ rowMask (d.row r) (fun c => decide (tb < c ∧ c < tu))

/-- READ_TAG data of a part (R21). -/
def FuseDie.tagData (d : FuseDie) (part : Nat) : BitVec 64 :=
  if part = 0 then d.value (d.locate 9) ++ d.value (d.locate 10)
  else d.value (d.locate 11) ++ checkWord d.readKey ++ (0 : BitVec 16)

/-- What the controller does with a request it carries out or refuses: none is REFUSED (R8, R15, R17 to R21). ARM_BIT
and SENSE_BIT leave no earlier bit armed, refused or not (R1, R19). A bit above 31 is not sent by the engine
(log 29). -/
def FuseDie.carryOut (d : FuseDie) (e : Exchange) : FuseDie × Option (BitVec 64) :=
  let bit : Fin 32 := Fin.ofNat 32 e.bit
  let tu := (e.arg.extractLsb' 16 16).toNat
  let tb := (e.arg.extractLsb' 0 16).toNat
  match e.cmd with
  | .hello => (d, some d.helloData)
  | .rowCheck =>
    if d.rows.length ≤ e.row ∨ tu ≤ tb ∨ 1023 < tu ∨ 1023 < tb then (d, none) else (d, some (d.checkData e.row tb tu))
  | .armBit =>
    if d.rows.length ≤ e.row ∨ (d.locked ∧ (d.isRecordRow e.row ∨ d.isRemapRow e.row)) then
      ({ d with armed := none }, none)
    else ({ d with armed := some (e.row, bit) }, some noData)
  | .senseBit =>
    if d.rows.length ≤ e.row then ({ d with armed := none }, none)
    else ({ d with armed := none }, some (BitVec.ofNat 16 (d.row e.row)[bit] ++ (0 : BitVec 48)))
  | .readRow =>
    if d.rows.length ≤ e.row ∨ (d.locked ∧ d.isRecordRow e.row) then (d, none)
    else (d, some (d.value e.row ++ (0 : BitVec 32)))
  | .readTag =>
    if !d.locked ∨ 1 < e.arg.toNat then (d, none) else (d, some (d.tagData e.arg.toNat))

/-- A response frame with its check byte (R13). -/
def sealResponse (status : Byte) (data : BitVec 64) : ResponseFrame :=
  { status := status, data := data
    check := 0 - byteSum (status :: (List.range 8).map fun i => data.extractLsb' (8 * (7 - i)) 8) }

/-- The controller's answer to the request of an exchange, received whole (R13). What the data bytes of a REFUSED answer
hold the manual leaves open: a free value (log 35). -/
def FuseDie.respond (d : FuseDie) (e : Exchange) : FuseDie × ResponseFrame :=
  match d.carryOut e with
  | (d', some v) => (d', sealResponse statusOk v)
  | (d', none) => (d', sealResponse statusRefused (Config.refusedData e.cmd.code e.row e.bit e.arg))

/-- The controller's answer to bytes that are no request: BAD_FRAME with data 0 (R13). -/
def badFrameAnswer : ResponseFrame := sealResponse statusBadFrame noData

/-- The command of a code; none for a code that is none of the six (R13). -/
def DieCommand.ofCode (b : Byte) : Option DieCommand :=
  [DieCommand.hello, .rowCheck, .armBit, .senseBit, .readRow, .readTag].find? fun c => decide (c.code = b)

/-- The request that nine bytes spell, multi-byte fields most significant byte first: none when they do not sum to 0 mod
256 or their command is none of the six (R13). -/
def readRequest (f : Vector Byte 9) : Option Exchange :=
  if byteSum f.toList = 0 then
    (DieCommand.ofCode f[0]).map fun cmd =>
      { cmd := cmd, row := (f[1] ++ f[2] : BitVec 16).toNat, bit := f[3].toNat
        arg := (f[4] ++ f[5] ++ f[6] ++ f[7] : BitVec 32), resends := 0 }
  else none

/-- The controller answers every complete request it receives (R13): BAD_FRAME and nothing else where the bytes are no
request, otherwise what `respond` says. -/
def FuseDie.receive (d : FuseDie) (f : Vector Byte 9) : FuseDie × ResponseFrame :=
  match readRequest f with
  | some e => d.respond e
  | none => (d, badFrameAnswer)

/-- A pulse on the needle reaches the armed bit and lowers its code, or leaves it unchanged (R1, R2). How far it lowers
the code is outside the manual and is an operand. -/
def FuseDie.pulse (d : FuseDie) (drop : Nat) : FuseDie :=
  match d.armed with
  | some (r, bit) => { d with rows := d.rows.set r ((d.row r).set bit ((d.row r)[bit] - drop)) }
  | none => d

/-- Contact is lost: no bit is armed when power comes back, the codes are kept (R1). -/
def FuseDie.losePower (d : FuseDie) : FuseDie := { d with armed := none }

end Sys2Proof.Machine
end

