-- ==== Sys2Proof/Machine/HostView.lean ====
section
/-! DEFINITION. What the tester computer sees and does beside the commands: reads of the memory window (R99, R140, R176,
R178) and its own writes of job memory (R140). Log 30. -/

namespace Sys2Proof.Machine

/-- The word that a full read of a register offset of the register window returns (R176). CONTROL and unoccupied
offsets read as 0. -/
def State.registerRead (s : State) (offset : Nat) : BitVec 32 :=
  if offset = 0x400004 then s.status
  else if offset = 0x400008 then s.reg.events.zeroExtend 32
  else if offset = 0x40000C then s.reg.enable.zeroExtend 32
  else if offset = 0x400010 then s.serialMark
  else 0

/-- One byte of the 8 MiB memory window: job memory below 4 MiB, then the addressed byte of a register's value
(section 11.5, R176). -/
def State.windowByte (s : State) (offset : Nat) : Byte :=
  if offset < jobMemorySize then s.mem.read offset
  else (s.registerRead (offset / 4 * 4)).extractLsb' (8 * (offset % 4)) 8

/-- The tester computer writes bytes into job memory (R140). -/
def State.testerWrite (s : State) (offset : Nat) (bs : List Byte) : State := s.store offset bs

end Sys2Proof.Machine
end

