-- ==== Sys2Proof/Safety.lean ====
section
/-! DEFINITION. The terms in which claims are stated: which parts of State two states agree on, and the properties that
hold of the board whatever command it takes. -/

namespace Sys2Proof.Machine

/-! ### Frames -/

/-- The parts of State. `order` is the model's two fields for free values. -/
inductive Part where
  | reg
  | counters
  | mem
  | chain
  | sites
  | chans
  | waiting
  | keys
  | comp
  | dies
  | escrow
  | contact
  | order
  | pending
  deriving DecidableEq, Repr

/-- Two states agree on a part. -/
def Part.same (s t : State) : Part → Prop
  | .reg => t.reg = s.reg
  | .counters => t.counters = s.counters
  | .mem => t.mem = s.mem
  | .chain => t.chain = s.chain
  | .sites => t.sites = s.sites
  | .chans => t.chans = s.chans
  | .waiting => t.waiting = s.waiting
  | .keys => t.keys = s.keys
  | .comp => t.comp = s.comp
  | .dies => t.dies = s.dies
  | .escrow => t.escrow = s.escrow
  | .contact => t.contact = s.contact
  | .order => t.tieOrder = s.tieOrder ∧ t.freeCount = s.freeCount
  | .pending => t.pending = s.pending

/-- From `s` to `t`, only the named parts may have changed. -/
def sameBut (changed : List Part) (s t : State) : Prop := ∀ p, p ∉ changed → p.same s t

/-- From `s` to `t`, every counter but the named ones kept its value. -/
def countersBut (changed : List Counter) (s t : State) : Prop := ∀ c, c ∉ changed → t.counter c = s.counter c

/-- From `s` to `t`, no site engine but the named one changed. -/
def sitesBut (n : Site) (s t : State) : Prop := ∀ m, m ≠ n → t.sites[m] = s.sites[m]

/-- From `s` to `t`, no burn channel but the named one changed. -/
def chansBut (c : Chan) (s t : State) : Prop := ∀ d, d ≠ c → t.chans[d] = s.chans[d]

/-- From `s` to `t`, every byte of job memory outside `len` bytes at `base` kept its value. -/
def bytesBut (base len : Nat) (s t : State) : Prop := ∀ a, ¬(base ≤ a ∧ a < base + len) → t.mem.read a = s.mem.read a

/-! ### Situations -/

/-- Site `n` works on an entry of the TOUCHDOWN in hand, whose entries have started (R152). -/
def State.inTouchdown (s : State) (n : Site) : Prop :=
  ∃ b es released halted, s.chain.block = some b ∧ b.work = .touchdown es true released halted ∧
    ∃ e ∈ es, e.site = n

/-- Some other site of the TOUCHDOWN in hand is not final yet, so that its block stays in hand (R152). -/
def State.othersRun (s : State) (n : Site) : Prop := ∃ m, m ≠ n ∧ s.inTouchdown m ∧ s.isFinal m = false

/-- A good response frame with status OK answers the exchange of `cmd` that site `n` has in flight (R14). -/
structure State.answers (s : State) (n : Site) (c : SiteCtx) (cmd : DieCommand) (f : ResponseFrame) : Prop where
  context : s.sites[n] = some c
  inFlight : ∃ e, c.exch = some e ∧ e.cmd = cmd
  good : responseGood f = true
  ok : f.status = statusOk

/-- A good response frame with status REFUSED answers the exchange of `cmd` that site `n` has in flight (R15). -/
structure State.refuses (s : State) (n : Site) (c : SiteCtx) (cmd : DieCommand) (f : ResponseFrame) : Prop where
  context : s.sites[n] = some c
  inFlight : ∃ e, c.exch = some e ∧ e.cmd = cmd
  notHello : cmd ≠ .hello
  good : responseGood f = true
  refused : f.status = statusRefused

/-- A bad result starts no halt of the block in hand: its HALT_ON_ERROR is clear, or it is no started TOUCHDOWN, or a
release or a halt of it was taken before (R154, R155). -/
def State.noHalt (s : State) : Prop :=
  ∀ b, s.chain.block = some b → b.haltOnError = false ∨ ∀ es, b.work ≠ .touchdown es true false false

/-- Some other site of the TOUCHDOWN in hand is in CLOSING or PARKING, where neither a release nor a halt ends its entry,
so that the block stays in hand (R79, R81, R152). -/
def State.stillEnding (s : State) (n : Site) : Prop :=
  ∃ m x, m ≠ n ∧ s.inTouchdown m ∧ s.sites[m] = some x ∧ (x.state = .closing ∨ x.state = .parking)

/-- Site `n` is FINAL with a result (R84). -/
def State.endedWith (s : State) (n : Site) (r : SiteResult) : Prop :=
  ∃ x, s.sites[n] = some x ∧ x.state = .final ∧ x.result = some r ∧ x.exch = none

/-- Bit i is the highest 1-bit of a target below bit n (R30). -/
def topBit (target : FuseRow) (n i : Nat) : Prop :=
  i < n ∧ target.getLsbD i = true ∧ ∀ j, i < j → j < n → target.getLsbD j = false

/-- No spare of the profile is left: each index is named in the remap list or rejected (R38). -/
def BurnState.noSpareLeft (b : BurnState) (p : Profile) : Prop :=
  ∀ i, i < p.spareCount → i ∈ b.remaps.map Prod.snd ∨ i ∈ b.rejected

/-- Index i is the lowest spare neither named in the remap list nor rejected (R35). -/
def BurnState.nextSpare (b : BurnState) (p : Profile) (i : Nat) : Prop :=
  i < p.spareCount ∧ i ∉ b.remaps.map Prod.snd ∧ i ∉ b.rejected ∧
    ∀ j, j < i → j ∈ b.remaps.map Prod.snd ∨ j ∈ b.rejected

/-- Index i is neither named in the remap list nor rejected (R35). -/
def BurnState.spareLeft (b : BurnState) (p : Profile) (i : Nat) : Prop :=
  i < p.spareCount ∧ i ∉ b.remaps.map Prod.snd ∧ i ∉ b.rejected

/-- `us` lists, in rising order, the spares left below index j, and none of them passes its window and fixed-row tests
(R35, R36). -/
def BurnState.unusableBelow (b : BurnState) (p : Profile) (j : Nat) (us : List Nat) : Prop :=
  us.Pairwise (· < ·) ∧ (∀ i, i ∈ us ↔ i < j ∧ b.spareLeft p i) ∧ ∀ i ∈ us, p.spareUsable i = false

/-- The burn is in a record or remap row that is IN_PROGRESS: the site state of its stage, its physical row and its
target (R4, R6, R30, R39, R73). -/
def BurnState.onRow (b : BurnState) (p : Profile) (tg : Vector FuseRow 12) (st : SiteState) (row : Nat)
    (target : FuseRow) : Prop :=
  (∃ k, b.cur = .logical k ∧ b.rowStates[k] = .inProgress ∧ st = .burnRow ∧ row = b.physRows[k] ∧ target = tg[k]) ∨
  ∃ j, b.cur = .remap j ∧ b.remapStates[j] = .inProgress ∧ st = .remapBurn ∧ row = p.remapBase + j.val ∧
    target = remapTarget b.remaps j

/-- Row i of the resume check, logical rows 0..11 and then remap rows 0 and 1, has a physical row and a target
(R44, R75). -/
def BurnState.rowAt (b : BurnState) (p : Profile) (tg : Vector FuseRow 12) (i row : Nat) (target : FuseRow) : Prop :=
  (∃ k : Fin 12, i = k.val ∧ row = b.physRows[k] ∧ target = tg[k]) ∨
  ∃ j : Fin 2, i = 12 + j.val ∧ row = p.remapBase + j.val ∧ target = remapTarget b.remaps j

/-- Row i of the resume check is DONE (R75). -/
def BurnState.doneAt (b : BurnState) (i : Nat) : Prop :=
  (∃ k : Fin 12, i = k.val ∧ b.rowStates[k] = .done) ∨ ∃ j : Fin 2, i = 12 + j.val ∧ b.remapStates[j] = .done

/-- Row i is the first DONE row of the resume check from row `low` on (R75). -/
def BurnState.firstDone (b : BurnState) (low i : Nat) : Prop :=
  low ≤ i ∧ b.doneAt i ∧ ∀ j, low ≤ j → j < i → ¬b.doneAt j

/-- The first step of a resumed burn is this request in this site state: the table of R44, its tests in order, in the
states of R73. -/
def BurnState.firstStep (b : BurnState) (p : Profile) (st : SiteState) (cmd : DieCommand) (row bit : Nat) : Prop :=
  (b.unsensed = true ∧ st = .sensing ∧ cmd = .senseBit ∧ row = b.curPhys p ∧ bit = b.bit) ∨
  (b.unsensed = false ∧ b.spareWanted = true ∧ st = .spareSelect ∧ cmd = .rowCheck ∧ bit = 0 ∧
    ∃ i, b.nextSpare p i ∧ p.spareUsable i = true ∧ row = p.spareBase + i) ∨
  (b.unsensed = false ∧ b.spareWanted = false ∧
    ((b.cur ≠ .lock ∧ b.curState = .notStarted ∧ st = b.cur.stageState ∧ cmd = .rowCheck ∧ row = b.curPhys p ∧
        bit = 0) ∨
      (b.curState ≠ .notStarted ∧ b.step = .bits ∧ b.bitPulses ≠ p.pmax ∧ 1 ≤ b.width ∧ b.rowStress < p.cmax ∧
        st = b.cur.stageState ∧ cmd = .armBit ∧ row = b.curPhys p ∧ bit = b.bit) ∨
      (b.cur ≠ .lock ∧ b.curState ≠ .notStarted ∧ b.step = .verify ∧ st = .rowVerify ∧ cmd = .rowCheck ∧
        row = b.curPhys p ∧ bit = 0) ∨
      (b.cur = .lock ∧ b.step = .lockCheck ∧ st = .lockBurn ∧ cmd = .rowCheck ∧ row = p.lockRow ∧ bit = 0)))

/-- The argument of a burn's request: the profile's thresholds in a ROW_CHECK, else 0 (R13, R18). -/
def Profile.burnArg (p : Profile) (cmd : DieCommand) : BitVec 32 := if cmd = .rowCheck then p.thresholds else 0

/-- The ranges of a burn state under a profile (R23, R25, R37, section 2.11). -/
structure BurnState.inRange (b : BurnState) (p : Profile) : Prop where
  width : b.width ≤ p.wmax
  rowStress : b.rowStress ≤ p.cmax
  bitPulses : b.bitPulses ≤ p.pmax
  maxStress : b.maxStress ≤ p.cmax
  sparesOnce : (b.remaps.map Prod.snd ++ b.rejected).Nodup
  spares : ∀ i ∈ b.remaps.map Prod.snd ++ b.rejected, i < p.spareCount

/-! ### What a site does -/

/-- A context whose site has just sent a request and waits for its answer in a state (R13, R14). -/
def SiteCtx.asks (c : SiteCtx) (st : SiteState) (cmd : DieCommand) (row bit : Nat) (arg : BitVec 32) : SiteCtx :=
  { c with
    state := st, timer := 0
    exch := some { cmd := cmd, row := row, bit := bit, arg := arg, resends := 0 } }

/-- From `s` to `t` site `n` has the context `x`, no other site changed, and of the rest only the named parts may have
changed. -/
structure siteMoves (s t : State) (n : Site) (x : SiteCtx) (parts : List Part) : Prop where
  here : t.sites[n] = some x
  others : sitesBut n s t
  frame : sameBut (.sites :: parts) s t

/-- From `s` to `t` site `n`, whose context was `c`, entered CLOSING of a live wafer with an outcome and queued its CLOSE
(R76). -/
structure closesWith (s t : State) (n : Site) (c : SiteCtx) (outcome : CloseOutcome) (parts : List Part) : Prop where
  moves : siteMoves s t n
    { c with state := .closing, outcome := some outcome, exch := none, closeWritten := false } (.escrow :: parts)
  queued : t.escrow =
    { s.escrow with
      queue := s.escrow.queue ++ [{ record := .close (c.closeRecord outcome), report := .site n }] }

/-- From `s` to `t` site `n`, whose context was `c`, entered CLOSING of a dry-run wafer with an outcome: no CLOSE is
queued, and its settlement is asked for at once (R76, R126; by way of the die table unit's queue: log 8). -/
structure closesDry (s t : State) (n : Site) (c : SiteCtx) (outcome : CloseOutcome) (parts : List Part) : Prop where
  moves : siteMoves s t n
    { c with state := .closing, outcome := some outcome, exch := none, closeWritten := false } (.dies :: parts)
  queued : t.dies = { s.dies with queue := s.dies.queue ++ [.settle n c.die outcome] }

/-- From `s` to `t` the burn of site `n` stopped early with total pulses `pulses` and context `c`: VOID_UNUSED without a
pulse in a live wafer, a park with one (R78). -/
structure burnStops (s t : State) (n : Site) (c : SiteCtx) (pulses : Nat) : Prop where
  unused : pulses = 0 → s.dryRun = false → closesWith s t n c .voidUnused []
  parks : pulses ≠ 0 → siteMoves s t n { c with state := .parking, exch := none } [.dies] ∧
    t.dies = { s.dies with queue := s.dies.queue ++ [.park n] }

/-- From `s` to `t` the entry of site `n`, whose context was `c`, became final with a result: no other site changed, the
result stands in the entry, and no byte outside bytes 10..47 of the entry changed (R84). -/
structure entryEnds (s t : State) (n : Site) (c : SiteCtx) (r : SiteResult) (parts : List Part) : Prop where
  ended : t.endedWith n r
  others : sitesBut n s t
  code : ∀ b, s.chain.block = some b → s.mem.wf = true → b.offset + 80 + 48 * c.index + 48 ≤ jobMemorySize →
    (t.mem.read (b.offset + 80 + 48 * c.index + 12)).toNat = r.code
  bytes : ∀ b, s.chain.block = some b → bytesBut (b.offset + 80 + 48 * c.index + 10) 38 s t
  frame : sameBut (.sites :: .mem :: parts) s t

/-- A flush finds nothing to hand over: no page is open with a record in it, or with a record being written (R168). -/
def State.nothingToFlush (s : State) : Prop :=
  ∀ page slot records, s.escrow.writer = .opened page slot records → records = 0 ∧ s.escrow.queue = []

/-- The escrow writer has the record at the head of its queue to write into the open page, which the record neither
fills nor finds too small, and no flush waits (R166). -/
structure State.writesRecord (s : State) (page slot records : Nat) (r : RecordRequest) (rest : List RecordRequest) :
    Prop where
  writer : s.escrow.writer = .opened page slot records
  queue : s.escrow.queue = r :: rest
  memory : s.mem.wf = true
  inside : page + 1088 ≤ jobMemorySize
  count : records < counterMax
  room : slot + r.record.slots ≤ 15
  noFlush : s.escrow.flushPending = false

/-- Two stretches of job memory have no byte in common. -/
def apart (a n b m : Nat) : Prop := a + n ≤ b ∨ b + m ≤ a

/-- The block ends with its tag: where it lies, and what is expected (R142, R143). -/
structure State.endsBlock (s : State) (b : Block) (tag : Nat) : Prop where
  memory : s.mem.wf = true
  aligned : b.offset % 64 = 0
  inside : b.offset + 64 ≤ jobMemorySize
  expected : s.chain.expected = some tag
  tagRange : 1 ≤ tag ∧ tag ≤ 65535

/-- The block linked from the one in hand is not ready for the tag after the block's own. -/
structure State.linkWaits (s : State) (b : Block) (tag : Nat) : Prop extends s.endsBlock b tag where
  link : validBlockOffset (s.linkOf b.offset) = true
  notReady : s.mem.read16 (s.linkOf b.offset) ≠ nextTag tag

/-- The block linked from the one in hand is ready for the tag after the block's own. -/
structure State.linkReady (s : State) (b : Block) (tag : Nat) : Prop extends s.endsBlock b tag where
  link : validBlockOffset (s.linkOf b.offset) = true
  ready : s.mem.read16 (s.linkOf b.offset) = nextTag tag

/-- The link of the block in hand is no block offset (R148), and the hold that follows has nothing to flush. -/
structure State.linkFails (s : State) (b : Block) (tag : Nat) : Prop extends s.endsBlock b tag where
  link : validBlockOffset (s.linkOf b.offset) = false
  quiet : s.nothingToFlush

/-- The block after the one in hand is not ready, and the chain unit has nothing to flush when it waits there. -/
structure State.waitsAfter (s : State) (b : Block) (tag : Nat) : Prop extends s.linkWaits b tag where
  quiet : s.nothingToFlush

/-- From `s` to `t` of job memory only the done tag and the result byte of the block changed (R143, R148). -/
def doneBytes (s t : State) (b : Block) : Prop :=
  ∀ a, ¬(b.offset + 12 ≤ a ∧ a < b.offset + 14) → a ≠ b.offset + 16 → t.mem.read a = s.mem.read a

/-- From `s` to `t` a halt reached every other site of the block than `n`, whose result started it (R81, R154). That a
lookup, hold or VOID-entry request that waits is withdrawn, so that its site ends at once, is the model's (log 9). -/
structure haltReaches (s t : State) (n : Site) : Prop where
  goesOn : ∀ (m : Site) (x : SiteCtx), m ≠ n → s.sites[m] = some x →
    x.state ∈ [.hail, .reading, .closing, .parking, .resumeCheck, .burnRow, .pulsing, .settling, .sensing, .rowVerify,
        .spareSelect, .remapBurn, .lockBurn] ∨
      (x.state ∈ [.lookup, .prep] ∧ s.hasTableRequest m = false) →
    t.sites[m] = some { x with haltPending := true }
  keyWait : ∀ (m : Site) (x : SiteCtx), m ≠ n → s.sites[m] = some x → x.state = .issueWait →
    t.endedWith m .halted ∧ ∀ r ∈ t.keys.queue, r.site ≠ m
  voids : ∀ (m : Site) (x : SiteCtx), m ≠ n → s.sites[m] = some x → x.state ∈ [.escrowWait, .waitGrant] →
    x.totalPulses = 0 → t.sites[m] = some
      { x with
        haltPending := true, stop := .halt, state := .closing, outcome := some .voidUnused, exch := none
        closeWritten := false }
  parks : ∀ (m : Site) (x : SiteCtx), m ≠ n → s.sites[m] = some x → x.state ∈ [.escrowWait, .waitGrant] →
    x.totalPulses ≠ 0 →
    t.sites[m] = some { x with haltPending := true, stop := .halt, state := .parking, exch := none }
  waits : ∀ (m : Site) (x : SiteCtx), m ≠ n → s.sites[m] = some x → x.state = .waitGrant →
    ∀ r ∈ t.waiting, r.site ≠ m
  withdraws : ∀ (m : Site) (x : SiteCtx), m ≠ n → s.sites[m] = some x → x.state ∈ [.lookup, .prep] →
    s.hasTableRequest m = true → t.endedWith m .halted ∧ ∀ r ∈ t.dies.queue, r.withdrawn m = false
  ended : ∀ m : Site, m ≠ n → (∀ x, s.sites[m] = some x → x.state = .final) → t.sites[m] = s.sites[m]

/-- From `s` to `t` the block was done with a result, and the chain unit went on to wait at the next one (R147, R148). -/
structure blockDoneWaiting (s t : State) (b : Block) (tag : Nat) (r : BlockResult) : Prop where
  chain : t.chain =
    { s.chain with
      state := .waiting, expected := some (nextTag tag), offset := some (s.linkOf b.offset), block := none
      lastDone := some b.offset }
  result : (t.mem.read (b.offset + 16)).toNat = r.code
  doneTag : t.mem.read16 (b.offset + 12) = tag
  events : t.reg = (if b.notify then s.reg.setEvent .blockDone else s.reg).setEvent .chainWait

/-- From `s` to `t` the block closed by steps 2 to 4 of R148, its result being written already: the done tag, BLOCK_DONE,
the last done block and the next expected tag. -/
structure blockCloses (s t : State) (b : Block) (tag : Nat) : Prop where
  chain : t.chain =
    { s.chain with expected := some (nextTag tag), offset := none, block := none, lastDone := some b.offset }
  doneTag : t.mem.read16 (b.offset + 12) = tag
  bytes : bytesBut (b.offset + 12) 2 s t
  events : t.reg = if b.notify then s.reg.setEvent .blockDone else s.reg
  frame : sameBut [.reg, .mem, .chain] s t

/-- From `s` to `t` the block was done with a result by steps 1 to 4 of R148. -/
structure blockEnds (s t : State) (b : Block) (tag : Nat) (r : BlockResult) : Prop where
  chain : t.chain =
    { s.chain with expected := some (nextTag tag), offset := none, block := none, lastDone := some b.offset }
  result : (t.mem.read (b.offset + 16)).toNat = r.code
  doneTag : t.mem.read16 (b.offset + 12) = tag
  bytes : doneBytes s t b
  events : t.reg = if b.notify then s.reg.setEvent .blockDone else s.reg
  frame : sameBut [.reg, .mem, .chain] s t

/-- From `s` to `t` the block was done with a result and its link found invalid: the unit holds with LINK_FAULT (R148). -/
structure blockEndsFaulty (s t : State) (b : Block) (tag : Nat) (r : BlockResult) : Prop where
  chain : t.chain =
    { s.chain with
      state := .held .linkFault, expected := some (nextTag tag), offset := none, block := none
      lastDone := some b.offset }
  result : (t.mem.read (b.offset + 16)).toNat = r.code
  doneTag : t.mem.read16 (b.offset + 12) = tag
  bytes : doneBytes s t b
  events : t.reg =
    ((if b.notify then s.reg.setEvent .blockDone else s.reg).setEvent .chainFault).setEvent .held
  frame : sameBut [.reg, .mem, .chain] s t

/-- The board stands at `u` before a block that is ready: the chain unit takes it, and `o` is the step's outcome (R147,
R148). A block that stays in hand is what `takeBlock` leaves. One done at once gets its result and done tag, and the unit
waits at the linked block, holds on its link, or finds it ready and takes it in the same step. -/
structure takesReady (u : State) (offset : Nat) (o : Host.Outcome State Fault Refusal) : Prop where
  inHand : ∀ t, u.takeBlock offset = (t, none) → o = .next t
  waits : ∀ t r tag, u.takeBlock offset = (t, some r) → t.waitsAfter (readBlock u.mem offset) tag →
    ∃ v, o = .next v ∧ blockDoneWaiting t v (readBlock u.mem offset) tag r ∧
      doneBytes t v (readBlock u.mem offset) ∧ sameBut [.reg, .mem, .chain] t v
  flushes : ∀ t r tag, u.takeBlock offset = (t, some r) → t.linkWaits (readBlock u.mem offset) tag →
    t.recordInProgress = true → ∃ v, o = .next v ∧ blockDoneWaiting t v (readBlock u.mem offset) tag r ∧
      doneBytes t v (readBlock u.mem offset) ∧ v.escrow = { t.escrow with flushPending := true } ∧
      sameBut [.reg, .mem, .chain, .escrow] t v
  faults : ∀ t r tag, u.takeBlock offset = (t, some r) → t.linkFails (readBlock u.mem offset) tag →
    ∃ v, o = .next v ∧ blockEndsFaulty t v (readBlock u.mem offset) tag r
  follows : ∀ t r tag, u.takeBlock offset = (t, some r) → t.linkReady (readBlock u.mem offset) tag →
    ∃ w, blockEnds t w (readBlock u.mem offset) tag r ∧
      ∀ v, w.takeBlock (t.linkOf offset) = (v, none) → o = .next v

/-- From `s` to `u` a good header was read and its anchor handed over (R146, R163): the start tag is taken, RESTART is
queued, and the anchor page opened, or the writer stalled on it. -/
structure headerTaken (s u : State) : Prop where
  chain : u.chain = { s.chain with state := .running, expected := some (readHeader s.mem).startTag }
  opens : validPage (readHeader s.mem).escrowAnchor = true → s.mem.read32 (readHeader s.mem).escrowAnchor = ownerEngine →
    u.escrow =
        { s.escrow with
          writer := .opened (readHeader s.mem).escrowAnchor 0 0
          queue := s.escrow.queue ++ [{ record := .restart s.reg.lastReset s.keys.h, report := .nobody }] } ∧
      u.mem.read32 ((readHeader s.mem).escrowAnchor + 4) = s.escrow.seq ∧
      u.mem.read32 ((readHeader s.mem).escrowAnchor + 8) = 0 ∧ bytesBut ((readHeader s.mem).escrowAnchor + 4) 8 s u ∧
      u.reg = s.reg
  stalls : validPage (readHeader s.mem).escrowAnchor = false ∨
      s.mem.read32 (readHeader s.mem).escrowAnchor ≠ ownerEngine →
    u.escrow =
        { s.escrow with
          writer := .stalled .anchor
          queue := s.escrow.queue ++ [{ record := .restart s.reg.lastReset s.keys.h, report := .nobody }] } ∧
      u.mem = s.mem ∧ u.reg = s.reg.setEvent .escrowStall
  frame : sameBut [.reg, .mem, .chain, .escrow] s u

/-- From `s` to `t` the entry `e`, number `k` of the TOUCHDOWN `b`, was taken (R64, R65, R84): a SKIP puts its site in
FINAL with its result in the entry, and any other entry puts its site in HAIL with a HELLO in flight. -/
def entryTaken (s t : State) (b : Block) (e : SiteEntry) (k : Nat) : Prop :=
  ∃ x, t.sites[e.site] = some x ∧ x.index = k ∧ x.action = e.action ∧ x.die = e.die ∧ x.arb = e.arb ∧
    x.expected = e.expected ∧ x.serial = none ∧ x.key = none ∧ x.burn = none ∧ x.retries = 0 ∧
    (e.action = .skip → x.state = .final ∧ x.result = some .skipped ∧ x.exch = none ∧
      (s.mem.wf = true → b.offset + 80 + 48 * k + 48 ≤ jobMemorySize →
        (t.mem.read (b.offset + 80 + 48 * k + 12)).toNat = SiteResult.skipped.code)) ∧
    (e.action ≠ .skip → x.state = .hail ∧ x.lanesUsed = (if e.lanes = .reversed then .reversed else .normal) ∧
      x.exch = some { cmd := .hello, row := 0, bit := 0, arg := 0, resends := 0 })

/-- Byte `a` is none of bytes 10..47 of the entry number `k` of the TOUCHDOWN `b`. -/
def outsideEntry (b : Block) (k a : Nat) : Prop := ¬(b.offset + 80 + 48 * k + 10 ≤ a ∧ a < b.offset + 80 + 48 * k + 48)

/-- From `s` to `t` the entries of the TOUCHDOWN `b` started (R152): every entry was taken, and no other site and no byte
outside bytes 10..47 of the SKIP entries changed. -/
structure entriesStart (s t : State) (b : Block) (es : List SiteEntry) : Prop where
  taken : ∀ k, ∀ h : k < es.length, entryTaken s t b es[k] k
  others : ∀ n : Site, (∀ e ∈ es, e.site ≠ n) → t.sites[n] = s.sites[n]
  bytes : ∀ a, (∀ k, ∀ h : k < es.length, es[k].action = .skip → outsideEntry b k a) → t.mem.read a = s.mem.read a
  block : t.chain.block = some { b with work := .touchdown es true false false }

/-- From `s` to `t` the record at the head of the write queue was written into the open page (R166 steps 1 to 4): its
bytes stand in its slots, the record count and the writer moved on, and no other byte changed. -/
structure recordStands (s t : State) (page slot records : Nat) (r : RecordRequest) (rest : List RecordRequest) :
    Prop where
  bytes : t.mem.readBytes (page + 64 + 64 * slot) (64 * r.record.slots) = r.record.bytes s.counters
  count : t.mem.read32 (page + 8) = records + 1
  memory : ∀ a, ¬(page + 8 ≤ a ∧ a < page + 12) →
    ¬(page + 64 + 64 * slot ≤ a ∧ a < page + 64 + 64 * (slot + r.record.slots)) → t.mem.read a = s.mem.read a
  escrow : t.escrow =
    { s.escrow with writer := .opened page (slot + r.record.slots) (records + 1), queue := rest }

/-- What a reset leaves that is the same at every kind of reset: sites, queues, tables and writer empty, counters 0 but
for the channels that enter OFFLINE, every channel as its regulator reports, CONTACT taken from the input. -/
structure resetLeaves (inp : ResetInputs) (t : State) : Prop where
  sites : ∀ n : Site, t.sites[n] = none
  comp : t.comp = []
  dies : t.dies = .reset
  escrow : t.escrow = .reset
  waiting : t.waiting = []
  contact : t.contact = inp.contact
  resetting : t.reg.resetting = true
  queue : t.keys.queue = []
  store : t.keys.importing = none ∧ t.keys.derivation = none
  chans : ∀ c : Chan, t.chans[c] =
    if inp.regulation.getLsbD c.val then { state := .settling 0, good := true } else { state := .offline, good := false }
  counters : ∀ k, t.counter k =
    if k = .channelUnlocks then (allChans.filter fun c => !inp.regulation.getLsbD c.val).length else 0
  events : t.reg.events = if inp.regulation = 15 then 0 else Event.channelUnlock.mask

/-! ### Properties of the whole board -/

/-- No counter is above 4,294,967,295 (R182). -/
def State.countersBounded (s : State) : Prop := ∀ i : Fin 16, s.counters[i] ≤ counterMax

/-- No READY channel stands beside a waiting request (R56). -/
def State.poolUsed (s : State) : Prop := s.waiting = [] ∨ ∀ c : Chan, s.chans[c].state ≠ .ready

/-- The parked context list holds at most 64 contexts (R130). -/
def State.parkedBounded (s : State) : Prop := s.dies.parked.length ≤ parkedCapacity

/-- The die table rises by y, then x, so it holds at most one entry per die (R121). -/
def State.tableOrdered (s : State) : Prop := s.dies.entries.Pairwise fun a b => a.1.before b.1 = true

/-- A thing that a site engine waits for: an answer at its die port, a request of its own at another unit, a grant, the
end of its pulse, the eviction that its park is bound to, or the writing of its CLOSE. -/
inductive Task where
  | exchange
  | lookup
  | hold
  | voidEntry
  | settle
  | park
  | eviction
  | composition
  | key
  | grant
  | pulse
  | close
  deriving DecidableEq, Repr

/-- The site states in which a site waits for a thing (section 4.2, R64 to R81). -/
def Task.states : Task → List SiteState
  | .exchange =>
    [.hail, .prep, .reading, .resumeCheck, .burnRow, .sensing, .rowVerify, .spareSelect, .remapBurn, .lockBurn]
  | .lookup => [.lookup]
  | .hold => [.prep]
  | .voidEntry => [.prep]
  | .settle => [.closing]
  | .park => [.parking]
  | .eviction => [.parking]
  | .composition => [.prep]
  | .key => [.issueWait]
  | .grant => [.waitGrant]
  | .pulse => [.pulsing]
  | .close => [.closing]

/-- The thing that site `n` waits for by a request at the die table unit. A place given back or turned into an entry is
not waited for (log 6). -/
def TableRequest.task (n : Site) : TableRequest → Option Task
  | .lookup m _ => if m = n then some .lookup else none
  | .hold m _ => if m = n then some .hold else none
  | .voidEntry m _ => if m = n then some .voidEntry else none
  | .settle m _ _ => if m = n then some .settle else none
  | .park m => if m = n then some .park else none
  | _ => none

/-- The thing that site `n` waits for by a record in the write queue: its CLOSE (R76). -/
def RecordRequest.task (n : Site) (r : RecordRequest) : Option Task :=
  match r.report, r.record with
  | .site m, .close _ => if m = n then some .close else none
  | _, _ => none

/-- The thing that site `n` waits for at a burn channel: the end of its pulse (R51). -/
def ChannelState.task (n : Site) : ChannelState → Option Task
  | .driving m _ _ => if m = n then some .pulse else none
  | _ => none

/-- What site `n` waits for outside its die port. -/
def State.requests (s : State) (n : Site) : List Task :=
  s.dies.queue.filterMap (TableRequest.task n) ++
    (s.comp.filterMap fun r => if r.site = n then some .composition else none) ++
    (s.keys.queue.filterMap fun r => if r.site = n then some .key else none) ++
    (s.waiting.filterMap fun r => if r.site = n then some .grant else none) ++
    (allChans.filterMap fun c => s.chans[c].state.task n) ++
    (s.dies.parked.filterMap fun p => if p.status = .closing (some n) then some .eviction else none) ++
    s.escrow.queue.filterMap (RecordRequest.task n)

/-- All that site `n` waits for. -/
def State.tasks (s : State) (n : Site) : List Task :=
  (match s.sites[n] with
    | some c => if c.exch.isSome then [.exchange] else []
    | none => []) ++ s.requests n

/-- The site engines work in order (section 4.2, R64, R73, R152): a site holds a context only while the TOUCHDOWN in hand,
its entries started, names it, and it waits for at most one thing, in a state that waits for that thing. A TOUCHDOWN that
waits for CONTACT is in hand in RUNNING, and so is no block while an arrival is left over (log 21). -/
structure State.orderly (s : State) : Prop where
  unstarted : ∀ (b : Block) (es : List SiteEntry) (released halted : Bool), s.chain.block = some b →
    b.work = .touchdown es false released halted → s.chain.state = .running
  leftOver : s.chain.arrival.isSome → s.chain.state = .running ∧ s.chain.block = none
  named : ∀ n : Site, s.sites[n].isSome → s.chain.state = .running ∧ s.inTouchdown n
  one : ∀ n : Site, (s.tasks n).length ≤ 1
  fits : ∀ (n : Site) (k : Task), k ∈ s.tasks n → ∃ c, s.sites[n] = some c ∧ c.state ∈ k.states

/-- A burn state lies in its ranges, and in the LOCK stage the bit in hand is a lock bit (R23, R40). -/
structure BurnState.kept (b : BurnState) (p : Profile) : Prop extends b.inRange p where
  lock : b.cur = .lock → (b.step = .bits ∨ b.step = .lockCheck) ∧ b.bit ≤ 2

/-- The pulse of a width is the next pulse of the burn of site `n`, which passes the test of R25. -/
def State.pulseFits (s : State) (p : Profile) (n : Site) (w : Nat) : Prop :=
  ∀ c b, s.sites[n] = some c → c.burn = some b → b.bitSpent p = false ∧ w = b.pulseWidth p

/-- Every burn state, at a site or in a parked context, is kept within a profile, and every pulse that is armed, waits or
drives is one that its burn may have (R25 to R27, R50, R55). -/
structure State.burnsKept (s : State) (p : Profile) : Prop where
  range : p.w0 ≤ p.wmax
  sites : ∀ (n : Site) (c : SiteCtx) (b : BurnState), s.sites[n] = some c → c.burn = some b → b.kept p
  parked : ∀ q ∈ s.dies.parked, q.burn.kept p
  armed : ∀ (n : Site) (c : SiteCtx) (b : BurnState) (e : Exchange), s.sites[n] = some c → c.burn = some b →
    c.exch = some e → e.cmd = .armBit → b.bitSpent p = false
  waiting : ∀ r ∈ s.waiting, s.pulseFits p r.site r.width
  driving : ∀ (i : Chan) (n : Site) (w e : Nat), s.chans[i].state = .driving n w e → s.pulseFits p n w

/-- The serial allocator and the reserve memory (R91 to R96): next ≤ limit ≤ H ≤ the value held, the derivation in
progress carries next, and a write in flight carries H + 256 over a memory that holds H. -/
structure KeyUnit.sound (k : KeyUnit) : Prop where
  next_le : k.next ≤ k.limit
  limit_le : k.limit ≤ k.h
  h_le : k.h ≤ k.reserve
  held : k.alloc = .ready ∨ k.alloc = .exhausted → k.reserve = k.h
  inFlight : ∀ v, k.writeInFlight = some v → k.alloc = .reserving ∧ v = k.h + 256 ∧ k.reserve = k.h
  deriving_next : ∀ d, k.derivation = some d → d.serial = k.next ∧ k.next < k.limit ∧ k.alloc = .ready

end Sys2Proof.Machine
end

