-- ==== Sys2Proof/WellFormed.lean ====
section
/-! DEFINITION. Which terms of Instr stand for something that can happen. Sites and channels are in range by their
types; what is left to check is that OTHER_REGISTER_WRITE names a write that the other rows do not cover, and that a
reset's inputs lie in their ranges. -/

namespace Sys2Proof

/-- The register window of the memory window: 0x400000..0x7FFFFF (section 11.5). -/
def inRegisterWindow (offset size : Nat) : Bool :=
  decide (4194304 ≤ offset) && decide (offset + size ≤ 8388608)

/-- A write of the register window that another row of the table covers: a command code written whole to CONTROL, or a
full-word write to EVENTS or EVENT_ENABLE (R176, R177). -/
def writeHasEffect (offset size : Nat) (value : BitVec 32) : Bool :=
  decide (size = 4) &&
    ((decide (offset = 4194304) && decide (1 ≤ value.toNat) && decide (value.toNat ≤ 4)) ||
      decide (offset = 4194312) || decide (offset = 4194316))

/-- An escrow record has at most 32 words (two slots of 64 bytes, R161). -/
def RecordCut.wellFormed : RecordCut → Bool
  | .abandoned words => decide (words ≤ 32)
  | .counted => true

/-- A reset's inputs are in range: a dump has at most 8192 entry records and 64 summaries of four words each (R121,
R130, section 11.2). -/
def ResetInputs.wellFormed (r : ResetInputs) : Bool := r.record.wellFormed && decide (r.dumpWords ≤ 33024)

/-- A term that stands for a command or event the block can be given. That a write of the register window has at most
four bytes is the model's (log 33). -/
def Instr.wellFormed : Instr → Bool
  | .engineReset r => r.wellFormed
  | .powerOnReset r _ => r.wellFormed
  | .linkReset r => r.wellFormed
  | .otherRegisterWrite offset size value =>
    inRegisterWindow offset size && decide (1 ≤ size) && decide (size ≤ 4) && !writeHasEffect offset size value
  | .nudge _ => true
  | .continueCmd => true
  | .release => true
  | .eventsWrite _ => true
  | .eventEnableWrite _ => true
  | .resetComplete => true
  | .contactRise => true
  | .contactFall => true
  | .keyImportComplete => true
  | .helloResponse _ _ => true
  | .rowCheckResponse _ _ => true
  | .armBitResponse _ _ => true
  | .senseBitResponse _ _ => true
  | .readTagResponse _ _ => true
  | .frameTimeout _ => true
  | .pulseComplete _ => true
  | .regulationLost _ => true
  | .regulationRestored _ => true
  | .settleTimerExpiry _ => true
  | .siteSettleDelayEnd _ => true
  | .grantLimitExpiry _ => true
  | .dieLookup => true
  | .placeHold => true
  | .placeGiveBack => true
  | .placeToEntry => true
  | .voidEntry => true
  | .entrySettle => true
  | .contextPark => true
  | .tableClear => true
  | .voidAllParked => true
  | .tableDump => true
  | .compositionComplete => true
  | .derivationQueueServe => true
  | .reservationSuccess => true
  | .reservationFailure _ => true
  | .derivationComplete => true
  | .escrowRecordWrite => true

end Sys2Proof
end

