-- ==== Sys2Proof/Certificates/Slice0/Obligations.lean ====
section
/-! DEFINITION. The statements for the provers, each about the board as the numbered rules of the spec describe it. -/

open Sys2Proof Sys2Proof.Machine

/-! ### Steps -/

/-- A step takes the command at the front of the queue (the model's queue: log 3). -/
def Obligations.StepTakesFrontCommand : Prop :=
  ∀ (c : Instr) (rest : List Instr) (s : State), s.pending = c :: rest → step s = exec c (s.setPending rest)

/-- With no command waiting, 0.1 µs passes at every running timer (the model's idle step: log 4; the timers are those
of R14, R28, R47 and R57). -/
def Obligations.IdleStepCountsTimers : Prop :=
  ∀ s : State, s.pending = [] → s.chain.arrival = none → ∃ t, step s = .next t ∧
    (∀ c : Chan, t.chans[c].good = s.chans[c].good ∧
      (∀ k, s.chans[c].state = .settling k → t.chans[c].state = .settling (min 500 (k + 1))) ∧
      (∀ o w e, s.chans[c].state = .driving o w e → t.chans[c].state = .driving o w (min w (e + 1))) ∧
      (s.chans[c].state = .ready → t.chans[c].state = .ready) ∧
      (s.chans[c].state = .offline → t.chans[c].state = .offline)) ∧
    t.waiting = s.waiting.map (fun r => { r with timer := min (100 * max 1 s.profile.grantLimit) (r.timer + 1) }) ∧
    (∀ n : Site, s.sites[n] = none → t.sites[n] = none) ∧
    (∀ (n : Site) (x : SiteCtx), s.sites[n] = some x → ∃ k, t.sites[n] = some { x with timer := k } ∧
      (x.state = .settling → k = min (10 * max 1 s.profile.settleDelay) (x.timer + 1)) ∧
      (x.state ≠ .settling → x.exch.isSome → k = min (10 * max 2 s.profile.frameTimeout) (x.timer + 1)) ∧
      (x.state ≠ .settling → x.exch = none → k = x.timer)) ∧
    sameBut [.chans, .waiting, .sites] s t

/-! ### Register window (chapter 10) -/

/-- A write to EVENTS clears the bits written with 1 and sends no message; a write to EVENT_ENABLE replaces the enable
bits and sends a message exactly when it makes the enabled pending set non-empty with the card's MSI enabled; neither
changes the other register or anything else. A source that sets its event bit changes no other bit, and sends one
message exactly when the enabled pending set goes from empty to non-empty with the card's MSI enabled; a bit that is
set stays set (R179, R181). -/
def Obligations.EventBitsAndMessages : Prop :=
  ((∀ (v : BitVec 32) (s : State), ∃ t, exec (.eventsWrite v) s = .next t ∧
     (∀ i, i < 9 → t.reg.events.getLsbD i = (s.reg.events.getLsbD i && !v.getLsbD i)) ∧
     t.reg = { s.reg with events := t.reg.events } ∧ sameBut [.reg] s t) ∧
   (∀ (v : BitVec 32) (s : State), ∃ t, exec (.eventEnableWrite v) s = .next t ∧
     (∀ i, i < 9 → t.reg.enable.getLsbD i = v.getLsbD i) ∧
     t.reg = { s.reg with enable := t.reg.enable, msiSent := t.reg.msiSent } ∧
     t.reg.msiSent =
       s.reg.msiSent +
         (if s.reg.events &&& s.reg.enable = 0 ∧ s.reg.events &&& t.reg.enable ≠ 0 ∧ s.reg.msiEnabled = true then 1
           else 0) ∧
     sameBut [.reg] s t)) ∧
  (∀ (e : Event) (s : State),
     (∀ i, i < 9 → (s.raise e).reg.events.getLsbD i = (s.reg.events.getLsbD i || decide (i = e.bit))) ∧
     (s.raise e).reg.enable = s.reg.enable ∧
     (s.raise e).reg.msiSent =
       s.reg.msiSent +
         (if (∀ i : Fin 9, (s.reg.events.getLsbD i && s.reg.enable.getLsbD i) = false) ∧
             s.reg.enable.getLsbD e.bit = true ∧ s.reg.msiEnabled = true then 1 else 0) ∧
     sameBut [.reg] s (s.raise e))

/-- A full-word write to CONTROL gives the command of its code, one to EVENTS or EVENT_ENABLE the write of that
register, and any other write of the register window is discarded with no effect at all (R176, R177; that a write of
more than four bytes is discarded too is the model's choice: log 33). While a reset lasts every command of CONTROL is
discarded (R177 for an engine reset; after a power-on or link reset the model's choice: log 34). The STATUS word holds
its ten fields at their places, and bits 31 and 30 read as 0; CONTROL and every unoccupied offset read as 0, EVENTS and
EVENT_ENABLE as their nine bits, and SERIAL_MARK as H ÷ 256 rounded down (R99, R176, R178). -/
def Obligations.RegisterWindow : Prop :=
  ((∀ s : State, s.reg.resetting = true →
     (∀ first, exec (.nudge first) s = .next s) ∧ exec .continueCmd s = .next s ∧ exec .release s = .next s ∧
       ∀ inp, exec (.engineReset inp) s = .next s) ∧
   ∀ (offset size : Nat) (v : BitVec 32) (inp : ResetInputs) (first : Bool),
     (writeHasEffect offset size v = false → ∀ s : State,
       commandOfWrite offset size v inp first = .otherRegisterWrite offset size v ∧
         exec (.otherRegisterWrite offset size v) s = .next s) ∧
     (writeHasEffect offset size v = true →
       (offset = 0x400000 ∧
           ((v = 1 ∧ commandOfWrite offset size v inp first = .nudge first) ∨
             (v = 2 ∧ commandOfWrite offset size v inp first = .continueCmd) ∨
             (v = 3 ∧ commandOfWrite offset size v inp first = .release) ∨
             (v = 4 ∧ commandOfWrite offset size v inp first = .engineReset inp))) ∨
         (offset = 0x400008 ∧ commandOfWrite offset size v inp first = .eventsWrite v) ∨
         (offset = 0x40000C ∧ commandOfWrite offset size v inp first = .eventEnableWrite v))) ∧
  (∀ s : State, (∀ tag, s.chain.expected = some tag → tag ≤ 65535) → s.keys.h ≤ serialTop - 255 →
     let w := s.registerRead 0x400004
     ((w.extractLsb' 0 16).toNat = s.chain.expected.getD 0 ∧
       (w.extractLsb' 16 2).toNat = s.chain.state.code ∧ (w.extractLsb' 18 2).toNat = s.reg.lastReset.code ∧
       w.getLsbD 20 = s.keys.loaded ∧ w.getLsbD 21 = s.chain.wafer.isSome ∧
       (w.extractLsb' 22 2).toNat = s.keys.alloc.code ∧
       (w.extractLsb' 24 3).toNat = (allChans.filter fun c => s.chans[c].state == .ready).length ∧
       w.getLsbD 27 = s.contact ∧ w.getLsbD 28 = s.escrow.writer.isStalled ∧ w.getLsbD 29 = s.reg.resetting ∧
       w.getLsbD 30 = false ∧ w.getLsbD 31 = false) ∧
     s.registerRead 0x400000 = 0 ∧
     (∀ i, i < 32 → (s.registerRead 0x400008).getLsbD i = (decide (i < 9) && s.reg.events.getLsbD i)) ∧
     (∀ i, i < 32 → (s.registerRead 0x40000C).getLsbD i = (decide (i < 9) && s.reg.enable.getLsbD i)) ∧
     (s.registerRead 0x400010).toNat = s.keys.h / 256 ∧ (∀ o, 0x400010 < o → s.registerRead o = 0) ∧
     ∀ a, a < jobMemorySize → s.windowByte a = s.mem.read a)

/-! ### Resets (chapters 3 to 10) -/

/-- ENGINE_RESET outside a reset: keys, EVENT_ENABLE and wafer sequence survive, everything else is as after any reset,
and a CHANNEL_UNLOCK of the reset sends a message if its enable bit is set (R62, R86, R98, R107, R139, R145, R174,
R177, R181, R183, R184, R186). Until RESET_COMPLETE the key unit keeps H, next, limit and the allocator state of before:
the model's choice (log 23). -/
def Obligations.EngineResetResult : Prop :=
  ∀ (inp : ResetInputs) (s : State), s.reg.resetting = false → ∃ t, exec (.engineReset inp) s = .next t ∧
    resetLeaves inp t ∧ t.chain = { ChainUnit.reset with waferSeq := s.chain.waferSeq } ∧
    t.keys = { s.keys with importing := none, queue := [], derivation := none } ∧
    t.reg.lastReset = .engine ∧ t.reg.enable = s.reg.enable ∧ t.reg.msiEnabled = s.reg.msiEnabled ∧
    t.reg.msiSent =
      s.reg.msiSent +
        (if inp.regulation ≠ 15 ∧ s.reg.enable.getLsbD 5 = true ∧ s.reg.msiEnabled = true then 1 else 0) ∧
    t.tieOrder = s.tieOrder ∧ t.freeCount = s.freeCount ∧ t.pending = s.pending

/-- LINK_RESET and POWER_ON_RESET: keys, EVENT_ENABLE and wafer sequence are cleared, no message is sent, and a
reservation write goes on at a link reset and ends whole at a power-on (R62, R86, R87, R91, R98, R107, R145, R184). -/
def Obligations.HardwareResetResult : Prop :=
  (∀ (inp : ResetInputs) (s : State), ∃ t, exec (.linkReset inp) s = .next t ∧
    resetLeaves inp t ∧ t.chain = .reset ∧ t.keys.loaded = false ∧ t.keys.rootKey = 0 ∧ t.keys.rootId = 0 ∧
    t.keys.transportKey = 0 ∧ t.keys.reserve = s.keys.reserve ∧ t.keys.writeInFlight = s.keys.writeInFlight ∧
    t.reg.lastReset = .link ∧ t.reg.enable = 0 ∧ t.reg.msiSent = s.reg.msiSent ∧ t.pending = s.pending) ∧
  (∀ (inp : ResetInputs) (tookNew : Bool) (s : State), ∃ t, exec (.powerOnReset inp tookNew) s = .next t ∧
    resetLeaves inp t ∧ t.chain = .reset ∧ t.keys.loaded = false ∧ t.keys.rootKey = 0 ∧ t.keys.rootId = 0 ∧
    t.keys.transportKey = 0 ∧ t.keys.writeInFlight = none ∧
    (t.keys.reserve = s.keys.reserve ∨ s.keys.writeInFlight = some t.keys.reserve) ∧
    (s.keys.writeInFlight = none → t.keys.reserve = s.keys.reserve) ∧
    t.reg.lastReset = .power ∧ t.reg.enable = 0 ∧ t.reg.msiSent = s.reg.msiSent ∧ t.mem.wf = true ∧
    t.pending = s.pending)

/-- Job memory at a reset with nothing of a dump or a record written: an engine reset hands over an open page that holds
records and changes no other byte, and changes nothing with no such page; a link reset changes no byte. What a link
reset finds partly written stays: of a dump, or of a record in progress, the first words and nothing else. A record
already counted stands whole and the page's record count with it: a link reset leaves the page ENGINE even when that
record fills it, an engine reset hands it over. A counted CLOSE of a context bound to a park has taken that park: the
waiting site's entry is written too, and nothing else (R133, R139, R140, R174, R175; how far a write has come, and that
the chain unit has not acted on a counted record, are log 13; the order of an ISSUE's key bytes log 37). RESET_COMPLETE
ends a reset once no reservation write is in flight: next, limit and H become the value held, the allocator READY (R98,
R177); in any other case it changes nothing (the model's choice: log 16). -/
def Obligations.ResetHandsOverAndEnds : Prop :=
  (∀ (inp : ResetInputs) (s : State), s.mem.wf = true → inp.dumpWords = 0 → inp.record = .abandoned 0 →
     (∀ t, exec (.linkReset inp) s = .next t → t.mem = s.mem) ∧
     (s.reg.resetting = false → ∀ t, exec (.engineReset inp) s = .next t →
       (∀ page slot records, s.escrow.writer = .opened page slot records → 0 < records → records ≤ 16 →
         s.escrow.seq ≤ counterMax → page + 1088 ≤ jobMemorySize →
         t.mem.read32 page = ownerHostRead ∧ t.mem.read32 (page + 4) = s.escrow.seq ∧
           t.mem.read32 (page + 8) = records ∧ bytesBut page 12 s t) ∧
       ((∀ page slot records, s.escrow.writer = .opened page slot records → records = 0) → t.mem = s.mem))) ∧
  (∀ (inp : ResetInputs) (buffer capacity : Nat) (rest : List TableRequest) (s : State), s.mem.wf = true →
     s.dies.queue = .dump buffer capacity :: rest → inp.record = .abandoned 0 → buffer + capacity ≤ jobMemorySize →
     4 * inp.dumpWords ≤ (s.dies.dumpBytes capacity).length → ∃ t, exec (.linkReset inp) s = .next t ∧
       t.mem.readBytes buffer (4 * inp.dumpWords) = (s.dies.dumpBytes capacity).take (4 * inp.dumpWords) ∧
       bytesBut buffer (4 * inp.dumpWords) s t) ∧
  (∀ (inp : ResetInputs) (page slot records : Nat) (r : RecordRequest) (rest : List RecordRequest) (s : State),
     s.mem.wf = true → inp.dumpWords = 0 → s.escrow.writer = .opened page slot records → s.escrow.queue = r :: rest →
     slot + r.record.slots ≤ 16 → records < counterMax → page + 1088 ≤ jobMemorySize →
     (∀ n, inp.record = .abandoned n → n ≤ 16 * r.record.slots → ∃ t, exec (.linkReset inp) s = .next t ∧
       t.mem.readBytes (page + 64 + 64 * slot) (4 * n) = (r.record.bytes s.counters).take (4 * n) ∧
       bytesBut (page + 64 + 64 * slot) (4 * n) s t) ∧
     (inp.record = .counted →
       (r.report = .dieTable → ∀ x, r.record = .close x → ∀ q ∈ s.dies.parked, q.die = x.die →
         ∀ n, q.status ≠ .closing (some n)) →
       (∃ t, exec (.linkReset inp) s = .next t ∧
         t.mem.readBytes (page + 64 + 64 * slot) (64 * r.record.slots) = r.record.bytes s.counters ∧
         t.mem.read32 (page + 8) = records + 1 ∧ t.mem.read32 page = s.mem.read32 page ∧
         ∀ a, ¬(page + 8 ≤ a ∧ a < page + 12) →
           ¬(page + 64 + 64 * slot ≤ a ∧ a < page + 64 + 64 * (slot + r.record.slots)) → t.mem.read a = s.mem.read a) ∧
       (s.reg.resetting = false → s.escrow.seq ≤ counterMax → ∃ t, exec (.engineReset inp) s = .next t ∧
         t.mem.readBytes (page + 64 + 64 * slot) (64 * r.record.slots) = r.record.bytes s.counters ∧
         t.mem.read32 page = ownerHostRead ∧ t.mem.read32 (page + 4) = s.escrow.seq ∧
         t.mem.read32 (page + 8) = records + 1 ∧
         ∀ a, ¬(page ≤ a ∧ a < page + 12) →
           ¬(page + 64 + 64 * slot ≤ a ∧ a < page + 64 + 64 * (slot + r.record.slots)) → t.mem.read a = s.mem.read a))) ∧
  (∀ (inp : ResetInputs) (page slot records : Nat) (r : CloseRecord) (rest : List RecordRequest) (p : ParkedContext)
     (n : Site) (c : SiteCtx) (b : Block) (s : State), s.mem.wf = true → inp.dumpWords = 0 → inp.record = .counted →
     s.escrow.writer = .opened page slot records → s.escrow.queue = { record := .close r, report := .dieTable } :: rest →
     slot + 1 ≤ 16 → records < counterMax → page + 1088 ≤ jobMemorySize →
     (s.dies.parked.filter fun q => !q.isHeld && decide (q.die = r.die)) = [p] → p.status = .closing (some n) →
     s.sites[n] = some c → s.chain.block = some b →
     ∃ t, exec (.linkReset inp) s = .next t ∧ let a := b.offset + 80 + 48 * c.index + 10
       (apart a 38 page 1088 →
         t.mem.readBytes (page + 64 + 64 * slot) 64 = (EscrowRecord.close r).bytes s.counters ∧
           t.mem.read32 (page + 8) = records + 1 ∧ t.mem.read32 page = s.mem.read32 page) ∧
       (a + 38 ≤ jobMemorySize → (t.mem.read (a + 2)).toNat = c.stop.parkResult.code) ∧
       ∀ x, ¬(page + 8 ≤ x ∧ x < page + 12) → ¬(page + 64 + 64 * slot ≤ x ∧ x < page + 64 + 64 * (slot + 1)) →
         ¬(a ≤ x ∧ x < a + 38) → t.mem.read x = s.mem.read x) ∧
  (∀ s : State,
     (s.reg.resetting = true → s.keys.writeInFlight = none → ∃ t, exec .resetComplete s = .next t ∧
       t.keys =
         { s.keys with
           h := s.keys.reserve, next := s.keys.reserve, limit := s.keys.reserve, alloc := .ready, derivation := none } ∧
       t.reg = { s.reg with resetting := false } ∧ sameBut [.keys, .reg] s t) ∧
     (s.reg.resetting = false ∨ s.keys.writeInFlight ≠ none → exec .resetComplete s = .next s))

/-! ### Chain unit (chapter 8) -/

/-- A NUDGE in IDLE, and a CONTINUE of a hold for a header fault, that finds a good header takes the start tag, hands over
the anchor (RESTART queued) and arrives at the anchor block. If it is not ready, the unit waits there: a page that is
valid and ENGINE is opened (hypothesis: its header fields do not lie on the block's ready tag), and the flush asked for
on entering WAITING is pending behind the RESTART, which is still queued: the model's reading of R163's "at once"
(log 12); with any other anchor the writer stalls on it, which sets ESCROW_STALL, and the flush finds nothing. If it is
ready, the unit takes it. Both orders of the two takers of a NUDGE agree where the page opens or no byte of job memory
changes (R146, R147, R149, R163, R168). -/
def Obligations.NudgeReadsGoodHeader : Prop :=
  ∀ (cmd : Instr) (s : State), s.reg.resetting = false → s.escrow.writer = .idle → s.escrow.queue = [] →
    (readHeader s.mem).passes = true →
    ((∃ first, cmd = .nudge first) ∧ s.chain.state = .idle) ∨
      (cmd = .continueCmd ∧ s.chain.state = .held .headerFault) →
    let anchor := (readHeader s.mem).anchor
    let page := (readHeader s.mem).escrowAnchor
    let opens := validPage page = true ∧ s.mem.read32 page = ownerEngine ∧ apart anchor 2 (page + 4) 8
    (s.mem.read16 anchor ≠ (readHeader s.mem).startTag →
      (opens → ∃ t, exec cmd s = .next t ∧
        t.chain =
          { s.chain with
            state := .waiting, expected := some (readHeader s.mem).startTag, offset := some anchor } ∧
        t.escrow =
          { s.escrow with
            writer := .opened page 0 0
            queue := [{ record := .restart s.reg.lastReset s.keys.h, report := .nobody }], flushPending := true } ∧
        t.reg = s.reg.setEvent .chainWait ∧ bytesBut (page + 4) 8 s t ∧ sameBut [.reg, .mem, .chain, .escrow] s t) ∧
      (validPage page = false ∨ s.mem.read32 page ≠ ownerEngine → ∃ t, exec cmd s = .next t ∧
        t.chain =
          { s.chain with
            state := .waiting, expected := some (readHeader s.mem).startTag, offset := some anchor } ∧
        t.escrow =
          { s.escrow with
            writer := .stalled .anchor
            queue := [{ record := .restart s.reg.lastReset s.keys.h, report := .nobody }] } ∧
        t.reg = (s.reg.setEvent .escrowStall).setEvent .chainWait ∧ sameBut [.reg, .chain, .escrow] s t)) ∧
    (s.mem.read16 anchor = (readHeader s.mem).startTag → s.mem.wf = true → s.escrow.seq ≤ counterMax →
      (opens → ∃ u, headerTaken s u ∧ takesReady u anchor (exec cmd s)) ∧
      (validPage page = false ∨ s.mem.read32 page ≠ ownerEngine → ∃ u, headerTaken s u ∧
        (cmd ≠ .nudge false → takesReady u anchor (exec cmd s)) ∧
        ∀ t, u.takeBlock anchor = (t, none) → t.mem = u.mem → exec cmd s = .next t))

/-- In IDLE a NUDGE that finds a bad header, and a CONTINUE of a hold for a header fault that finds it still bad, set
CHAIN_FAULT and HELD and hold with HEADER_FAULT, and hand nothing to the escrow writer (R146, R149). In WAITING a NUDGE
that finds the block ready takes it, and the writer takes the NUDGE before that or after it (log 11); a wait that follows
the taking leaves its flush pending while a record counts as being written (log 12). One that finds it
still not ready, and a NUDGE in RUNNING or HELD, leaves the chain unit as it is and sets no event of it: with the writer
idle or with a page open nothing changes at all; a writer stalled on the anchor reads the header's escrow anchor again,
one stalled on a link the page's next-page field, opens that page if it may, and otherwise stays stalled without setting
ESCROW_STALL again (R147, R150, R164). -/
def Obligations.NudgeWithoutProgress : Prop :=
  (∀ s : State, s.reg.resetting = false → (readHeader s.mem).passes = false → s.escrow.writer = .idle →
     (s.chain.state = .idle → ∀ first, ∃ t, exec (.nudge first) s = .next t ∧
       t.chain = { s.chain with state := .held .headerFault, offset := none } ∧
       t.reg = (s.reg.setEvent .chainFault).setEvent .held ∧ sameBut [.reg, .chain] s t) ∧
     (s.chain.state = .held .headerFault → ∃ t, exec .continueCmd s = .next t ∧
       t.chain = { s.chain with state := .held .headerFault, offset := none } ∧
       t.reg = (s.reg.setEvent .chainFault).setEvent .held ∧ sameBut [.reg, .chain] s t)) ∧
  (∀ (first : Bool) (offset : Nat) (s : State), s.reg.resetting = false → s.chain.state = .waiting →
     s.chain.offset = some offset → s.blockReady offset = true →
     (s.escrow.writer = .idle ∨ (∃ page slot records, s.escrow.writer = .opened page slot records) →
       takesReady s offset (exec (.nudge first) s)) ∧
     (∃ v, takesReady s offset (.next v) ∧ exec (.nudge false) s = .next v.nudgeWriter) ∧
     ∀ next source, s.escrow.writer = .stalled source →
       (source = .anchor ∧ next = s.mem.read32 12) ∨ (∃ page, source = .link page ∧ next = s.mem.read32 (page + 12)) →
       ((validPage next = false ∨ s.mem.read32 next ≠ ownerEngine) →
         takesReady s offset (exec (.nudge true) s)) ∧
       (validPage next = true → s.mem.read32 next = ownerEngine → apart offset 2 (next + 4) 8 → ∃ u,
         u.escrow = { s.escrow with writer := .opened next 0 0 } ∧ bytesBut (next + 4) 8 s u ∧
         sameBut [.mem, .escrow] s u ∧ takesReady u offset (exec (.nudge true) s))) ∧
  ∀ (first : Bool) (s : State), s.reg.resetting = false →
    (∃ offset, s.chain.state = .waiting ∧ s.chain.offset = some offset ∧ s.blockReady offset = false) ∨
      s.chain.state = .running ∨ (∃ r, s.chain.state = .held r) →
    (s.escrow.writer = .idle ∨ (∃ page slot records, s.escrow.writer = .opened page slot records) →
      exec (.nudge first) s = .next s) ∧
    ∀ next source, s.escrow.writer = .stalled source →
      (source = .anchor ∧ next = s.mem.read32 12) ∨ (∃ page, source = .link page ∧ next = s.mem.read32 (page + 12)) →
      (validPage next = true → s.mem.read32 next = ownerEngine →
        (∀ offset, s.chain.state = .waiting → s.chain.offset = some offset → apart offset 2 (next + 4) 8) →
        ∃ t, exec (.nudge first) s = .next t ∧ t.escrow = { s.escrow with writer := .opened next 0 0 } ∧
          bytesBut (next + 4) 8 s t ∧ sameBut [.mem, .escrow] s t) ∧
      ((validPage next = false ∨ s.mem.read32 next ≠ ownerEngine) → exec (.nudge first) s = .next s)

/-- A CONTINUE outside HELD has no effect (R150). In HELD for a release with CONTACT low the unit re-enters HELD: it
sets CONTACT_LOST and HELD again and counts no release (R149). A CONTINUE of a hold for a halt, or of a hold for a
release with CONTACT asserted, ends the block in hand with the result that already stands in job memory: the done tag
is written, the tag moves on, and the link is judged. An invalid link sets CHAIN_FAULT and holds with LINK_FAULT; a
valid one takes the unit to the linked block, where it waits or, if the block is ready, takes it (R143, R147 to R149). A
CONTINUE of a hold for a link fault judges the link of the last done block again, with the same three ends (R149). That a
wait after the taking leaves its flush pending while a record counts as being written is the model's reading (log 12). -/
def Obligations.ContinueEndsHold : Prop :=
  ((∀ s : State, (∀ r, s.chain.state ≠ .held r) → exec .continueCmd s = .next s) ∧
   ∀ (b : Block) (s : State), s.reg.resetting = false → s.chain.state = .held .release → s.chain.block = some b →
     s.contact = false → s.nothingToFlush → ∃ t, exec .continueCmd s = .next t ∧
       t.reg = (s.reg.setEvent .contactLost).setEvent .held ∧ sameBut [.reg] s t) ∧
  (∀ (b : Block) (tag : Nat) (s : State), s.reg.resetting = false → s.chain.block = some b →
     (s.chain.state = .held .halt ∨ (s.chain.state = .held .release ∧ s.contact = true)) →
     (s.waitsAfter b tag → ∃ t, exec .continueCmd s = .next t ∧
       t.chain =
         { s.chain with
           state := .waiting, expected := some (nextTag tag), offset := some (s.linkOf b.offset), block := none
           lastDone := some b.offset } ∧
       t.mem.read16 (b.offset + 12) = tag ∧ bytesBut (b.offset + 12) 2 s t ∧
       t.reg = (if b.notify then s.reg.setEvent .blockDone else s.reg).setEvent .chainWait ∧
       sameBut [.reg, .mem, .chain] s t) ∧
     (s.linkFails b tag → ∃ t, exec .continueCmd s = .next t ∧
       t.chain =
         { s.chain with
           state := .held .linkFault, expected := some (nextTag tag), offset := none, block := none
           lastDone := some b.offset } ∧
       t.mem.read16 (b.offset + 12) = tag ∧ bytesBut (b.offset + 12) 2 s t ∧
       t.reg = ((if b.notify then s.reg.setEvent .blockDone else s.reg).setEvent .chainFault).setEvent .held ∧
       sameBut [.reg, .mem, .chain] s t) ∧
     (s.linkReady b tag → ∃ u, blockCloses s u b tag ∧ takesReady u (s.linkOf b.offset) (exec .continueCmd s))) ∧
  ∀ (offset : Nat) (s : State), s.reg.resetting = false → s.chain.state = .held .linkFault →
    s.chain.lastDone = some offset →
    (validBlockOffset (s.linkOf offset) = false → s.nothingToFlush → ∃ t, exec .continueCmd s = .next t ∧
      t.chain = { s.chain with state := .held .linkFault, offset := none } ∧
      t.reg = (s.reg.setEvent .chainFault).setEvent .held ∧ sameBut [.reg, .chain] s t) ∧
    (validBlockOffset (s.linkOf offset) = true → s.blockReady (s.linkOf offset) = false → s.nothingToFlush →
      ∃ t, exec .continueCmd s = .next t ∧
        t.chain = { s.chain with state := .waiting, offset := some (s.linkOf offset) } ∧
        t.reg = s.reg.setEvent .chainWait ∧ sameBut [.reg, .chain] s t) ∧
    (validBlockOffset (s.linkOf offset) = true → s.blockReady (s.linkOf offset) = true →
      takesReady s (s.linkOf offset) (exec .continueCmd s))

/-- A refused block has no effect beyond its result: taking it only moves the unit to RUNNING at its offset. Refused by
kind and wafer are an unknown kind, a LOAD_KEYS or WAFER_START with a wafer open, a TOUCHDOWN or WAFER_END without one
(R144, R151, R156 to R158, R185). -/
def Obligations.RefusedBlockHasNoEffect : Prop :=
  ∀ (offset : Nat) (s : State),
    (∀ (t : State) (r : BlockResult), s.takeBlock offset = (t, some r) → r ≠ .ok →
      t = s.setChain { s.chain with state := .running, offset := some offset }) ∧
    ((s.mem.read (offset + 4)).toNat = 0 ∨ 6 < (s.mem.read (offset + 4)).toNat →
      (s.takeBlock offset).2 = some .blockInvalid) ∧
    (s.chain.wafer.isSome = true → s.mem.read (offset + 4) = 1 ∨ s.mem.read (offset + 4) = 2 →
      (s.takeBlock offset).2 = some .waferOpen) ∧
    (s.chain.wafer = none → s.mem.read (offset + 4) = 3 ∨ s.mem.read (offset + 4) = 4 →
      (s.takeBlock offset).2 = some .noWafer)

/-- A STATS block writes the sixteen counters in their order into its body, clears them exactly when its flag is not 0,
and changes nothing else: taking it only moves the unit to RUNNING at its offset (R159, R183, section 11.2). -/
def Obligations.StatsBlockWritesCounters : Prop :=
  ∀ (offset : Nat) (s : State), s.mem.wf = true → s.countersBounded → s.mem.read (offset + 4) = 5 →
    offset + 132 ≤ jobMemorySize → ∃ t, s.takeBlock offset = (t, some .ok) ∧
      (∀ k : Counter, t.mem.read32 (offset + 68 + 4 * k.index.val) = s.counter k) ∧
      (∀ k : Counter, t.counter k = if s.mem.read (offset + 64) = 0 then s.counter k else 0) ∧
      t.chain = { s.chain with state := .running, offset := some offset } ∧
      bytesBut (offset + 68) 64 s t ∧ sameBut [.chain, .mem, .counters] s t

/-- An accepted WAFER_START has burn parameters in their ranges, windows that pass, 64 different printable characters,
a lot name of 1 to 12 characters of the table, and at most sixteen steps whose arguments are in range, and every block
whose fields and profile meet those conditions is accepted (R9, R22, R108, R110, R157). A TOUCHDOWN that passes
validation has 1 to 24 entries, no two with the same site, die or arbitration number, every coordinate at most 1023,
every arbitration number at most 63 and that of a PROVISION not 0, and every body whose fields are so passes (R151). A
DUMP whose body lies in job memory is accepted, its request queued, exactly when its buffer is a multiple of 64, at
least 1088, ends within 4 MiB and does not overlap the block; otherwise it is refused with BLOCK_INVALID (R160). -/
def Obligations.IntakeValidates : Prop :=
  (∀ (m : Memory) (b : Nat) (w : WaferContext), readWaferStart m b = .ok w →
     (1 ≤ w.profile.w0 ∧ w.profile.w0 ≤ w.profile.wmax ∧ w.profile.wmax ≤ 4095 ∧ w.profile.growth ≤ 15 ∧
       1 ≤ w.profile.pmax ∧ w.profile.pmax ≤ 15 ∧ 1 ≤ w.profile.cmax ∧ w.profile.cmax ≤ 65535 ∧
       w.profile.tb < w.profile.tu ∧ w.profile.tu ≤ 1023 ∧ w.profile.spareCount ≤ 8) ∧
     (1 ≤ w.profile.windows.length ∧ w.profile.windows.length ≤ 8 ∧
       ∀ x ∈ w.profile.windows, (∃ k, k ≤ 9 ∧ x.size = 2 ^ k) ∧ x.size ∣ x.base ∧ x.base + x.size ≤ 512) ∧
     (w.table.length = 64 ∧ w.table.Nodup ∧ ∀ c ∈ w.table, 0x20 ≤ c.toNat ∧ c.toNat ≤ 0x7E) ∧
     (1 ≤ w.lot.length ∧ w.lot.length ≤ 12 ∧ ∀ c ∈ w.lot, c ∈ w.table) ∧
     w.steps.length ≤ 16 ∧
     ∀ st ∈ w.steps,
       (∀ n, st = .lot n → 1 ≤ n ∧ n ≤ 12) ∧ (∀ n, st = .skip n → 1 ≤ n ∧ n ≤ 12) ∧
         ∀ f n, st = .num f n → 1 ≤ n ∧ n ≤ 4) ∧
  (∀ (m : Memory) (b : Nat) (es : List SiteEntry), readTouchdown m b = some es →
     1 ≤ es.length ∧ es.length ≤ 24 ∧ b + 80 + 48 * es.length ≤ jobMemorySize ∧
       (es.map SiteEntry.site).Nodup ∧ (es.map SiteEntry.die).Nodup ∧ (es.map SiteEntry.arb).Nodup ∧
       ∀ e ∈ es, e.die.x ≤ 1023 ∧ e.die.y ≤ 1023 ∧ e.arb ≤ 63 ∧ (e.action = .provision → e.arb ≠ 0)) ∧
  (∀ (m : Memory) (b : Nat), let a := 64 + 256 * (m.read (b + 65)).toNat
     let count := (m.read (a + 18)).toNat
     let lot := (m.read (b + 64)).toNat
     (m.read (b + 65)).toNat ≤ 3 → (m.read (b + 66)).toNat ≤ 1 → b + 224 ≤ jobMemorySize →
     1 ≤ m.read16 a → m.read16 a ≤ m.read16 (a + 2) → m.read16 (a + 2) ≤ 4095 → (m.read (a + 12)).toNat ≤ 15 →
     1 ≤ (m.read (a + 13)).toNat → (m.read (a + 13)).toNat ≤ 15 → 1 ≤ m.read16 (a + 4) →
     m.read16 (a + 6) < m.read16 (a + 8) → m.read16 (a + 8) ≤ 1023 → (m.read (a + 17)).toNat ≤ 8 →
     1 ≤ count → count ≤ 8 →
     (∀ j, j < count → (m.read (a + 32 + 8 * j + 4)).toNat ≤ 2 ∧ (∃ k, k ≤ 9 ∧ m.read16 (a + 32 + 8 * j + 2) = 2 ^ k) ∧
       m.read16 (a + 32 + 8 * j + 2) ∣ m.read16 (a + 32 + 8 * j) ∧ m.read16 (a + 32 + 8 * j) ≤ 511) →
     (∀ i, i < 64 → 0x20 ≤ (m.read (b + 96 + i)).toNat ∧ (m.read (b + 96 + i)).toNat ≤ 0x7E) →
     (∀ i j, i < j → j < 64 → m.read (b + 96 + i) ≠ m.read (b + 96 + j)) →
     1 ≤ lot → lot ≤ 12 → (∀ i, i < lot → ∃ j, j < 64 ∧ m.read (b + 72 + i) = m.read (b + 96 + j)) →
     (∀ i, i < 16 → (∀ j, j ≤ i → m.read (b + 160 + 4 * j) ≠ 0) →
       let arg := (m.read (b + 160 + 4 * i + 1)).toNat
       let wid := (m.read (b + 160 + 4 * i + 2)).toNat
       (m.read (b + 160 + 4 * i) = 1 ∨ m.read (b + 160 + 4 * i) = 2) ∧ 1 ≤ arg ∧ arg ≤ 12 ∨
         (m.read (b + 160 + 4 * i) = 3 ∨ m.read (b + 160 + 4 * i) = 4) ∨
         m.read (b + 160 + 4 * i) = 5 ∧ arg ≤ 3 ∧ 1 ≤ wid ∧ wid ≤ 4) →
     ∃ w, readWaferStart m b = .ok w ∧ w.lot = m.readBytes (b + 72) lot ∧ w.table = m.readBytes (b + 96) 64 ∧
       w.number = m.read16 (b + 68) ∧ w.pad = m.read (b + 67) ∧ (w.dry = true ↔ m.read (b + 66) = 1)) ∧
  (∀ (m : Memory) (b : Nat), let count := (m.read (b + 64)).toNat
     1 ≤ count → count ≤ 24 → b + 80 + 48 * count ≤ jobMemorySize →
     (∀ k, k < count → let a := b + 80 + 48 * k
       (m.read a).toNat ≤ 23 ∧ 1 ≤ (m.read (a + 1)).toNat ∧ (m.read (a + 1)).toNat ≤ 4 ∧ (m.read (a + 2)).toNat ≤ 2 ∧
         (m.read (a + 3)).toNat ≤ 63 ∧ m.read16 (a + 4) ≤ 1023 ∧ m.read16 (a + 6) ≤ 1023 ∧
         (m.read (a + 1) = 1 → m.read (a + 3) ≠ 0)) →
     (∀ k l, k < l → l < count → let a := b + 80 + 48 * k
       let d := b + 80 + 48 * l
       m.read a ≠ m.read d ∧ m.read (a + 3) ≠ m.read (d + 3) ∧
         (m.read16 (a + 4) ≠ m.read16 (d + 4) ∨ m.read16 (a + 6) ≠ m.read16 (d + 6))) →
     ∃ es, readTouchdown m b = some es ∧ es.length = count ∧ ∀ k, ∀ h : k < es.length,
       es[k].site.val = (m.read (b + 80 + 48 * k)).toNat ∧ es[k].arb = (m.read (b + 80 + 48 * k + 3)).toNat ∧
         es[k].die = ⟨m.read16 (b + 80 + 48 * k + 4), m.read16 (b + 80 + 48 * k + 6)⟩ ∧
         es[k].expected.toNat = m.read16 (b + 80 + 48 * k + 8)) ∧
  (∀ (offset : Nat) (s : State), s.mem.read (offset + 4) = 6 → offset + 88 ≤ jobMemorySize →
     let buffer := s.mem.read32 (offset + 64)
     let capacity := s.mem.read32 (offset + 68)
     (buffer % 64 = 0 ∧ 1088 ≤ buffer ∧ buffer + capacity ≤ jobMemorySize ∧
         (0 < capacity → apart buffer capacity offset 88) → ∃ t, s.takeBlock offset = (t, none) ∧
       t.dies = { s.dies with queue := s.dies.queue ++ [.dump buffer capacity] } ∧
       (∃ b, t.chain = { s.chain with state := .running, offset := some offset, block := some b } ∧
         b.offset = offset ∧ b.work = .dump ∧ b.notify = (s.mem.read (offset + 5)).getLsbD 0) ∧
       sameBut [.chain, .dies] s t) ∧
     (¬(buffer % 64 = 0 ∧ 1088 ≤ buffer ∧ buffer + capacity ≤ jobMemorySize ∧
         (0 < capacity → apart buffer capacity offset 88)) → (s.takeBlock offset).2 = some .blockInvalid))

/-- An accepted WAFER_START opens the wafer, asks for a clear, clears the counters, counts up the wafer sequence
(holding at its top) and queues WAFER_OPEN, and changes nothing else (R157). An accepted LOAD_KEYS hands its two blobs to
the key unit, an accepted WAFER_END asks the die table unit to void every parked context, and both stay in hand (R156,
R158). An accepted TOUCHDOWN stays in hand and waits while CONTACT is low; with CONTACT asserted its entries start at
once, and one whose every entry is SKIP is done at once with OK (R151, R152). -/
def Obligations.AcceptedBlocksTaken : Prop :=
  (∀ (offset : Nat) (w : WaferContext) (s : State), s.chain.wafer = none → s.mem.read (offset + 4) = 2 →
    readWaferStart s.mem offset = .ok w → ∃ t, s.takeBlock offset = (t, some .ok) ∧
      t.chain =
        { s.chain with
          state := .running, offset := some offset, wafer := some w
          waferSeq := if s.chain.waferSeq < counterMax then s.chain.waferSeq + 1 else s.chain.waferSeq } ∧
      t.dies = { s.dies with queue := s.dies.queue ++ [.clear] } ∧ (∀ k, t.counter k = 0) ∧
      t.escrow = { s.escrow with queue := s.escrow.queue ++ [{ record := .waferOpen, report := .nobody }] } ∧
      sameBut [.chain, .dies, .counters, .escrow] s t) ∧
  ∀ (offset : Nat) (s : State),
    let b := readBlock s.mem offset
    let held := fun w : Work =>
      { s.chain with state := .running, offset := some offset, block := some { b with work := w } }
    (s.mem.read (offset + 4) = 1 → s.chain.wafer = none → offset + 152 ≤ jobMemorySize → ∃ t,
      s.takeBlock offset = (t, none) ∧ t.chain = held .loadKeys ∧
      t.keys =
        { s.keys with
          importing := some
            { rootBlob := s.mem.readBytes (offset + 64) 44, transportBlob := s.mem.readBytes (offset + 112) 40 } } ∧
      sameBut [.chain, .keys] s t) ∧
    (s.mem.read (offset + 4) = 4 → s.chain.wafer.isSome = true → ∃ t, s.takeBlock offset = (t, none) ∧
      t.chain = held .waferEnd ∧ t.dies = { s.dies with queue := s.dies.queue ++ [.voidAll] } ∧
      sameBut [.chain, .dies] s t) ∧
    ∀ es, s.mem.read (offset + 4) = 3 → s.chain.wafer.isSome = true → readTouchdown s.mem offset = some es →
      (s.contact = false → ∃ t, s.takeBlock offset = (t, none) ∧ t.chain = held (.touchdown es false false false) ∧
        sameBut [.chain] s t) ∧
      (s.contact = true → (∃ e ∈ es, e.action ≠ .skip) → ∃ t, s.takeBlock offset = (t, none) ∧
        entriesStart s t b es ∧ t.chain = held (.touchdown es true false false) ∧ sameBut [.chain, .sites, .mem] s t) ∧
      (s.contact = true → (∀ e ∈ es, e.action = .skip) → ∃ t, s.takeBlock offset = (t, some .ok) ∧
        (∀ n : Site, t.sites[n] = none) ∧ t.chain = held (.touchdown es true false false) ∧
        (∀ k, k < es.length → s.mem.wf = true → offset + 80 + 48 * k + 48 ≤ jobMemorySize →
          (t.mem.read (offset + 80 + 48 * k + 12)).toNat = SiteResult.skipped.code) ∧
        (∀ a, (∀ k, k < es.length → ¬(offset + 80 + 48 * k + 10 ≤ a ∧ a < offset + 80 + 48 * k + 48)) →
          t.mem.read a = s.mem.read a) ∧
        sameBut [.chain, .sites, .mem] s t)

/-- CONTACT_RISE starts a TOUCHDOWN that waits for it. If it is not all SKIP, every entry but a SKIP puts its site in
HAIL with a HELLO in flight, a SKIP puts its site in FINAL with its result in the entry, no other site changes, and no
byte outside bytes 10 to 47 of the SKIP entries changes. One whose every entry is SKIP is done at once with OK. With no
block in hand, or with a block that is no TOUCHDOWN waiting for CONTACT, only the level changes, and a rise of a high
level is none (R64, R65, R84, R148, R152, R186). -/
def Obligations.ContactRiseStartsTouchdown : Prop :=
  (∀ s : State, s.contact = true → exec .contactRise s = .next s) ∧
  (∀ s : State, s.contact = false →
    (∀ b es released halted, s.chain.block = some b → b.work ≠ .touchdown es false released halted) →
    ∃ t, exec .contactRise s = .next t ∧ t.contact = true ∧ sameBut [.contact] s t) ∧
  (∀ (b : Block) (es : List SiteEntry) (released halted : Bool) (s : State), s.contact = false →
    s.chain.block = some b → b.work = .touchdown es false released halted → (es.map SiteEntry.site).Nodup →
    (∃ e ∈ es, e.action ≠ .skip) → ∃ t, exec .contactRise s = .next t ∧ t.contact = true ∧
      entriesStart s t b es ∧
      t.chain = { s.chain with block := some { b with work := .touchdown es true false false } } ∧
      sameBut [.contact, .sites, .mem, .chain] s t) ∧
  ∀ (b : Block) (es : List SiteEntry) (released halted : Bool) (tag : Nat) (s : State), s.contact = false →
    s.chain.state = .running → s.chain.block = some b → b.work = .touchdown es false released halted →
    (∀ e ∈ es, e.action = .skip) → s.waitsAfter b tag →
    apart (s.linkOf b.offset) 2 (b.offset + 80) (48 * es.length) → ∃ t, exec .contactRise s = .next t ∧
      t.contact = true ∧ (∀ n : Site, t.sites[n] = none) ∧ blockDoneWaiting s t b tag .ok ∧
      (∀ a, ¬(b.offset + 12 ≤ a ∧ a < b.offset + 14) → a ≠ b.offset + 16 →
        (∀ k, k < es.length → ¬(b.offset + 80 + 48 * k + 10 ≤ a ∧ a < b.offset + 80 + 48 * k + 48)) →
        t.mem.read a = s.mem.read a) ∧
      sameBut [.contact, .sites, .mem, .chain, .reg] s t

/-- A release that finds no TOUCHDOWN with its entries started has no effect: RELEASE changes nothing, a fall of
CONTACT only the level, and a fall of a low level is none (R150, R153, R186). A release of a TOUCHDOWN sets
CONTACT_LOST, counts in RELEASES, empties the waiting set and leaves no channel DRIVING. A site in ESCROW_WAIT or a
burning state goes to CLOSING with VOID_UNUSED when no pulse was delivered, to PARKING otherwise; one in PULSING is
charged its cut pulse with its full width and parks; one in CLOSING or PARKING stays as it is. A site in HAIL, LOOKUP,
PREP, ISSUE_WAIT or READING, while another is in CLOSING or PARKING, ends with RELEASED: its requests are withdrawn, a
derivation in progress for it takes no serial, and a place it holds is given back. RELEASE and a fall of CONTACT act
alike but for the level (R16, R27, R53, R59, R78, R79, R104, R111, R127, R153). -/
def Obligations.ReleaseReachesTouchdown : Prop :=
  (∀ s : State,
     (s.chain.state ≠ .running ∨ s.chain.block = none ∨
       (∃ b es r h, s.chain.block = some b ∧ b.work = .touchdown es false r h) ∨
       (∃ b, s.chain.block = some b ∧ ∀ es st r h, b.work ≠ .touchdown es st r h)) →
     exec .release s = .next s ∧
       (s.contact = false → exec .contactFall s = .next s) ∧
       (s.contact = true → ∃ t, exec .contactFall s = .next t ∧ t.contact = false ∧ sameBut [.contact] s t)) ∧
  (∀ (n : Site) (c : SiteCtx) (s : State), s.reg.resetting = false → s.chain.state = .running → s.inTouchdown n →
     s.sites[n] = some c →
     (c.state = .escrowWait ∨ c.state = .resumeCheck ∨ c.state = .burnRow ∨ c.state = .waitGrant ∨
       c.state = .settling ∨ c.state = .sensing ∨ c.state = .rowVerify ∨ c.state = .spareSelect ∨
       c.state = .remapBurn ∨ c.state = .lockBurn ∨ c.state = .closing ∨ c.state = .parking) →
     (∀ (d : Chan) (w e : Nat), s.chans[d].state ≠ .driving n w e) →
     ∀ cmd, cmd = .release ∨ (cmd = .contactFall ∧ s.contact = true) → ∃ t, exec cmd s = .next t ∧
       t.reg = s.reg.setEvent .contactLost ∧ t.counter .releases = satInc (s.counter .releases) ∧ t.waiting = [] ∧
       (∀ d : Chan,
         (∀ o w e, s.chans[d].state ≠ .driving o w e) ∧ t.chans[d] = s.chans[d] ∨
         (∃ o w e, s.chans[d].state = .driving o w e) ∧ t.chans[d] = { s.chans[d] with state := .ready }) ∧
       (c.state = .closing ∨ c.state = .parking → t.sites[n] = some c) ∧
       (c.state ≠ .closing → c.state ≠ .parking → c.totalPulses = 0 →
         t.sites[n] =
           some { c with
             state := .closing, stop := .release, outcome := some .voidUnused, exch := none, closeWritten := false } ∧
         (s.dryRun = false →
           { record := .close (c.closeRecord .voidUnused), report := .site n } ∈ t.escrow.queue)) ∧
       (c.state ≠ .closing → c.state ≠ .parking → c.totalPulses ≠ 0 →
         t.sites[n] = some { c with state := .parking, stop := .release, exch := none } ∧ .park n ∈ t.dies.queue) ∧
       t.contact = (if cmd = .release then s.contact else false) ∧ t.pending = s.pending) ∧
  (∀ (n : Site) (c : SiteCtx) (b : BurnState) (d : Chan) (w e : Nat) (s : State), s.reg.resetting = false →
     s.chain.state = .running → s.inTouchdown n → s.sites[n] = some c → c.state = .pulsing → c.burn = some b →
     s.chans[d].state = .driving n w e → (∀ (i : Chan) (v f : Nat), i ≠ d → s.chans[i].state ≠ .driving n v f) →
     ∀ cmd, cmd = .release ∨ (cmd = .contactFall ∧ s.contact = true) → ∃ t, exec cmd s = .next t ∧
       t.sites[n] =
         some { c with
           burn := some
             { b with
               rowStress := b.rowStress + w, bitPulses := b.bitPulses + 1, totalPulses := b.totalPulses + 1
               unsensed := true }
           state := .parking, stop := .release, exch := none } ∧
       .park n ∈ t.dies.queue ∧ t.chans[d] = { s.chans[d] with state := .ready } ∧ t.waiting = [] ∧
       ((∀ (i : Chan) (o : Site) (v f : Nat), i ≠ d → s.chans[i].state ≠ .driving o v f) →
         t.counter .pulses = satInc (s.counter .pulses))) ∧
  ∀ (n : Site) (c : SiteCtx) (s : State), s.reg.resetting = false → s.chain.state = .running → s.inTouchdown n →
    s.sites[n] = some c → s.stillEnding n →
    (c.state = .hail ∨ c.state = .lookup ∨ c.state = .prep ∨ c.state = .issueWait ∨ c.state = .reading) →
    ∀ cmd, cmd = .release ∨ (cmd = .contactFall ∧ s.contact = true) → ∃ t, exec cmd s = .next t ∧
      t.endedWith n .released ∧
      (c.state = .lookup ∨ c.state = .prep → ∀ r ∈ t.dies.queue, r.withdrawn n = false) ∧
      (c.state = .prep → ∀ r ∈ t.comp, r.site ≠ n) ∧
      (c.state = .issueWait → (∀ r ∈ t.keys.queue, r.site ≠ n) ∧ t.keys.next = s.keys.next ∧
        ∀ r rest, s.keys.queue = r :: rest → r.site = n → t.keys.derivation = none) ∧
      (c.placeHeld = true → .giveBack n ∈ t.dies.queue) ∧
      ∀ b, s.chain.block = some b → s.mem.wf = true → b.offset + 80 + 48 * c.index + 48 ≤ jobMemorySize →
        (∀ (m : Site) (x : SiteCtx), m ≠ n → s.sites[m] = some x → x.index ≠ c.index) →
        (t.mem.read (b.offset + 80 + 48 * c.index + 12)).toNat = SiteResult.released.code

/-! ### Die port (chapters 1 and 4) -/

/-- A good HELLO answer sends a PROVISION to LOOKUP with its lookup queued at the die table unit, and a VERIFY or
IDENTIFY to READ_TAG part 0 on a locked die, to FINAL with NOT_LOCKED on an unlocked one; row count and lock state
enter the context (R17, R65, R82, R83). -/
def Obligations.HelloAnswered : Prop :=
  ∀ (n : Site) (c : SiteCtx) (f : ResponseFrame) (s : State), s.answers n c .hello f → 16 ≤ helloRows f.data →
    helloRows f.data ≤ 512 → s.inTouchdown n → c.haltPending = false → ∀ locked : Bool,
    f.data.extractLsb' 40 8 = (if locked then 1 else 0) →
    (c.action = .provision → ∃ t, exec (.helloResponse n f) s = .next t ∧
      siteMoves s t n
        { c with rows := some (helloRows f.data), locked := some locked, exch := none, state := .lookup } [.dies] ∧
      t.dies = { s.dies with queue := s.dies.queue ++ [.lookup n c.die] }) ∧
    (c.action ≠ .provision → locked = true → ∃ t, exec (.helloResponse n f) s = .next t ∧
      siteMoves s t n
        ({ c with rows := some (helloRows f.data), locked := some true }.asks .reading .readTag 0 0 0) []) ∧
    (c.action ≠ .provision → locked = false → s.othersRun n → ∃ t, exec (.helloResponse n f) s = .next t ∧
      entryEnds s t n c .notLocked [])

/-- The end of an attempt's timeout sends the same request again while resends are left (at most three), and counts one
frame retry at the site and on the board; an AUTO search whose last NORMAL attempt fails goes on in REVERSED order with
full retries, and counts nothing (R12, R14). A response whose ten bytes do not sum to 0, one with status BAD_FRAME, and
a HELLO answer with a row count outside 16 to 512 fail the attempt exactly as the end of its timeout does (R14). -/
def Obligations.FailedAttempts : Prop :=
  (∀ (n : Site) (c : SiteCtx) (e : Exchange) (s : State), s.sites[n] = some c → c.exch = some e → c.state ≠ .final →
     s.inTouchdown n →
     (e.resends < min 3 s.profile.frameRetries → ∃ t, exec (.frameTimeout n) s = .next t ∧
       siteMoves s t n
         { c with
           exch := some { e with resends := e.resends + 1 }, retries := satInc c.retries, timer := 0 } [.counters] ∧
       t.counter .frameRetries = satInc (s.counter .frameRetries) ∧ countersBut [.frameRetries] s t) ∧
     (min 3 s.profile.frameRetries ≤ e.resends → c.state = .hail → c.lanesAsked = .auto → c.lanesUsed = .normal →
       ∃ t, exec (.frameTimeout n) s = .next t ∧
         siteMoves s t n ({ c with lanesUsed := .reversed }.asks .hail .hello 0 0 0) [])) ∧
  (∀ (n : Site) (c : SiteCtx) (e : Exchange) (f : ResponseFrame) (s : State), s.sites[n] = some c → c.exch = some e →
     (responseGood f = false ∨ f.status = statusBadFrame →
       (e.cmd = .hello → exec (.helloResponse n f) s = exec (.frameTimeout n) s) ∧
       (e.cmd = .rowCheck → exec (.rowCheckResponse n f) s = exec (.frameTimeout n) s) ∧
       (e.cmd = .armBit → exec (.armBitResponse n f) s = exec (.frameTimeout n) s) ∧
       (e.cmd = .senseBit → exec (.senseBitResponse n f) s = exec (.frameTimeout n) s) ∧
       (e.cmd = .readTag → exec (.readTagResponse n f) s = exec (.frameTimeout n) s)) ∧
     (e.cmd = .hello → helloRows f.data < 16 ∨ 512 < helloRows f.data →
       exec (.helloResponse n f) s = exec (.frameTimeout n) s))

/-- When the last permitted attempt fails the contact failure is counted once and the entry ends at that site alone:
FAILED_CONTACT without a serial, CLOSING with VOID_UNUSED before the first pulse, PARKING after one (R14, R78, R80). In
a dry run the closing queues no CLOSE and asks for the settlement at once (R76, R126; through the queue: log 8). -/
def Obligations.ContactFailureEndsEntry : Prop :=
  ∀ (n : Site) (c : SiteCtx) (e : Exchange) (s : State), s.sites[n] = some c → c.exch = some e →
    min 3 s.profile.frameRetries ≤ e.resends →
    ¬(c.state = .hail ∧ c.lanesAsked = .auto ∧ c.lanesUsed = .normal) →
    (c.state = .hail ∨ c.state = .reading ∨ (c.state = .prep ∧ c.placeHeld = false) → s.noHalt → s.othersRun n →
      ∃ t, exec (.frameTimeout n) s = .next t ∧ entryEnds s t n c .failedContact [.counters] ∧
        t.counter .contactFails = satInc (s.counter .contactFails) ∧ countersBut [.contactFails] s t) ∧
    (c.state = .resumeCheck ∨ c.state = .burnRow ∨ c.state = .sensing ∨ c.state = .rowVerify ∨
        c.state = .spareSelect ∨ c.state = .remapBurn ∨ c.state = .lockBurn → s.inTouchdown n →
      (c.totalPulses = 0 → s.dryRun = false → ∃ t, exec (.frameTimeout n) s = .next t ∧
        closesWith s t n { c with exch := none, stop := .contact } .voidUnused [.counters] ∧
        t.counter .contactFails = satInc (s.counter .contactFails) ∧ countersBut [.contactFails] s t) ∧
      (c.totalPulses = 0 → s.dryRun = true → ∃ t, exec (.frameTimeout n) s = .next t ∧
        closesDry s t n { c with exch := none, stop := .contact } .voidUnused [.counters] ∧
        t.counter .contactFails = satInc (s.counter .contactFails) ∧ countersBut [.contactFails] s t) ∧
      (c.totalPulses ≠ 0 → ∃ t, exec (.frameTimeout n) s = .next t ∧
        siteMoves s t n { c with exch := none, stop := .contact, state := .parking } [.counters, .dies] ∧
        t.dies = { s.dies with queue := s.dies.queue ++ [.park n] } ∧
        t.counter .contactFails = satInc (s.counter .contactFails) ∧ countersBut [.contactFails] s t))

/-- READ_TAG part 0 is followed by part 1. Part 1 ends a VERIFY with VERIFIED or MISMATCH as its check word equals the
expected one, each counted, and an IDENTIFY with IDENTIFIED; a part REFUSED ends the entry with NOT_LOCKED (R21, R82,
R83, R85). -/
def Obligations.ReadTagAnswered : Prop :=
  ∀ (n : Site) (c : SiteCtx) (e : Exchange) (f : ResponseFrame) (s : State), c.state = .reading → c.exch = some e →
    (s.answers n c .readTag f → e.arg = 0 → s.inTouchdown n → ∃ t, exec (.readTagResponse n f) s = .next t ∧
      siteMoves s t n ({ c with tag0 := f.data }.asks .reading .readTag 0 0 1) []) ∧
    (s.answers n c .readTag f → e.arg = 1 → s.othersRun n →
      (c.action = .verify → f.data.extractLsb' 16 16 = c.expected → ∃ t, exec (.readTagResponse n f) s = .next t ∧
        entryEnds s t n c .verified [.counters] ∧ t.counter .diesVerified = satInc (s.counter .diesVerified) ∧
        countersBut [.diesVerified] s t) ∧
      (c.action = .verify → f.data.extractLsb' 16 16 ≠ c.expected → ∃ t, exec (.readTagResponse n f) s = .next t ∧
        entryEnds s t n c .mismatch [.counters] ∧ t.counter .verifyMismatch = satInc (s.counter .verifyMismatch) ∧
        countersBut [.verifyMismatch] s t) ∧
      (c.action = .identify → ∃ t, exec (.readTagResponse n f) s = .next t ∧ entryEnds s t n c .identified [] ∧
        ∀ b, s.chain.block = some b → s.mem.wf = true → b.offset + 80 + 48 * c.index + 48 ≤ jobMemorySize →
          ∀ i : Fin 16, t.mem.read (b.offset + 80 + 48 * c.index + 32 + i.val) =
            ((s.chain.wafer.map WaferContext.table).getD []).getD
              (((c.tag0 ++ f.data.extractLsb' 32 32 : BitVec 96).extractLsb' (6 * (15 - i.val)) 6).toNat) 0)) ∧
    (s.refuses n c .readTag f → s.othersRun n → ∃ t, exec (.readTagResponse n f) s = .next t ∧
      entryEnds s t n c .notLocked [])

/-- A blank-check row with both masks 0 is followed by the next of the fourteen rows, the last one by the request to
the composition unit; a row that is not blank, or REFUSED, by the request for a VOID entry (R18, R68, R69). -/
def Obligations.BlankCheckAnswered : Prop :=
  ∀ (n : Site) (c : SiteCtx) (f : ResponseFrame) (s : State), c.state = .prep → s.inTouchdown n →
    (s.answers n c .rowCheck f → blownMask f.data = 0 → marginalMask f.data = 0 → c.haltPending = false →
      (c.checkIndex < 13 → ∃ t, exec (.rowCheckResponse n f) s = .next t ∧
        siteMoves s t n
          ({ c with checkIndex := c.checkIndex + 1 }.asks .prep .rowCheck
            (if c.checkIndex + 1 < 12 then s.profile.recordBase + (c.checkIndex + 1)
              else s.profile.remapBase + (c.checkIndex + 1 - 12)) 0 s.profile.thresholds) []) ∧
      (c.checkIndex = 13 → ∀ w, s.chain.wafer = some w → ∃ t, exec (.rowCheckResponse n f) s = .next t ∧
        siteMoves s t n { c with exch := none } [.comp] ∧
        t.comp = s.comp ++ [{ site := n, lot := w.lot, number := w.number, die := c.die }])) ∧
    (s.refuses n c .rowCheck f ∨
        (s.answers n c .rowCheck f ∧ (blownMask f.data ≠ 0 ∨ marginalMask f.data ≠ 0)) →
      ∃ t, exec (.rowCheckResponse n f) s = .next t ∧ siteMoves s t n { c with exch := none } [.dies] ∧
        t.dies = { s.dies with queue := s.dies.queue ++ [.voidEntry n c.die] })

/-! ### Burning (chapters 2 and 4) -/

/-- A record row that passes its pre-check is IN_PROGRESS with S_row 0, and its highest 1-bit is armed with W = W0; a
row without one goes to its row verify (R24, R26, R31, R33). A record row whose row verify reports exactly its target
is DONE, its S_row enters the largest finished stress, and the pre-check of the next record row, after row 11 that of
remap row 0, is sent (R30, R33, R39); between rows the current bit becomes 31 and S_row 0, W and p keep theirs: the
model's choice (log 24). -/
def Obligations.RecordRowPasses : Prop :=
  (∀ (n : Site) (c : SiteCtx) (b : BurnState) (k : Fin 12) (tg : Vector FuseRow 12) (f : ResponseFrame) (s : State),
     s.answers n c .rowCheck f → s.inTouchdown n → c.state = .burnRow → c.burn = some b → b.cur = .logical k →
     b.spareWanted = false → c.targets = some tg → c.haltPending = false → 1 ≤ s.profile.w0 → 1 ≤ s.profile.pmax →
     1 ≤ s.profile.cmax → blownMask f.data = 0 → marginalMask f.data = 0 →
     (∀ i, topBit tg[k] 32 i → ∃ t, exec (.rowCheckResponse n f) s = .next t ∧
       siteMoves s t n
         ({ c with
             burn := some
               { b with
                 rowStates := b.rowStates.set k .inProgress, rowStress := 0, bit := i, step := .bits
                 width := s.profile.w0, bitPulses := 0, unsensed := false } }.asks
           .burnRow .armBit b.physRows[k] i 0) []) ∧
     (tg[k] = 0 → ∃ t, exec (.rowCheckResponse n f) s = .next t ∧
       siteMoves s t n
         ({ c with
             burn := some
               { b with
                 rowStates := b.rowStates.set k .inProgress, rowStress := 0, step := .verify, unsensed := false } }.asks
           .rowVerify .rowCheck b.physRows[k] 0 s.profile.thresholds) [])) ∧
  (∀ (n : Site) (c : SiteCtx) (b : BurnState) (k : Fin 12) (tg : Vector FuseRow 12) (f : ResponseFrame) (s : State),
     s.answers n c .rowCheck f → s.inTouchdown n → c.state = .rowVerify → c.burn = some b → b.cur = .logical k →
     b.spareWanted = false → b.unsensed = false → c.targets = some tg → c.haltPending = false →
     blownMask f.data = tg[k] → marginalMask f.data = 0 →
     (∀ j : Fin 12, j.val = k.val + 1 → b.rowStates[j] = .notStarted →
       ∃ t, exec (.rowCheckResponse n f) s = .next t ∧
         siteMoves s t n
           ({ c with
               burn := some
                 { b with
                   rowStates := b.rowStates.set k .done, maxStress := max b.maxStress b.rowStress, cur := .logical j
                   bit := 31, step := .bits, rowStress := 0 } }.asks .burnRow .rowCheck b.physRows[j] 0
             s.profile.thresholds) []) ∧
     (k.val = 11 → b.remapStates[(0 : Fin 2)] = .notStarted → ∃ t, exec (.rowCheckResponse n f) s = .next t ∧
       siteMoves s t n
         ({ c with
             burn := some
               { b with
                 rowStates := b.rowStates.set k .done, maxStress := max b.maxStress b.rowStress, stage := .remap
                 cur := .remap 0, bit := 31, step := .bits, rowStress := 0 } }.asks .remapBurn .rowCheck
           s.profile.remapBase 0 s.profile.thresholds) []))

/-- A record row judged bad by its pre-check, its row verify or a REFUSED ARM_BIT wants a spare: the lowest index
neither named nor rejected is pre-checked if its row passes the window and fixed-row tests; each candidate that fails
them is rejected, counts in SPARES_REJECTED, and the next is taken; without one left the burn ends FAILED_FUSE (R10,
R15, R26, R31, R33 to R36, R38, R74). In a dry run that closing queues no CLOSE, asks for the settlement at once and
counts in DIES_FAILED (R76, R85, R126; through the queue: log 8). -/
def Obligations.BadRecordRowTakesSpare : Prop :=
  ∀ (n : Site) (c : SiteCtx) (b : BurnState) (k : Fin 12) (tg : Vector FuseRow 12) (f : ResponseFrame) (cmd : Instr)
    (s : State), s.inTouchdown n → c.burn = some b → b.cur = .logical k → b.unsensed = false → c.targets = some tg →
    ((cmd = .rowCheckResponse n f ∧ c.state = .burnRow ∧
        (s.refuses n c .rowCheck f ∨
          (s.answers n c .rowCheck f ∧ (blownMask f.data ≠ 0 ∨ marginalMask f.data ≠ 0)))) ∨
      (cmd = .rowCheckResponse n f ∧ c.state = .rowVerify ∧
        (s.refuses n c .rowCheck f ∨
          (s.answers n c .rowCheck f ∧ (blownMask f.data ≠ tg[k] ∨ marginalMask f.data ≠ 0)))) ∨
      (cmd = .armBitResponse n f ∧ c.state = .burnRow ∧ s.refuses n c .armBit f)) →
    (b.noSpareLeft s.profile → s.dryRun = false → ∃ t, exec cmd s = .next t ∧
      closesWith s t n
        { c with
          burn := some
            { b with
              rowStates := b.rowStates.set k .inProgress, maxStress := max b.maxStress b.rowStress
              spareWanted := true } } .failedFuse []) ∧
    (b.noSpareLeft s.profile → s.dryRun = true → ∃ t, exec cmd s = .next t ∧
      closesDry s t n
        { c with
          burn := some
            { b with
              rowStates := b.rowStates.set k .inProgress, maxStress := max b.maxStress b.rowStress
              spareWanted := true } } .failedFuse [.counters] ∧
      t.counter .diesFailed = satInc (s.counter .diesFailed) ∧ countersBut [.diesFailed] s t) ∧
    (∀ us, s.countersBounded → c.haltPending = false → b.unusableBelow s.profile s.profile.spareCount us → us ≠ [] →
      s.dryRun = false → ∃ t, exec cmd s = .next t ∧
      closesWith s t n
        { c with
          burn := some
            { b with
              rowStates := b.rowStates.set k .inProgress, maxStress := max b.maxStress b.rowStress
              spareWanted := true, rejected := b.rejected ++ us } } .failedFuse [.counters] ∧
      t.counter .sparesRejected = min counterMax (s.counter .sparesRejected + us.length) ∧
      countersBut [.sparesRejected] s t) ∧
    (∀ us j, s.countersBounded → c.haltPending = false → b.unusableBelow s.profile j us → b.spareLeft s.profile j →
      s.profile.spareUsable j = true → ∃ t, exec cmd s = .next t ∧
      siteMoves s t n
        ({ c with
            burn := some
              { b with
                rowStates := b.rowStates.set k .inProgress, maxStress := max b.maxStress b.rowStress
                spareWanted := true, rejected := b.rejected ++ us } }.asks .spareSelect .rowCheck
          (s.profile.spareBase + j) 0 s.profile.thresholds) [.counters] ∧
      t.counter .sparesRejected = min counterMax (s.counter .sparesRejected + us.length) ∧
      countersBut [.sparesRejected] s t) ∧
    (∀ i, b.nextSpare s.profile i → s.profile.spareUsable i = true → c.haltPending = false →
      ∃ t, exec cmd s = .next t ∧
        siteMoves s t n
          ({ c with
              burn := some
                { b with
                  rowStates := b.rowStates.set k .inProgress, maxStress := max b.maxStress b.rowStress
                  spareWanted := true } }.asks .spareSelect .rowCheck (s.profile.spareBase + i) 0
            s.profile.thresholds) [])

/-- A candidate spare with both masks 0 is accepted: it is appended to the remap list, REMAPS counts, the logical row
moves onto it, and its highest 1-bit is armed afresh. One that is not clean is rejected, SPARES_REJECTED counts, and
the next candidate is pre-checked or, without one, the burn ends FAILED_FUSE (R35 to R38). -/
def Obligations.SpareCheckAnswered : Prop :=
  ∀ (n : Site) (c : SiteCtx) (b : BurnState) (k : Fin 12) (i : Nat) (tg : Vector FuseRow 12) (f : ResponseFrame)
    (s : State), s.inTouchdown n → c.state = .spareSelect → c.burn = some b → b.cur = .logical k →
    b.spareWanted = true → b.unsensed = false → c.targets = some tg → b.nextSpare s.profile i →
    (s.answers n c .rowCheck f → blownMask f.data = 0 → marginalMask f.data = 0 → c.haltPending = false →
      1 ≤ s.profile.w0 → 1 ≤ s.profile.pmax → 1 ≤ s.profile.cmax → ∀ j, topBit tg[k] 32 j →
      ∃ t, exec (.rowCheckResponse n f) s = .next t ∧
        siteMoves s t n
          ({ c with
              burn := some
                { b with
                  remaps := b.remaps ++ [(k, i)], physRows := b.physRows.set k (s.profile.spareBase + i)
                  spareWanted := false, rowStress := 0, rowStates := b.rowStates.set k .inProgress, bit := j
                  step := .bits, width := s.profile.w0, bitPulses := 0, unsensed := false } }.asks
            .burnRow .armBit (s.profile.spareBase + i) j 0) [.counters] ∧
        t.counter .remaps = satInc (s.counter .remaps) ∧ countersBut [.remaps] s t) ∧
    (s.refuses n c .rowCheck f ∨
        (s.answers n c .rowCheck f ∧ (blownMask f.data ≠ 0 ∨ marginalMask f.data ≠ 0)) →
      ({ b with rejected := b.rejected ++ [i] }.noSpareLeft s.profile → s.dryRun = false →
        ∃ t, exec (.rowCheckResponse n f) s = .next t ∧
          closesWith s t n { c with burn := some { b with rejected := b.rejected ++ [i] } } .failedFuse [.counters] ∧
          t.counter .sparesRejected = satInc (s.counter .sparesRejected) ∧ countersBut [.sparesRejected] s t) ∧
      (∀ j, { b with rejected := b.rejected ++ [i] }.nextSpare s.profile j → s.profile.spareUsable j = true →
        c.haltPending = false → ∃ t, exec (.rowCheckResponse n f) s = .next t ∧
          siteMoves s t n
            ({ c with burn := some { b with rejected := b.rejected ++ [i] } }.asks .spareSelect .rowCheck
              (s.profile.spareBase + j) 0 s.profile.thresholds) [.counters] ∧
          t.counter .sparesRejected = satInc (s.counter .sparesRejected) ∧ countersBut [.sparesRejected] s t))

/-- A remap row with target 0 is DONE after one clean ROW_CHECK, any other after its row verify reports exactly its
target: row 0 is followed by row 1, row 1 by the arming of lock bit 2. A remap row with 1-bits that passes its pre-check
is IN_PROGRESS with S_row 0, its highest 1-bit armed with W = W0. A remap row judged bad ends the burn with
FAILED_REMAP_ROW (R6, R24, R31, R33, R39, R40, R74). Between the rows the current bit becomes 31 and S_row 0, W and p
keep theirs: the model's choice (log 24). -/
def Obligations.RemapRowAnswered : Prop :=
  ∀ (n : Site) (c : SiteCtx) (b : BurnState) (j : Fin 2) (tg : Vector FuseRow 12) (f : ResponseFrame) (s : State),
    s.inTouchdown n → c.burn = some b → b.cur = .remap j → b.spareWanted = false → b.unsensed = false →
    c.targets = some tg →
    (s.answers n c .rowCheck f → c.state = .remapBurn → blownMask f.data = 0 → marginalMask f.data = 0 →
      remapTarget b.remaps j = 0 → c.haltPending = false →
      (j = 0 → b.remapStates[(1 : Fin 2)] = .notStarted → ∃ t, exec (.rowCheckResponse n f) s = .next t ∧
        siteMoves s t n
          ({ c with
              burn := some
                { b with
                  remapStates := b.remapStates.set 0 .done, maxStress := max b.maxStress b.rowStress
                  cur := .remap 1, bit := 31, step := .bits, rowStress := 0 } }.asks .remapBurn .rowCheck
            (s.profile.remapBase + 1) 0 s.profile.thresholds) []) ∧
      (j = 1 → 1 ≤ s.profile.w0 → 1 ≤ s.profile.pmax → 1 ≤ s.profile.cmax →
        ∃ t, exec (.rowCheckResponse n f) s = .next t ∧
          siteMoves s t n
            ({ c with
                burn := some
                  { b with
                    remapStates := b.remapStates.set 1 .done, maxStress := max b.maxStress b.rowStress
                    stage := .lock, cur := .lock, rowStress := 0, bit := 2, step := .bits, width := s.profile.w0
                    bitPulses := 0, unsensed := false } }.asks .lockBurn .armBit s.profile.lockRow 2 0) [])) ∧
    (s.answers n c .rowCheck f → c.state = .remapBurn → blownMask f.data = 0 → marginalMask f.data = 0 →
      c.haltPending = false → 1 ≤ s.profile.w0 → 1 ≤ s.profile.pmax → 1 ≤ s.profile.cmax →
      ∀ i, topBit (remapTarget b.remaps j) 32 i → ∃ t, exec (.rowCheckResponse n f) s = .next t ∧
        siteMoves s t n
          ({ c with
              burn := some
                { b with
                  remapStates := b.remapStates.set j .inProgress, rowStress := 0, bit := i, step := .bits
                  width := s.profile.w0, bitPulses := 0, unsensed := false } }.asks
            .remapBurn .armBit (s.profile.remapBase + j.val) i 0) []) ∧
    (s.answers n c .rowCheck f → c.state = .rowVerify → blownMask f.data = remapTarget b.remaps j →
      marginalMask f.data = 0 → c.haltPending = false →
      (j = 0 → b.remapStates[(1 : Fin 2)] = .notStarted → ∃ t, exec (.rowCheckResponse n f) s = .next t ∧
        siteMoves s t n
          ({ c with
              burn := some
                { b with
                  remapStates := b.remapStates.set 0 .done, maxStress := max b.maxStress b.rowStress
                  cur := .remap 1, bit := 31, step := .bits, rowStress := 0 } }.asks .remapBurn .rowCheck
            (s.profile.remapBase + 1) 0 s.profile.thresholds) []) ∧
      (j = 1 → 1 ≤ s.profile.w0 → 1 ≤ s.profile.pmax → 1 ≤ s.profile.cmax →
        ∃ t, exec (.rowCheckResponse n f) s = .next t ∧
          siteMoves s t n
            ({ c with
                burn := some
                  { b with
                    remapStates := b.remapStates.set 1 .done, maxStress := max b.maxStress b.rowStress
                    stage := .lock, cur := .lock, rowStress := 0, bit := 2, step := .bits, width := s.profile.w0
                    bitPulses := 0, unsensed := false } }.asks .lockBurn .armBit s.profile.lockRow 2 0) [])) ∧
    (s.dryRun = false → ∀ cmd : Instr,
      (cmd = .rowCheckResponse n f ∧ c.state = .remapBurn ∧
          (s.refuses n c .rowCheck f ∨
            (s.answers n c .rowCheck f ∧ (blownMask f.data ≠ 0 ∨ marginalMask f.data ≠ 0)))) ∨
        (cmd = .rowCheckResponse n f ∧ c.state = .rowVerify ∧
          (s.refuses n c .rowCheck f ∨
            (s.answers n c .rowCheck f ∧ (blownMask f.data ≠ remapTarget b.remaps j ∨ marginalMask f.data ≠ 0)))) ∨
        (cmd = .armBitResponse n f ∧ c.state = .remapBurn ∧ s.refuses n c .armBit f) →
      ∃ t, exec cmd s = .next t ∧
        closesWith s t n { c with burn := some { b with maxStress := max b.maxStress b.rowStress } } .failedRemapRow [])

/-- The lock check with at least two of blown-mask bits 2, 1 and 0 set closes with BURNED, with fewer or REFUSED with
FAILED_LOCK; the lock row's S_row enters the largest finished stress (R41, R74). In a dry run neither queues a CLOSE, the
settlement is asked for at once, and FAILED_LOCK counts in DIES_FAILED (R76, R85, R126; through the queue: log 8). In the
LOCK stage a lock bit that is done, that has failed its test, or whose ARM_BIT is REFUSED, passes the stage to the next
lower lock bit; after lock bit 0, or with no stress allowance left, the lock check is sent. A sense code above Tb, or
REFUSED, grows W and arms the same lock bit again while p is below Pmax and allowance is left (R15, R25, R28, R29, R40,
R41). -/
def Obligations.LockStage : Prop :=
  (∀ (n : Site) (c : SiteCtx) (b : BurnState) (f : ResponseFrame) (s : State), s.inTouchdown n → s.dryRun = false →
     c.state = .lockBurn → c.burn = some b → b.cur = .lock →
     (s.answers n c .rowCheck f →
       (blownMask f.data).getLsbD 2 && (blownMask f.data).getLsbD 1 ||
         (blownMask f.data).getLsbD 2 && (blownMask f.data).getLsbD 0 ||
         (blownMask f.data).getLsbD 1 && (blownMask f.data).getLsbD 0 →
       ∃ t, exec (.rowCheckResponse n f) s = .next t ∧
         closesWith s t n { c with burn := some { b with maxStress := max b.maxStress b.rowStress } } .burned []) ∧
     (s.refuses n c .rowCheck f ∨
         (s.answers n c .rowCheck f ∧
           ((blownMask f.data).getLsbD 2 = false ∧ (blownMask f.data).getLsbD 1 = false ∨
             (blownMask f.data).getLsbD 2 = false ∧ (blownMask f.data).getLsbD 0 = false ∨
             (blownMask f.data).getLsbD 1 = false ∧ (blownMask f.data).getLsbD 0 = false)) →
       ∃ t, exec (.rowCheckResponse n f) s = .next t ∧
         closesWith s t n { c with burn := some { b with maxStress := max b.maxStress b.rowStress } } .failedLock [])) ∧
  (∀ (n : Site) (c : SiteCtx) (b : BurnState) (f : ResponseFrame) (cmd : Instr) (s : State), s.inTouchdown n →
     c.burn = some b → b.cur = .lock → b.step = .bits → b.unsensed = false ∨ c.state = .sensing →
     b.spareWanted = false → c.haltPending = false → 1 ≤ s.profile.w0 → 1 ≤ s.profile.pmax →
     (cmd = .senseBitResponse n f ∧ c.state = .sensing ∧ s.answers n c .senseBit f ∧
         senseCode f.data ≤ s.profile.tb) ∨
       (cmd = .armBitResponse n f ∧ c.state = .lockBurn ∧ s.refuses n c .armBit f) →
     (∀ i, b.bit = i + 1 → i ≤ 1 → b.rowStress < s.profile.cmax → ∃ t, exec cmd s = .next t ∧
       siteMoves s t n
         ({ c with
             burn := some { b with bit := i, width := s.profile.w0, bitPulses := 0, unsensed := false } }.asks
           .lockBurn .armBit s.profile.lockRow i 0) []) ∧
     (b.bit = 0 → ∃ t, exec cmd s = .next t ∧
       siteMoves s t n
         ({ c with burn := some { b with step := .lockCheck, unsensed := false } }.asks .lockBurn .rowCheck
           s.profile.lockRow 0 s.profile.thresholds) [])) ∧
  (∀ (n : Site) (c : SiteCtx) (b : BurnState) (f : ResponseFrame) (s : State), s.inTouchdown n → s.dryRun = true →
     c.state = .lockBurn → c.burn = some b → b.cur = .lock → s.answers n c .rowCheck f →
     ((blownMask f.data).extractLsb' 0 3 = 7 → ∃ t, exec (.rowCheckResponse n f) s = .next t ∧
       closesDry s t n { c with burn := some { b with maxStress := max b.maxStress b.rowStress } } .burned [.counters] ∧
       countersBut [] s t) ∧
     ((blownMask f.data).extractLsb' 0 3 = 0 → ∃ t, exec (.rowCheckResponse n f) s = .next t ∧
       closesDry s t n { c with burn := some { b with maxStress := max b.maxStress b.rowStress } } .failedLock
         [.counters] ∧
       t.counter .diesFailed = satInc (s.counter .diesFailed) ∧ countersBut [.diesFailed] s t)) ∧
  ∀ (n : Site) (c : SiteCtx) (b : BurnState) (f : ResponseFrame) (s : State), s.inTouchdown n →
    c.burn = some b → b.cur = .lock → b.step = .bits → c.state = .sensing → b.spareWanted = false →
    c.haltPending = false → 1 ≤ s.profile.w0 → 1 ≤ s.profile.wmax → 1 ≤ s.profile.pmax → s.profile.tb < 1023 →
    s.refuses n c .senseBit f ∨ (s.answers n c .senseBit f ∧ s.profile.tb < senseCode f.data) → 1 ≤ b.width →
    let grown := min s.profile.wmax (b.width + b.width * s.profile.growth / 8)
    (b.bitPulses ≠ s.profile.pmax → b.rowStress < s.profile.cmax → ∃ t, exec (.senseBitResponse n f) s = .next t ∧
      siteMoves s t n
        ({ c with burn := some { b with width := grown, unsensed := false } }.asks .lockBurn .armBit s.profile.lockRow
          b.bit 0) []) ∧
    (∀ i, b.bitPulses = s.profile.pmax → b.rowStress < s.profile.cmax → b.bit = i + 1 → i ≤ 1 →
      ∃ t, exec (.senseBitResponse n f) s = .next t ∧
        siteMoves s t n
          ({ c with
              burn := some { b with bit := i, width := s.profile.w0, bitPulses := 0, unsensed := false } }.asks
            .lockBurn .armBit s.profile.lockRow i 0) []) ∧
    ((b.bitPulses = s.profile.pmax ∨ s.profile.cmax ≤ b.rowStress) → b.bit = 0 →
      ∃ t, exec (.senseBitResponse n f) s = .next t ∧
        siteMoves s t n
          ({ c with burn := some { b with width := grown, step := .lockCheck, unsensed := false } }.asks .lockBurn
            .rowCheck s.profile.lockRow 0 s.profile.thresholds) []) ∧
    (s.profile.cmax ≤ b.rowStress → 1 ≤ b.bit → b.bit ≤ 2 → ∃ t, exec (.senseBitResponse n f) s = .next t ∧
      siteMoves s t n
        ({ c with
            burn := some
              { b with
                bit := 0, width := s.profile.w0, bitPulses := 0, step := .lockCheck, unsensed := false } }.asks
          .lockBurn .rowCheck s.profile.lockRow 0 s.profile.thresholds) [])

/-- An armed bit applies for one pulse of width min(W, Cmax − S_row): with no READY channel its request joins the
waiting set with its timer at 0; with an empty set and a READY channel the lowest-numbered one is granted at once and
drives (R25, R26, R50, R55, R56). The arbiter pairs a channel that becomes READY with the highest arbitration number: a
channel whose settle timer expires, with no other channel READY, drives the request of the highest number, whose site
enters PULSING, and no other request leaves the set (R48, R50, R56). -/
def Obligations.ArbiterGrants : Prop :=
  (∀ (n : Site) (c : SiteCtx) (b : BurnState) (f : ResponseFrame) (s : State), s.answers n c .armBit f →
     s.inTouchdown n → c.burn = some b → c.haltPending = false →
     ((∀ d : Chan, s.chans[d].state ≠ .ready) → ∃ t, exec (.armBitResponse n f) s = .next t ∧
       siteMoves s t n { c with state := .waitGrant, exch := none } [.waiting] ∧
       t.waiting =
         { site := n, arb := c.arb, width := min b.width (s.profile.cmax - b.rowStress), timer := 0 } :: s.waiting) ∧
     (∀ d : Chan, s.waiting = [] → s.chans[d].state = .ready → (∀ e : Chan, e < d → s.chans[e].state ≠ .ready) →
       ∃ t, exec (.armBitResponse n f) s = .next t ∧
         siteMoves s t n { c with state := .pulsing, exch := none } [.chans, .waiting] ∧ t.waiting = [] ∧
         t.chans[d] =
           { s.chans[d] with state := .driving n (min b.width (s.profile.cmax - b.rowStress)) 0 } ∧
         chansBut d s t)) ∧
  (∀ (d : Chan) (k : Nat) (r : GrantRequest) (c : SiteCtx) (s : State), s.chans[d].state = .settling k →
     (∀ e : Chan, s.chans[e].state ≠ .ready) → r ∈ s.waiting →
     (∀ q ∈ s.waiting, q.site = r.site → q = r) → (∀ q ∈ s.waiting, q ≠ r → q.arb < r.arb) →
     s.sites[r.site] = some c → ∃ t, exec (.settleTimerExpiry d) s = .next t ∧
       siteMoves s t r.site { c with state := .pulsing } [.chans, .waiting] ∧
       t.chans[d] = { s.chans[d] with state := .driving r.site r.width 0 } ∧ chansBut d s t ∧
       ∀ q, q ∈ t.waiting ↔ q ∈ s.waiting ∧ q ≠ r)

/-- A completed pulse is charged with its full width (S_row, p, total pulses, PULSES, pulse unsensed), its site begins
the settle delay, and its channel, with no request waiting, is READY; with requests waiting and no channel READY before,
it is granted to the one with the highest arbitration number, whose site enters PULSING (R27, R28, R50, R51, R56). On a
channel that drives nothing the event has no effect: the model's choice (log 16). -/
def Obligations.PulseCompletionCharges : Prop :=
  (∀ (d : Chan) (s : State), (∀ n w e, s.chans[d].state ≠ .driving n w e) → exec (.pulseComplete d) s = .next s) ∧
  (∀ (d : Chan) (n : Site) (w e : Nat) (c : SiteCtx) (b : BurnState) (s : State),
    s.chans[d].state = .driving n w e → s.sites[n] = some c → c.burn = some b → s.waiting = [] →
    ∃ t, exec (.pulseComplete d) s = .next t ∧
      siteMoves s t n
        { c with
          state := .settling, timer := 0
          burn := some
            { b with
              rowStress := b.rowStress + w, bitPulses := b.bitPulses + 1, totalPulses := b.totalPulses + 1
              unsensed := true } } [.chans, .counters] ∧
      t.chans[d] = { s.chans[d] with state := .ready } ∧ chansBut d s t ∧
      t.counter .pulses = satInc (s.counter .pulses) ∧ countersBut [.pulses] s t) ∧
  ∀ (d : Chan) (n : Site) (w e : Nat) (c x : SiteCtx) (b : BurnState) (r : GrantRequest) (s : State),
    s.chans[d].state = .driving n w e → s.sites[n] = some c → c.burn = some b →
    (∀ i : Chan, s.chans[i].state ≠ .ready) → r ∈ s.waiting → r.site ≠ n → s.sites[r.site] = some x →
    (∀ q ∈ s.waiting, q ≠ r → q.arb < r.arb ∧ q.site ≠ r.site) → ∃ t, exec (.pulseComplete d) s = .next t ∧
      t.sites[n] =
        some { c with
          state := .settling, timer := 0
          burn := some
            { b with
              rowStress := b.rowStress + w, bitPulses := b.bitPulses + 1, totalPulses := b.totalPulses + 1
              unsensed := true } } ∧
      t.sites[r.site] = some { x with state := .pulsing } ∧ (∀ m, m ≠ n → m ≠ r.site → t.sites[m] = s.sites[m]) ∧
      t.chans[d] = { s.chans[d] with state := .driving r.site r.width 0 } ∧ chansBut d s t ∧
      (∀ q, q ∈ t.waiting ↔ q ∈ s.waiting ∧ q ≠ r) ∧ t.counter .pulses = satInc (s.counter .pulses) ∧
      countersBut [.pulses] s t ∧ sameBut [.sites, .chans, .waiting, .counters] s t

/-- A loss of regulation takes a channel OFFLINE from any other state, sets CHANNEL_UNLOCK and counts; a pulse in
flight is disturbed: charged in full, its site settling. A restoration starts the 50 µs of an OFFLINE channel afresh
(R48, R49, R52). -/
def Obligations.RegulationMovesChannel : Prop :=
  (∀ (d : Chan) (s : State), s.chans[d].state ≠ .offline → (∀ n w e, s.chans[d].state ≠ .driving n w e) →
    ∃ t, exec (.regulationLost d) s = .next t ∧ t.chans[d] = { state := .offline, good := false } ∧ chansBut d s t ∧
      t.reg = s.reg.setEvent .channelUnlock ∧ t.counter .channelUnlocks = satInc (s.counter .channelUnlocks) ∧
      countersBut [.channelUnlocks] s t ∧ sameBut [.chans, .reg, .counters] s t) ∧
  (∀ (d : Chan) (n : Site) (w e : Nat) (c : SiteCtx) (b : BurnState) (s : State),
    s.chans[d].state = .driving n w e → s.sites[n] = some c → c.burn = some b →
    ∃ t, exec (.regulationLost d) s = .next t ∧
      siteMoves s t n
        { c with
          state := .settling, timer := 0
          burn := some
            { b with
              rowStress := b.rowStress + w, bitPulses := b.bitPulses + 1, totalPulses := b.totalPulses + 1
              unsensed := true } } [.chans, .reg, .counters] ∧
      t.chans[d] = { state := .offline, good := false } ∧ chansBut d s t ∧
      t.reg = s.reg.setEvent .channelUnlock ∧ t.counter .channelUnlocks = satInc (s.counter .channelUnlocks) ∧
      t.counter .pulses = satInc (s.counter .pulses) ∧ countersBut [.channelUnlocks, .pulses] s t) ∧
  ∀ (d : Chan) (s : State), ∃ t, exec (.regulationRestored d) s = .next t ∧
    t.chans[d] =
      { state := (if s.chans[d].state = .offline then .settling 0 else s.chans[d].state), good := true } ∧
    chansBut d s t ∧ sameBut [.chans] s t

/-- When the settle delay of a pulse ends the site sends SENSE_BIT for the current row and bit; when a grant limit
expires the request leaves the set, GRANT_TIMEOUTS counts, and the burn stops for want of supply: VOID_UNUSED before the
first pulse, in a dry run without a CLOSE and with its settlement asked for at once, a park after one; a channel whose
settle timer ends with no request waiting is READY (R28, R48, R57, R76, R78, R126; the settlement's queue: log 8; that an
expiry without a request has no effect: log 16). -/
def Obligations.TimersEnd : Prop :=
  (∀ (n : Site) (c : SiteCtx) (b : BurnState) (s : State), s.sites[n] = some c → c.state = .settling →
    c.burn = some b → ∃ t, exec (.siteSettleDelayEnd n) s = .next t ∧
      siteMoves s t n (c.asks .sensing .senseBit (b.curPhys s.profile) b.bit 0) []) ∧
  (∀ (n : Site) (c : SiteCtx) (s : State), s.sites[n] = some c → (∃ r ∈ s.waiting, r.site = n) →
    (c.totalPulses = 0 → s.dryRun = false → ∃ t, exec (.grantLimitExpiry n) s = .next t ∧
      closesWith s t n { c with stop := .supply } .voidUnused [.waiting, .counters] ∧
      t.waiting = s.waiting.filter (fun r => decide (r.site ≠ n)) ∧
      t.counter .grantTimeouts = satInc (s.counter .grantTimeouts) ∧ countersBut [.grantTimeouts] s t) ∧
    (c.totalPulses = 0 → s.dryRun = true → ∃ t, exec (.grantLimitExpiry n) s = .next t ∧
      closesDry s t n { c with stop := .supply } .voidUnused [.waiting, .counters] ∧
      t.waiting = s.waiting.filter (fun r => decide (r.site ≠ n)) ∧
      t.counter .grantTimeouts = satInc (s.counter .grantTimeouts) ∧ countersBut [.grantTimeouts] s t) ∧
    (c.totalPulses ≠ 0 → ∃ t, exec (.grantLimitExpiry n) s = .next t ∧
      siteMoves s t n { c with stop := .supply, state := .parking, exch := none } [.waiting, .counters, .dies] ∧
      t.dies = { s.dies with queue := s.dies.queue ++ [.park n] } ∧
      t.waiting = s.waiting.filter (fun r => decide (r.site ≠ n)) ∧
      t.counter .grantTimeouts = satInc (s.counter .grantTimeouts) ∧ countersBut [.grantTimeouts] s t)) ∧
  (∀ (n : Site) (s : State), (∀ r ∈ s.waiting, r.site ≠ n) → exec (.grantLimitExpiry n) s = .next s) ∧
  ∀ (d : Chan) (k : Nat) (s : State), s.chans[d].state = .settling k → s.waiting = [] →
    ∃ t, exec (.settleTimerExpiry d) s = .next t ∧ t.chans[d] = { s.chans[d] with state := .ready } ∧
      chansBut d s t ∧ sameBut [.chans] s t

/-- On a record or remap row a sense code at most Tb ends the bit: the next 1-bit below it is armed with W = W0 and
p = 0, and after the last one the row is verified. A code above Tb, or REFUSED, grows W from its nominal value up to Wmax
and arms the same bit again, while p is below Pmax and stress allowance is left. With p at Pmax or no allowance the bit
has failed: a record row wants a spare, whose lowest candidate left is pre-checked, one that fails its window or
fixed-row test being rejected and counted; without a spare the burn ends FAILED_FUSE, and on a remap row
FAILED_REMAP_ROW (R10, R15, R24, R25, R28 to R30, R32 to R36, R38, R39, R74). In a dry run such an end queues no CLOSE,
asks for the settlement at once and counts in DIES_FAILED (R76, R85, R126; through the queue: log 8). -/
def Obligations.SenseCodeDecidesBit : Prop :=
  ∀ (n : Site) (c : SiteCtx) (b : BurnState) (tg : Vector FuseRow 12) (st : SiteState) (row : Nat) (target : FuseRow)
    (f : ResponseFrame) (s : State),
    s.inTouchdown n → c.state = .sensing → c.burn = some b → c.targets = some tg →
    b.onRow s.profile tg st row target → b.step = .bits → b.spareWanted = false → c.haltPending = false →
    1 ≤ s.profile.w0 → 1 ≤ s.profile.wmax → 1 ≤ s.profile.pmax → s.profile.tb < 1023 →
    (s.answers n c .senseBit f → senseCode f.data ≤ s.profile.tb →
      (∀ i, topBit target b.bit i → b.rowStress < s.profile.cmax → ∃ t, exec (.senseBitResponse n f) s = .next t ∧
        siteMoves s t n
          ({ c with
              burn := some
                { b with bit := i, width := s.profile.w0, bitPulses := 0, unsensed := false } }.asks st .armBit row i 0)
          []) ∧
      ((∀ i, i < b.bit → target.getLsbD i = false) → ∃ t, exec (.senseBitResponse n f) s = .next t ∧
        siteMoves s t n
          ({ c with burn := some { b with step := .verify, unsensed := false } }.asks .rowVerify .rowCheck row 0
            s.profile.thresholds) [])) ∧
    (s.refuses n c .senseBit f ∨ (s.answers n c .senseBit f ∧ s.profile.tb < senseCode f.data) → 1 ≤ b.width →
      let b' :=
        { b with width := min s.profile.wmax (b.width + b.width * s.profile.growth / 8), unsensed := false }
      let bad := { b' with maxStress := max b.maxStress b.rowStress, spareWanted := true }
      (b.bitPulses ≠ s.profile.pmax → b.rowStress < s.profile.cmax →
        ∃ t, exec (.senseBitResponse n f) s = .next t ∧
          siteMoves s t n ({ c with burn := some b' }.asks st .armBit row b.bit 0) []) ∧
      (b.bitPulses = s.profile.pmax ∨ s.profile.cmax ≤ b.rowStress →
        (∀ k, b.cur = .logical k → b.noSpareLeft s.profile → s.dryRun = false →
          ∃ t, exec (.senseBitResponse n f) s = .next t ∧ closesWith s t n { c with burn := some bad } .failedFuse []) ∧
        (∀ k, b.cur = .logical k → b.noSpareLeft s.profile → s.dryRun = true →
          ∃ t, exec (.senseBitResponse n f) s = .next t ∧
            closesDry s t n { c with burn := some bad } .failedFuse [.counters] ∧
            t.counter .diesFailed = satInc (s.counter .diesFailed) ∧ countersBut [.diesFailed] s t) ∧
        (∀ k us i, b.cur = .logical k → s.countersBounded → b.unusableBelow s.profile i us →
          b.spareLeft s.profile i → s.profile.spareUsable i = true → ∃ t, exec (.senseBitResponse n f) s = .next t ∧
          siteMoves s t n
            ({ c with burn := some { bad with rejected := b.rejected ++ us } }.asks .spareSelect .rowCheck
              (s.profile.spareBase + i) 0 s.profile.thresholds) [.counters] ∧
          t.counter .sparesRejected = min counterMax (s.counter .sparesRejected + us.length) ∧
          countersBut [.sparesRejected] s t) ∧
        (∀ k, b.cur = .remap k → s.dryRun = false → ∃ t, exec (.senseBitResponse n f) s = .next t ∧
          closesWith s t n { c with burn := some { b' with maxStress := max b.maxStress b.rowStress } }
            .failedRemapRow []) ∧
        (∀ k, b.cur = .remap k → s.dryRun = true → ∃ t, exec (.senseBitResponse n f) s = .next t ∧
          closesDry s t n { c with burn := some { b' with maxStress := max b.maxStress b.rowStress } }
            .failedRemapRow [.counters] ∧
          t.counter .diesFailed = satInc (s.counter .diesFailed) ∧ countersBut [.diesFailed] s t)))

/-- With HALT_ON_ERROR set, the first result of class FAILED, REFUSED or PARKED starts the halt of the block: it is marked,
and the halt reaches every other site. A halt pending takes effect at a site's boundary. A site whose bit has just been
armed, whose SENSE_BIT has been judged, whose row check has ended its row or its pre-check, or whose re-check has passed,
stops its burn with what the exchange changed: CLOSING with VOID_UNUSED before the first pulse, PARKING after one. One in
WAIT_GRANT leaves the waiting set without a count in GRANT_TIMEOUTS. A site at the end of its HELLO, its lookup, a clean
blank check, its composition or its hold request gives back a place it holds and is final with HALTED; one whose lookup
found its die PARKED parks the context again (R58, R78, R81, R154). Four points are the model's: a site that is judged
above Tb stops before the test of R25 is made, and one whose record row is bad stops before its spare is chosen (log 28);
a burn stopped after a passed row verify keeps the fields of a burn between rows, current bit 31 and S_row 0 (log 24);
a lookup, hold or VOID-entry request that waits as the halt starts is withdrawn and its site ends at once, so that the
clauses on a lookup or a hold served under a pending halt speak of no run of the model (log 9). -/
def Obligations.HaltStopsAtBoundary : Prop :=
  (∀ (n : Site) (c : SiteCtx) (b : BurnState) (f : ResponseFrame) (s : State), s.answers n c .armBit f →
    s.inTouchdown n → c.burn = some b → c.haltPending = true →
    (b.totalPulses = 0 → s.dryRun = false → ∃ t, exec (.armBitResponse n f) s = .next t ∧
      closesWith s t n { c with stop := .halt } .voidUnused []) ∧
    (b.totalPulses ≠ 0 → ∃ t, exec (.armBitResponse n f) s = .next t ∧
      siteMoves s t n { c with stop := .halt, state := .parking, exch := none } [.dies] ∧
      t.dies = { s.dies with queue := s.dies.queue ++ [.park n] })) ∧
  (∀ (n : Site) (c : SiteCtx) (s : State), s.sites[n] = some c → c.state = .waitGrant →
     (∀ r ∈ (s.haltSite n).waiting, r.site ≠ n) ∧ (∀ r ∈ s.waiting, r.site ≠ n → r ∈ (s.haltSite n).waiting) ∧
     (c.totalPulses = 0 → s.dryRun = false →
       closesWith s (s.haltSite n) n { c with haltPending := true, stop := .halt } .voidUnused [.waiting]) ∧
     (c.totalPulses ≠ 0 →
       siteMoves s (s.haltSite n) n { c with haltPending := true, stop := .halt, state := .parking, exch := none }
         [.waiting, .dies] ∧
       (s.haltSite n).dies = { s.dies with queue := s.dies.queue ++ [.park n] })) ∧
  (∀ (n : Site) (c : SiteCtx) (b : Block) (es : List SiteEntry) (cmd : Instr) (result : SiteResult) (s : State),
     s.chain.block = some b → b.work = .touchdown es true false false → b.haltOnError = true → s.sites[n] = some c →
     s.stillEnding n →
     (cmd = .frameTimeout n ∧ c.state = .hail ∧ (∃ e, c.exch = some e ∧ min 3 s.profile.frameRetries ≤ e.resends) ∧
         ¬(c.lanesAsked = .auto ∧ c.lanesUsed = .normal) ∧ result = .failedContact) ∨
       (cmd = .dieLookup ∧ result = .refusedVoid ∧ ∃ die e rest, s.dies.queue = .lookup n die :: rest ∧
         tableFind s.dies.entries die = some e ∧ e.state = .void) ∨
       (cmd = .contextPark ∧ result = c.stop.parkResult ∧ s.dies.parked.length < 64 ∧
         ∃ rest, s.dies.queue = .park n :: rest) →
     ∃ t, exec cmd s = .next t ∧ t.endedWith n result ∧ haltReaches s t n ∧
       t.chain = { s.chain with block := some { b with work := .touchdown es true false true } }) ∧
  (∀ (n : Site) (c : SiteCtx) (b b' : BurnState) (tg : Vector FuseRow 12) (f : ResponseFrame) (cmd : Instr)
     (s : State), s.inTouchdown n → c.burn = some b → c.targets = some tg → c.haltPending = true →
     (cmd = .senseBitResponse n f ∧ c.state = .sensing ∧ s.answers n c .senseBit f ∧
         senseCode f.data ≤ s.profile.tb ∧
         ∃ st row target i, b.onRow s.profile tg st row target ∧ topBit target b.bit i ∧
           b' = { b with bit := i, step := .bits, width := s.profile.w0, bitPulses := 0, unsensed := false }) ∨
       (cmd = .senseBitResponse n f ∧ c.state = .sensing ∧ s.answers n c .senseBit f ∧
         s.profile.tb < senseCode f.data ∧
         b' =
           { b with width := min s.profile.wmax (b.width + b.width * s.profile.growth / 8), unsensed := false }) ∨
       (cmd = .rowCheckResponse n f ∧ c.state = .rowVerify ∧ s.answers n c .rowCheck f ∧ marginalMask f.data = 0 ∧
         ∃ k j : Fin 12, b.cur = .logical k ∧ j.val = k.val + 1 ∧ blownMask f.data = tg[k] ∧
           b' =
             { b with
               rowStates := b.rowStates.set k .done, maxStress := max b.maxStress b.rowStress, cur := .logical j
               bit := 31, step := .bits, rowStress := 0 }) ∨
       (cmd = .rowCheckResponse n f ∧ c.state = .burnRow ∧ s.answers n c .rowCheck f ∧ blownMask f.data = 0 ∧
         marginalMask f.data = 0 ∧
         ∃ (k : Fin 12) (i : Nat), b.cur = .logical k ∧ topBit tg[k] 32 i ∧
           b' =
             { b with
               rowStates := b.rowStates.set k .inProgress, rowStress := 0, bit := i, step := .bits
               width := s.profile.w0, bitPulses := 0, unsensed := false }) ∨
       (cmd = .rowCheckResponse n f ∧ c.state = .burnRow ∧
         (s.refuses n c .rowCheck f ∨
           (s.answers n c .rowCheck f ∧ (blownMask f.data ≠ 0 ∨ marginalMask f.data ≠ 0))) ∧
         ∃ (k : Fin 12) (i : Nat), b.cur = .logical k ∧ b.spareLeft s.profile i ∧
           b' =
             { b with
               rowStates := b.rowStates.set k .inProgress, maxStress := max b.maxStress b.rowStress
               spareWanted := true }) ∨
       (cmd = .rowCheckResponse n f ∧ c.state = .resumeCheck ∧ s.answers n c .rowCheck f ∧ marginalMask f.data = 0 ∧
         b' = b ∧ ∃ row, b.rowAt s.profile tg c.checkIndex row (blownMask f.data)) →
     ∃ t, exec cmd s = .next t ∧ burnStops s t n { c with burn := some b', stop := .halt } b.totalPulses) ∧
  (∀ (n : Site) (c : SiteCtx) (cmd : Instr) (s : State), s.sites[n] = some c → c.haltPending = true → s.othersRun n →
     c.placeHeld = false →
     (∀ f, cmd = .helloResponse n f → s.answers n c .hello f → 16 ≤ helloRows f.data → helloRows f.data ≤ 512 →
       c.action = .provision ∨ f.data.extractLsb' 40 8 = 1 → ∃ t, exec cmd s = .next t ∧
         entryEnds s t n c .halted []) ∧
     (∀ die rest, cmd = .dieLookup → s.dies.queue = .lookup n die :: rest → tableFind s.dies.entries die = none →
       c.locked = some false → ∃ t, exec cmd s = .next t ∧ entryEnds s t n c .halted [.dies] ∧
         t.dies = { s.dies with queue := rest }) ∧
     (∀ f, cmd = .rowCheckResponse n f → c.state = .prep → s.answers n c .rowCheck f → blownMask f.data = 0 →
       marginalMask f.data = 0 → ∃ t, exec cmd s = .next t ∧ entryEnds s t n c .halted []) ∧
     (∀ r rest w i, cmd = .compositionComplete → s.comp = r :: rest → r.site = n → s.chain.wafer = some w →
       w.lot = r.lot → compose w r = .ok i → ∃ t, exec cmd s = .next t ∧ entryEnds s t n c .halted [.comp] ∧
         t.comp = rest) ∧
     (∀ die rest, cmd = .placeHold → s.dies.queue = .hold n die :: rest →
       s.dies.entries.length + s.dies.places.length < 8192 → ∃ t, exec cmd s = .next t ∧
         entryEnds s t n c .halted [.dies] ∧
         t.dies =
           { s.dies with
             queue := rest ++ [.giveBack n], places := s.dies.places ++ [{ site := n, die := die }] })) ∧
  ∀ (n : Site) (die : Die) (rest : List TableRequest) (c : SiteCtx) (e : DieEntry) (p : ParkedContext) (s : State),
    s.dies.queue = .lookup n die :: rest → s.sites[n] = some c → c.haltPending = true → s.inTouchdown n →
    tableFind s.dies.entries die = some e → e.state = .parked →
    (s.dies.parked.filter fun q => q.isHeld && decide (q.die = die)) = [p] → p.burn.totalPulses ≠ 0 →
    ∃ t, exec .dieLookup s = .next t ∧
      siteMoves s t n
        { c with
          serial := some p.serial, key := some p.key, check := some p.check, identity := some p.identity
          burn := some p.burn, touchdowns := some (min 255 (p.touchdowns + 1))
          targets := some (recordTargets p.key p.check p.serial p.identity.codes)
          state := .parking, stop := .halt, exch := none } [.dies, .counters] ∧
      t.dies.queue = rest ++ [.park n] ∧ tableFind t.dies.entries die = some { e with state := .issued } ∧
      t.counter .diesResumed = satInc (s.counter .diesResumed) ∧ countersBut [.diesResumed] s t

/-! ### Key unit (chapter 5) -/

/-- KEY_IMPORT_COMPLETE replaces root key, root id and transport key and sets keys-loaded when both tags verify, and
replaces nothing otherwise; the working store is erased, the allocator untouched, and the LOAD_KEYS is done with OK or
KEYS_REJECTED; of job memory only its done tag and result byte change (R88, R89, R156). With no import in hand it has no
effect: the model's choice (log 16). -/
def Obligations.KeyImportDecided : Prop :=
  (∀ s : State, s.keys.importing = none → exec .keyImportComplete s = .next s) ∧
  ∀ (st : ImportStore) (b : Block) (tag : Nat) (s : State), s.keys.importing = some st → s.chain.block = some b →
    b.work = .loadKeys → s.waitsAfter b tag → ∃ t, exec .keyImportComplete s = .next t ∧
      sameBut [.reg, .mem, .chain, .keys] s t ∧ doneBytes s t b ∧
      (Config.rootTag Config.importKey st.root = BitVec.ofNat 64 (leNat (st.rootBlob.drop 36)) →
        Config.transportTag Config.importKey st.transport = BitVec.ofNat 64 (leNat (st.transportBlob.drop 32)) →
        blockDoneWaiting s t b tag .ok ∧
          t.keys =
            { s.keys with
              importing := none, rootKey := st.root.1, rootId := st.root.2, transportKey := st.transport
              loaded := true }) ∧
      ((Config.rootTag Config.importKey st.root ≠ BitVec.ofNat 64 (leNat (st.rootBlob.drop 36)) ∨
          Config.transportTag Config.importKey st.transport ≠
            BitVec.ofNat 64 (leNat (st.transportBlob.drop 32))) →
        blockDoneWaiting s t b tag .keysRejected ∧ t.keys = { s.keys with importing := none })

/-- The root key, root id, transport key and keys-loaded change only as a LOAD_KEYS ends or at a hardware reset: no
other command changes them (R87, R90). -/
def Obligations.KeysChangeOnlyByImport : Prop :=
  ∀ (cmd : Instr) (s t : State), cmd ≠ .keyImportComplete → (∀ inp, cmd ≠ .linkReset inp) →
    (∀ inp tookNew, cmd ≠ .powerOnReset inp tookNew) → exec cmd s = .next t →
    t.keys.rootKey = s.keys.rootKey ∧ t.keys.rootId = s.keys.rootId ∧ t.keys.transportKey = s.keys.transportKey ∧
      t.keys.loaded = s.keys.loaded

/-- The derivation queue's head is refused without keys, in FAULT and in EXHAUSTED, in that order; in READY it starts a
derivation of serial next when next is below limit, and otherwise a reservation write of H + 256, or EXHAUSTED when
H + 256 exceeds 2^40. A refused site gives its place back and ends with the refusal (R70, R94, R97, R101, R102). That
the request which finds the allocator EXHAUSTED is refused in the same service is the model's reading (log 25). -/
def Obligations.DerivationQueueServed : Prop :=
  ∀ (r : DerivRequest) (rest : List DerivRequest) (c : SiteCtx) (s : State), s.keys.queue = r :: rest →
    s.keys.derivation = none → s.sites[r.site] = some c → c.state = .issueWait → c.placeHeld = true →
    s.inTouchdown r.site →
    (∀ result,
      (s.keys.loaded = false ∧ result = .refusedNoKeys ∨
        s.keys.loaded = true ∧ s.keys.alloc = .fault ∧ result = .refusedAlloc ∨
        s.keys.loaded = true ∧ s.keys.alloc = .exhausted ∧ result = .refusedSerials) →
      s.keys.alloc ≠ .reserving → s.noHalt → s.othersRun r.site →
      ∃ t, exec .derivationQueueServe s = .next t ∧ entryEnds s t r.site c result [.keys, .dies] ∧
        t.keys = { s.keys with queue := rest } ∧
        t.dies = { s.dies with queue := s.dies.queue ++ [.giveBack r.site] }) ∧
    (s.keys.alloc = .reserving → exec .derivationQueueServe s = .next s) ∧
    (s.keys.loaded = true → s.keys.alloc = .ready → s.keys.next < s.keys.limit → ∀ w, s.chain.wafer = some w →
      ∃ t, exec .derivationQueueServe s = .next t ∧
        t.keys =
          { s.keys with
            derivation := some
              { serial := s.keys.next
                key := Config.deriveKey s.keys.rootKey s.keys.next w.lot w.number r.die.x r.die.y } } ∧
        sameBut [.keys] s t) ∧
    (s.keys.loaded = true → s.keys.alloc = .ready → s.keys.next = s.keys.limit → s.keys.h + 256 ≤ 2 ^ 40 →
      ∃ t, exec .derivationQueueServe s = .next t ∧
        t.keys = { s.keys with alloc := .reserving, writeInFlight := some (s.keys.h + 256) } ∧
        sameBut [.keys] s t) ∧
    (s.keys.loaded = true → s.keys.alloc = .ready → s.keys.next = s.keys.limit → 2 ^ 40 < s.keys.h + 256 →
      s.noHalt → s.othersRun r.site → ∃ t, exec .derivationQueueServe s = .next t ∧
        entryEnds s t r.site c .refusedSerials [.keys, .dies] ∧
        t.keys = { s.keys with alloc := .exhausted, queue := rest } ∧
        t.dies = { s.dies with queue := s.dies.queue ++ [.giveBack r.site] })

/-- A reservation write that reports success moves H up by 256, next to the old H, limit to the new H, and the
allocator to READY, and changes nothing else (R91, R95). A reservation write that reports failure takes the allocator
to FAULT and sets ALLOC_FAULT; next, limit and the key unit's H are unchanged, and the memory holds the old value or
the new one (R91, R96). While a reset lasts the report of a reservation write only ends the write; with no write in
flight a report changes nothing (R98; the second by log 16). -/
def Obligations.ReservationReports : Prop :=
  (∀ (v : Nat) (s : State), s.keys.writeInFlight = some v → s.reg.resetting = false →
     ∃ t, exec .reservationSuccess s = .next t ∧
       t.keys =
         { s.keys with
           reserve := v, writeInFlight := none, h := s.keys.h + 256, next := s.keys.h, limit := s.keys.h + 256
           alloc := .ready } ∧
       sameBut [.keys] s t) ∧
  (∀ (tookNew : Bool) (v : Nat) (s : State), s.keys.writeInFlight = some v → s.reg.resetting = false →
     ∃ t, exec (.reservationFailure tookNew) s = .next t ∧
       (t.keys.reserve = s.keys.reserve ∨ t.keys.reserve = v) ∧
       t.keys = { s.keys with reserve := t.keys.reserve, writeInFlight := none, alloc := .fault } ∧
       t.reg = s.reg.setEvent .allocFault ∧ sameBut [.keys, .reg] s t) ∧
  ((∀ (v : Nat) (s : State), s.keys.writeInFlight = some v → s.reg.resetting = true →
     (∃ t, exec .reservationSuccess s = .next t ∧
       t.keys = { s.keys with reserve := v, writeInFlight := none } ∧ sameBut [.keys] s t) ∧
     ∀ tookNew, ∃ t, exec (.reservationFailure tookNew) s = .next t ∧
       (t.keys.reserve = s.keys.reserve ∨ t.keys.reserve = v) ∧
       t.keys = { s.keys with reserve := t.keys.reserve, writeInFlight := none } ∧ sameBut [.keys] s t) ∧
   ∀ s : State, s.keys.writeInFlight = none →
     exec .reservationSuccess s = .next s ∧ ∀ tookNew, exec (.reservationFailure tookNew) s = .next s)

/-- A completed derivation takes the serial, counts KEYS_ISSUED and leaves the queue; its site holds serial, key, check
word, wrapped key and targets, asks for its ISSUED entry, queues its ISSUE and waits for it (R70, R93, R103, R105,
R169). -/
def Obligations.DerivationCompletes : Prop :=
  ∀ (d : Derivation) (r : DerivRequest) (rest : List DerivRequest) (c : SiteCtx) (i : Identity) (w : WaferContext)
    (s : State), s.keys.derivation = some d → s.keys.queue = r :: rest → s.sites[r.site] = some c →
    c.identity = some i → s.chain.wafer = some w →
    let cipher := Config.encipher s.keys.transportKey d.key
    let wrapped : WrappedKey :=
      { cipher := cipher
        tag := Config.wrapTag s.keys.transportKey cipher d.serial c.die.x c.die.y w.number s.keys.rootId }
    ∃ t, exec .derivationComplete s = .next t ∧
      t.keys = { s.keys with next := s.keys.next + 1, queue := rest, derivation := none } ∧
      siteMoves s t r.site
        { c with
          state := .escrowWait, placeHeld := false, serial := some d.serial, key := some d.key
          check := some (checkWord d.key), wrapped := some wrapped
          targets := some (recordTargets d.key (checkWord d.key) d.serial i.codes) }
        [.keys, .counters, .dies, .escrow] ∧
      t.dies = { s.dies with queue := s.dies.queue ++ [.toEntry r.site c.die d.serial] } ∧
      t.escrow =
        { s.escrow with
          queue := s.escrow.queue ++
            [{ record := .issue
                { serial := d.serial, waferSeq := s.chain.waferSeq, rootId := s.keys.rootId, lot := w.lot
                  number := w.number, die := c.die, identity := i.chars, check := checkWord d.key
                  wrapped := wrapped }
               report := .site r.site }] } ∧
      t.counter .keysIssued = satInc (s.counter .keysIssued) ∧ countersBut [.keysIssued] s t

/-! ### Composition unit (chapter 6) -/

/-- The answer to the request in hand ends a site's entry with REFUSED_COMPOSE on an error; an identity enters the
context, and the site asks for a place. With no request the event has no effect (R69, R111; the last by log 16). -/
def Obligations.CompositionAnswered : Prop :=
  (∀ s : State, s.comp = [] → exec .compositionComplete s = .next s) ∧
  ∀ (r : CompRequest) (rest : List CompRequest) (c : SiteCtx) (w : WaferContext) (s : State), s.comp = r :: rest →
    s.chain.wafer = some w → w.lot = r.lot → s.sites[r.site] = some c → c.state = .prep → s.inTouchdown r.site →
    (∀ i, compose w r = .ok i → c.haltPending = false → ∃ t, exec .compositionComplete s = .next t ∧
      siteMoves s t r.site { c with identity := some i } [.comp, .dies] ∧ t.comp = rest ∧
      t.dies = { s.dies with queue := s.dies.queue ++ [.hold r.site c.die] }) ∧
    (∀ e, compose w r = .error e → s.noHalt → s.othersRun r.site → ∃ t, exec .compositionComplete s = .next t ∧
      entryEnds s t r.site c .refusedCompose [.comp] ∧ t.comp = rest)

/-- A composition that gives an identity gives sixteen characters of the table with their codes, and reading the three
identity rows of the record targets back under the same table gives the same characters and codes (R5, R83, R108, R112,
R116, R119). -/
def Obligations.ComposedIdentityReadsBack : Prop :=
  ∀ (w : WaferContext) (r : CompRequest) (i : Identity) (key : Key) (chk : BitVec 16) (serial : Nat),
    w.table.length = 64 → w.table.Nodup → (∀ ch ∈ w.lot, ch ∈ w.table) → w.lot.length ≤ 12 → compose w r = .ok i →
    i.chars.length = 16 ∧ i.codes.length = 16 ∧ (∀ ch ∈ i.chars, ch ∈ w.table) ∧
      i.codes = i.chars.map (fun ch => w.table.idxOf ch) ∧
      decodeIdentity (some w)
        ((recordTargets key chk serial i.codes)[9] ++ (recordTargets key chk serial i.codes)[10] ++
          (recordTargets key chk serial i.codes)[11]) = i

/-! ### Die table unit (chapter 7) -/

/-- A lookup of a settled die ends the entry: ALREADY_DONE, REFUSED_VOID or REFUSED_FAILED with the serial of the table
entry, and ALREADY_LOCKED for a locked die without an entry; the die table keeps its entries (R66, R84, R123). -/
def Obligations.LookupFindsSettledDie : Prop :=
  ∀ (n : Site) (die : Die) (rest : List TableRequest) (c : SiteCtx) (s : State),
    s.dies.queue = .lookup n die :: rest → s.sites[n] = some c → c.state = .lookup → s.noHalt → s.othersRun n →
    (∀ e, tableFind s.dies.entries die = some e → ∀ result,
      (e.state = .burned ∧ result = .alreadyDone ∨ e.state = .void ∧ result = .refusedVoid ∨
        e.state = .failed ∧ result = .refusedFailed) →
      ∃ t, exec .dieLookup s = .next t ∧ entryEnds s t n c result [.dies] ∧ t.dies = { s.dies with queue := rest } ∧
        ∀ b, s.chain.block = some b → s.mem.wf = true → b.offset + 80 + 48 * c.index + 48 ≤ jobMemorySize →
          e.serial < 2 ^ 40 → leNat (t.mem.readBytes (b.offset + 80 + 48 * c.index + 16) 8) = e.serial) ∧
    (tableFind s.dies.entries die = none → c.locked = some true → ∃ t, exec .dieLookup s = .next t ∧
      entryEnds s t n c .alreadyLocked [.dies] ∧ t.dies = { s.dies with queue := rest })

/-- An absent, unlocked die is refused with REFUSED_WINDOW when a fixed row is not PROGRAM, then with REFUSED_GEOMETRY
when one is not below the row count or two are the same; otherwise its blank check begins at logical row 0 (R3, R10,
R66 to R68). -/
def Obligations.AbsentDieIsPrepared : Prop :=
  ∀ (n : Site) (die : Die) (rest : List TableRequest) (c : SiteCtx) (rows : Nat) (s : State),
    s.dies.queue = .lookup n die :: rest → s.sites[n] = some c → c.locked = some false → c.rows = some rows →
    c.haltPending = false → s.inTouchdown n → tableFind s.dies.entries die = none →
    ((∃ r ∈ s.profile.fixedRows, rowAccess s.profile.windows r ≠ .program) → s.noHalt → s.othersRun n →
      ∃ t, exec .dieLookup s = .next t ∧ entryEnds s t n c .refusedWindow [.dies] ∧
        t.dies = { s.dies with queue := rest }) ∧
    ((∀ r ∈ s.profile.fixedRows, rowAccess s.profile.windows r = .program) →
      ((∃ r ∈ s.profile.fixedRows, rows ≤ r) ∨ ¬s.profile.fixedRows.Nodup) → s.noHalt → s.othersRun n →
      ∃ t, exec .dieLookup s = .next t ∧ entryEnds s t n c .refusedGeometry [.dies] ∧
        t.dies = { s.dies with queue := rest }) ∧
    ((∀ r ∈ s.profile.fixedRows, rowAccess s.profile.windows r = .program ∧ r < rows) →
      s.profile.fixedRows.Nodup → ∃ t, exec .dieLookup s = .next t ∧
        siteMoves s t n
          ({ c with checkIndex := 0 }.asks .prep .rowCheck s.profile.recordBase 0 s.profile.thresholds) [.dies] ∧
        t.dies = { s.dies with queue := rest })

/-- A lookup of a PARKED die hands its context over whole: it leaves the list with the others in their order, the entry
becomes ISSUED, DIES_RESUMED counts, and the touchdown count rises (holding at 255). The site re-checks each DONE row,
logical rows 0 to 11 and then remap rows 0 and 1, in that order. A row that no longer reports exactly its target closes
the provisioning with VOID_MISMATCH, in a dry run without a CLOSE; after the last one that does, or without a DONE row,
the first step of R44 follows: SENSE_BIT for a pulse not sensed, the pre-check of the next candidate with a spare
wanted, else by the state of the current row (R44, R66, R75, R76, R123, R134). Two points of that VOID_MISMATCH in a dry
run are the model's: the settlement is asked for at once (log 8), and no counter rises (log 26). -/
def Obligations.ParkedDieResumes : Prop :=
  (∀ (n : Site) (die : Die) (rest : List TableRequest) (c : SiteCtx) (e : DieEntry) (p : ParkedContext) (s : State),
     s.dies.queue = .lookup n die :: rest → s.sites[n] = some c → c.haltPending = false → s.inTouchdown n →
     tableFind s.dies.entries die = some e → e.state = .parked →
     (s.dies.parked.filter fun q => q.isHeld && decide (q.die = die)) = [p] →
     let targets := recordTargets p.key p.check p.serial p.identity.codes
     let resumed :=
       { c with
         serial := some p.serial, key := some p.key, check := some p.check, identity := some p.identity
         burn := some p.burn, touchdowns := some (min 255 (p.touchdowns + 1)), targets := some targets }
     ∀ x : SiteCtx,
     ((∃ i row target, p.burn.firstDone 0 i ∧ p.burn.rowAt s.profile targets i row target ∧
         x = { resumed with checkIndex := i }.asks .resumeCheck .rowCheck row 0 s.profile.thresholds) ∨
       ((∀ i, ¬p.burn.doneAt i) ∧ ∃ st cmd row bit, p.burn.firstStep s.profile st cmd row bit ∧
         x = resumed.asks st cmd row bit (s.profile.burnArg cmd))) →
     ∃ t, exec .dieLookup s = .next t ∧ siteMoves s t n x [.dies, .counters] ∧
       t.dies.parked = s.dies.parked.filter (fun q => decide (q ≠ p)) ∧
       tableFind t.dies.entries die = some { e with state := .issued } ∧
       (∀ d, d ≠ die → tableFind t.dies.entries d = tableFind s.dies.entries d) ∧ t.dies.places = s.dies.places ∧
       t.dies.queue = rest ∧ t.counter .diesResumed = satInc (s.counter .diesResumed) ∧
       countersBut [.diesResumed] s t) ∧
  ∀ (n : Site) (c : SiteCtx) (b : BurnState) (tg : Vector FuseRow 12) (row : Nat) (target : FuseRow)
    (f : ResponseFrame) (s : State),
    s.inTouchdown n → c.state = .resumeCheck → c.burn = some b → c.targets = some tg →
    b.rowAt s.profile tg c.checkIndex row target →
    (s.refuses n c .rowCheck f ∨
        (s.answers n c .rowCheck f ∧ (blownMask f.data ≠ target ∨ marginalMask f.data ≠ 0)) →
      (s.dryRun = false → ∃ t, exec (.rowCheckResponse n f) s = .next t ∧ closesWith s t n c .voidMismatch []) ∧
      (s.dryRun = true → ∃ t, exec (.rowCheckResponse n f) s = .next t ∧ closesDry s t n c .voidMismatch [])) ∧
    (s.answers n c .rowCheck f → blownMask f.data = target → marginalMask f.data = 0 → c.haltPending = false →
      (∀ i next goal, b.firstDone (c.checkIndex + 1) i → b.rowAt s.profile tg i next goal →
        ∃ t, exec (.rowCheckResponse n f) s = .next t ∧
          siteMoves s t n
            ({ c with checkIndex := i }.asks .resumeCheck .rowCheck next 0 s.profile.thresholds) []) ∧
      ((∀ i, c.checkIndex < i → ¬b.doneAt i) → ∀ st cmd next bit, b.firstStep s.profile st cmd next bit →
        ∃ t, exec (.rowCheckResponse n f) s = .next t ∧
          siteMoves s t n (c.asks st cmd next bit (s.profile.burnArg cmd)) []))

/-- A place is held when entries and held places number fewer than 8192, and a live site then joins the derivation
queue; otherwise the site ends REFUSED_TABLE_FULL. A place given back is dropped; a place turned into an entry becomes
the die's ISSUED entry with the serial (R69, R70, R100, R124). In a dry run the site asks for the entry with serial 0 as
it holds its place, takes the dry-run key with its check word 672, and begins its burn with the pre-check of logical row
0 (R72, R106). That its request waits its turn with the place still held, while the burn begins without waiting for it,
is the model's reading (log 6). -/
def Obligations.PlacesServed : Prop :=
  ((∀ (n : Site) (rest : List TableRequest) (c : SiteCtx) (s : State), s.dies.queue = .hold n c.die :: rest →
     s.sites[n] = some c →
     (s.dies.entries.length + s.dies.places.length < 8192 → c.haltPending = false → s.dryRun = false →
       s.inTouchdown n → ∃ t, exec .placeHold s = .next t ∧
         siteMoves s t n { c with placeHeld := true, state := .issueWait } [.dies, .keys] ∧
         t.dies = { s.dies with queue := rest, places := s.dies.places ++ [{ site := n, die := c.die }] } ∧
         t.keys = { s.keys with queue := s.keys.queue ++ [{ site := n, die := c.die }] }) ∧
     (8192 ≤ s.dies.entries.length + s.dies.places.length → s.noHalt → s.othersRun n →
       ∃ t, exec .placeHold s = .next t ∧ entryEnds s t n c .refusedTableFull [.dies] ∧
         t.dies = { s.dies with queue := rest })) ∧
   (∀ (n : Site) (rest : List TableRequest) (s : State), s.dies.queue = .giveBack n :: rest →
     ∃ t, exec .placeGiveBack s = .next t ∧ sameBut [.dies] s t ∧
       t.dies =
         { s.dies with queue := rest, places := s.dies.places.filter fun p => decide (p.site ≠ n) }) ∧
   ∀ (n : Site) (die : Die) (serial : Nat) (rest : List TableRequest) (s : State),
     s.dies.queue = .toEntry n die serial :: rest → ∃ t, exec .placeToEntry s = .next t ∧ sameBut [.dies] s t ∧
       tableFind t.dies.entries die = some { state := .issued, serial := serial } ∧
       (∀ d, d ≠ die → tableFind t.dies.entries d = tableFind s.dies.entries d) ∧
       t.dies.places = s.dies.places.filter (fun p => decide (p.site ≠ n)) ∧ t.dies.parked = s.dies.parked ∧
       t.dies.queue = rest) ∧
  (∀ (n : Site) (rest : List TableRequest) (c : SiteCtx) (i : Identity) (s : State),
     s.dies.queue = .hold n c.die :: rest → s.sites[n] = some c → c.identity = some i → s.dryRun = true →
     s.dies.entries.length + s.dies.places.length < 8192 → c.haltPending = false → s.inTouchdown n →
     ∃ t, exec .placeHold s = .next t ∧
       siteMoves s t n
         ({ c with
             placeHeld := false, serial := some 0, key := some dryRunKey, check := some 672
             targets := some (recordTargets dryRunKey 672 0 i.codes), touchdowns := some 1
             burn := some (.begin s.profile) }.asks .burnRow .rowCheck s.profile.recordBase 0 s.profile.thresholds)
         [.dies] ∧
       t.dies =
         { s.dies with
           queue := rest ++ [.toEntry n c.die 0], places := s.dies.places ++ [{ site := n, die := c.die }] })

/-- With room in the table a VOID entry with serial 0 is made and DIES_VOIDED counts; with 8192 entries and places no
entry is made and nothing counts; either way the site ends REFUSED_NOT_BLANK (R68, R125). -/
def Obligations.VoidEntryServed : Prop :=
  ∀ (n : Site) (die : Die) (rest : List TableRequest) (c : SiteCtx) (s : State),
    s.dies.queue = .voidEntry n die :: rest → s.sites[n] = some c → s.noHalt → s.othersRun n →
    ∃ t, exec .voidEntry s = .next t ∧ entryEnds s t n c .refusedNotBlank [.dies, .counters] ∧
      t.dies.queue = rest ∧ t.dies.places = s.dies.places ∧ t.dies.parked = s.dies.parked ∧
      countersBut [.diesVoided] s t ∧ (∀ d, d ≠ die → tableFind t.dies.entries d = tableFind s.dies.entries d) ∧
      (s.dies.entries.length + s.dies.places.length < 8192 →
        tableFind t.dies.entries die = some { state := .void, serial := 0 } ∧
          t.counter .diesVoided = satInc (s.counter .diesVoided)) ∧
      (8192 ≤ s.dies.entries.length + s.dies.places.length →
        t.dies.entries = s.dies.entries ∧ t.counter .diesVoided = s.counter .diesVoided)

/-- A settlement changes the die's entry by its outcome, the serial kept, or removes it for VOID_UNUSED, and the site
ends with the result of its outcome and stop cause (R76, R78, R84, R126). That the site is final with its settlement and
not before is the model's reading of R123 (log 7; in a dry run too, where the settlement takes its turn: log 8). -/
def Obligations.SettlementEndsEntry : Prop :=
  ∀ (n : Site) (die : Die) (outcome : CloseOutcome) (rest : List TableRequest) (c : SiteCtx) (e : DieEntry) (s : State),
    s.dies.queue = .settle n die outcome :: rest → s.sites[n] = some c → tableFind s.dies.entries die = some e →
    s.noHalt → s.othersRun n →
    ∀ (entry : Option DieEntry) (result : SiteResult),
    (outcome = .burned ∧ entry = some { e with state := .burned } ∧ result = .burned ∨
      outcome = .failedFuse ∧ entry = some { e with state := .failed } ∧ result = .failedFuse ∨
      outcome = .failedRemapRow ∧ entry = some { e with state := .failed } ∧ result = .failedRemapRow ∨
      outcome = .failedLock ∧ entry = some { e with state := .failed } ∧ result = .failedLock ∨
      outcome = .voidMismatch ∧ entry = some { e with state := .void } ∧ result = .voidMismatch ∨
      outcome = .voidUnused ∧ entry = none ∧
        (c.stop = .release ∧ result = .released ∨ c.stop = .contact ∧ result = .failedContact ∨
          c.stop = .supply ∧ result = .failedSupply ∨ c.stop = .halt ∧ result = .halted)) →
    ∃ t, exec .entrySettle s = .next t ∧ entryEnds s t n c result [.dies] ∧
      tableFind t.dies.entries die = entry ∧
      (∀ d, d ≠ die → tableFind t.dies.entries d = tableFind s.dies.entries d) ∧ t.dies.places = s.dies.places ∧
      t.dies.parked = s.dies.parked ∧ t.dies.queue = rest ∧
      ∀ x, t.sites[n] = some x → x.key = none ∧ x.check = none ∧ x.wrapped = none

/-- A park with fewer than 64 contexts in the list joins the end as a held context with everything a resume needs, the
entry becomes PARKED, and the site ends with the PARKED_ result of its stop cause, its copies erased (R77, R78, R129,
R131). A live park that finds 64 contexts evicts the first held one: it becomes closing and bound, keeping its place,
its die's entry becomes VOID, EVICTIONS counts, its CLOSE with VOID_EVICTED is queued, and the site waits in PARKING;
contexts before it that are closing already stay as they are. In a dry run a full list evicts and parks in one step,
counting DIES_VOIDED too (R132, R137). -/
def Obligations.ParksServed : Prop :=
  (∀ (n : Site) (rest : List TableRequest) (c : SiteCtx) (b : BurnState) (i : Identity) (key : Key) (chk : BitVec 16)
     (serial touchdowns : Nat) (e : DieEntry) (result : SiteResult) (s : State), s.dies.queue = .park n :: rest →
     s.sites[n] = some c → c.burn = some b → c.identity = some i → c.key = some key → c.check = some chk →
     c.serial = some serial → c.touchdowns = some touchdowns → s.dies.parked.length < 64 →
     tableFind s.dies.entries c.die = some e → s.noHalt → s.othersRun n →
     (c.stop = .release ∧ result = .parkedReleased ∨ c.stop = .contact ∧ result = .parkedContact ∨
       c.stop = .supply ∧ result = .parkedSupply ∨ c.stop = .halt ∧ result = .parkedHalt) →
     ∃ t, exec .contextPark s = .next t ∧ entryEnds s t n c result [.dies] ∧
       t.dies.parked = s.dies.parked ++
         [{ status := .held, die := c.die, serial := serial, key := key, check := chk, identity := i, burn := b
            touchdowns := touchdowns }] ∧
       tableFind t.dies.entries c.die = some { e with state := .parked } ∧
       (∀ d, d ≠ c.die → tableFind t.dies.entries d = tableFind s.dies.entries d) ∧
       t.dies.places = s.dies.places ∧ t.dies.queue = rest ∧
       ∀ x, t.sites[n] = some x → x.key = none ∧ x.check = none ∧ x.identity = none) ∧
  (∀ (n : Site) (rest : List TableRequest) (c : SiteCtx) (pre : List ParkedContext) (p : ParkedContext)
     (l : List ParkedContext) (e : DieEntry) (s : State), s.dies.queue = .park n :: rest → s.sites[n] = some c →
     s.dies.parked = pre ++ p :: l → pre.length + l.length = 63 → (∀ q ∈ pre, q.status ≠ .held) → p.status = .held →
     tableFind s.dies.entries p.die = some e →
     (s.dryRun = false → ∃ t, exec .contextPark s = .next t ∧ sameBut [.dies, .counters, .escrow] s t ∧
       t.dies.parked = pre ++ { p with status := .closing (some n) } :: l ∧
       tableFind t.dies.entries p.die = some { e with state := .void } ∧
       (∀ d, d ≠ p.die → tableFind t.dies.entries d = tableFind s.dies.entries d) ∧ t.dies.queue = rest ∧
       t.counter .evictions = satInc (s.counter .evictions) ∧ countersBut [.evictions] s t ∧
       t.escrow =
         { s.escrow with
           queue := s.escrow.queue ++
             [{ record := .close
                 { serial := p.serial, die := p.die, outcome := .voidEvicted, pulses := p.burn.totalPulses
                   touchdowns := p.touchdowns, stress := p.burn.maxStress, remaps := p.burn.remaps }
                report := .dieTable }] }) ∧
     (s.dryRun = true → c.die ≠ p.die → s.noHalt → s.othersRun n → ∃ t, exec .contextPark s = .next t ∧
       entryEnds s t n c c.stop.parkResult [.dies, .counters] ∧ t.dies.parked = pre ++ l ++ [c.parked s.profile] ∧
       tableFind t.dies.entries p.die = some { e with state := .void } ∧
       t.counter .evictions = satInc (s.counter .evictions) ∧
       t.counter .diesVoided = satInc (s.counter .diesVoided) ∧ countersBut [.evictions, .diesVoided] s t))

/-- A clear removes every entry and nothing else. A live void-all makes every held context closing, bound to nothing,
and queues its CLOSE with VOID_WAFER_END in list order before the WAFER_SUMMARY, its die's entry VOID; a dry-run
void-all empties the list of held contexts and counts each in DIES_VOIDED (R128, R136, R137, R158). -/
def Obligations.ClearAndVoidAllServed : Prop :=
  (∀ (rest : List TableRequest) (s : State), s.dies.queue = .clear :: rest → ∃ t, exec .tableClear s = .next t ∧
    t.dies = { s.dies with queue := rest, entries := [] } ∧ sameBut [.dies] s t) ∧
  ∀ (rest : List TableRequest) (b : Block) (s : State), s.dies.queue = .voidAll :: rest → s.chain.block = some b →
    b.work = .waferEnd →
    (s.dryRun = false → ∃ t, exec .voidAllParked s = .next t ∧ sameBut [.dies, .escrow] s t ∧
      t.dies.parked = s.dies.parked.map (fun p => if p.isHeld then { p with status := .closing none } else p) ∧
      t.escrow =
        { s.escrow with
          queue := s.escrow.queue ++
            ((s.dies.parked.filter ParkedContext.isHeld).map fun p =>
              { record := .close (p.closeRecord .voidWaferEnd), report := .dieTable }) ++
            [{ record := .summary, report := .chain }] } ∧
      t.dies.queue = rest ∧ t.dies.places = s.dies.places ∧
      ∀ d, tableFind t.dies.entries d =
        (tableFind s.dies.entries d).map fun e =>
          if s.dies.parked.any (fun p => p.isHeld && decide (p.die = d)) then { e with state := .void } else e) ∧
    (s.dryRun = true → (∀ p ∈ s.dies.parked, p.isHeld = true) → s.countersBounded →
      ∃ t, exec .voidAllParked s = .next t ∧ sameBut [.dies, .counters, .escrow] s t ∧ t.dies.parked = [] ∧
      t.counter .diesVoided = min counterMax (s.counter .diesVoided + s.dies.parked.length) ∧
      countersBut [.diesVoided] s t ∧ t.dies.queue = rest ∧ t.dies.places = s.dies.places ∧
      t.escrow = { s.escrow with queue := s.escrow.queue ++ [{ record := .summary, report := .chain }] } ∧
      ∀ d, tableFind t.dies.entries d =
        (tableFind s.dies.entries d).map fun e =>
          if s.dies.parked.any (fun p => decide (p.die = d)) then { e with state := .void } else e)

/-- A dump writes the entries in table order and then the parked summaries, as 16-byte records from the start of
the buffer as far as they fit whole, writes the four counts into the block, and the block is done with OK (R138, R160,
section 11.2). -/
def Obligations.DumpServed : Prop :=
  ∀ (buffer capacity : Nat) (rest : List TableRequest) (b : Block) (tag : Nat) (s : State),
    s.dies.queue = .dump buffer capacity :: rest → s.chain.block = some b → b.work = .dump → s.waitsAfter b tag →
    dumpAccepted b.offset buffer capacity = true →
    (s.linkOf b.offset + 2 ≤ buffer ∨ buffer + capacity ≤ s.linkOf b.offset) →
    s.dies.entries.length ≤ 8192 → s.dies.parked.length ≤ 64 → ∃ t, exec .tableDump s = .next t ∧
      blockDoneWaiting s t b tag .ok ∧ sameBut [.reg, .mem, .chain, .dies] s t ∧
      t.dies = { s.dies with queue := rest } ∧
      let fit := capacity / 16
      let shown := min fit s.dies.entries.length
      let summaries := min (fit - shown) s.dies.parked.length
      t.mem.read32 (b.offset + 72) = shown ∧ t.mem.read32 (b.offset + 76) = summaries ∧
      t.mem.read32 (b.offset + 80) = s.dies.entries.length ∧ t.mem.read32 (b.offset + 84) = s.dies.parked.length ∧
      (∀ k, ∀ h : k < s.dies.entries.length, k < shown →
        t.mem.readBytes (buffer + 16 * k) 16 = entryRecord s.dies.entries[k]) ∧
      (∀ k, ∀ h : k < s.dies.parked.length, k < summaries →
        t.mem.readBytes (buffer + 16 * (shown + k)) 16 = summaryRecord s.dies.parked[k]) ∧
      ∀ a, ¬(buffer ≤ a ∧ a < buffer + 16 * (shown + summaries)) → ¬(b.offset + 12 ≤ a ∧ a < b.offset + 17) →
        ¬(b.offset + 72 ≤ a ∧ a < b.offset + 88) → t.mem.read a = s.mem.read a

/-! ### Escrow writer and the end of a block (chapters 8 and 9) -/

/-- ESCROW_RECORD_WRITE writes the head of the queue into the next free slots of the open page, counts it in the page's
record count, takes it off the queue and changes nothing else; without an open page or a record it has no effect (R166,
section 11.3; the last by log 16, the order of an ISSUE's enciphered key bytes by log 37). -/
def Obligations.EscrowRecordWritten : Prop :=
  (∀ s : State, (∀ page slot records, s.escrow.writer ≠ .opened page slot records) ∨ s.escrow.queue = [] →
    exec .escrowRecordWrite s = .next s) ∧
  ∀ (page slot records : Nat) (r : RecordRequest) (rest : List RecordRequest) (s : State),
    s.writesRecord page slot records r rest → r.report = .nobody → ∃ t, exec .escrowRecordWrite s = .next t ∧
      recordStands s t page slot records r rest ∧ sameBut [.mem, .escrow] s t

/-- A page that a record fills, or that a waiting flush finds with a record, is handed over: record count, page sequence
and owner HOST_READ are written, ESCROW_READY is set, the page sequence moves on, and the linked page is opened if it is
valid and ENGINE; otherwise the writer stalls on the link and sets ESCROW_STALL. A page linked to itself is no longer
ENGINE, so the writer stalls. A two-slot record that finds only slot 15 free hands the page over with that slot unused:
it waits while the writer stalls, and an ISSUE goes into slots 0 and 1 of the page opened, whereupon its site begins its
burn. No other byte of job memory changes (R71, R163, R166 to R168; the order of the ISSUE's enciphered key bytes is the
model's choice, log 37). -/
def Obligations.FullPageHandedOver : Prop :=
  (∀ (page slot records : Nat) (r : RecordRequest) (rest : List RecordRequest) (s : State),
    s.escrow.writer = .opened page slot records → s.escrow.queue = r :: rest → r.report = .nobody →
    s.mem.wf = true → page + 1088 ≤ jobMemorySize → records < counterMax → 1 ≤ s.escrow.seq →
    s.escrow.seq ≤ counterMax →
    (slot + r.record.slots = 16 ∨ (slot + r.record.slots < 16 ∧ s.escrow.flushPending = true)) →
    let next := s.mem.read32 (page + 12)
    let seq := if s.escrow.seq < counterMax then s.escrow.seq + 1 else 1
    (validPage next = true → s.mem.read32 next = ownerEngine → apart page 1088 next 1088 →
      ∃ t, exec .escrowRecordWrite s = .next t ∧
        t.escrow = { writer := .opened next 0 0, seq := seq, queue := rest, flushPending := false } ∧
        t.reg = s.reg.setEvent .escrowReady ∧ t.mem.read32 page = ownerHostRead ∧
        t.mem.read32 (page + 4) = s.escrow.seq ∧ t.mem.read32 (page + 8) = records + 1 ∧
        t.mem.readBytes (page + 64 + 64 * slot) (64 * r.record.slots) = r.record.bytes s.counters ∧
        t.mem.read32 (next + 4) = seq ∧ t.mem.read32 (next + 8) = 0 ∧
        (∀ a, ¬(page ≤ a ∧ a < page + 12) →
          ¬(page + 64 + 64 * slot ≤ a ∧ a < page + 64 + 64 * (slot + r.record.slots)) →
          ¬(next + 4 ≤ a ∧ a < next + 12) → t.mem.read a = s.mem.read a) ∧
        sameBut [.reg, .mem, .escrow] s t) ∧
    ((validPage next = false ∨ (s.mem.read32 next ≠ ownerEngine ∧ apart page 1088 next 1088) ∨ next = page) →
      ∃ t, exec .escrowRecordWrite s = .next t ∧
        t.escrow = { writer := .stalled (.link page), seq := seq, queue := rest, flushPending := false } ∧
        t.reg = (s.reg.setEvent .escrowReady).setEvent .escrowStall ∧ t.mem.read32 page = ownerHostRead ∧
        t.mem.read32 (page + 4) = s.escrow.seq ∧ t.mem.read32 (page + 8) = records + 1 ∧
        t.mem.readBytes (page + 64 + 64 * slot) (64 * r.record.slots) = r.record.bytes s.counters ∧
        (∀ a, ¬(page ≤ a ∧ a < page + 12) →
          ¬(page + 64 + 64 * slot ≤ a ∧ a < page + 64 + 64 * (slot + r.record.slots)) →
          t.mem.read a = s.mem.read a) ∧
        sameBut [.reg, .mem, .escrow] s t)) ∧
  ∀ (page records : Nat) (r : RecordRequest) (rest : List RecordRequest) (s : State),
    s.escrow.writer = .opened page 15 records → s.escrow.queue = r :: rest → r.record.slots = 2 →
    s.mem.wf = true → page + 1088 ≤ jobMemorySize → records ≤ counterMax → 1 ≤ s.escrow.seq →
    s.escrow.seq ≤ counterMax →
    let next := s.mem.read32 (page + 12)
    let seq := if s.escrow.seq < counterMax then s.escrow.seq + 1 else 1
    ((validPage next = false ∨ (s.mem.read32 next ≠ ownerEngine ∧ apart page 1088 next 1088) ∨ next = page) →
      ∃ t, exec .escrowRecordWrite s = .next t ∧
        t.escrow = { s.escrow with writer := .stalled (.link page), seq := seq } ∧
        t.reg = (s.reg.setEvent .escrowReady).setEvent .escrowStall ∧ t.mem.read32 page = ownerHostRead ∧
        t.mem.read32 (page + 4) = s.escrow.seq ∧ t.mem.read32 (page + 8) = records ∧ bytesBut page 12 s t ∧
        sameBut [.reg, .mem, .escrow] s t) ∧
    (∀ (i : IssueRecord) (n : Site) (c : SiteCtx), r = { record := .issue i, report := .site n } →
      s.escrow.flushPending = false → s.sites[n] = some c → c.state = .escrowWait → s.inTouchdown n →
      validPage next = true → s.mem.read32 next = ownerEngine → apart page 1088 next 1088 →
      ∃ t, exec .escrowRecordWrite s = .next t ∧
        t.escrow = { writer := .opened next 2 1, seq := seq, queue := rest, flushPending := false } ∧
        t.reg = s.reg.setEvent .escrowReady ∧ t.mem.read32 page = ownerHostRead ∧
        t.mem.read32 (page + 4) = s.escrow.seq ∧ t.mem.read32 (page + 8) = records ∧
        t.mem.read32 (next + 4) = seq ∧ t.mem.read32 (next + 8) = 1 ∧
        t.mem.readBytes (next + 64) 128 = r.record.bytes s.counters ∧
        (∀ a, ¬(page ≤ a ∧ a < page + 12) → ¬(next + 4 ≤ a ∧ a < next + 12) →
          ¬(next + 64 ≤ a ∧ a < next + 192) → t.mem.read a = s.mem.read a) ∧
        siteMoves s t n
          ({ c with wrapped := none, touchdowns := some 1, burn := some (.begin s.profile) }.asks .burnRow .rowCheck
            s.profile.recordBase 0 s.profile.thresholds) [.reg, .mem, .escrow])

/-- A written record stands in its slots with its bytes, the record count moved on and the queue's head gone, whoever is
told of it. A site whose ISSUE is written erases its wrapped key and, still in ESCROW_WAIT, begins its burn with the
pre-check of logical row 0; one whose CLOSE is written erases its key, counts the outcome and asks for its settlement. A
closing context whose CLOSE is written, bound to a park or to none while a WAFER_END is in hand, leaves the list and
counts in DIES_VOIDED, and the park bound to it is taken (R71, R76, R85, R133, R136, R166). The site whose CLOSE is
written stays in CLOSING until its settlement (the model's reading: log 7), its record targets go with its key
(log 31), and an ISSUE's enciphered key bytes stand in the order of log 37. -/
def Obligations.WrittenRecordReported : Prop :=
  (∀ (page slot records : Nat) (i : IssueRecord) (n : Site) (rest : List RecordRequest) (c : SiteCtx) (s : State),
    s.writesRecord page slot records { record := .issue i, report := .site n } rest → s.sites[n] = some c →
    s.inTouchdown n →
    (c.state = .escrowWait → ∃ t, exec .escrowRecordWrite s = .next t ∧
      recordStands s t page slot records { record := .issue i, report := .site n } rest ∧
      siteMoves s t n
        ({ c with wrapped := none, touchdowns := some 1, burn := some (.begin s.profile) }.asks .burnRow .rowCheck
          s.profile.recordBase 0 s.profile.thresholds) [.mem, .escrow]) ∧
    (c.state ≠ .escrowWait → c.state ≠ .final → ∃ t, exec .escrowRecordWrite s = .next t ∧
      recordStands s t page slot records { record := .issue i, report := .site n } rest ∧
      siteMoves s t n { c with wrapped := none } [.mem, .escrow])) ∧
  (∀ (page slot records : Nat) (r : CloseRecord) (n : Site) (rest : List RecordRequest) (c : SiteCtx)
    (counted : List Counter) (s : State),
    s.writesRecord page slot records { record := .close r, report := .site n } rest → s.sites[n] = some c →
    s.inTouchdown n → c.state = .closing → c.closeWritten = false →
    (r.outcome = .burned ∧ counted = [.diesBurned] ∨
      (r.outcome = .failedFuse ∨ r.outcome = .failedRemapRow ∨ r.outcome = .failedLock) ∧ counted = [.diesFailed] ∨
      r.outcome = .voidMismatch ∧ counted = [.diesVoided] ∨ r.outcome = .voidUnused ∧ counted = []) →
    ∃ t, exec .escrowRecordWrite s = .next t ∧
      recordStands s t page slot records { record := .close r, report := .site n } rest ∧
      siteMoves s t n
        { c with key := none, check := none, wrapped := none, targets := none, closeWritten := true }
        [.mem, .escrow, .dies, .counters] ∧
      t.dies = { s.dies with queue := s.dies.queue ++ [.settle n c.die r.outcome] } ∧
      countersBut counted s t ∧ ∀ k ∈ counted, t.counter k = satInc (s.counter k)) ∧
  ∀ (page slot records : Nat) (r : CloseRecord) (rest : List RecordRequest) (p : ParkedContext) (s : State),
    s.writesRecord page slot records { record := .close r, report := .dieTable } rest →
    (s.dies.parked.filter fun q => !q.isHeld && decide (q.die = r.die)) = [p] →
    (p.status = .closing none →
      (∀ b es released halted, s.chain.block = some b → b.work ≠ .touchdown es true released halted) → ∃ t,
      exec .escrowRecordWrite s = .next t ∧
      recordStands s t page slot records { record := .close r, report := .dieTable } rest ∧
      t.dies = { s.dies with parked := s.dies.parked.filter fun q => decide (q ≠ p) } ∧
      t.counter .diesVoided = satInc (s.counter .diesVoided) ∧ countersBut [.diesVoided] s t ∧
      sameBut [.mem, .escrow, .dies, .counters] s t) ∧
    (∀ (n : Site) (c : SiteCtx) (e : DieEntry), p.status = .closing (some n) → s.sites[n] = some c →
      tableFind s.dies.entries c.die = some e → s.noHalt → s.othersRun n → ∃ t,
      exec .escrowRecordWrite s = .next t ∧ t.endedWith n c.stop.parkResult ∧ sitesBut n s t ∧
      t.escrow = { s.escrow with writer := .opened page (slot + 1) (records + 1), queue := rest } ∧
      (∀ b, s.chain.block = some b → let a := b.offset + 80 + 48 * c.index + 10
        (apart a 38 page 1088 →
          t.mem.readBytes (page + 64 + 64 * slot) 64 = (EscrowRecord.close r).bytes s.counters ∧
            t.mem.read32 (page + 8) = records + 1) ∧
        (b.offset + 80 + 48 * c.index + 48 ≤ jobMemorySize →
          (t.mem.read (a + 2)).toNat = c.stop.parkResult.code) ∧
        ∀ x, ¬(page + 8 ≤ x ∧ x < page + 12) → ¬(page + 64 + 64 * slot ≤ x ∧ x < page + 64 + 64 * (slot + 1)) →
          ¬(a ≤ x ∧ x < a + 38) → t.mem.read x = s.mem.read x) ∧
      t.dies =
        { s.dies with
          entries := t.dies.entries
          parked := (s.dies.parked.filter fun q => decide (q ≠ p)) ++ [c.parked s.profile] } ∧
      (∀ d, tableFind t.dies.entries d =
        if d = c.die then some { e with state := .parked } else tableFind s.dies.entries d) ∧
      t.counter .diesVoided = satInc (s.counter .diesVoided) ∧ countersBut [.diesVoided] s t ∧
      sameBut [.mem, .escrow, .dies, .counters, .sites] s t)

/-- Once every entry of a started TOUCHDOWN is final every site engine returns to IDLE: a released or halted block has
its result written and holds the unit, any other is done with OK. So does the settlement that makes the last entry final,
which halts the block at once when its own result is the first to start a halt. A written WAFER_SUMMARY flushes the log,
closes the wafer, and its WAFER_END is done with OK (R152 to R154, R158, R168). Two points are the model's reading: an entry
is final with its settlement, which may so be what ends the block (log 7), and a wait after the taking of a linked block
leaves its flush pending while a record counts as being written (log 12). -/
def Obligations.BlockWorkEnds : Prop :=
  (∀ (b : Block) (es : List SiteEntry) (released halted : Bool) (tag : Nat) (s : State), s.chain.block = some b →
    b.work = .touchdown es true released halted → s.chain.state = .running → s.waitsAfter b tag →
    (∀ e ∈ es, s.isFinal e.site = true) →
    let t := s.settleTouchdown
    (∀ n : Site, t.sites[n] = none) ∧
    (released = true →
      t.chain = { s.chain with state := .held .release } ∧ (t.mem.read (b.offset + 16)).toNat = 2 ∧
        bytesBut (b.offset + 16) 1 s t ∧ t.reg = s.reg.setEvent .held ∧ sameBut [.reg, .mem, .chain, .sites] s t) ∧
    (released = false → halted = true →
      t.chain = { s.chain with state := .held .halt } ∧ (t.mem.read (b.offset + 16)).toNat = 3 ∧
        bytesBut (b.offset + 16) 1 s t ∧ t.reg = s.reg.setEvent .held ∧ sameBut [.reg, .mem, .chain, .sites] s t) ∧
    (released = false → halted = false →
      blockDoneWaiting s t b tag .ok ∧ doneBytes s t b ∧ sameBut [.reg, .mem, .chain, .sites] s t)) ∧
  (∀ (b : Block) (es : List SiteEntry) (released halted : Bool) (tag : Nat) (n : Site) (die : Die)
     (outcome : CloseOutcome) (rest : List TableRequest) (c : SiteCtx) (s : State), s.chain.block = some b →
     b.work = .touchdown es true released halted → s.chain.state = .running → s.waitsAfter b tag →
     s.dies.queue = .settle n die outcome :: rest → s.sites[n] = some c →
     (∀ (m : Site) (x : SiteCtx), m ≠ n → s.sites[m] = some x → x.state = .final) →
     (∀ e ∈ es, e.site ≠ n → s.isFinal e.site = true) →
     apart (s.linkOf b.offset) 2 (b.offset + 80 + 48 * c.index + 10) 38 →
     ∃ t, exec .entrySettle s = .next t ∧ (∀ m : Site, t.sites[m] = none) ∧ t.dies.queue = rest ∧
       (b.offset + 80 + 48 * c.index + 48 ≤ jobMemorySize →
         (outcome = .burned → (t.mem.read (b.offset + 80 + 48 * c.index + 12)).toNat = SiteResult.burned.code) ∧
         (outcome = .failedFuse →
           (t.mem.read (b.offset + 80 + 48 * c.index + 12)).toNat = SiteResult.failedFuse.code)) ∧
       (∀ a, ¬(b.offset + 12 ≤ a ∧ a < b.offset + 14) → a ≠ b.offset + 16 →
         ¬(b.offset + 80 + 48 * c.index + 10 ≤ a ∧ a < b.offset + 80 + 48 * c.index + 48) →
         t.mem.read a = s.mem.read a) ∧
       (released = true →
         t.chain = { s.chain with state := .held .release } ∧ (t.mem.read (b.offset + 16)).toNat = 2 ∧
           t.reg = s.reg.setEvent .held ∧ sameBut [.reg, .mem, .chain, .sites, .dies] s t) ∧
       (released = false → halted = true →
         t.chain = { s.chain with state := .held .halt } ∧ (t.mem.read (b.offset + 16)).toNat = 3 ∧
           t.reg = s.reg.setEvent .held ∧ sameBut [.reg, .mem, .chain, .sites, .dies] s t) ∧
       (released = false → halted = false → outcome = .burned ∨ b.haltOnError = false →
         blockDoneWaiting s t b tag .ok ∧ sameBut [.reg, .mem, .chain, .sites, .dies] s t) ∧
       (released = false → halted = false → outcome = .failedFuse → b.haltOnError = true →
         t.chain =
             { s.chain with
               state := .held .halt, block := some { b with work := .touchdown es true false true } } ∧
           (t.mem.read (b.offset + 16)).toNat = 3 ∧ t.reg = s.reg.setEvent .held ∧
           sameBut [.reg, .mem, .chain, .sites, .dies, .order] s t)) ∧
  (∀ (b : Block) (es : List SiteEntry) (tag : Nat) (s : State), s.chain.block = some b →
    b.work = .touchdown es true false false → s.chain.state = .running → (∀ e ∈ es, s.isFinal e.site = true) →
    (s.linkReady b tag → ∃ u, (∀ n : Site, u.sites[n] = none) ∧ blockEnds { s with sites := u.sites } u b tag .ok ∧
      takesReady u (s.linkOf b.offset) (.next s.settleTouchdown)) ∧
    (s.linkFails b tag → (∀ n : Site, s.settleTouchdown.sites[n] = none) ∧
      blockEndsFaulty { s with sites := s.settleTouchdown.sites } s.settleTouchdown b tag .ok)) ∧
  ∀ (page slot records tag : Nat) (b : Block) (s : State),
    s.writesRecord page slot records { record := .summary, report := .chain } [] → s.chain.block = some b →
    b.work = .waferEnd → s.linkWaits b tag →
    let next := s.mem.read32 (page + 12)
    let link := s.linkOf b.offset
    validPage next = true → s.mem.read32 next = ownerEngine → apart page 1088 next 1088 →
    apart b.offset 64 page 1088 → apart b.offset 64 next 1088 → apart link 2 page 1088 → apart link 2 next 1088 →
    ∃ t, exec .escrowRecordWrite s = .next t ∧
      t.chain =
        { s.chain with
          state := .waiting, expected := some (nextTag tag), offset := some link, block := none
          lastDone := some b.offset, wafer := none } ∧
      (t.mem.read (b.offset + 16)).toNat = BlockResult.ok.code ∧ t.mem.read16 (b.offset + 12) = tag ∧
      t.mem.read32 page = ownerHostRead ∧ t.mem.read32 (page + 8) = records + 1 ∧
      t.mem.readBytes (page + 64 + 64 * slot) 128 = EscrowRecord.summary.bytes s.counters ∧
      (∀ a, ¬(b.offset + 12 ≤ a ∧ a < b.offset + 14) → a ≠ b.offset + 16 → ¬(page ≤ a ∧ a < page + 12) →
        ¬(page + 64 + 64 * slot ≤ a ∧ a < page + 64 + 64 * (slot + 2)) → ¬(next + 4 ≤ a ∧ a < next + 12) →
        t.mem.read a = s.mem.read a) ∧
      t.escrow.writer = .opened next 0 0 ∧ t.escrow.queue = [] ∧ sameBut [.reg, .mem, .chain, .escrow] s t

/-! ### Whole-machine rules -/

/-- A burn state stays within its profile's bounds through everything that happens to it: no width above Wmax, no row
charged above Cmax, no bit pulsed above Pmax, no spare used or rejected twice (R24, R25, R27, R29, R31, R33 to R37).
Every step keeps the burn states of all sites and of all parked contexts so, and every armed, waiting and driving pulse
one that its burn may have, on a board whose site engines work in order; and it keeps that order: a site waits for at
most one thing, in a state that waits for it (R50, R55, R64, R73, R129, R152; what the model's queues make of waiting is
logs 6 to 9). The profile is that of the step's start: a WAFER_START or WAFER_END may replace it. -/
def Obligations.BurnStaysInBounds : Prop :=
  (∀ p : Profile, p.w0 ≤ p.wmax → (BurnState.begin p).inRange p ∧ ∀ b : BurnState, b.inRange p →
    (∀ bit, (b.enterBit p bit).inRange p) ∧
    (b.bitSpent p = false → (b.charge (b.pulseWidth p)).inRange p ∧ 1 ≤ b.pulseWidth p ∧ b.pulseWidth p ≤ p.wmax) ∧
    (b.grow p).inRange p ∧ (∀ target, (b.preCheckPassed p target).inRange p) ∧
    (∀ target, (b.bitDone p target).inRange p) ∧ b.rowBad.inRange p ∧ (b.rowDone p).inRange p ∧
    (∀ n, (BurnState.lockSettle p n b).inRange p) ∧
    ∀ i, b.nextSpare p i → (b.reject i).inRange p ∧ ∀ k target, (b.accept p k i target).inRange p) ∧
  ∀ s t : State, s.orderly → s.burnsKept s.profile → step s = .next t → t.orderly ∧ t.burnsKept s.profile

/-- The die reads back from its two remap rows the physical row that the engine holds for each logical row: the spare of
the last entry that names it, or its record row (R4, R6, R7). -/
def Obligations.RemapsReadBack : Prop :=
  ∀ (d : FuseDie) (l : List (Fin 12 × Nat)), l.length ≤ 8 → d.design.spareCount ≤ 8 →
    (∀ e ∈ l, e.2 < d.design.spareCount) → d.value d.design.remapBase = remapTarget l 0 →
    d.value (d.design.remapBase + 1) = remapTarget l 1 → ∀ k : Fin 12,
    d.locate k.val =
      match (l.filter fun e => decide (e.1 = k)).getLast? with
      | some e => d.design.spareBase + e.2
      | none => d.design.recordBase + k.val

/-- The properties that every step keeps hold of the board after reset (R91, R121, R130, R140, R182, R184; the values at
reset are those of log 1 and log 2). -/
def Obligations.InvariantsAtReset : Prop :=
  State.reset.mem.wf = true ∧ State.reset.countersBounded ∧ State.reset.poolUsed ∧ State.reset.parkedBounded ∧
    State.reset.tableOrdered ∧ State.reset.keys.sound ∧ State.reset.orderly ∧
    State.reset.burnsKept State.reset.profile

/-- Every step keeps job memory in its canonical form (R140; the form is the model's: log 2). -/
def Obligations.MemoryCanonicalKept : Prop :=
  ∀ s t : State, s.mem.wf = true → step s = .next t → t.mem.wf = true

/-- Every step keeps the counters at or below 4,294,967,295, the parked list at or below 64 contexts, and the die table
in its order with at most one entry per die (R121, R130, R132, R138, R182). -/
def Obligations.BoundsKept : Prop :=
  ∀ s t : State, s.countersBounded → s.parkedBounded → s.tableOrdered → step s = .next t →
    t.countersBounded ∧ t.parkedBounded ∧ t.tableOrdered

/-- No step leaves a READY channel beside a waiting request (R56). -/
def Obligations.PoolNeverIdle : Prop :=
  ∀ s t : State, s.poolUsed → step s = .next t → t.poolUsed

/-- Every step keeps the serial allocator below the mark held in the reserve memory, and neither next nor the mark ever
falls: a completed derivation takes a serial that is below the mark and that no later next reaches again (R91, R93 to
R96, R98). -/
def Obligations.SerialsNeverRepeat : Prop :=
  ∀ s t : State, s.keys.sound → step s = .next t →
    t.keys.sound ∧ s.keys.next ≤ t.keys.next ∧ s.keys.reserve ≤ t.keys.reserve ∧
      ∀ d rest, s.keys.derivation = some d → s.pending = .derivationComplete :: rest → s.keys.queue ≠ [] →
        d.serial = s.keys.next ∧ d.serial < t.keys.next ∧ d.serial < s.keys.reserve

/-- A sticky event bit that is set stays set until a write to EVENTS or a reset: no other command clears it (R179,
R180). -/
def Obligations.EventsStaySet : Prop :=
  ∀ (cmd : Instr) (s t : State) (i : Nat), (∀ v, cmd ≠ .eventsWrite v) → (∀ inp, cmd ≠ .engineReset inp) →
    (∀ inp, cmd ≠ .linkReset inp) → (∀ inp tookNew, cmd ≠ .powerOnReset inp tookNew) → exec cmd s = .next t →
    s.reg.events.getLsbD i = true → t.reg.events.getLsbD i = true
end

