-- ==== Sys2Proof/Laws/State.lean ====
section
/-! SUPPORT. One lemma per field per update of State, true by unfolding. -/

namespace Sys2Proof.Machine

/-! ### setReg -/

@[simp] theorem State.setReg_reg (s : State) (r : RegisterBlock) : (s.setReg r).reg = r := rfl
@[simp] theorem State.setReg_counters (s : State) (r : RegisterBlock) : (s.setReg r).counters = s.counters := rfl
@[simp] theorem State.setReg_mem (s : State) (r : RegisterBlock) : (s.setReg r).mem = s.mem := rfl
@[simp] theorem State.setReg_chain (s : State) (r : RegisterBlock) : (s.setReg r).chain = s.chain := rfl
@[simp] theorem State.setReg_sites (s : State) (r : RegisterBlock) : (s.setReg r).sites = s.sites := rfl
@[simp] theorem State.setReg_chans (s : State) (r : RegisterBlock) : (s.setReg r).chans = s.chans := rfl
@[simp] theorem State.setReg_waiting (s : State) (r : RegisterBlock) : (s.setReg r).waiting = s.waiting := rfl
@[simp] theorem State.setReg_keys (s : State) (r : RegisterBlock) : (s.setReg r).keys = s.keys := rfl
@[simp] theorem State.setReg_comp (s : State) (r : RegisterBlock) : (s.setReg r).comp = s.comp := rfl
@[simp] theorem State.setReg_dies (s : State) (r : RegisterBlock) : (s.setReg r).dies = s.dies := rfl
@[simp] theorem State.setReg_escrow (s : State) (r : RegisterBlock) : (s.setReg r).escrow = s.escrow := rfl
@[simp] theorem State.setReg_contact (s : State) (r : RegisterBlock) : (s.setReg r).contact = s.contact := rfl
@[simp] theorem State.setReg_tieOrder (s : State) (r : RegisterBlock) : (s.setReg r).tieOrder = s.tieOrder := rfl
@[simp] theorem State.setReg_freeCount (s : State) (r : RegisterBlock) : (s.setReg r).freeCount = s.freeCount := rfl
@[simp] theorem State.setReg_pending (s : State) (r : RegisterBlock) : (s.setReg r).pending = s.pending := rfl

/-! ### setCounters -/

@[simp] theorem State.setCounters_reg (s : State) (c : Vector Nat 16) : (s.setCounters c).reg = s.reg := rfl
@[simp] theorem State.setCounters_counters (s : State) (c : Vector Nat 16) : (s.setCounters c).counters = c := rfl
@[simp] theorem State.setCounters_mem (s : State) (c : Vector Nat 16) : (s.setCounters c).mem = s.mem := rfl
@[simp] theorem State.setCounters_chain (s : State) (c : Vector Nat 16) : (s.setCounters c).chain = s.chain := rfl
@[simp] theorem State.setCounters_sites (s : State) (c : Vector Nat 16) : (s.setCounters c).sites = s.sites := rfl
@[simp] theorem State.setCounters_chans (s : State) (c : Vector Nat 16) : (s.setCounters c).chans = s.chans := rfl
@[simp] theorem State.setCounters_waiting (s : State) (c : Vector Nat 16) :
    (s.setCounters c).waiting = s.waiting := rfl
@[simp] theorem State.setCounters_keys (s : State) (c : Vector Nat 16) : (s.setCounters c).keys = s.keys := rfl
@[simp] theorem State.setCounters_comp (s : State) (c : Vector Nat 16) : (s.setCounters c).comp = s.comp := rfl
@[simp] theorem State.setCounters_dies (s : State) (c : Vector Nat 16) : (s.setCounters c).dies = s.dies := rfl
@[simp] theorem State.setCounters_escrow (s : State) (c : Vector Nat 16) : (s.setCounters c).escrow = s.escrow := rfl
@[simp] theorem State.setCounters_contact (s : State) (c : Vector Nat 16) :
    (s.setCounters c).contact = s.contact := rfl
@[simp] theorem State.setCounters_tieOrder (s : State) (c : Vector Nat 16) :
    (s.setCounters c).tieOrder = s.tieOrder := rfl
@[simp] theorem State.setCounters_freeCount (s : State) (c : Vector Nat 16) :
    (s.setCounters c).freeCount = s.freeCount := rfl
@[simp] theorem State.setCounters_pending (s : State) (c : Vector Nat 16) :
    (s.setCounters c).pending = s.pending := rfl

/-! ### setMem -/

@[simp] theorem State.setMem_reg (s : State) (m : Memory) : (s.setMem m).reg = s.reg := rfl
@[simp] theorem State.setMem_counters (s : State) (m : Memory) : (s.setMem m).counters = s.counters := rfl
@[simp] theorem State.setMem_mem (s : State) (m : Memory) : (s.setMem m).mem = m := rfl
@[simp] theorem State.setMem_chain (s : State) (m : Memory) : (s.setMem m).chain = s.chain := rfl
@[simp] theorem State.setMem_sites (s : State) (m : Memory) : (s.setMem m).sites = s.sites := rfl
@[simp] theorem State.setMem_chans (s : State) (m : Memory) : (s.setMem m).chans = s.chans := rfl
@[simp] theorem State.setMem_waiting (s : State) (m : Memory) : (s.setMem m).waiting = s.waiting := rfl
@[simp] theorem State.setMem_keys (s : State) (m : Memory) : (s.setMem m).keys = s.keys := rfl
@[simp] theorem State.setMem_comp (s : State) (m : Memory) : (s.setMem m).comp = s.comp := rfl
@[simp] theorem State.setMem_dies (s : State) (m : Memory) : (s.setMem m).dies = s.dies := rfl
@[simp] theorem State.setMem_escrow (s : State) (m : Memory) : (s.setMem m).escrow = s.escrow := rfl
@[simp] theorem State.setMem_contact (s : State) (m : Memory) : (s.setMem m).contact = s.contact := rfl
@[simp] theorem State.setMem_tieOrder (s : State) (m : Memory) : (s.setMem m).tieOrder = s.tieOrder := rfl
@[simp] theorem State.setMem_freeCount (s : State) (m : Memory) : (s.setMem m).freeCount = s.freeCount := rfl
@[simp] theorem State.setMem_pending (s : State) (m : Memory) : (s.setMem m).pending = s.pending := rfl

/-! ### setChain -/

@[simp] theorem State.setChain_reg (s : State) (c : ChainUnit) : (s.setChain c).reg = s.reg := rfl
@[simp] theorem State.setChain_counters (s : State) (c : ChainUnit) : (s.setChain c).counters = s.counters := rfl
@[simp] theorem State.setChain_mem (s : State) (c : ChainUnit) : (s.setChain c).mem = s.mem := rfl
@[simp] theorem State.setChain_chain (s : State) (c : ChainUnit) : (s.setChain c).chain = c := rfl
@[simp] theorem State.setChain_sites (s : State) (c : ChainUnit) : (s.setChain c).sites = s.sites := rfl
@[simp] theorem State.setChain_chans (s : State) (c : ChainUnit) : (s.setChain c).chans = s.chans := rfl
@[simp] theorem State.setChain_waiting (s : State) (c : ChainUnit) : (s.setChain c).waiting = s.waiting := rfl
@[simp] theorem State.setChain_keys (s : State) (c : ChainUnit) : (s.setChain c).keys = s.keys := rfl
@[simp] theorem State.setChain_comp (s : State) (c : ChainUnit) : (s.setChain c).comp = s.comp := rfl
@[simp] theorem State.setChain_dies (s : State) (c : ChainUnit) : (s.setChain c).dies = s.dies := rfl
@[simp] theorem State.setChain_escrow (s : State) (c : ChainUnit) : (s.setChain c).escrow = s.escrow := rfl
@[simp] theorem State.setChain_contact (s : State) (c : ChainUnit) : (s.setChain c).contact = s.contact := rfl
@[simp] theorem State.setChain_tieOrder (s : State) (c : ChainUnit) : (s.setChain c).tieOrder = s.tieOrder := rfl
@[simp] theorem State.setChain_freeCount (s : State) (c : ChainUnit) : (s.setChain c).freeCount = s.freeCount := rfl
@[simp] theorem State.setChain_pending (s : State) (c : ChainUnit) : (s.setChain c).pending = s.pending := rfl

/-! ### setSites -/

@[simp] theorem State.setSites_reg (s : State) (v : Vector (Option SiteCtx) 24) : (s.setSites v).reg = s.reg := rfl
@[simp] theorem State.setSites_counters (s : State) (v : Vector (Option SiteCtx) 24) :
    (s.setSites v).counters = s.counters := rfl
@[simp] theorem State.setSites_mem (s : State) (v : Vector (Option SiteCtx) 24) : (s.setSites v).mem = s.mem := rfl
@[simp] theorem State.setSites_chain (s : State) (v : Vector (Option SiteCtx) 24) :
    (s.setSites v).chain = s.chain := rfl
@[simp] theorem State.setSites_sites (s : State) (v : Vector (Option SiteCtx) 24) : (s.setSites v).sites = v := rfl
@[simp] theorem State.setSites_chans (s : State) (v : Vector (Option SiteCtx) 24) :
    (s.setSites v).chans = s.chans := rfl
@[simp] theorem State.setSites_waiting (s : State) (v : Vector (Option SiteCtx) 24) :
    (s.setSites v).waiting = s.waiting := rfl
@[simp] theorem State.setSites_keys (s : State) (v : Vector (Option SiteCtx) 24) : (s.setSites v).keys = s.keys := rfl
@[simp] theorem State.setSites_comp (s : State) (v : Vector (Option SiteCtx) 24) : (s.setSites v).comp = s.comp := rfl
@[simp] theorem State.setSites_dies (s : State) (v : Vector (Option SiteCtx) 24) : (s.setSites v).dies = s.dies := rfl
@[simp] theorem State.setSites_escrow (s : State) (v : Vector (Option SiteCtx) 24) :
    (s.setSites v).escrow = s.escrow := rfl
@[simp] theorem State.setSites_contact (s : State) (v : Vector (Option SiteCtx) 24) :
    (s.setSites v).contact = s.contact := rfl
@[simp] theorem State.setSites_tieOrder (s : State) (v : Vector (Option SiteCtx) 24) :
    (s.setSites v).tieOrder = s.tieOrder := rfl
@[simp] theorem State.setSites_freeCount (s : State) (v : Vector (Option SiteCtx) 24) :
    (s.setSites v).freeCount = s.freeCount := rfl
@[simp] theorem State.setSites_pending (s : State) (v : Vector (Option SiteCtx) 24) :
    (s.setSites v).pending = s.pending := rfl

/-! ### setChans -/

@[simp] theorem State.setChans_reg (s : State) (v : Vector Channel 4) : (s.setChans v).reg = s.reg := rfl
@[simp] theorem State.setChans_counters (s : State) (v : Vector Channel 4) :
    (s.setChans v).counters = s.counters := rfl
@[simp] theorem State.setChans_mem (s : State) (v : Vector Channel 4) : (s.setChans v).mem = s.mem := rfl
@[simp] theorem State.setChans_chain (s : State) (v : Vector Channel 4) : (s.setChans v).chain = s.chain := rfl
@[simp] theorem State.setChans_sites (s : State) (v : Vector Channel 4) : (s.setChans v).sites = s.sites := rfl
@[simp] theorem State.setChans_chans (s : State) (v : Vector Channel 4) : (s.setChans v).chans = v := rfl
@[simp] theorem State.setChans_waiting (s : State) (v : Vector Channel 4) : (s.setChans v).waiting = s.waiting := rfl
@[simp] theorem State.setChans_keys (s : State) (v : Vector Channel 4) : (s.setChans v).keys = s.keys := rfl
@[simp] theorem State.setChans_comp (s : State) (v : Vector Channel 4) : (s.setChans v).comp = s.comp := rfl
@[simp] theorem State.setChans_dies (s : State) (v : Vector Channel 4) : (s.setChans v).dies = s.dies := rfl
@[simp] theorem State.setChans_escrow (s : State) (v : Vector Channel 4) : (s.setChans v).escrow = s.escrow := rfl
@[simp] theorem State.setChans_contact (s : State) (v : Vector Channel 4) : (s.setChans v).contact = s.contact := rfl
@[simp] theorem State.setChans_tieOrder (s : State) (v : Vector Channel 4) :
    (s.setChans v).tieOrder = s.tieOrder := rfl
@[simp] theorem State.setChans_freeCount (s : State) (v : Vector Channel 4) :
    (s.setChans v).freeCount = s.freeCount := rfl
@[simp] theorem State.setChans_pending (s : State) (v : Vector Channel 4) : (s.setChans v).pending = s.pending := rfl

/-! ### setWaiting -/

@[simp] theorem State.setWaiting_reg (s : State) (w : List GrantRequest) : (s.setWaiting w).reg = s.reg := rfl
@[simp] theorem State.setWaiting_counters (s : State) (w : List GrantRequest) :
    (s.setWaiting w).counters = s.counters := rfl
@[simp] theorem State.setWaiting_mem (s : State) (w : List GrantRequest) : (s.setWaiting w).mem = s.mem := rfl
@[simp] theorem State.setWaiting_chain (s : State) (w : List GrantRequest) : (s.setWaiting w).chain = s.chain := rfl
@[simp] theorem State.setWaiting_sites (s : State) (w : List GrantRequest) : (s.setWaiting w).sites = s.sites := rfl
@[simp] theorem State.setWaiting_chans (s : State) (w : List GrantRequest) : (s.setWaiting w).chans = s.chans := rfl
@[simp] theorem State.setWaiting_waiting (s : State) (w : List GrantRequest) : (s.setWaiting w).waiting = w := rfl
@[simp] theorem State.setWaiting_keys (s : State) (w : List GrantRequest) : (s.setWaiting w).keys = s.keys := rfl
@[simp] theorem State.setWaiting_comp (s : State) (w : List GrantRequest) : (s.setWaiting w).comp = s.comp := rfl
@[simp] theorem State.setWaiting_dies (s : State) (w : List GrantRequest) : (s.setWaiting w).dies = s.dies := rfl
@[simp] theorem State.setWaiting_escrow (s : State) (w : List GrantRequest) :
    (s.setWaiting w).escrow = s.escrow := rfl
@[simp] theorem State.setWaiting_contact (s : State) (w : List GrantRequest) :
    (s.setWaiting w).contact = s.contact := rfl
@[simp] theorem State.setWaiting_tieOrder (s : State) (w : List GrantRequest) :
    (s.setWaiting w).tieOrder = s.tieOrder := rfl
@[simp] theorem State.setWaiting_freeCount (s : State) (w : List GrantRequest) :
    (s.setWaiting w).freeCount = s.freeCount := rfl
@[simp] theorem State.setWaiting_pending (s : State) (w : List GrantRequest) :
    (s.setWaiting w).pending = s.pending := rfl

/-! ### setKeys -/

@[simp] theorem State.setKeys_reg (s : State) (k : KeyUnit) : (s.setKeys k).reg = s.reg := rfl
@[simp] theorem State.setKeys_counters (s : State) (k : KeyUnit) : (s.setKeys k).counters = s.counters := rfl
@[simp] theorem State.setKeys_mem (s : State) (k : KeyUnit) : (s.setKeys k).mem = s.mem := rfl
@[simp] theorem State.setKeys_chain (s : State) (k : KeyUnit) : (s.setKeys k).chain = s.chain := rfl
@[simp] theorem State.setKeys_sites (s : State) (k : KeyUnit) : (s.setKeys k).sites = s.sites := rfl
@[simp] theorem State.setKeys_chans (s : State) (k : KeyUnit) : (s.setKeys k).chans = s.chans := rfl
@[simp] theorem State.setKeys_waiting (s : State) (k : KeyUnit) : (s.setKeys k).waiting = s.waiting := rfl
@[simp] theorem State.setKeys_keys (s : State) (k : KeyUnit) : (s.setKeys k).keys = k := rfl
@[simp] theorem State.setKeys_comp (s : State) (k : KeyUnit) : (s.setKeys k).comp = s.comp := rfl
@[simp] theorem State.setKeys_dies (s : State) (k : KeyUnit) : (s.setKeys k).dies = s.dies := rfl
@[simp] theorem State.setKeys_escrow (s : State) (k : KeyUnit) : (s.setKeys k).escrow = s.escrow := rfl
@[simp] theorem State.setKeys_contact (s : State) (k : KeyUnit) : (s.setKeys k).contact = s.contact := rfl
@[simp] theorem State.setKeys_tieOrder (s : State) (k : KeyUnit) : (s.setKeys k).tieOrder = s.tieOrder := rfl
@[simp] theorem State.setKeys_freeCount (s : State) (k : KeyUnit) : (s.setKeys k).freeCount = s.freeCount := rfl
@[simp] theorem State.setKeys_pending (s : State) (k : KeyUnit) : (s.setKeys k).pending = s.pending := rfl

/-! ### setComp -/

@[simp] theorem State.setComp_reg (s : State) (q : List CompRequest) : (s.setComp q).reg = s.reg := rfl
@[simp] theorem State.setComp_counters (s : State) (q : List CompRequest) : (s.setComp q).counters = s.counters := rfl
@[simp] theorem State.setComp_mem (s : State) (q : List CompRequest) : (s.setComp q).mem = s.mem := rfl
@[simp] theorem State.setComp_chain (s : State) (q : List CompRequest) : (s.setComp q).chain = s.chain := rfl
@[simp] theorem State.setComp_sites (s : State) (q : List CompRequest) : (s.setComp q).sites = s.sites := rfl
@[simp] theorem State.setComp_chans (s : State) (q : List CompRequest) : (s.setComp q).chans = s.chans := rfl
@[simp] theorem State.setComp_waiting (s : State) (q : List CompRequest) : (s.setComp q).waiting = s.waiting := rfl
@[simp] theorem State.setComp_keys (s : State) (q : List CompRequest) : (s.setComp q).keys = s.keys := rfl
@[simp] theorem State.setComp_comp (s : State) (q : List CompRequest) : (s.setComp q).comp = q := rfl
@[simp] theorem State.setComp_dies (s : State) (q : List CompRequest) : (s.setComp q).dies = s.dies := rfl
@[simp] theorem State.setComp_escrow (s : State) (q : List CompRequest) : (s.setComp q).escrow = s.escrow := rfl
@[simp] theorem State.setComp_contact (s : State) (q : List CompRequest) : (s.setComp q).contact = s.contact := rfl
@[simp] theorem State.setComp_tieOrder (s : State) (q : List CompRequest) : (s.setComp q).tieOrder = s.tieOrder := rfl
@[simp] theorem State.setComp_freeCount (s : State) (q : List CompRequest) :
    (s.setComp q).freeCount = s.freeCount := rfl
@[simp] theorem State.setComp_pending (s : State) (q : List CompRequest) : (s.setComp q).pending = s.pending := rfl

/-! ### setDies -/

@[simp] theorem State.setDies_reg (s : State) (d : DieTableUnit) : (s.setDies d).reg = s.reg := rfl
@[simp] theorem State.setDies_counters (s : State) (d : DieTableUnit) : (s.setDies d).counters = s.counters := rfl
@[simp] theorem State.setDies_mem (s : State) (d : DieTableUnit) : (s.setDies d).mem = s.mem := rfl
@[simp] theorem State.setDies_chain (s : State) (d : DieTableUnit) : (s.setDies d).chain = s.chain := rfl
@[simp] theorem State.setDies_sites (s : State) (d : DieTableUnit) : (s.setDies d).sites = s.sites := rfl
@[simp] theorem State.setDies_chans (s : State) (d : DieTableUnit) : (s.setDies d).chans = s.chans := rfl
@[simp] theorem State.setDies_waiting (s : State) (d : DieTableUnit) : (s.setDies d).waiting = s.waiting := rfl
@[simp] theorem State.setDies_keys (s : State) (d : DieTableUnit) : (s.setDies d).keys = s.keys := rfl
@[simp] theorem State.setDies_comp (s : State) (d : DieTableUnit) : (s.setDies d).comp = s.comp := rfl
@[simp] theorem State.setDies_dies (s : State) (d : DieTableUnit) : (s.setDies d).dies = d := rfl
@[simp] theorem State.setDies_escrow (s : State) (d : DieTableUnit) : (s.setDies d).escrow = s.escrow := rfl
@[simp] theorem State.setDies_contact (s : State) (d : DieTableUnit) : (s.setDies d).contact = s.contact := rfl
@[simp] theorem State.setDies_tieOrder (s : State) (d : DieTableUnit) : (s.setDies d).tieOrder = s.tieOrder := rfl
@[simp] theorem State.setDies_freeCount (s : State) (d : DieTableUnit) : (s.setDies d).freeCount = s.freeCount := rfl
@[simp] theorem State.setDies_pending (s : State) (d : DieTableUnit) : (s.setDies d).pending = s.pending := rfl

/-! ### setEscrow -/

@[simp] theorem State.setEscrow_reg (s : State) (e : EscrowWriter) : (s.setEscrow e).reg = s.reg := rfl
@[simp] theorem State.setEscrow_counters (s : State) (e : EscrowWriter) : (s.setEscrow e).counters = s.counters := rfl
@[simp] theorem State.setEscrow_mem (s : State) (e : EscrowWriter) : (s.setEscrow e).mem = s.mem := rfl
@[simp] theorem State.setEscrow_chain (s : State) (e : EscrowWriter) : (s.setEscrow e).chain = s.chain := rfl
@[simp] theorem State.setEscrow_sites (s : State) (e : EscrowWriter) : (s.setEscrow e).sites = s.sites := rfl
@[simp] theorem State.setEscrow_chans (s : State) (e : EscrowWriter) : (s.setEscrow e).chans = s.chans := rfl
@[simp] theorem State.setEscrow_waiting (s : State) (e : EscrowWriter) : (s.setEscrow e).waiting = s.waiting := rfl
@[simp] theorem State.setEscrow_keys (s : State) (e : EscrowWriter) : (s.setEscrow e).keys = s.keys := rfl
@[simp] theorem State.setEscrow_comp (s : State) (e : EscrowWriter) : (s.setEscrow e).comp = s.comp := rfl
@[simp] theorem State.setEscrow_dies (s : State) (e : EscrowWriter) : (s.setEscrow e).dies = s.dies := rfl
@[simp] theorem State.setEscrow_escrow (s : State) (e : EscrowWriter) : (s.setEscrow e).escrow = e := rfl
@[simp] theorem State.setEscrow_contact (s : State) (e : EscrowWriter) : (s.setEscrow e).contact = s.contact := rfl
@[simp] theorem State.setEscrow_tieOrder (s : State) (e : EscrowWriter) : (s.setEscrow e).tieOrder = s.tieOrder := rfl
@[simp] theorem State.setEscrow_freeCount (s : State) (e : EscrowWriter) :
    (s.setEscrow e).freeCount = s.freeCount := rfl
@[simp] theorem State.setEscrow_pending (s : State) (e : EscrowWriter) : (s.setEscrow e).pending = s.pending := rfl

/-! ### setContact -/

@[simp] theorem State.setContact_reg (s : State) (b : Bool) : (s.setContact b).reg = s.reg := rfl
@[simp] theorem State.setContact_counters (s : State) (b : Bool) : (s.setContact b).counters = s.counters := rfl
@[simp] theorem State.setContact_mem (s : State) (b : Bool) : (s.setContact b).mem = s.mem := rfl
@[simp] theorem State.setContact_chain (s : State) (b : Bool) : (s.setContact b).chain = s.chain := rfl
@[simp] theorem State.setContact_sites (s : State) (b : Bool) : (s.setContact b).sites = s.sites := rfl
@[simp] theorem State.setContact_chans (s : State) (b : Bool) : (s.setContact b).chans = s.chans := rfl
@[simp] theorem State.setContact_waiting (s : State) (b : Bool) : (s.setContact b).waiting = s.waiting := rfl
@[simp] theorem State.setContact_keys (s : State) (b : Bool) : (s.setContact b).keys = s.keys := rfl
@[simp] theorem State.setContact_comp (s : State) (b : Bool) : (s.setContact b).comp = s.comp := rfl
@[simp] theorem State.setContact_dies (s : State) (b : Bool) : (s.setContact b).dies = s.dies := rfl
@[simp] theorem State.setContact_escrow (s : State) (b : Bool) : (s.setContact b).escrow = s.escrow := rfl
@[simp] theorem State.setContact_contact (s : State) (b : Bool) : (s.setContact b).contact = b := rfl
@[simp] theorem State.setContact_tieOrder (s : State) (b : Bool) : (s.setContact b).tieOrder = s.tieOrder := rfl
@[simp] theorem State.setContact_freeCount (s : State) (b : Bool) : (s.setContact b).freeCount = s.freeCount := rfl
@[simp] theorem State.setContact_pending (s : State) (b : Bool) : (s.setContact b).pending = s.pending := rfl

/-! ### setPending -/

@[simp] theorem State.setPending_reg (s : State) (q : List Instr) : (s.setPending q).reg = s.reg := rfl
@[simp] theorem State.setPending_counters (s : State) (q : List Instr) : (s.setPending q).counters = s.counters := rfl
@[simp] theorem State.setPending_mem (s : State) (q : List Instr) : (s.setPending q).mem = s.mem := rfl
@[simp] theorem State.setPending_chain (s : State) (q : List Instr) : (s.setPending q).chain = s.chain := rfl
@[simp] theorem State.setPending_sites (s : State) (q : List Instr) : (s.setPending q).sites = s.sites := rfl
@[simp] theorem State.setPending_chans (s : State) (q : List Instr) : (s.setPending q).chans = s.chans := rfl
@[simp] theorem State.setPending_waiting (s : State) (q : List Instr) : (s.setPending q).waiting = s.waiting := rfl
@[simp] theorem State.setPending_keys (s : State) (q : List Instr) : (s.setPending q).keys = s.keys := rfl
@[simp] theorem State.setPending_comp (s : State) (q : List Instr) : (s.setPending q).comp = s.comp := rfl
@[simp] theorem State.setPending_dies (s : State) (q : List Instr) : (s.setPending q).dies = s.dies := rfl
@[simp] theorem State.setPending_escrow (s : State) (q : List Instr) : (s.setPending q).escrow = s.escrow := rfl
@[simp] theorem State.setPending_contact (s : State) (q : List Instr) : (s.setPending q).contact = s.contact := rfl
@[simp] theorem State.setPending_tieOrder (s : State) (q : List Instr) : (s.setPending q).tieOrder = s.tieOrder := rfl
@[simp] theorem State.setPending_freeCount (s : State) (q : List Instr) :
    (s.setPending q).freeCount = s.freeCount := rfl
@[simp] theorem State.setPending_pending (s : State) (q : List Instr) : (s.setPending q).pending = q := rfl

/-! ### store -/

@[simp] theorem State.store_reg (s : State) (a : Nat) (bs : List Byte) : (s.store a bs).reg = s.reg := rfl
@[simp] theorem State.store_counters (s : State) (a : Nat) (bs : List Byte) :
    (s.store a bs).counters = s.counters := rfl
@[simp] theorem State.store_mem (s : State) (a : Nat) (bs : List Byte) :
    (s.store a bs).mem = s.mem.writeBytes a bs := rfl
@[simp] theorem State.store_chain (s : State) (a : Nat) (bs : List Byte) : (s.store a bs).chain = s.chain := rfl
@[simp] theorem State.store_sites (s : State) (a : Nat) (bs : List Byte) : (s.store a bs).sites = s.sites := rfl
@[simp] theorem State.store_chans (s : State) (a : Nat) (bs : List Byte) : (s.store a bs).chans = s.chans := rfl
@[simp] theorem State.store_waiting (s : State) (a : Nat) (bs : List Byte) : (s.store a bs).waiting = s.waiting := rfl
@[simp] theorem State.store_keys (s : State) (a : Nat) (bs : List Byte) : (s.store a bs).keys = s.keys := rfl
@[simp] theorem State.store_comp (s : State) (a : Nat) (bs : List Byte) : (s.store a bs).comp = s.comp := rfl
@[simp] theorem State.store_dies (s : State) (a : Nat) (bs : List Byte) : (s.store a bs).dies = s.dies := rfl
@[simp] theorem State.store_escrow (s : State) (a : Nat) (bs : List Byte) : (s.store a bs).escrow = s.escrow := rfl
@[simp] theorem State.store_contact (s : State) (a : Nat) (bs : List Byte) : (s.store a bs).contact = s.contact := rfl
@[simp] theorem State.store_tieOrder (s : State) (a : Nat) (bs : List Byte) :
    (s.store a bs).tieOrder = s.tieOrder := rfl
@[simp] theorem State.store_freeCount (s : State) (a : Nat) (bs : List Byte) :
    (s.store a bs).freeCount = s.freeCount := rfl
@[simp] theorem State.store_pending (s : State) (a : Nat) (bs : List Byte) : (s.store a bs).pending = s.pending := rfl

/-! ### storeField -/

@[simp] theorem State.storeField_reg (s : State) (a n v : Nat) : (s.storeField a n v).reg = s.reg := rfl
@[simp] theorem State.storeField_counters (s : State) (a n v : Nat) :
    (s.storeField a n v).counters = s.counters := rfl
@[simp] theorem State.storeField_mem (s : State) (a n v : Nat) :
    (s.storeField a n v).mem = s.mem.writeField a n v := rfl
@[simp] theorem State.storeField_chain (s : State) (a n v : Nat) : (s.storeField a n v).chain = s.chain := rfl
@[simp] theorem State.storeField_sites (s : State) (a n v : Nat) : (s.storeField a n v).sites = s.sites := rfl
@[simp] theorem State.storeField_chans (s : State) (a n v : Nat) : (s.storeField a n v).chans = s.chans := rfl
@[simp] theorem State.storeField_waiting (s : State) (a n v : Nat) : (s.storeField a n v).waiting = s.waiting := rfl
@[simp] theorem State.storeField_keys (s : State) (a n v : Nat) : (s.storeField a n v).keys = s.keys := rfl
@[simp] theorem State.storeField_comp (s : State) (a n v : Nat) : (s.storeField a n v).comp = s.comp := rfl
@[simp] theorem State.storeField_dies (s : State) (a n v : Nat) : (s.storeField a n v).dies = s.dies := rfl
@[simp] theorem State.storeField_escrow (s : State) (a n v : Nat) : (s.storeField a n v).escrow = s.escrow := rfl
@[simp] theorem State.storeField_contact (s : State) (a n v : Nat) : (s.storeField a n v).contact = s.contact := rfl
@[simp] theorem State.storeField_tieOrder (s : State) (a n v : Nat) :
    (s.storeField a n v).tieOrder = s.tieOrder := rfl
@[simp] theorem State.storeField_freeCount (s : State) (a n v : Nat) :
    (s.storeField a n v).freeCount = s.freeCount := rfl
@[simp] theorem State.storeField_pending (s : State) (a n v : Nat) : (s.storeField a n v).pending = s.pending := rfl

/-! ### setSite -/

@[simp] theorem State.setSite_reg (s : State) (n : Site) (c : SiteCtx) : (s.setSite n c).reg = s.reg := rfl
@[simp] theorem State.setSite_counters (s : State) (n : Site) (c : SiteCtx) :
    (s.setSite n c).counters = s.counters := rfl
@[simp] theorem State.setSite_mem (s : State) (n : Site) (c : SiteCtx) : (s.setSite n c).mem = s.mem := rfl
@[simp] theorem State.setSite_chain (s : State) (n : Site) (c : SiteCtx) : (s.setSite n c).chain = s.chain := rfl
@[simp] theorem State.setSite_sites (s : State) (n : Site) (c : SiteCtx) :
    (s.setSite n c).sites = s.sites.set n (some c) := rfl
@[simp] theorem State.setSite_chans (s : State) (n : Site) (c : SiteCtx) : (s.setSite n c).chans = s.chans := rfl
@[simp] theorem State.setSite_waiting (s : State) (n : Site) (c : SiteCtx) :
    (s.setSite n c).waiting = s.waiting := rfl
@[simp] theorem State.setSite_keys (s : State) (n : Site) (c : SiteCtx) : (s.setSite n c).keys = s.keys := rfl
@[simp] theorem State.setSite_comp (s : State) (n : Site) (c : SiteCtx) : (s.setSite n c).comp = s.comp := rfl
@[simp] theorem State.setSite_dies (s : State) (n : Site) (c : SiteCtx) : (s.setSite n c).dies = s.dies := rfl
@[simp] theorem State.setSite_escrow (s : State) (n : Site) (c : SiteCtx) : (s.setSite n c).escrow = s.escrow := rfl
@[simp] theorem State.setSite_contact (s : State) (n : Site) (c : SiteCtx) :
    (s.setSite n c).contact = s.contact := rfl
@[simp] theorem State.setSite_tieOrder (s : State) (n : Site) (c : SiteCtx) :
    (s.setSite n c).tieOrder = s.tieOrder := rfl
@[simp] theorem State.setSite_freeCount (s : State) (n : Site) (c : SiteCtx) :
    (s.setSite n c).freeCount = s.freeCount := rfl
@[simp] theorem State.setSite_pending (s : State) (n : Site) (c : SiteCtx) :
    (s.setSite n c).pending = s.pending := rfl

/-! ### setChan -/

@[simp] theorem State.setChan_reg (s : State) (c : Chan) (ch : Channel) : (s.setChan c ch).reg = s.reg := rfl
@[simp] theorem State.setChan_counters (s : State) (c : Chan) (ch : Channel) :
    (s.setChan c ch).counters = s.counters := rfl
@[simp] theorem State.setChan_mem (s : State) (c : Chan) (ch : Channel) : (s.setChan c ch).mem = s.mem := rfl
@[simp] theorem State.setChan_chain (s : State) (c : Chan) (ch : Channel) : (s.setChan c ch).chain = s.chain := rfl
@[simp] theorem State.setChan_sites (s : State) (c : Chan) (ch : Channel) : (s.setChan c ch).sites = s.sites := rfl
@[simp] theorem State.setChan_chans (s : State) (c : Chan) (ch : Channel) :
    (s.setChan c ch).chans = s.chans.set c ch := rfl
@[simp] theorem State.setChan_waiting (s : State) (c : Chan) (ch : Channel) :
    (s.setChan c ch).waiting = s.waiting := rfl
@[simp] theorem State.setChan_keys (s : State) (c : Chan) (ch : Channel) : (s.setChan c ch).keys = s.keys := rfl
@[simp] theorem State.setChan_comp (s : State) (c : Chan) (ch : Channel) : (s.setChan c ch).comp = s.comp := rfl
@[simp] theorem State.setChan_dies (s : State) (c : Chan) (ch : Channel) : (s.setChan c ch).dies = s.dies := rfl
@[simp] theorem State.setChan_escrow (s : State) (c : Chan) (ch : Channel) : (s.setChan c ch).escrow = s.escrow := rfl
@[simp] theorem State.setChan_contact (s : State) (c : Chan) (ch : Channel) :
    (s.setChan c ch).contact = s.contact := rfl
@[simp] theorem State.setChan_tieOrder (s : State) (c : Chan) (ch : Channel) :
    (s.setChan c ch).tieOrder = s.tieOrder := rfl
@[simp] theorem State.setChan_freeCount (s : State) (c : Chan) (ch : Channel) :
    (s.setChan c ch).freeCount = s.freeCount := rfl
@[simp] theorem State.setChan_pending (s : State) (c : Chan) (ch : Channel) :
    (s.setChan c ch).pending = s.pending := rfl

/-! ### bump -/

@[simp] theorem State.bump_reg (s : State) (c : Counter) : (s.bump c).reg = s.reg := rfl
@[simp] theorem State.bump_counters (s : State) (c : Counter) :
    (s.bump c).counters = s.counters.set c.index (satInc (s.counter c)) := rfl
@[simp] theorem State.bump_mem (s : State) (c : Counter) : (s.bump c).mem = s.mem := rfl
@[simp] theorem State.bump_chain (s : State) (c : Counter) : (s.bump c).chain = s.chain := rfl
@[simp] theorem State.bump_sites (s : State) (c : Counter) : (s.bump c).sites = s.sites := rfl
@[simp] theorem State.bump_chans (s : State) (c : Counter) : (s.bump c).chans = s.chans := rfl
@[simp] theorem State.bump_waiting (s : State) (c : Counter) : (s.bump c).waiting = s.waiting := rfl
@[simp] theorem State.bump_keys (s : State) (c : Counter) : (s.bump c).keys = s.keys := rfl
@[simp] theorem State.bump_comp (s : State) (c : Counter) : (s.bump c).comp = s.comp := rfl
@[simp] theorem State.bump_dies (s : State) (c : Counter) : (s.bump c).dies = s.dies := rfl
@[simp] theorem State.bump_escrow (s : State) (c : Counter) : (s.bump c).escrow = s.escrow := rfl
@[simp] theorem State.bump_contact (s : State) (c : Counter) : (s.bump c).contact = s.contact := rfl
@[simp] theorem State.bump_tieOrder (s : State) (c : Counter) : (s.bump c).tieOrder = s.tieOrder := rfl
@[simp] theorem State.bump_freeCount (s : State) (c : Counter) : (s.bump c).freeCount = s.freeCount := rfl
@[simp] theorem State.bump_pending (s : State) (c : Counter) : (s.bump c).pending = s.pending := rfl

/-! ### clearCounters -/

@[simp] theorem State.clearCounters_reg (s : State) : (s.clearCounters).reg = s.reg := rfl
@[simp] theorem State.clearCounters_counters (s : State) : (s.clearCounters).counters = Vector.replicate 16 0 := rfl
@[simp] theorem State.clearCounters_mem (s : State) : (s.clearCounters).mem = s.mem := rfl
@[simp] theorem State.clearCounters_chain (s : State) : (s.clearCounters).chain = s.chain := rfl
@[simp] theorem State.clearCounters_sites (s : State) : (s.clearCounters).sites = s.sites := rfl
@[simp] theorem State.clearCounters_chans (s : State) : (s.clearCounters).chans = s.chans := rfl
@[simp] theorem State.clearCounters_waiting (s : State) : (s.clearCounters).waiting = s.waiting := rfl
@[simp] theorem State.clearCounters_keys (s : State) : (s.clearCounters).keys = s.keys := rfl
@[simp] theorem State.clearCounters_comp (s : State) : (s.clearCounters).comp = s.comp := rfl
@[simp] theorem State.clearCounters_dies (s : State) : (s.clearCounters).dies = s.dies := rfl
@[simp] theorem State.clearCounters_escrow (s : State) : (s.clearCounters).escrow = s.escrow := rfl
@[simp] theorem State.clearCounters_contact (s : State) : (s.clearCounters).contact = s.contact := rfl
@[simp] theorem State.clearCounters_tieOrder (s : State) : (s.clearCounters).tieOrder = s.tieOrder := rfl
@[simp] theorem State.clearCounters_freeCount (s : State) : (s.clearCounters).freeCount = s.freeCount := rfl
@[simp] theorem State.clearCounters_pending (s : State) : (s.clearCounters).pending = s.pending := rfl

/-! ### raise -/

@[simp] theorem State.raise_reg (s : State) (e : Event) : (s.raise e).reg = s.reg.setEvent e := rfl
@[simp] theorem State.raise_counters (s : State) (e : Event) : (s.raise e).counters = s.counters := rfl
@[simp] theorem State.raise_mem (s : State) (e : Event) : (s.raise e).mem = s.mem := rfl
@[simp] theorem State.raise_chain (s : State) (e : Event) : (s.raise e).chain = s.chain := rfl
@[simp] theorem State.raise_sites (s : State) (e : Event) : (s.raise e).sites = s.sites := rfl
@[simp] theorem State.raise_chans (s : State) (e : Event) : (s.raise e).chans = s.chans := rfl
@[simp] theorem State.raise_waiting (s : State) (e : Event) : (s.raise e).waiting = s.waiting := rfl
@[simp] theorem State.raise_keys (s : State) (e : Event) : (s.raise e).keys = s.keys := rfl
@[simp] theorem State.raise_comp (s : State) (e : Event) : (s.raise e).comp = s.comp := rfl
@[simp] theorem State.raise_dies (s : State) (e : Event) : (s.raise e).dies = s.dies := rfl
@[simp] theorem State.raise_escrow (s : State) (e : Event) : (s.raise e).escrow = s.escrow := rfl
@[simp] theorem State.raise_contact (s : State) (e : Event) : (s.raise e).contact = s.contact := rfl
@[simp] theorem State.raise_tieOrder (s : State) (e : Event) : (s.raise e).tieOrder = s.tieOrder := rfl
@[simp] theorem State.raise_freeCount (s : State) (e : Event) : (s.raise e).freeCount = s.freeCount := rfl
@[simp] theorem State.raise_pending (s : State) (e : Event) : (s.raise e).pending = s.pending := rfl

/-! ### freshOrder -/

@[simp] theorem State.freshOrder_reg (s : State) : (s.freshOrder).reg = s.reg := rfl
@[simp] theorem State.freshOrder_counters (s : State) : (s.freshOrder).counters = s.counters := rfl
@[simp] theorem State.freshOrder_mem (s : State) : (s.freshOrder).mem = s.mem := rfl
@[simp] theorem State.freshOrder_chain (s : State) : (s.freshOrder).chain = s.chain := rfl
@[simp] theorem State.freshOrder_sites (s : State) : (s.freshOrder).sites = s.sites := rfl
@[simp] theorem State.freshOrder_chans (s : State) : (s.freshOrder).chans = s.chans := rfl
@[simp] theorem State.freshOrder_waiting (s : State) : (s.freshOrder).waiting = s.waiting := rfl
@[simp] theorem State.freshOrder_keys (s : State) : (s.freshOrder).keys = s.keys := rfl
@[simp] theorem State.freshOrder_comp (s : State) : (s.freshOrder).comp = s.comp := rfl
@[simp] theorem State.freshOrder_dies (s : State) : (s.freshOrder).dies = s.dies := rfl
@[simp] theorem State.freshOrder_escrow (s : State) : (s.freshOrder).escrow = s.escrow := rfl
@[simp] theorem State.freshOrder_contact (s : State) : (s.freshOrder).contact = s.contact := rfl
@[simp] theorem State.freshOrder_tieOrder (s : State) :
    (s.freshOrder).tieOrder = Config.arrivalOrder s.freeCount := rfl
@[simp] theorem State.freshOrder_freeCount (s : State) : (s.freshOrder).freeCount = s.freeCount + 1 := rfl
@[simp] theorem State.freshOrder_pending (s : State) : (s.freshOrder).pending = s.pending := rfl

/-! ### setWriter -/

@[simp] theorem State.setWriter_reg (s : State) (w : WriterState) : (s.setWriter w).reg = s.reg := rfl
@[simp] theorem State.setWriter_counters (s : State) (w : WriterState) : (s.setWriter w).counters = s.counters := rfl
@[simp] theorem State.setWriter_mem (s : State) (w : WriterState) : (s.setWriter w).mem = s.mem := rfl
@[simp] theorem State.setWriter_chain (s : State) (w : WriterState) : (s.setWriter w).chain = s.chain := rfl
@[simp] theorem State.setWriter_sites (s : State) (w : WriterState) : (s.setWriter w).sites = s.sites := rfl
@[simp] theorem State.setWriter_chans (s : State) (w : WriterState) : (s.setWriter w).chans = s.chans := rfl
@[simp] theorem State.setWriter_waiting (s : State) (w : WriterState) : (s.setWriter w).waiting = s.waiting := rfl
@[simp] theorem State.setWriter_keys (s : State) (w : WriterState) : (s.setWriter w).keys = s.keys := rfl
@[simp] theorem State.setWriter_comp (s : State) (w : WriterState) : (s.setWriter w).comp = s.comp := rfl
@[simp] theorem State.setWriter_dies (s : State) (w : WriterState) : (s.setWriter w).dies = s.dies := rfl
@[simp] theorem State.setWriter_escrow (s : State) (w : WriterState) :
    (s.setWriter w).escrow = { s.escrow with writer := w } := rfl
@[simp] theorem State.setWriter_contact (s : State) (w : WriterState) : (s.setWriter w).contact = s.contact := rfl
@[simp] theorem State.setWriter_tieOrder (s : State) (w : WriterState) : (s.setWriter w).tieOrder = s.tieOrder := rfl
@[simp] theorem State.setWriter_freeCount (s : State) (w : WriterState) :
    (s.setWriter w).freeCount = s.freeCount := rfl
@[simp] theorem State.setWriter_pending (s : State) (w : WriterState) : (s.setWriter w).pending = s.pending := rfl

/-! ### queueRecord -/

@[simp] theorem State.queueRecord_reg (s : State) (r : EscrowRecord) (p : ReportTo) :
    (s.queueRecord r p).reg = s.reg := rfl
@[simp] theorem State.queueRecord_counters (s : State) (r : EscrowRecord) (p : ReportTo) :
    (s.queueRecord r p).counters = s.counters := rfl
@[simp] theorem State.queueRecord_mem (s : State) (r : EscrowRecord) (p : ReportTo) :
    (s.queueRecord r p).mem = s.mem := rfl
@[simp] theorem State.queueRecord_chain (s : State) (r : EscrowRecord) (p : ReportTo) :
    (s.queueRecord r p).chain = s.chain := rfl
@[simp] theorem State.queueRecord_sites (s : State) (r : EscrowRecord) (p : ReportTo) :
    (s.queueRecord r p).sites = s.sites := rfl
@[simp] theorem State.queueRecord_chans (s : State) (r : EscrowRecord) (p : ReportTo) :
    (s.queueRecord r p).chans = s.chans := rfl
@[simp] theorem State.queueRecord_waiting (s : State) (r : EscrowRecord) (p : ReportTo) :
    (s.queueRecord r p).waiting = s.waiting := rfl
@[simp] theorem State.queueRecord_keys (s : State) (r : EscrowRecord) (p : ReportTo) :
    (s.queueRecord r p).keys = s.keys := rfl
@[simp] theorem State.queueRecord_comp (s : State) (r : EscrowRecord) (p : ReportTo) :
    (s.queueRecord r p).comp = s.comp := rfl
@[simp] theorem State.queueRecord_dies (s : State) (r : EscrowRecord) (p : ReportTo) :
    (s.queueRecord r p).dies = s.dies := rfl
@[simp] theorem State.queueRecord_escrow (s : State) (r : EscrowRecord) (p : ReportTo) :
    (s.queueRecord r p).escrow = { s.escrow with queue := s.escrow.queue ++ [{ record := r, report := p }] } := rfl
@[simp] theorem State.queueRecord_contact (s : State) (r : EscrowRecord) (p : ReportTo) :
    (s.queueRecord r p).contact = s.contact := rfl
@[simp] theorem State.queueRecord_tieOrder (s : State) (r : EscrowRecord) (p : ReportTo) :
    (s.queueRecord r p).tieOrder = s.tieOrder := rfl
@[simp] theorem State.queueRecord_freeCount (s : State) (r : EscrowRecord) (p : ReportTo) :
    (s.queueRecord r p).freeCount = s.freeCount := rfl
@[simp] theorem State.queueRecord_pending (s : State) (r : EscrowRecord) (p : ReportTo) :
    (s.queueRecord r p).pending = s.pending := rfl

/-! ### queueTable -/

@[simp] theorem State.queueTable_reg (s : State) (r : TableRequest) : (s.queueTable r).reg = s.reg := rfl
@[simp] theorem State.queueTable_counters (s : State) (r : TableRequest) :
    (s.queueTable r).counters = s.counters := rfl
@[simp] theorem State.queueTable_mem (s : State) (r : TableRequest) : (s.queueTable r).mem = s.mem := rfl
@[simp] theorem State.queueTable_chain (s : State) (r : TableRequest) : (s.queueTable r).chain = s.chain := rfl
@[simp] theorem State.queueTable_sites (s : State) (r : TableRequest) : (s.queueTable r).sites = s.sites := rfl
@[simp] theorem State.queueTable_chans (s : State) (r : TableRequest) : (s.queueTable r).chans = s.chans := rfl
@[simp] theorem State.queueTable_waiting (s : State) (r : TableRequest) : (s.queueTable r).waiting = s.waiting := rfl
@[simp] theorem State.queueTable_keys (s : State) (r : TableRequest) : (s.queueTable r).keys = s.keys := rfl
@[simp] theorem State.queueTable_comp (s : State) (r : TableRequest) : (s.queueTable r).comp = s.comp := rfl
@[simp] theorem State.queueTable_dies (s : State) (r : TableRequest) :
    (s.queueTable r).dies = { s.dies with queue := s.dies.queue ++ [r] } := rfl
@[simp] theorem State.queueTable_escrow (s : State) (r : TableRequest) : (s.queueTable r).escrow = s.escrow := rfl
@[simp] theorem State.queueTable_contact (s : State) (r : TableRequest) : (s.queueTable r).contact = s.contact := rfl
@[simp] theorem State.queueTable_tieOrder (s : State) (r : TableRequest) :
    (s.queueTable r).tieOrder = s.tieOrder := rfl
@[simp] theorem State.queueTable_freeCount (s : State) (r : TableRequest) :
    (s.queueTable r).freeCount = s.freeCount := rfl
@[simp] theorem State.queueTable_pending (s : State) (r : TableRequest) : (s.queueTable r).pending = s.pending := rfl

/-! ### popTable -/

@[simp] theorem State.popTable_reg (s : State) : (s.popTable).reg = s.reg := rfl
@[simp] theorem State.popTable_counters (s : State) : (s.popTable).counters = s.counters := rfl
@[simp] theorem State.popTable_mem (s : State) : (s.popTable).mem = s.mem := rfl
@[simp] theorem State.popTable_chain (s : State) : (s.popTable).chain = s.chain := rfl
@[simp] theorem State.popTable_sites (s : State) : (s.popTable).sites = s.sites := rfl
@[simp] theorem State.popTable_chans (s : State) : (s.popTable).chans = s.chans := rfl
@[simp] theorem State.popTable_waiting (s : State) : (s.popTable).waiting = s.waiting := rfl
@[simp] theorem State.popTable_keys (s : State) : (s.popTable).keys = s.keys := rfl
@[simp] theorem State.popTable_comp (s : State) : (s.popTable).comp = s.comp := rfl
@[simp] theorem State.popTable_dies (s : State) : (s.popTable).dies = s.dies.pop := rfl
@[simp] theorem State.popTable_escrow (s : State) : (s.popTable).escrow = s.escrow := rfl
@[simp] theorem State.popTable_contact (s : State) : (s.popTable).contact = s.contact := rfl
@[simp] theorem State.popTable_tieOrder (s : State) : (s.popTable).tieOrder = s.tieOrder := rfl
@[simp] theorem State.popTable_freeCount (s : State) : (s.popTable).freeCount = s.freeCount := rfl
@[simp] theorem State.popTable_pending (s : State) : (s.popTable).pending = s.pending := rfl

/-! ### leaveSites -/

@[simp] theorem State.leaveSites_reg (s : State) : (s.leaveSites).reg = s.reg := rfl
@[simp] theorem State.leaveSites_counters (s : State) : (s.leaveSites).counters = s.counters := rfl
@[simp] theorem State.leaveSites_mem (s : State) : (s.leaveSites).mem = s.mem := rfl
@[simp] theorem State.leaveSites_chain (s : State) : (s.leaveSites).chain = s.chain := rfl
@[simp] theorem State.leaveSites_sites (s : State) : (s.leaveSites).sites = Vector.replicate 24 none := rfl
@[simp] theorem State.leaveSites_chans (s : State) : (s.leaveSites).chans = s.chans := rfl
@[simp] theorem State.leaveSites_waiting (s : State) : (s.leaveSites).waiting = s.waiting := rfl
@[simp] theorem State.leaveSites_keys (s : State) : (s.leaveSites).keys = s.keys := rfl
@[simp] theorem State.leaveSites_comp (s : State) : (s.leaveSites).comp = s.comp := rfl
@[simp] theorem State.leaveSites_dies (s : State) : (s.leaveSites).dies = s.dies := rfl
@[simp] theorem State.leaveSites_escrow (s : State) : (s.leaveSites).escrow = s.escrow := rfl
@[simp] theorem State.leaveSites_contact (s : State) : (s.leaveSites).contact = s.contact := rfl
@[simp] theorem State.leaveSites_tieOrder (s : State) : (s.leaveSites).tieOrder = s.tieOrder := rfl
@[simp] theorem State.leaveSites_freeCount (s : State) : (s.leaveSites).freeCount = s.freeCount := rfl
@[simp] theorem State.leaveSites_pending (s : State) : (s.leaveSites).pending = s.pending := rfl

/-! ### leaveWaiting -/

@[simp] theorem State.leaveWaiting_reg (s : State) (n : Site) : (s.leaveWaiting n).reg = s.reg := rfl
@[simp] theorem State.leaveWaiting_counters (s : State) (n : Site) : (s.leaveWaiting n).counters = s.counters := rfl
@[simp] theorem State.leaveWaiting_mem (s : State) (n : Site) : (s.leaveWaiting n).mem = s.mem := rfl
@[simp] theorem State.leaveWaiting_chain (s : State) (n : Site) : (s.leaveWaiting n).chain = s.chain := rfl
@[simp] theorem State.leaveWaiting_sites (s : State) (n : Site) : (s.leaveWaiting n).sites = s.sites := rfl
@[simp] theorem State.leaveWaiting_chans (s : State) (n : Site) : (s.leaveWaiting n).chans = s.chans := rfl
@[simp] theorem State.leaveWaiting_waiting (s : State) (n : Site) :
    (s.leaveWaiting n).waiting = s.waiting.filter fun r => decide (r.site ≠ n) := rfl
@[simp] theorem State.leaveWaiting_keys (s : State) (n : Site) : (s.leaveWaiting n).keys = s.keys := rfl
@[simp] theorem State.leaveWaiting_comp (s : State) (n : Site) : (s.leaveWaiting n).comp = s.comp := rfl
@[simp] theorem State.leaveWaiting_dies (s : State) (n : Site) : (s.leaveWaiting n).dies = s.dies := rfl
@[simp] theorem State.leaveWaiting_escrow (s : State) (n : Site) : (s.leaveWaiting n).escrow = s.escrow := rfl
@[simp] theorem State.leaveWaiting_contact (s : State) (n : Site) : (s.leaveWaiting n).contact = s.contact := rfl
@[simp] theorem State.leaveWaiting_tieOrder (s : State) (n : Site) : (s.leaveWaiting n).tieOrder = s.tieOrder := rfl
@[simp] theorem State.leaveWaiting_freeCount (s : State) (n : Site) :
    (s.leaveWaiting n).freeCount = s.freeCount := rfl
@[simp] theorem State.leaveWaiting_pending (s : State) (n : Site) : (s.leaveWaiting n).pending = s.pending := rfl

/-! ### joinWaiting -/

@[simp] theorem State.joinWaiting_reg (s : State) (n : Site) (arb w : Nat) :
    (s.joinWaiting n arb w).reg = s.reg := rfl
@[simp] theorem State.joinWaiting_counters (s : State) (n : Site) (arb w : Nat) :
    (s.joinWaiting n arb w).counters = s.counters := rfl
@[simp] theorem State.joinWaiting_mem (s : State) (n : Site) (arb w : Nat) :
    (s.joinWaiting n arb w).mem = s.mem := rfl
@[simp] theorem State.joinWaiting_chain (s : State) (n : Site) (arb w : Nat) :
    (s.joinWaiting n arb w).chain = s.chain := rfl
@[simp] theorem State.joinWaiting_sites (s : State) (n : Site) (arb w : Nat) :
    (s.joinWaiting n arb w).sites = s.sites := rfl
@[simp] theorem State.joinWaiting_chans (s : State) (n : Site) (arb w : Nat) :
    (s.joinWaiting n arb w).chans = s.chans := rfl
@[simp] theorem State.joinWaiting_waiting (s : State) (n : Site) (arb w : Nat) :
    (s.joinWaiting n arb w).waiting = { site := n, arb := arb, width := w, timer := 0 } :: s.waiting := rfl
@[simp] theorem State.joinWaiting_keys (s : State) (n : Site) (arb w : Nat) :
    (s.joinWaiting n arb w).keys = s.keys := rfl
@[simp] theorem State.joinWaiting_comp (s : State) (n : Site) (arb w : Nat) :
    (s.joinWaiting n arb w).comp = s.comp := rfl
@[simp] theorem State.joinWaiting_dies (s : State) (n : Site) (arb w : Nat) :
    (s.joinWaiting n arb w).dies = s.dies := rfl
@[simp] theorem State.joinWaiting_escrow (s : State) (n : Site) (arb w : Nat) :
    (s.joinWaiting n arb w).escrow = s.escrow := rfl
@[simp] theorem State.joinWaiting_contact (s : State) (n : Site) (arb w : Nat) :
    (s.joinWaiting n arb w).contact = s.contact := rfl
@[simp] theorem State.joinWaiting_tieOrder (s : State) (n : Site) (arb w : Nat) :
    (s.joinWaiting n arb w).tieOrder = s.tieOrder := rfl
@[simp] theorem State.joinWaiting_freeCount (s : State) (n : Site) (arb w : Nat) :
    (s.joinWaiting n arb w).freeCount = s.freeCount := rfl
@[simp] theorem State.joinWaiting_pending (s : State) (n : Site) (arb w : Nat) :
    (s.joinWaiting n arb w).pending = s.pending := rfl

/-! ### withdrawTable -/

@[simp] theorem State.withdrawTable_reg (s : State) (n : Site) : (s.withdrawTable n).reg = s.reg := rfl
@[simp] theorem State.withdrawTable_counters (s : State) (n : Site) : (s.withdrawTable n).counters = s.counters := rfl
@[simp] theorem State.withdrawTable_mem (s : State) (n : Site) : (s.withdrawTable n).mem = s.mem := rfl
@[simp] theorem State.withdrawTable_chain (s : State) (n : Site) : (s.withdrawTable n).chain = s.chain := rfl
@[simp] theorem State.withdrawTable_sites (s : State) (n : Site) : (s.withdrawTable n).sites = s.sites := rfl
@[simp] theorem State.withdrawTable_chans (s : State) (n : Site) : (s.withdrawTable n).chans = s.chans := rfl
@[simp] theorem State.withdrawTable_waiting (s : State) (n : Site) : (s.withdrawTable n).waiting = s.waiting := rfl
@[simp] theorem State.withdrawTable_keys (s : State) (n : Site) : (s.withdrawTable n).keys = s.keys := rfl
@[simp] theorem State.withdrawTable_comp (s : State) (n : Site) : (s.withdrawTable n).comp = s.comp := rfl
@[simp] theorem State.withdrawTable_dies (s : State) (n : Site) :
    (s.withdrawTable n).dies = { s.dies with queue := s.dies.queue.filter fun r => !r.withdrawn n } := rfl
@[simp] theorem State.withdrawTable_escrow (s : State) (n : Site) : (s.withdrawTable n).escrow = s.escrow := rfl
@[simp] theorem State.withdrawTable_contact (s : State) (n : Site) : (s.withdrawTable n).contact = s.contact := rfl
@[simp] theorem State.withdrawTable_tieOrder (s : State) (n : Site) : (s.withdrawTable n).tieOrder = s.tieOrder := rfl
@[simp] theorem State.withdrawTable_freeCount (s : State) (n : Site) :
    (s.withdrawTable n).freeCount = s.freeCount := rfl
@[simp] theorem State.withdrawTable_pending (s : State) (n : Site) : (s.withdrawTable n).pending = s.pending := rfl

/-! ### withdrawComp -/

@[simp] theorem State.withdrawComp_reg (s : State) (n : Site) : (s.withdrawComp n).reg = s.reg := rfl
@[simp] theorem State.withdrawComp_counters (s : State) (n : Site) : (s.withdrawComp n).counters = s.counters := rfl
@[simp] theorem State.withdrawComp_mem (s : State) (n : Site) : (s.withdrawComp n).mem = s.mem := rfl
@[simp] theorem State.withdrawComp_chain (s : State) (n : Site) : (s.withdrawComp n).chain = s.chain := rfl
@[simp] theorem State.withdrawComp_sites (s : State) (n : Site) : (s.withdrawComp n).sites = s.sites := rfl
@[simp] theorem State.withdrawComp_chans (s : State) (n : Site) : (s.withdrawComp n).chans = s.chans := rfl
@[simp] theorem State.withdrawComp_waiting (s : State) (n : Site) : (s.withdrawComp n).waiting = s.waiting := rfl
@[simp] theorem State.withdrawComp_keys (s : State) (n : Site) : (s.withdrawComp n).keys = s.keys := rfl
@[simp] theorem State.withdrawComp_comp (s : State) (n : Site) :
    (s.withdrawComp n).comp = s.comp.filter fun r => decide (r.site ≠ n) := rfl
@[simp] theorem State.withdrawComp_dies (s : State) (n : Site) : (s.withdrawComp n).dies = s.dies := rfl
@[simp] theorem State.withdrawComp_escrow (s : State) (n : Site) : (s.withdrawComp n).escrow = s.escrow := rfl
@[simp] theorem State.withdrawComp_contact (s : State) (n : Site) : (s.withdrawComp n).contact = s.contact := rfl
@[simp] theorem State.withdrawComp_tieOrder (s : State) (n : Site) : (s.withdrawComp n).tieOrder = s.tieOrder := rfl
@[simp] theorem State.withdrawComp_freeCount (s : State) (n : Site) :
    (s.withdrawComp n).freeCount = s.freeCount := rfl
@[simp] theorem State.withdrawComp_pending (s : State) (n : Site) : (s.withdrawComp n).pending = s.pending := rfl

end Sys2Proof.Machine
end

