-- ==== Sys2Proof/Laws/Frames.lean ====
section
/-! SUPPORT. Frames: for each shared operation on State, the parts that it leaves as they are. -/

namespace Sys2Proof.Machine

/-! ### The escrow writer -/

@[simp] theorem State.stallWriter_frame (s : State) (src : StallSource) (entry : Bool) :
    (s.stallWriter src entry).counters = s.counters ∧ (s.stallWriter src entry).mem = s.mem ∧
    (s.stallWriter src entry).chain = s.chain ∧ (s.stallWriter src entry).sites = s.sites ∧
    (s.stallWriter src entry).chans = s.chans ∧ (s.stallWriter src entry).waiting = s.waiting ∧
    (s.stallWriter src entry).keys = s.keys ∧ (s.stallWriter src entry).comp = s.comp ∧
    (s.stallWriter src entry).dies = s.dies ∧ (s.stallWriter src entry).contact = s.contact ∧
    (s.stallWriter src entry).tieOrder = s.tieOrder ∧ (s.stallWriter src entry).freeCount = s.freeCount ∧
    (s.stallWriter src entry).pending = s.pending := by
  unfold State.stallWriter
  try dsimp only
  (repeat' split) <;> simp

@[simp] theorem State.openPage_frame (s : State) (o : Nat) (src : StallSource) (entry : Bool) :
    (s.openPage o src entry).counters = s.counters ∧ (s.openPage o src entry).chain = s.chain ∧
    (s.openPage o src entry).sites = s.sites ∧ (s.openPage o src entry).chans = s.chans ∧
    (s.openPage o src entry).waiting = s.waiting ∧ (s.openPage o src entry).keys = s.keys ∧
    (s.openPage o src entry).comp = s.comp ∧ (s.openPage o src entry).dies = s.dies ∧
    (s.openPage o src entry).contact = s.contact ∧ (s.openPage o src entry).tieOrder = s.tieOrder ∧
    (s.openPage o src entry).freeCount = s.freeCount ∧ (s.openPage o src entry).pending = s.pending := by
  unfold State.openPage
  try dsimp only
  (repeat' split) <;> simp

@[simp] theorem State.releasePage_frame (s : State) (p n : Nat) :
    (s.releasePage p n).reg = s.reg ∧ (s.releasePage p n).counters = s.counters ∧
    (s.releasePage p n).chain = s.chain ∧ (s.releasePage p n).sites = s.sites ∧
    (s.releasePage p n).chans = s.chans ∧ (s.releasePage p n).waiting = s.waiting ∧
    (s.releasePage p n).keys = s.keys ∧ (s.releasePage p n).comp = s.comp ∧ (s.releasePage p n).dies = s.dies ∧
    (s.releasePage p n).escrow = s.escrow ∧ (s.releasePage p n).contact = s.contact ∧
    (s.releasePage p n).tieOrder = s.tieOrder ∧ (s.releasePage p n).freeCount = s.freeCount ∧
    (s.releasePage p n).pending = s.pending := by
  simp [State.releasePage]

@[simp] theorem State.handOver_frame (s : State) :
    (s.handOver).counters = s.counters ∧ (s.handOver).chain = s.chain ∧ (s.handOver).sites = s.sites ∧
    (s.handOver).chans = s.chans ∧ (s.handOver).waiting = s.waiting ∧ (s.handOver).keys = s.keys ∧
    (s.handOver).comp = s.comp ∧ (s.handOver).dies = s.dies ∧ (s.handOver).contact = s.contact ∧
    (s.handOver).tieOrder = s.tieOrder ∧ (s.handOver).freeCount = s.freeCount ∧ (s.handOver).pending = s.pending := by
  unfold State.handOver
  try dsimp only
  (repeat' split) <;> simp

@[simp] theorem State.handOverRecords_frame (s : State) :
    (s.handOverRecords).counters = s.counters ∧ (s.handOverRecords).chain = s.chain ∧
    (s.handOverRecords).sites = s.sites ∧ (s.handOverRecords).chans = s.chans ∧
    (s.handOverRecords).waiting = s.waiting ∧ (s.handOverRecords).keys = s.keys ∧
    (s.handOverRecords).comp = s.comp ∧ (s.handOverRecords).dies = s.dies ∧
    (s.handOverRecords).contact = s.contact ∧ (s.handOverRecords).tieOrder = s.tieOrder ∧
    (s.handOverRecords).freeCount = s.freeCount ∧ (s.handOverRecords).pending = s.pending := by
  unfold State.handOverRecords
  try dsimp only
  (repeat' split) <;> simp

@[simp] theorem State.flush_frame (s : State) :
    (s.flush).counters = s.counters ∧ (s.flush).chain = s.chain ∧ (s.flush).sites = s.sites ∧
    (s.flush).chans = s.chans ∧ (s.flush).waiting = s.waiting ∧ (s.flush).keys = s.keys ∧
    (s.flush).comp = s.comp ∧ (s.flush).dies = s.dies ∧ (s.flush).contact = s.contact ∧
    (s.flush).tieOrder = s.tieOrder ∧ (s.flush).freeCount = s.freeCount ∧ (s.flush).pending = s.pending := by
  unfold State.flush
  try dsimp only
  (repeat' split) <;> simp

@[simp] theorem State.takeAnchor_frame (s : State) (a : Nat) :
    (s.takeAnchor a).counters = s.counters ∧ (s.takeAnchor a).chain = s.chain ∧
    (s.takeAnchor a).sites = s.sites ∧ (s.takeAnchor a).chans = s.chans ∧
    (s.takeAnchor a).waiting = s.waiting ∧ (s.takeAnchor a).keys = s.keys ∧ (s.takeAnchor a).comp = s.comp ∧
    (s.takeAnchor a).dies = s.dies ∧ (s.takeAnchor a).contact = s.contact ∧
    (s.takeAnchor a).tieOrder = s.tieOrder ∧ (s.takeAnchor a).freeCount = s.freeCount ∧
    (s.takeAnchor a).pending = s.pending := by
  simp [State.takeAnchor]

@[simp] theorem State.nudgeWriter_frame (s : State) :
    (s.nudgeWriter).counters = s.counters ∧ (s.nudgeWriter).chain = s.chain ∧ (s.nudgeWriter).sites = s.sites ∧
    (s.nudgeWriter).chans = s.chans ∧ (s.nudgeWriter).waiting = s.waiting ∧ (s.nudgeWriter).keys = s.keys ∧
    (s.nudgeWriter).comp = s.comp ∧ (s.nudgeWriter).dies = s.dies ∧ (s.nudgeWriter).contact = s.contact ∧
    (s.nudgeWriter).tieOrder = s.tieOrder ∧ (s.nudgeWriter).freeCount = s.freeCount ∧
    (s.nudgeWriter).pending = s.pending := by
  unfold State.nudgeWriter
  try dsimp only
  (repeat' split) <;> simp

@[simp] theorem State.makeRoom_frame (s : State) :
    (s.makeRoom).counters = s.counters ∧ (s.makeRoom).chain = s.chain ∧ (s.makeRoom).sites = s.sites ∧
    (s.makeRoom).chans = s.chans ∧ (s.makeRoom).waiting = s.waiting ∧ (s.makeRoom).keys = s.keys ∧
    (s.makeRoom).comp = s.comp ∧ (s.makeRoom).dies = s.dies ∧ (s.makeRoom).contact = s.contact ∧
    (s.makeRoom).tieOrder = s.tieOrder ∧ (s.makeRoom).freeCount = s.freeCount ∧ (s.makeRoom).pending = s.pending := by
  unfold State.makeRoom
  try dsimp only
  (repeat' split) <;> simp

@[simp] theorem State.handOverFull_frame (s : State) :
    (s.handOverFull).counters = s.counters ∧ (s.handOverFull).chain = s.chain ∧
    (s.handOverFull).sites = s.sites ∧ (s.handOverFull).chans = s.chans ∧
    (s.handOverFull).waiting = s.waiting ∧ (s.handOverFull).keys = s.keys ∧ (s.handOverFull).comp = s.comp ∧
    (s.handOverFull).dies = s.dies ∧ (s.handOverFull).contact = s.contact ∧
    (s.handOverFull).tieOrder = s.tieOrder ∧ (s.handOverFull).freeCount = s.freeCount ∧
    (s.handOverFull).pending = s.pending := by
  unfold State.handOverFull
  try dsimp only
  (repeat' split) <;> simp

@[simp] theorem State.abandonRecord_frame (s : State) (n : Nat) :
    (s.abandonRecord n).reg = s.reg ∧ (s.abandonRecord n).counters = s.counters ∧
    (s.abandonRecord n).chain = s.chain ∧ (s.abandonRecord n).sites = s.sites ∧
    (s.abandonRecord n).chans = s.chans ∧ (s.abandonRecord n).waiting = s.waiting ∧
    (s.abandonRecord n).keys = s.keys ∧ (s.abandonRecord n).comp = s.comp ∧ (s.abandonRecord n).dies = s.dies ∧
    (s.abandonRecord n).escrow = s.escrow ∧ (s.abandonRecord n).contact = s.contact ∧
    (s.abandonRecord n).tieOrder = s.tieOrder ∧ (s.abandonRecord n).freeCount = s.freeCount ∧
    (s.abandonRecord n).pending = s.pending := by
  unfold State.abandonRecord
  try dsimp only
  (repeat' split) <;> simp

/-- A written head: what it finds and what it leaves (R166 steps 1 to 4). -/
theorem State.writeHead_some (s : State) {t : State} {r : RecordRequest} (h : s.writeHead = some (t, r)) :
    ∃ page slot records rest, s.escrow.writer = .opened page slot records ∧ s.escrow.queue = r :: rest ∧
      slot + r.record.slots ≤ 16 ∧
      t = ((s.store (slotOffset page slot) (r.record.bytes s.counters)).storeField (page + 8) 4 (records + 1)).setEscrow
        { s.escrow with writer := .opened page (slot + r.record.slots) (records + 1), queue := rest } := by
  unfold State.writeHead at h
  split at h
  · rename_i page slot records q rest hw hq
    split at h
    · rename_i hs
      obtain ⟨rfl, rfl⟩ := Prod.mk.inj (Option.some.inj h)
      exact ⟨page, slot, records, rest, hw, hq, hs, by simp⟩
    · cases h
  · cases h

@[simp] theorem State.resetHandOver_frame (s : State) :
    (s.resetHandOver).reg = s.reg ∧ (s.resetHandOver).counters = s.counters ∧
    (s.resetHandOver).chain = s.chain ∧ (s.resetHandOver).sites = s.sites ∧ (s.resetHandOver).chans = s.chans ∧
    (s.resetHandOver).waiting = s.waiting ∧ (s.resetHandOver).keys = s.keys ∧ (s.resetHandOver).comp = s.comp ∧
    (s.resetHandOver).dies = s.dies ∧ (s.resetHandOver).escrow = s.escrow ∧
    (s.resetHandOver).contact = s.contact ∧ (s.resetHandOver).tieOrder = s.tieOrder ∧
    (s.resetHandOver).freeCount = s.freeCount ∧ (s.resetHandOver).pending = s.pending := by
  unfold State.resetHandOver
  try dsimp only
  (repeat' split) <;> simp

@[simp] theorem State.flushAfter_frame (s : State) (b : Bool) :
    (s.flushAfter b).counters = s.counters ∧ (s.flushAfter b).chain = s.chain ∧
    (s.flushAfter b).sites = s.sites ∧ (s.flushAfter b).chans = s.chans ∧
    (s.flushAfter b).waiting = s.waiting ∧ (s.flushAfter b).keys = s.keys ∧ (s.flushAfter b).comp = s.comp ∧
    (s.flushAfter b).dies = s.dies ∧ (s.flushAfter b).contact = s.contact ∧
    (s.flushAfter b).tieOrder = s.tieOrder ∧ (s.flushAfter b).freeCount = s.freeCount ∧
    (s.flushAfter b).pending = s.pending := by
  unfold State.flushAfter
  try dsimp only
  (repeat' split) <;> simp

/-! ### Channels and arbiter -/

@[simp] theorem State.modSite_frame (s : State) (n : Site) (f : SiteCtx → SiteCtx) :
    (s.modSite n f).reg = s.reg ∧ (s.modSite n f).counters = s.counters ∧ (s.modSite n f).mem = s.mem ∧
    (s.modSite n f).chain = s.chain ∧ (s.modSite n f).chans = s.chans ∧ (s.modSite n f).waiting = s.waiting ∧
    (s.modSite n f).keys = s.keys ∧ (s.modSite n f).comp = s.comp ∧ (s.modSite n f).dies = s.dies ∧
    (s.modSite n f).escrow = s.escrow ∧ (s.modSite n f).contact = s.contact ∧
    (s.modSite n f).tieOrder = s.tieOrder ∧ (s.modSite n f).freeCount = s.freeCount ∧
    (s.modSite n f).pending = s.pending := by
  unfold State.modSite
  try dsimp only
  (repeat' split) <;> simp

@[simp] theorem State.grant_frame (s : State) (c : Chan) (r : GrantRequest) :
    (s.grant c r).reg = s.reg ∧ (s.grant c r).counters = s.counters ∧ (s.grant c r).mem = s.mem ∧
    (s.grant c r).chain = s.chain ∧ (s.grant c r).keys = s.keys ∧ (s.grant c r).comp = s.comp ∧
    (s.grant c r).dies = s.dies ∧ (s.grant c r).escrow = s.escrow ∧ (s.grant c r).contact = s.contact ∧
    (s.grant c r).tieOrder = s.tieOrder ∧ (s.grant c r).freeCount = s.freeCount ∧
    (s.grant c r).pending = s.pending := by
  simp [State.grant]

@[simp] theorem State.grantTo_frame (s : State) (c : Chan) :
    (s.grantTo c).reg = s.reg ∧ (s.grantTo c).counters = s.counters ∧ (s.grantTo c).mem = s.mem ∧
    (s.grantTo c).chain = s.chain ∧ (s.grantTo c).keys = s.keys ∧ (s.grantTo c).comp = s.comp ∧
    (s.grantTo c).dies = s.dies ∧ (s.grantTo c).escrow = s.escrow ∧ (s.grantTo c).contact = s.contact ∧
    (s.grantTo c).tieOrder = s.tieOrder ∧ (s.grantTo c).freeCount = s.freeCount ∧
    (s.grantTo c).pending = s.pending := by
  unfold State.grantTo
  try dsimp only
  (repeat' split) <;> simp

@[simp] theorem State.arbitrate_frame (s : State) :
    (s.arbitrate).reg = s.reg ∧ (s.arbitrate).counters = s.counters ∧ (s.arbitrate).mem = s.mem ∧
    (s.arbitrate).chain = s.chain ∧ (s.arbitrate).keys = s.keys ∧ (s.arbitrate).comp = s.comp ∧
    (s.arbitrate).dies = s.dies ∧ (s.arbitrate).escrow = s.escrow ∧ (s.arbitrate).contact = s.contact ∧
    (s.arbitrate).tieOrder = s.tieOrder ∧ (s.arbitrate).freeCount = s.freeCount ∧
    (s.arbitrate).pending = s.pending := by
  simp [State.arbitrate, allChans]

@[simp] theorem State.chargePulse_frame (s : State) (n : Site) (w : Nat) :
    (s.chargePulse n w).reg = s.reg ∧ (s.chargePulse n w).mem = s.mem ∧ (s.chargePulse n w).chain = s.chain ∧
    (s.chargePulse n w).chans = s.chans ∧ (s.chargePulse n w).waiting = s.waiting ∧
    (s.chargePulse n w).keys = s.keys ∧ (s.chargePulse n w).comp = s.comp ∧ (s.chargePulse n w).dies = s.dies ∧
    (s.chargePulse n w).escrow = s.escrow ∧ (s.chargePulse n w).contact = s.contact ∧
    (s.chargePulse n w).tieOrder = s.tieOrder ∧ (s.chargePulse n w).freeCount = s.freeCount ∧
    (s.chargePulse n w).pending = s.pending := by
  unfold State.chargePulse
  try dsimp only
  (repeat' split) <;> simp

@[simp] theorem State.beginSettle_frame (s : State) (n : Site) :
    (s.beginSettle n).reg = s.reg ∧ (s.beginSettle n).counters = s.counters ∧ (s.beginSettle n).mem = s.mem ∧
    (s.beginSettle n).chain = s.chain ∧ (s.beginSettle n).chans = s.chans ∧
    (s.beginSettle n).waiting = s.waiting ∧ (s.beginSettle n).keys = s.keys ∧ (s.beginSettle n).comp = s.comp ∧
    (s.beginSettle n).dies = s.dies ∧ (s.beginSettle n).escrow = s.escrow ∧
    (s.beginSettle n).contact = s.contact ∧ (s.beginSettle n).tieOrder = s.tieOrder ∧
    (s.beginSettle n).freeCount = s.freeCount ∧ (s.beginSettle n).pending = s.pending := by
  simp [State.beginSettle]

@[simp] theorem State.goOffline_frame (s : State) (c : Chan) :
    (s.goOffline c).mem = s.mem ∧ (s.goOffline c).chain = s.chain ∧ (s.goOffline c).sites = s.sites ∧
    (s.goOffline c).waiting = s.waiting ∧ (s.goOffline c).keys = s.keys ∧ (s.goOffline c).comp = s.comp ∧
    (s.goOffline c).dies = s.dies ∧ (s.goOffline c).escrow = s.escrow ∧ (s.goOffline c).contact = s.contact ∧
    (s.goOffline c).tieOrder = s.tieOrder ∧ (s.goOffline c).freeCount = s.freeCount ∧
    (s.goOffline c).pending = s.pending := by
  simp [State.goOffline]

@[simp] theorem State.cutPulse_frame (s : State) (c : Chan) :
    (s.cutPulse c).reg = s.reg ∧ (s.cutPulse c).mem = s.mem ∧ (s.cutPulse c).chain = s.chain ∧
    (s.cutPulse c).waiting = s.waiting ∧ (s.cutPulse c).keys = s.keys ∧ (s.cutPulse c).comp = s.comp ∧
    (s.cutPulse c).dies = s.dies ∧ (s.cutPulse c).escrow = s.escrow ∧ (s.cutPulse c).contact = s.contact ∧
    (s.cutPulse c).tieOrder = s.tieOrder ∧ (s.cutPulse c).freeCount = s.freeCount ∧
    (s.cutPulse c).pending = s.pending := by
  unfold State.cutPulse
  try dsimp only
  (repeat' split) <;> simp

@[simp] theorem State.releaseChannels_frame (s : State) :
    (s.releaseChannels).reg = s.reg ∧ (s.releaseChannels).mem = s.mem ∧ (s.releaseChannels).chain = s.chain ∧
    (s.releaseChannels).keys = s.keys ∧ (s.releaseChannels).comp = s.comp ∧ (s.releaseChannels).dies = s.dies ∧
    (s.releaseChannels).escrow = s.escrow ∧ (s.releaseChannels).contact = s.contact ∧
    (s.releaseChannels).tieOrder = s.tieOrder ∧ (s.releaseChannels).freeCount = s.freeCount ∧
    (s.releaseChannels).pending = s.pending := by
  simp [State.releaseChannels, allChans]

@[simp] theorem State.resetChannel_frame (s : State) (v : BitVec 4) (c : Chan) :
    (State.resetChannel v s c).mem = s.mem ∧ (State.resetChannel v s c).chain = s.chain ∧
    (State.resetChannel v s c).sites = s.sites ∧ (State.resetChannel v s c).waiting = s.waiting ∧
    (State.resetChannel v s c).keys = s.keys ∧ (State.resetChannel v s c).comp = s.comp ∧
    (State.resetChannel v s c).dies = s.dies ∧ (State.resetChannel v s c).escrow = s.escrow ∧
    (State.resetChannel v s c).contact = s.contact ∧ (State.resetChannel v s c).tieOrder = s.tieOrder ∧
    (State.resetChannel v s c).freeCount = s.freeCount ∧ (State.resetChannel v s c).pending = s.pending := by
  unfold State.resetChannel
  try dsimp only
  (repeat' split) <;> simp

@[simp] theorem State.resetChannels_frame (s : State) (v : BitVec 4) :
    (s.resetChannels v).mem = s.mem ∧ (s.resetChannels v).chain = s.chain ∧
    (s.resetChannels v).sites = s.sites ∧ (s.resetChannels v).keys = s.keys ∧
    (s.resetChannels v).comp = s.comp ∧ (s.resetChannels v).dies = s.dies ∧
    (s.resetChannels v).escrow = s.escrow ∧ (s.resetChannels v).contact = s.contact ∧
    (s.resetChannels v).tieOrder = s.tieOrder ∧ (s.resetChannels v).freeCount = s.freeCount ∧
    (s.resetChannels v).pending = s.pending := by
  simp [State.resetChannels, allChans]

/-! ### Sites -/

@[simp] theorem State.withdrawDerivation_frame (s : State) (n : Site) :
    (s.withdrawDerivation n).reg = s.reg ∧ (s.withdrawDerivation n).counters = s.counters ∧
    (s.withdrawDerivation n).mem = s.mem ∧ (s.withdrawDerivation n).chain = s.chain ∧
    (s.withdrawDerivation n).sites = s.sites ∧ (s.withdrawDerivation n).chans = s.chans ∧
    (s.withdrawDerivation n).waiting = s.waiting ∧ (s.withdrawDerivation n).comp = s.comp ∧
    (s.withdrawDerivation n).dies = s.dies ∧ (s.withdrawDerivation n).escrow = s.escrow ∧
    (s.withdrawDerivation n).contact = s.contact ∧ (s.withdrawDerivation n).tieOrder = s.tieOrder ∧
    (s.withdrawDerivation n).freeCount = s.freeCount ∧ (s.withdrawDerivation n).pending = s.pending := by
  simp [State.withdrawDerivation]

@[simp] theorem State.send_frame (s : State) (n : Site) (c : SiteCtx) (st : SiteState) (cmd : DieCommand)
    (row bit : Nat) (arg : BitVec 32) :
    (s.send n c st cmd row bit arg).reg = s.reg ∧ (s.send n c st cmd row bit arg).counters = s.counters ∧
    (s.send n c st cmd row bit arg).mem = s.mem ∧ (s.send n c st cmd row bit arg).chain = s.chain ∧
    (s.send n c st cmd row bit arg).chans = s.chans ∧ (s.send n c st cmd row bit arg).waiting = s.waiting ∧
    (s.send n c st cmd row bit arg).keys = s.keys ∧ (s.send n c st cmd row bit arg).comp = s.comp ∧
    (s.send n c st cmd row bit arg).dies = s.dies ∧ (s.send n c st cmd row bit arg).escrow = s.escrow ∧
    (s.send n c st cmd row bit arg).contact = s.contact ∧
    (s.send n c st cmd row bit arg).tieOrder = s.tieOrder ∧
    (s.send n c st cmd row bit arg).freeCount = s.freeCount ∧
    (s.send n c st cmd row bit arg).pending = s.pending := by
  simp [State.send]

@[simp] theorem State.sendRowCheck_frame (s : State) (n : Site) (c : SiteCtx) (st : SiteState) (row : Nat) :
    (s.sendRowCheck n c st row).reg = s.reg ∧ (s.sendRowCheck n c st row).counters = s.counters ∧
    (s.sendRowCheck n c st row).mem = s.mem ∧ (s.sendRowCheck n c st row).chain = s.chain ∧
    (s.sendRowCheck n c st row).chans = s.chans ∧ (s.sendRowCheck n c st row).waiting = s.waiting ∧
    (s.sendRowCheck n c st row).keys = s.keys ∧ (s.sendRowCheck n c st row).comp = s.comp ∧
    (s.sendRowCheck n c st row).dies = s.dies ∧ (s.sendRowCheck n c st row).escrow = s.escrow ∧
    (s.sendRowCheck n c st row).contact = s.contact ∧ (s.sendRowCheck n c st row).tieOrder = s.tieOrder ∧
    (s.sendRowCheck n c st row).freeCount = s.freeCount ∧ (s.sendRowCheck n c st row).pending = s.pending := by
  simp [State.sendRowCheck]

@[simp] theorem State.enterFinal_frame (s : State) (n : Site) (c : SiteCtx) (r : SiteResult) (t : Option Nat) :
    (s.enterFinal n c r t).reg = s.reg ∧ (s.enterFinal n c r t).counters = s.counters ∧
    (s.enterFinal n c r t).chain = s.chain ∧ (s.enterFinal n c r t).chans = s.chans ∧
    (s.enterFinal n c r t).waiting = s.waiting ∧ (s.enterFinal n c r t).keys = s.keys ∧
    (s.enterFinal n c r t).comp = s.comp ∧ (s.enterFinal n c r t).dies = s.dies ∧
    (s.enterFinal n c r t).escrow = s.escrow ∧ (s.enterFinal n c r t).contact = s.contact ∧
    (s.enterFinal n c r t).tieOrder = s.tieOrder ∧ (s.enterFinal n c r t).freeCount = s.freeCount ∧
    (s.enterFinal n c r t).pending = s.pending := by
  unfold State.enterFinal
  try dsimp only
  (repeat' split) <;> simp

@[simp] theorem State.beginClosing_frame (s : State) (n : Site) (c : SiteCtx) (o : CloseOutcome) :
    (s.beginClosing n c o).reg = s.reg ∧ (s.beginClosing n c o).mem = s.mem ∧
    (s.beginClosing n c o).chain = s.chain ∧ (s.beginClosing n c o).chans = s.chans ∧
    (s.beginClosing n c o).waiting = s.waiting ∧ (s.beginClosing n c o).keys = s.keys ∧
    (s.beginClosing n c o).comp = s.comp ∧ (s.beginClosing n c o).contact = s.contact ∧
    (s.beginClosing n c o).tieOrder = s.tieOrder ∧ (s.beginClosing n c o).freeCount = s.freeCount ∧
    (s.beginClosing n c o).pending = s.pending := by
  unfold State.beginClosing
  try dsimp only
  (repeat' split) <;> simp

@[simp] theorem State.beginParking_frame (s : State) (n : Site) (c : SiteCtx) :
    (s.beginParking n c).reg = s.reg ∧ (s.beginParking n c).counters = s.counters ∧
    (s.beginParking n c).mem = s.mem ∧ (s.beginParking n c).chain = s.chain ∧
    (s.beginParking n c).chans = s.chans ∧ (s.beginParking n c).waiting = s.waiting ∧
    (s.beginParking n c).keys = s.keys ∧ (s.beginParking n c).comp = s.comp ∧
    (s.beginParking n c).escrow = s.escrow ∧ (s.beginParking n c).contact = s.contact ∧
    (s.beginParking n c).tieOrder = s.tieOrder ∧ (s.beginParking n c).freeCount = s.freeCount ∧
    (s.beginParking n c).pending = s.pending := by
  simp [State.beginParking]

@[simp] theorem State.stopBurn_frame (s : State) (n : Site) (c : SiteCtx) (k : StopCause) :
    (s.stopBurn n c k).reg = s.reg ∧ (s.stopBurn n c k).mem = s.mem ∧ (s.stopBurn n c k).chain = s.chain ∧
    (s.stopBurn n c k).chans = s.chans ∧ (s.stopBurn n c k).waiting = s.waiting ∧
    (s.stopBurn n c k).keys = s.keys ∧ (s.stopBurn n c k).comp = s.comp ∧
    (s.stopBurn n c k).contact = s.contact ∧ (s.stopBurn n c k).tieOrder = s.tieOrder ∧
    (s.stopBurn n c k).freeCount = s.freeCount ∧ (s.stopBurn n c k).pending = s.pending := by
  unfold State.stopBurn
  try dsimp only
  (repeat' split) <;> simp

@[simp] theorem State.giveBack_frame (s : State) (n : Site) (c : SiteCtx) :
    (s.giveBack n c).reg = s.reg ∧ (s.giveBack n c).counters = s.counters ∧ (s.giveBack n c).mem = s.mem ∧
    (s.giveBack n c).chain = s.chain ∧ (s.giveBack n c).sites = s.sites ∧ (s.giveBack n c).chans = s.chans ∧
    (s.giveBack n c).waiting = s.waiting ∧ (s.giveBack n c).keys = s.keys ∧ (s.giveBack n c).comp = s.comp ∧
    (s.giveBack n c).escrow = s.escrow ∧ (s.giveBack n c).contact = s.contact ∧
    (s.giveBack n c).tieOrder = s.tieOrder ∧ (s.giveBack n c).freeCount = s.freeCount ∧
    (s.giveBack n c).pending = s.pending := by
  unfold State.giveBack
  try dsimp only
  (repeat' split) <;> simp

@[simp] theorem State.endEarly_frame (s : State) (n : Site) (c : SiteCtx) (k : StopCause) :
    (s.endEarly n c k).reg = s.reg ∧ (s.endEarly n c k).counters = s.counters ∧
    (s.endEarly n c k).chain = s.chain ∧ (s.endEarly n c k).chans = s.chans ∧
    (s.endEarly n c k).waiting = s.waiting ∧ (s.endEarly n c k).keys = s.keys ∧
    (s.endEarly n c k).comp = s.comp ∧ (s.endEarly n c k).escrow = s.escrow ∧
    (s.endEarly n c k).contact = s.contact ∧ (s.endEarly n c k).tieOrder = s.tieOrder ∧
    (s.endEarly n c k).freeCount = s.freeCount ∧ (s.endEarly n c k).pending = s.pending := by
  simp [State.endEarly]

@[simp] theorem State.releaseSite_frame (s : State) (n : Site) :
    (s.releaseSite n).reg = s.reg ∧ (s.releaseSite n).chain = s.chain ∧ (s.releaseSite n).chans = s.chans ∧
    (s.releaseSite n).waiting = s.waiting ∧ (s.releaseSite n).contact = s.contact ∧
    (s.releaseSite n).tieOrder = s.tieOrder ∧ (s.releaseSite n).freeCount = s.freeCount ∧
    (s.releaseSite n).pending = s.pending := by
  unfold State.releaseSite
  try dsimp only
  (repeat' split) <;> simp

@[simp] theorem State.haltSite_frame (s : State) (n : Site) :
    (s.haltSite n).reg = s.reg ∧ (s.haltSite n).chain = s.chain ∧ (s.haltSite n).chans = s.chans ∧
    (s.haltSite n).comp = s.comp ∧ (s.haltSite n).contact = s.contact ∧ (s.haltSite n).tieOrder = s.tieOrder ∧
    (s.haltSite n).freeCount = s.freeCount ∧ (s.haltSite n).pending = s.pending := by
  unfold State.haltSite
  try dsimp only
  (repeat' split) <;> simp

/-- A fold of steps that keep what `g` reads keeps it. -/
theorem foldl_keeps {α β : Type} (f : State → α → State) (g : State → β) (h : ∀ s a, g (f s a) = g s) :
    ∀ (l : List α) (s : State), g (l.foldl f s) = g s
  | [], _ => rfl
  | a :: l, s => (foldl_keeps f g h l (f s a)).trans (h s a)

@[simp] theorem foldl_haltSite_frame (l : List Site) (s : State) :
    (l.foldl State.haltSite s).reg = s.reg ∧
    (l.foldl State.haltSite s).chain = s.chain ∧
    (l.foldl State.haltSite s).chans = s.chans ∧
    (l.foldl State.haltSite s).comp = s.comp ∧
    (l.foldl State.haltSite s).contact = s.contact ∧
    (l.foldl State.haltSite s).tieOrder = s.tieOrder ∧
    (l.foldl State.haltSite s).freeCount = s.freeCount ∧
    (l.foldl State.haltSite s).pending = s.pending := by
  exact ⟨foldl_keeps _ State.reg (by simp) l s, foldl_keeps _ State.chain (by simp) l s,
    foldl_keeps _ State.chans (by simp) l s, foldl_keeps _ State.comp (by simp) l s,
    foldl_keeps _ State.contact (by simp) l s, foldl_keeps _ State.tieOrder (by simp) l s,
    foldl_keeps _ State.freeCount (by simp) l s, foldl_keeps _ State.pending (by simp) l s⟩

@[simp] theorem State.startHalt_frame (s : State) (b : Block) :
    (s.startHalt b).reg = s.reg ∧ (s.startHalt b).chans = s.chans ∧ (s.startHalt b).comp = s.comp ∧
    (s.startHalt b).contact = s.contact ∧ (s.startHalt b).pending = s.pending := by
  simp [State.startHalt]

@[simp] theorem State.reportResult_frame (s : State) (r : SiteResult) :
    (s.reportResult r).reg = s.reg ∧ (s.reportResult r).chans = s.chans ∧ (s.reportResult r).comp = s.comp ∧
    (s.reportResult r).contact = s.contact ∧ (s.reportResult r).pending = s.pending := by
  unfold State.reportResult
  try dsimp only
  (repeat' split) <;> simp

@[simp] theorem State.finish_frame (s : State) (n : Site) (c : SiteCtx) (r : SiteResult) (t : Option Nat) :
    (s.finish n c r t).reg = s.reg ∧ (s.finish n c r t).chans = s.chans ∧ (s.finish n c r t).comp = s.comp ∧
    (s.finish n c r t).contact = s.contact ∧ (s.finish n c r t).pending = s.pending := by
  simp [State.finish]

/-! ### The burn -/

@[simp] theorem State.selectSpare_frame (n : Site) (c : SiteCtx) (l : List Nat) (b : BurnState) (s : State) :
    (s.selectSpare n c b l).reg = s.reg ∧
    (s.selectSpare n c b l).mem = s.mem ∧
    (s.selectSpare n c b l).chain = s.chain ∧
    (s.selectSpare n c b l).chans = s.chans ∧
    (s.selectSpare n c b l).waiting = s.waiting ∧
    (s.selectSpare n c b l).keys = s.keys ∧
    (s.selectSpare n c b l).comp = s.comp ∧
    (s.selectSpare n c b l).contact = s.contact ∧
    (s.selectSpare n c b l).tieOrder = s.tieOrder ∧
    (s.selectSpare n c b l).freeCount = s.freeCount ∧
    (s.selectSpare n c b l).pending = s.pending := by
  induction l generalizing s b with
  | nil => simp [State.selectSpare]
  | cons i rest ih =>
    unfold State.selectSpare
    split
    · simp
    · simpa using ih (b.reject i) (s.bump .sparesRejected)

@[simp] theorem State.armBit_frame (s : State) (n : Site) (c : SiteCtx) (b : BurnState) :
    (s.armBit n c b).reg = s.reg ∧ (s.armBit n c b).counters = s.counters ∧ (s.armBit n c b).mem = s.mem ∧
    (s.armBit n c b).chain = s.chain ∧ (s.armBit n c b).chans = s.chans ∧
    (s.armBit n c b).waiting = s.waiting ∧ (s.armBit n c b).keys = s.keys ∧ (s.armBit n c b).comp = s.comp ∧
    (s.armBit n c b).dies = s.dies ∧ (s.armBit n c b).escrow = s.escrow ∧
    (s.armBit n c b).contact = s.contact ∧ (s.armBit n c b).tieOrder = s.tieOrder ∧
    (s.armBit n c b).freeCount = s.freeCount ∧ (s.armBit n c b).pending = s.pending := by
  simp [State.armBit]

@[simp] theorem State.trySpares_frame (s : State) (n : Site) (c : SiteCtx) (b : BurnState) :
    (s.trySpares n c b).reg = s.reg ∧ (s.trySpares n c b).mem = s.mem ∧ (s.trySpares n c b).chain = s.chain ∧
    (s.trySpares n c b).chans = s.chans ∧ (s.trySpares n c b).waiting = s.waiting ∧
    (s.trySpares n c b).keys = s.keys ∧ (s.trySpares n c b).comp = s.comp ∧
    (s.trySpares n c b).contact = s.contact ∧ (s.trySpares n c b).tieOrder = s.tieOrder ∧
    (s.trySpares n c b).freeCount = s.freeCount ∧ (s.trySpares n c b).pending = s.pending := by
  simp [State.trySpares]

@[simp] theorem State.rowFailed_trySpares_frame (s : State) (n : Site) (c : SiteCtx) (b : BurnState) :
    (s.rowFailed n c b State.trySpares).reg = s.reg ∧ (s.rowFailed n c b State.trySpares).mem = s.mem ∧
    (s.rowFailed n c b State.trySpares).chain = s.chain ∧ (s.rowFailed n c b State.trySpares).chans = s.chans ∧
    (s.rowFailed n c b State.trySpares).waiting = s.waiting ∧
    (s.rowFailed n c b State.trySpares).keys = s.keys ∧ (s.rowFailed n c b State.trySpares).comp = s.comp ∧
    (s.rowFailed n c b State.trySpares).contact = s.contact ∧
    (s.rowFailed n c b State.trySpares).tieOrder = s.tieOrder ∧
    (s.rowFailed n c b State.trySpares).freeCount = s.freeCount ∧
    (s.rowFailed n c b State.trySpares).pending = s.pending := by
  unfold State.rowFailed
  try dsimp only
  (repeat' split) <;> simp

@[simp] theorem State.burnStep_frame (s : State) (n : Site) (c : SiteCtx) (b : BurnState) :
    (s.burnStep n c b).reg = s.reg ∧ (s.burnStep n c b).mem = s.mem ∧ (s.burnStep n c b).chain = s.chain ∧
    (s.burnStep n c b).chans = s.chans ∧ (s.burnStep n c b).waiting = s.waiting ∧
    (s.burnStep n c b).keys = s.keys ∧ (s.burnStep n c b).comp = s.comp ∧
    (s.burnStep n c b).contact = s.contact ∧ (s.burnStep n c b).tieOrder = s.tieOrder ∧
    (s.burnStep n c b).freeCount = s.freeCount ∧ (s.burnStep n c b).pending = s.pending := by
  unfold State.burnStep
  try dsimp only
  (repeat' split) <;> simp

@[simp] theorem State.burnOn_frame (s : State) (n : Site) (c : SiteCtx) (b : BurnState) :
    (s.burnOn n c b).reg = s.reg ∧ (s.burnOn n c b).mem = s.mem ∧ (s.burnOn n c b).chain = s.chain ∧
    (s.burnOn n c b).chans = s.chans ∧ (s.burnOn n c b).waiting = s.waiting ∧ (s.burnOn n c b).keys = s.keys ∧
    (s.burnOn n c b).comp = s.comp ∧ (s.burnOn n c b).contact = s.contact ∧
    (s.burnOn n c b).tieOrder = s.tieOrder ∧ (s.burnOn n c b).freeCount = s.freeCount ∧
    (s.burnOn n c b).pending = s.pending := by
  unfold State.burnOn
  try dsimp only
  (repeat' split) <;> simp

@[simp] theorem State.afterBadRow_frame (s : State) (n : Site) (c : SiteCtx) (b : BurnState) :
    (s.afterBadRow n c b).reg = s.reg ∧ (s.afterBadRow n c b).mem = s.mem ∧
    (s.afterBadRow n c b).chain = s.chain ∧ (s.afterBadRow n c b).chans = s.chans ∧
    (s.afterBadRow n c b).waiting = s.waiting ∧ (s.afterBadRow n c b).keys = s.keys ∧
    (s.afterBadRow n c b).comp = s.comp ∧ (s.afterBadRow n c b).contact = s.contact ∧
    (s.afterBadRow n c b).tieOrder = s.tieOrder ∧ (s.afterBadRow n c b).freeCount = s.freeCount ∧
    (s.afterBadRow n c b).pending = s.pending := by
  unfold State.afterBadRow
  try dsimp only
  (repeat' split) <;> simp

@[simp] theorem State.rowFailed_afterBadRow_frame (s : State) (n : Site) (c : SiteCtx) (b : BurnState) :
    (s.rowFailed n c b State.afterBadRow).reg = s.reg ∧ (s.rowFailed n c b State.afterBadRow).mem = s.mem ∧
    (s.rowFailed n c b State.afterBadRow).chain = s.chain ∧
    (s.rowFailed n c b State.afterBadRow).chans = s.chans ∧
    (s.rowFailed n c b State.afterBadRow).waiting = s.waiting ∧
    (s.rowFailed n c b State.afterBadRow).keys = s.keys ∧ (s.rowFailed n c b State.afterBadRow).comp = s.comp ∧
    (s.rowFailed n c b State.afterBadRow).contact = s.contact ∧
    (s.rowFailed n c b State.afterBadRow).tieOrder = s.tieOrder ∧
    (s.rowFailed n c b State.afterBadRow).freeCount = s.freeCount ∧
    (s.rowFailed n c b State.afterBadRow).pending = s.pending := by
  unfold State.rowFailed
  try dsimp only
  (repeat' split) <;> simp

@[simp] theorem State.beginBurn_frame (s : State) (n : Site) (c : SiteCtx) :
    (s.beginBurn n c).reg = s.reg ∧ (s.beginBurn n c).mem = s.mem ∧ (s.beginBurn n c).chain = s.chain ∧
    (s.beginBurn n c).chans = s.chans ∧ (s.beginBurn n c).waiting = s.waiting ∧
    (s.beginBurn n c).keys = s.keys ∧ (s.beginBurn n c).comp = s.comp ∧ (s.beginBurn n c).contact = s.contact ∧
    (s.beginBurn n c).tieOrder = s.tieOrder ∧ (s.beginBurn n c).freeCount = s.freeCount ∧
    (s.beginBurn n c).pending = s.pending := by
  simp [State.beginBurn]

@[simp] theorem State.resumeFrom_frame (s : State) (n : Site) (c : SiteCtx) (b : BurnState) (i : Nat) :
    (s.resumeFrom n c b i).reg = s.reg ∧ (s.resumeFrom n c b i).mem = s.mem ∧
    (s.resumeFrom n c b i).chain = s.chain ∧ (s.resumeFrom n c b i).chans = s.chans ∧
    (s.resumeFrom n c b i).waiting = s.waiting ∧ (s.resumeFrom n c b i).keys = s.keys ∧
    (s.resumeFrom n c b i).comp = s.comp ∧ (s.resumeFrom n c b i).contact = s.contact ∧
    (s.resumeFrom n c b i).tieOrder = s.tieOrder ∧ (s.resumeFrom n c b i).freeCount = s.freeCount ∧
    (s.resumeFrom n c b i).pending = s.pending := by
  unfold State.resumeFrom
  try dsimp only
  (repeat' split) <;> simp

/-! ### Exchange outcomes -/

@[simp] theorem State.helloOk_frame (s : State) (n : Site) (c : SiteCtx) (d : BitVec 64) :
    (s.helloOk n c d).reg = s.reg ∧ (s.helloOk n c d).chans = s.chans ∧ (s.helloOk n c d).comp = s.comp ∧
    (s.helloOk n c d).contact = s.contact ∧ (s.helloOk n c d).pending = s.pending := by
  unfold State.helloOk
  try dsimp only
  (repeat' split) <;> simp

@[simp] theorem State.blankPassed_frame (s : State) (n : Site) (c : SiteCtx) :
    (s.blankPassed n c).reg = s.reg ∧ (s.blankPassed n c).counters = s.counters ∧
    (s.blankPassed n c).chain = s.chain ∧ (s.blankPassed n c).chans = s.chans ∧
    (s.blankPassed n c).waiting = s.waiting ∧ (s.blankPassed n c).keys = s.keys ∧
    (s.blankPassed n c).escrow = s.escrow ∧ (s.blankPassed n c).contact = s.contact ∧
    (s.blankPassed n c).tieOrder = s.tieOrder ∧ (s.blankPassed n c).freeCount = s.freeCount ∧
    (s.blankPassed n c).pending = s.pending := by
  unfold State.blankPassed
  try dsimp only
  (repeat' split) <;> simp

@[simp] theorem State.blankFailed_frame (s : State) (n : Site) (c : SiteCtx) :
    (s.blankFailed n c).reg = s.reg ∧ (s.blankFailed n c).counters = s.counters ∧
    (s.blankFailed n c).mem = s.mem ∧ (s.blankFailed n c).chain = s.chain ∧
    (s.blankFailed n c).chans = s.chans ∧ (s.blankFailed n c).waiting = s.waiting ∧
    (s.blankFailed n c).keys = s.keys ∧ (s.blankFailed n c).comp = s.comp ∧
    (s.blankFailed n c).escrow = s.escrow ∧ (s.blankFailed n c).contact = s.contact ∧
    (s.blankFailed n c).tieOrder = s.tieOrder ∧ (s.blankFailed n c).freeCount = s.freeCount ∧
    (s.blankFailed n c).pending = s.pending := by
  simp [State.blankFailed]

@[simp] theorem State.rowChecked_frame (s : State) (n : Site) (c : SiteCtx) (p : Bool) (v : FuseRow) :
    (s.rowChecked n c p v).reg = s.reg ∧ (s.rowChecked n c p v).mem = s.mem ∧
    (s.rowChecked n c p v).chain = s.chain ∧ (s.rowChecked n c p v).chans = s.chans ∧
    (s.rowChecked n c p v).waiting = s.waiting ∧ (s.rowChecked n c p v).keys = s.keys ∧
    (s.rowChecked n c p v).comp = s.comp ∧ (s.rowChecked n c p v).contact = s.contact ∧
    (s.rowChecked n c p v).tieOrder = s.tieOrder ∧ (s.rowChecked n c p v).freeCount = s.freeCount ∧
    (s.rowChecked n c p v).pending = s.pending := by
  unfold State.rowChecked
  try dsimp only
  (repeat' split) <;> simp

@[simp] theorem State.rowVerified_frame (s : State) (n : Site) (c : SiteCtx) (p : Bool) :
    (s.rowVerified n c p).reg = s.reg ∧ (s.rowVerified n c p).mem = s.mem ∧
    (s.rowVerified n c p).chain = s.chain ∧ (s.rowVerified n c p).chans = s.chans ∧
    (s.rowVerified n c p).waiting = s.waiting ∧ (s.rowVerified n c p).keys = s.keys ∧
    (s.rowVerified n c p).comp = s.comp ∧ (s.rowVerified n c p).contact = s.contact ∧
    (s.rowVerified n c p).tieOrder = s.tieOrder ∧ (s.rowVerified n c p).freeCount = s.freeCount ∧
    (s.rowVerified n c p).pending = s.pending := by
  unfold State.rowVerified
  try dsimp only
  (repeat' split) <;> simp

@[simp] theorem State.spareChecked_frame (s : State) (n : Site) (c : SiteCtx) (p : Bool) :
    (s.spareChecked n c p).reg = s.reg ∧ (s.spareChecked n c p).mem = s.mem ∧
    (s.spareChecked n c p).chain = s.chain ∧ (s.spareChecked n c p).chans = s.chans ∧
    (s.spareChecked n c p).waiting = s.waiting ∧ (s.spareChecked n c p).keys = s.keys ∧
    (s.spareChecked n c p).comp = s.comp ∧ (s.spareChecked n c p).contact = s.contact ∧
    (s.spareChecked n c p).tieOrder = s.tieOrder ∧ (s.spareChecked n c p).freeCount = s.freeCount ∧
    (s.spareChecked n c p).pending = s.pending := by
  unfold State.spareChecked
  try dsimp only
  (repeat' split) <;> simp

@[simp] theorem State.resumeChecked_frame (s : State) (n : Site) (c : SiteCtx) (p : Bool) :
    (s.resumeChecked n c p).reg = s.reg ∧ (s.resumeChecked n c p).mem = s.mem ∧
    (s.resumeChecked n c p).chain = s.chain ∧ (s.resumeChecked n c p).chans = s.chans ∧
    (s.resumeChecked n c p).waiting = s.waiting ∧ (s.resumeChecked n c p).keys = s.keys ∧
    (s.resumeChecked n c p).comp = s.comp ∧ (s.resumeChecked n c p).contact = s.contact ∧
    (s.resumeChecked n c p).tieOrder = s.tieOrder ∧ (s.resumeChecked n c p).freeCount = s.freeCount ∧
    (s.resumeChecked n c p).pending = s.pending := by
  unfold State.resumeChecked
  try dsimp only
  (repeat' split) <;> simp

@[simp] theorem State.rowCheckEnded_frame (s : State) (n : Site) (c : SiteCtx) (d : Option (BitVec 64)) :
    (s.rowCheckEnded n c d).reg = s.reg ∧ (s.rowCheckEnded n c d).chain = s.chain ∧
    (s.rowCheckEnded n c d).chans = s.chans ∧ (s.rowCheckEnded n c d).waiting = s.waiting ∧
    (s.rowCheckEnded n c d).keys = s.keys ∧ (s.rowCheckEnded n c d).contact = s.contact ∧
    (s.rowCheckEnded n c d).tieOrder = s.tieOrder ∧ (s.rowCheckEnded n c d).freeCount = s.freeCount ∧
    (s.rowCheckEnded n c d).pending = s.pending := by
  unfold State.rowCheckEnded
  try dsimp only
  (repeat' split) <;> simp

@[simp] theorem State.armed_frame (s : State) (n : Site) (c : SiteCtx) :
    (s.armed n c).reg = s.reg ∧ (s.armed n c).mem = s.mem ∧ (s.armed n c).chain = s.chain ∧
    (s.armed n c).keys = s.keys ∧ (s.armed n c).comp = s.comp ∧ (s.armed n c).contact = s.contact ∧
    (s.armed n c).tieOrder = s.tieOrder ∧ (s.armed n c).freeCount = s.freeCount ∧
    (s.armed n c).pending = s.pending := by
  unfold State.armed
  try dsimp only
  (repeat' split) <;> simp

@[simp] theorem State.armRefused_frame (s : State) (n : Site) (c : SiteCtx) :
    (s.armRefused n c).reg = s.reg ∧ (s.armRefused n c).mem = s.mem ∧ (s.armRefused n c).chain = s.chain ∧
    (s.armRefused n c).chans = s.chans ∧ (s.armRefused n c).waiting = s.waiting ∧
    (s.armRefused n c).keys = s.keys ∧ (s.armRefused n c).comp = s.comp ∧
    (s.armRefused n c).contact = s.contact ∧ (s.armRefused n c).tieOrder = s.tieOrder ∧
    (s.armRefused n c).freeCount = s.freeCount ∧ (s.armRefused n c).pending = s.pending := by
  unfold State.armRefused
  try dsimp only
  (repeat' split) <;> simp

@[simp] theorem State.sensed_frame (s : State) (n : Site) (c : SiteCtx) (k : Nat) :
    (s.sensed n c k).reg = s.reg ∧ (s.sensed n c k).mem = s.mem ∧ (s.sensed n c k).chain = s.chain ∧
    (s.sensed n c k).chans = s.chans ∧ (s.sensed n c k).waiting = s.waiting ∧ (s.sensed n c k).keys = s.keys ∧
    (s.sensed n c k).comp = s.comp ∧ (s.sensed n c k).contact = s.contact ∧
    (s.sensed n c k).tieOrder = s.tieOrder ∧ (s.sensed n c k).freeCount = s.freeCount ∧
    (s.sensed n c k).pending = s.pending := by
  unfold State.sensed
  try dsimp only
  (repeat' split) <;> simp

@[simp] theorem State.tagRead_frame (s : State) (n : Site) (c : SiteCtx) (p : BitVec 32) (d : BitVec 64) :
    (s.tagRead n c p d).reg = s.reg ∧ (s.tagRead n c p d).chans = s.chans ∧ (s.tagRead n c p d).comp = s.comp ∧
    (s.tagRead n c p d).contact = s.contact ∧ (s.tagRead n c p d).pending = s.pending := by
  unfold State.tagRead
  try dsimp only
  (repeat' split) <;> simp

@[simp] theorem State.contactLost_frame (s : State) (n : Site) (c : SiteCtx) :
    (s.contactLost n c).reg = s.reg ∧ (s.contactLost n c).chans = s.chans ∧ (s.contactLost n c).comp = s.comp ∧
    (s.contactLost n c).contact = s.contact ∧ (s.contactLost n c).pending = s.pending := by
  unfold State.contactLost
  try dsimp only
  (repeat' split) <;> simp

@[simp] theorem State.resend_frame (s : State) (n : Site) (c : SiteCtx) (e : Exchange) :
    (s.resend n c e).reg = s.reg ∧ (s.resend n c e).mem = s.mem ∧ (s.resend n c e).chain = s.chain ∧
    (s.resend n c e).chans = s.chans ∧ (s.resend n c e).waiting = s.waiting ∧ (s.resend n c e).keys = s.keys ∧
    (s.resend n c e).comp = s.comp ∧ (s.resend n c e).dies = s.dies ∧ (s.resend n c e).escrow = s.escrow ∧
    (s.resend n c e).contact = s.contact ∧ (s.resend n c e).tieOrder = s.tieOrder ∧
    (s.resend n c e).freeCount = s.freeCount ∧ (s.resend n c e).pending = s.pending := by
  simp [State.resend]

@[simp] theorem State.exchangeFailed_frame (s : State) (n : Site) (c : SiteCtx) :
    (s.exchangeFailed n c).reg = s.reg ∧ (s.exchangeFailed n c).chans = s.chans ∧
    (s.exchangeFailed n c).comp = s.comp ∧ (s.exchangeFailed n c).contact = s.contact ∧
    (s.exchangeFailed n c).pending = s.pending := by
  unfold State.exchangeFailed
  try dsimp only
  (repeat' split) <;> simp

@[simp] theorem State.attemptFailed_frame (s : State) (n : Site) (c : SiteCtx) (e : Exchange) :
    (s.attemptFailed n c e).reg = s.reg ∧ (s.attemptFailed n c e).chans = s.chans ∧
    (s.attemptFailed n c e).comp = s.comp ∧ (s.attemptFailed n c e).contact = s.contact ∧
    (s.attemptFailed n c e).pending = s.pending := by
  unfold State.attemptFailed
  try dsimp only
  (repeat' split) <;> simp

/-! ### Chain unit -/

@[simp] theorem State.enterHeld_frame (s : State) (r : HoldReason) :
    (s.enterHeld r).counters = s.counters ∧ (s.enterHeld r).sites = s.sites ∧ (s.enterHeld r).chans = s.chans ∧
    (s.enterHeld r).waiting = s.waiting ∧ (s.enterHeld r).keys = s.keys ∧ (s.enterHeld r).comp = s.comp ∧
    (s.enterHeld r).dies = s.dies ∧ (s.enterHeld r).contact = s.contact ∧
    (s.enterHeld r).tieOrder = s.tieOrder ∧ (s.enterHeld r).freeCount = s.freeCount ∧
    (s.enterHeld r).pending = s.pending := by
  simp [State.enterHeld]

@[simp] theorem State.enterWaiting_frame (s : State) (o : Nat) :
    (s.enterWaiting o).counters = s.counters ∧ (s.enterWaiting o).sites = s.sites ∧
    (s.enterWaiting o).chans = s.chans ∧ (s.enterWaiting o).waiting = s.waiting ∧
    (s.enterWaiting o).keys = s.keys ∧ (s.enterWaiting o).comp = s.comp ∧ (s.enterWaiting o).dies = s.dies ∧
    (s.enterWaiting o).contact = s.contact ∧ (s.enterWaiting o).tieOrder = s.tieOrder ∧
    (s.enterWaiting o).freeCount = s.freeCount ∧ (s.enterWaiting o).pending = s.pending := by
  simp [State.enterWaiting]

@[simp] theorem State.chainFault_frame (s : State) (r : HoldReason) :
    (s.chainFault r).counters = s.counters ∧ (s.chainFault r).sites = s.sites ∧
    (s.chainFault r).chans = s.chans ∧ (s.chainFault r).waiting = s.waiting ∧ (s.chainFault r).keys = s.keys ∧
    (s.chainFault r).comp = s.comp ∧ (s.chainFault r).dies = s.dies ∧ (s.chainFault r).contact = s.contact ∧
    (s.chainFault r).tieOrder = s.tieOrder ∧ (s.chainFault r).freeCount = s.freeCount ∧
    (s.chainFault r).pending = s.pending := by
  simp [State.chainFault]

@[simp] theorem State.writeResult_frame (s : State) (o : Nat) (r : BlockResult) :
    (s.writeResult o r).reg = s.reg ∧ (s.writeResult o r).counters = s.counters ∧
    (s.writeResult o r).chain = s.chain ∧ (s.writeResult o r).sites = s.sites ∧
    (s.writeResult o r).chans = s.chans ∧ (s.writeResult o r).waiting = s.waiting ∧
    (s.writeResult o r).keys = s.keys ∧ (s.writeResult o r).comp = s.comp ∧ (s.writeResult o r).dies = s.dies ∧
    (s.writeResult o r).escrow = s.escrow ∧ (s.writeResult o r).contact = s.contact ∧
    (s.writeResult o r).tieOrder = s.tieOrder ∧ (s.writeResult o r).freeCount = s.freeCount ∧
    (s.writeResult o r).pending = s.pending := by
  simp [State.writeResult]

@[simp] theorem State.closeBlock_frame (s : State) (o : Nat) (b : Bool) :
    (s.closeBlock o b).counters = s.counters ∧ (s.closeBlock o b).sites = s.sites ∧
    (s.closeBlock o b).chans = s.chans ∧ (s.closeBlock o b).waiting = s.waiting ∧
    (s.closeBlock o b).keys = s.keys ∧ (s.closeBlock o b).comp = s.comp ∧ (s.closeBlock o b).dies = s.dies ∧
    (s.closeBlock o b).escrow = s.escrow ∧ (s.closeBlock o b).contact = s.contact ∧
    (s.closeBlock o b).tieOrder = s.tieOrder ∧ (s.closeBlock o b).freeCount = s.freeCount ∧
    (s.closeBlock o b).pending = s.pending := by
  unfold State.closeBlock; simp only []; split <;> simp

@[simp] theorem State.holdBlock_frame (s : State) (b : Block) :
    (s.holdBlock b).reg = s.reg ∧ (s.holdBlock b).counters = s.counters ∧ (s.holdBlock b).mem = s.mem ∧
    (s.holdBlock b).sites = s.sites ∧ (s.holdBlock b).chans = s.chans ∧ (s.holdBlock b).waiting = s.waiting ∧
    (s.holdBlock b).keys = s.keys ∧ (s.holdBlock b).comp = s.comp ∧ (s.holdBlock b).dies = s.dies ∧
    (s.holdBlock b).escrow = s.escrow ∧ (s.holdBlock b).contact = s.contact ∧
    (s.holdBlock b).tieOrder = s.tieOrder ∧ (s.holdBlock b).freeCount = s.freeCount ∧
    (s.holdBlock b).pending = s.pending := by
  simp [State.holdBlock]

@[simp] theorem State.takeEntry_frame (s : State) (e : SiteEntry × Nat) :
    (s.takeEntry e).reg = s.reg ∧ (s.takeEntry e).counters = s.counters ∧ (s.takeEntry e).chain = s.chain ∧
    (s.takeEntry e).chans = s.chans ∧ (s.takeEntry e).waiting = s.waiting ∧ (s.takeEntry e).keys = s.keys ∧
    (s.takeEntry e).comp = s.comp ∧ (s.takeEntry e).dies = s.dies ∧ (s.takeEntry e).escrow = s.escrow ∧
    (s.takeEntry e).contact = s.contact ∧ (s.takeEntry e).tieOrder = s.tieOrder ∧
    (s.takeEntry e).freeCount = s.freeCount ∧ (s.takeEntry e).pending = s.pending := by
  unfold State.takeEntry; simp only []; split <;> simp

@[simp] theorem foldl_takeEntry_frame (l : List (SiteEntry × Nat)) (s : State) :
    (l.foldl State.takeEntry s).reg = s.reg ∧
    (l.foldl State.takeEntry s).counters = s.counters ∧
    (l.foldl State.takeEntry s).chain = s.chain ∧
    (l.foldl State.takeEntry s).chans = s.chans ∧
    (l.foldl State.takeEntry s).waiting = s.waiting ∧
    (l.foldl State.takeEntry s).keys = s.keys ∧
    (l.foldl State.takeEntry s).comp = s.comp ∧
    (l.foldl State.takeEntry s).dies = s.dies ∧
    (l.foldl State.takeEntry s).escrow = s.escrow ∧
    (l.foldl State.takeEntry s).contact = s.contact ∧
    (l.foldl State.takeEntry s).tieOrder = s.tieOrder ∧
    (l.foldl State.takeEntry s).freeCount = s.freeCount ∧
    (l.foldl State.takeEntry s).pending = s.pending := by
  exact ⟨foldl_keeps _ State.reg (by simp) l s,
    foldl_keeps _ State.counters (by simp) l s,
    foldl_keeps _ State.chain (by simp) l s,
    foldl_keeps _ State.chans (by simp) l s,
    foldl_keeps _ State.waiting (by simp) l s,
    foldl_keeps _ State.keys (by simp) l s,
    foldl_keeps _ State.comp (by simp) l s,
    foldl_keeps _ State.dies (by simp) l s,
    foldl_keeps _ State.escrow (by simp) l s,
    foldl_keeps _ State.contact (by simp) l s,
    foldl_keeps _ State.tieOrder (by simp) l s,
    foldl_keeps _ State.freeCount (by simp) l s,
    foldl_keeps _ State.pending (by simp) l s⟩

@[simp] theorem State.startEntries_frame (s : State) (b : Block) (es : List SiteEntry) :
    (s.startEntries b es).reg = s.reg ∧ (s.startEntries b es).counters = s.counters ∧
    (s.startEntries b es).chans = s.chans ∧ (s.startEntries b es).waiting = s.waiting ∧
    (s.startEntries b es).keys = s.keys ∧ (s.startEntries b es).comp = s.comp ∧
    (s.startEntries b es).dies = s.dies ∧ (s.startEntries b es).escrow = s.escrow ∧
    (s.startEntries b es).contact = s.contact ∧ (s.startEntries b es).tieOrder = s.tieOrder ∧
    (s.startEntries b es).freeCount = s.freeCount ∧ (s.startEntries b es).pending = s.pending := by
  simp [State.startEntries]

@[simp] theorem State.openWafer_frame (s : State) (w : WaferContext) :
    (s.openWafer w).reg = s.reg ∧ (s.openWafer w).mem = s.mem ∧ (s.openWafer w).sites = s.sites ∧
    (s.openWafer w).chans = s.chans ∧ (s.openWafer w).waiting = s.waiting ∧ (s.openWafer w).keys = s.keys ∧
    (s.openWafer w).comp = s.comp ∧ (s.openWafer w).contact = s.contact ∧
    (s.openWafer w).tieOrder = s.tieOrder ∧ (s.openWafer w).freeCount = s.freeCount ∧
    (s.openWafer w).pending = s.pending := by
  simp [State.openWafer]

@[simp] theorem State.takeLoadKeys_frame (s : State) (b : Block) :
    ((s.takeLoadKeys b).1).reg = s.reg ∧ ((s.takeLoadKeys b).1).counters = s.counters ∧
    ((s.takeLoadKeys b).1).mem = s.mem ∧ ((s.takeLoadKeys b).1).sites = s.sites ∧
    ((s.takeLoadKeys b).1).chans = s.chans ∧ ((s.takeLoadKeys b).1).waiting = s.waiting ∧
    ((s.takeLoadKeys b).1).comp = s.comp ∧ ((s.takeLoadKeys b).1).dies = s.dies ∧
    ((s.takeLoadKeys b).1).escrow = s.escrow ∧ ((s.takeLoadKeys b).1).contact = s.contact ∧
    ((s.takeLoadKeys b).1).tieOrder = s.tieOrder ∧ ((s.takeLoadKeys b).1).freeCount = s.freeCount ∧
    ((s.takeLoadKeys b).1).pending = s.pending := by
  unfold State.takeLoadKeys
  try dsimp only
  (repeat' split) <;> simp

@[simp] theorem State.takeWaferStart_frame (s : State) (b : Block) :
    ((s.takeWaferStart b).1).reg = s.reg ∧ ((s.takeWaferStart b).1).mem = s.mem ∧
    ((s.takeWaferStart b).1).sites = s.sites ∧ ((s.takeWaferStart b).1).chans = s.chans ∧
    ((s.takeWaferStart b).1).waiting = s.waiting ∧ ((s.takeWaferStart b).1).keys = s.keys ∧
    ((s.takeWaferStart b).1).comp = s.comp ∧ ((s.takeWaferStart b).1).contact = s.contact ∧
    ((s.takeWaferStart b).1).tieOrder = s.tieOrder ∧ ((s.takeWaferStart b).1).freeCount = s.freeCount ∧
    ((s.takeWaferStart b).1).pending = s.pending := by
  unfold State.takeWaferStart
  try dsimp only
  (repeat' split) <;> simp

@[simp] theorem State.takeTouchdown_frame (s : State) (b : Block) :
    ((s.takeTouchdown b).1).reg = s.reg ∧ ((s.takeTouchdown b).1).counters = s.counters ∧
    ((s.takeTouchdown b).1).chans = s.chans ∧ ((s.takeTouchdown b).1).waiting = s.waiting ∧
    ((s.takeTouchdown b).1).keys = s.keys ∧ ((s.takeTouchdown b).1).comp = s.comp ∧
    ((s.takeTouchdown b).1).dies = s.dies ∧ ((s.takeTouchdown b).1).escrow = s.escrow ∧
    ((s.takeTouchdown b).1).contact = s.contact ∧ ((s.takeTouchdown b).1).tieOrder = s.tieOrder ∧
    ((s.takeTouchdown b).1).freeCount = s.freeCount ∧ ((s.takeTouchdown b).1).pending = s.pending := by
  unfold State.takeTouchdown
  try dsimp only
  (repeat' split) <;> simp

@[simp] theorem State.takeWaferEnd_frame (s : State) (b : Block) :
    ((s.takeWaferEnd b).1).reg = s.reg ∧ ((s.takeWaferEnd b).1).counters = s.counters ∧
    ((s.takeWaferEnd b).1).mem = s.mem ∧ ((s.takeWaferEnd b).1).sites = s.sites ∧
    ((s.takeWaferEnd b).1).chans = s.chans ∧ ((s.takeWaferEnd b).1).waiting = s.waiting ∧
    ((s.takeWaferEnd b).1).keys = s.keys ∧ ((s.takeWaferEnd b).1).comp = s.comp ∧
    ((s.takeWaferEnd b).1).escrow = s.escrow ∧ ((s.takeWaferEnd b).1).contact = s.contact ∧
    ((s.takeWaferEnd b).1).tieOrder = s.tieOrder ∧ ((s.takeWaferEnd b).1).freeCount = s.freeCount ∧
    ((s.takeWaferEnd b).1).pending = s.pending := by
  unfold State.takeWaferEnd
  try dsimp only
  (repeat' split) <;> simp

@[simp] theorem State.takeStats_frame (s : State) (b : Block) :
    ((s.takeStats b).1).reg = s.reg ∧ ((s.takeStats b).1).chain = s.chain ∧
    ((s.takeStats b).1).sites = s.sites ∧ ((s.takeStats b).1).chans = s.chans ∧
    ((s.takeStats b).1).waiting = s.waiting ∧ ((s.takeStats b).1).keys = s.keys ∧
    ((s.takeStats b).1).comp = s.comp ∧ ((s.takeStats b).1).dies = s.dies ∧
    ((s.takeStats b).1).escrow = s.escrow ∧ ((s.takeStats b).1).contact = s.contact ∧
    ((s.takeStats b).1).tieOrder = s.tieOrder ∧ ((s.takeStats b).1).freeCount = s.freeCount ∧
    ((s.takeStats b).1).pending = s.pending := by
  unfold State.takeStats
  try dsimp only
  (repeat' split) <;> simp

@[simp] theorem State.takeDump_frame (s : State) (b : Block) :
    ((s.takeDump b).1).reg = s.reg ∧ ((s.takeDump b).1).counters = s.counters ∧
    ((s.takeDump b).1).mem = s.mem ∧ ((s.takeDump b).1).sites = s.sites ∧ ((s.takeDump b).1).chans = s.chans ∧
    ((s.takeDump b).1).waiting = s.waiting ∧ ((s.takeDump b).1).keys = s.keys ∧
    ((s.takeDump b).1).comp = s.comp ∧ ((s.takeDump b).1).escrow = s.escrow ∧
    ((s.takeDump b).1).contact = s.contact ∧ ((s.takeDump b).1).tieOrder = s.tieOrder ∧
    ((s.takeDump b).1).freeCount = s.freeCount ∧ ((s.takeDump b).1).pending = s.pending := by
  unfold State.takeDump
  try dsimp only
  (repeat' split) <;> simp

@[simp] theorem State.takeBlock_frame (s : State) (o : Nat) :
    ((s.takeBlock o).1).reg = s.reg ∧ ((s.takeBlock o).1).chans = s.chans ∧
    ((s.takeBlock o).1).waiting = s.waiting ∧ ((s.takeBlock o).1).comp = s.comp ∧
    ((s.takeBlock o).1).contact = s.contact ∧ ((s.takeBlock o).1).tieOrder = s.tieOrder ∧
    ((s.takeBlock o).1).freeCount = s.freeCount ∧ ((s.takeBlock o).1).pending = s.pending := by
  unfold State.takeBlock; simp only []; split <;> simp

@[simp] theorem State.arrive_frame (fuel : Nat) (s : State) (o : Nat) :
    (State.arrive fuel s o).chans = s.chans ∧
    (State.arrive fuel s o).waiting = s.waiting ∧
    (State.arrive fuel s o).comp = s.comp ∧
    (State.arrive fuel s o).contact = s.contact ∧
    (State.arrive fuel s o).tieOrder = s.tieOrder ∧
    (State.arrive fuel s o).freeCount = s.freeCount ∧
    (State.arrive fuel s o).pending = s.pending := by
  induction fuel generalizing s o with
  | zero => simp [State.arrive]
  | succ fuel ih =>
    have hb := State.takeBlock_frame s o
    unfold State.arrive
    split
    · split
      · next t h => rw [h] at hb; simp_all
      · next t r h =>
        rw [h] at hb
        simp only []
        split
        · simp_all
        · simp_all
    · simp

@[simp] theorem State.arriveAt_frame (s : State) (o : Nat) :
    (s.arriveAt o).chans = s.chans ∧ (s.arriveAt o).waiting = s.waiting ∧ (s.arriveAt o).comp = s.comp ∧
    (s.arriveAt o).contact = s.contact ∧ (s.arriveAt o).tieOrder = s.tieOrder ∧
    (s.arriveAt o).freeCount = s.freeCount ∧ (s.arriveAt o).pending = s.pending := by
  simp [State.arriveAt]

@[simp] theorem State.followLink_frame (s : State) (o : Nat) :
    (s.followLink o).chans = s.chans ∧ (s.followLink o).waiting = s.waiting ∧ (s.followLink o).comp = s.comp ∧
    (s.followLink o).contact = s.contact ∧ (s.followLink o).tieOrder = s.tieOrder ∧
    (s.followLink o).freeCount = s.freeCount ∧ (s.followLink o).pending = s.pending := by
  unfold State.followLink
  try dsimp only
  (repeat' split) <;> simp

@[simp] theorem State.endBlock_frame (s : State) (b : Block) :
    (s.endBlock b).chans = s.chans ∧ (s.endBlock b).waiting = s.waiting ∧ (s.endBlock b).comp = s.comp ∧
    (s.endBlock b).contact = s.contact ∧ (s.endBlock b).tieOrder = s.tieOrder ∧
    (s.endBlock b).freeCount = s.freeCount ∧ (s.endBlock b).pending = s.pending := by
  simp [State.endBlock]

@[simp] theorem State.blockDone_frame (s : State) (b : Block) (r : BlockResult) :
    (s.blockDone b r).chans = s.chans ∧ (s.blockDone b r).waiting = s.waiting ∧
    (s.blockDone b r).comp = s.comp ∧ (s.blockDone b r).contact = s.contact ∧
    (s.blockDone b r).tieOrder = s.tieOrder ∧ (s.blockDone b r).freeCount = s.freeCount ∧
    (s.blockDone b r).pending = s.pending := by
  simp [State.blockDone]

@[simp] theorem State.readHeaderStep_frame (s : State) :
    (s.readHeaderStep).chans = s.chans ∧ (s.readHeaderStep).waiting = s.waiting ∧
    (s.readHeaderStep).comp = s.comp ∧ (s.readHeaderStep).contact = s.contact ∧
    (s.readHeaderStep).tieOrder = s.tieOrder ∧ (s.readHeaderStep).freeCount = s.freeCount ∧
    (s.readHeaderStep).pending = s.pending := by
  unfold State.readHeaderStep; simp only []; split <;> simp

@[simp] theorem State.settleTouchdown_frame (s : State) :
    (s.settleTouchdown).chans = s.chans ∧ (s.settleTouchdown).waiting = s.waiting ∧
    (s.settleTouchdown).comp = s.comp ∧ (s.settleTouchdown).contact = s.contact ∧
    (s.settleTouchdown).tieOrder = s.tieOrder ∧ (s.settleTouchdown).freeCount = s.freeCount ∧
    (s.settleTouchdown).pending = s.pending := by
  unfold State.settleTouchdown
  try dsimp only
  (repeat' split) <;> simp

@[simp] theorem foldl_releaseSite_frame (l : List Site) (s : State) :
    (l.foldl State.releaseSite s).reg = s.reg ∧
    (l.foldl State.releaseSite s).chain = s.chain ∧
    (l.foldl State.releaseSite s).chans = s.chans ∧
    (l.foldl State.releaseSite s).waiting = s.waiting ∧
    (l.foldl State.releaseSite s).contact = s.contact ∧
    (l.foldl State.releaseSite s).tieOrder = s.tieOrder ∧
    (l.foldl State.releaseSite s).freeCount = s.freeCount ∧
    (l.foldl State.releaseSite s).pending = s.pending := by
  exact ⟨foldl_keeps _ State.reg (by simp) l s,
    foldl_keeps _ State.chain (by simp) l s,
    foldl_keeps _ State.chans (by simp) l s,
    foldl_keeps _ State.waiting (by simp) l s,
    foldl_keeps _ State.contact (by simp) l s,
    foldl_keeps _ State.tieOrder (by simp) l s,
    foldl_keeps _ State.freeCount (by simp) l s,
    foldl_keeps _ State.pending (by simp) l s⟩

@[simp] theorem State.takeRelease_frame (s : State) (b : Block) :
    (s.takeRelease b).contact = s.contact ∧ (s.takeRelease b).pending = s.pending := by
  simp [State.takeRelease]

@[simp] theorem State.releaseIfRunning_frame (s : State) :
    (s.releaseIfRunning).contact = s.contact ∧ (s.releaseIfRunning).pending = s.pending := by
  unfold State.releaseIfRunning
  try dsimp only
  (repeat' split) <;> simp

@[simp] theorem State.nudgeChain_frame (s : State) :
    (s.nudgeChain).chans = s.chans ∧ (s.nudgeChain).waiting = s.waiting ∧ (s.nudgeChain).comp = s.comp ∧
    (s.nudgeChain).contact = s.contact ∧ (s.nudgeChain).tieOrder = s.tieOrder ∧
    (s.nudgeChain).freeCount = s.freeCount ∧ (s.nudgeChain).pending = s.pending := by
  unfold State.nudgeChain
  try dsimp only
  (repeat' split) <;> simp

@[simp] theorem State.continueChain_frame (s : State) :
    (s.continueChain).chans = s.chans ∧ (s.continueChain).waiting = s.waiting ∧
    (s.continueChain).comp = s.comp ∧ (s.continueChain).contact = s.contact ∧
    (s.continueChain).tieOrder = s.tieOrder ∧ (s.continueChain).freeCount = s.freeCount ∧
    (s.continueChain).pending = s.pending := by
  unfold State.continueChain
  try dsimp only
  (repeat' split) <;> simp

@[simp] theorem State.startWaiting_frame (s : State) :
    (s.startWaiting).chans = s.chans ∧ (s.startWaiting).waiting = s.waiting ∧ (s.startWaiting).comp = s.comp ∧
    (s.startWaiting).contact = s.contact ∧ (s.startWaiting).tieOrder = s.tieOrder ∧
    (s.startWaiting).freeCount = s.freeCount ∧ (s.startWaiting).pending = s.pending := by
  unfold State.startWaiting
  try dsimp only
  (repeat' split) <;> simp

/-! ### Key unit, composition, die table and writer events -/

@[simp] theorem State.loadKeysDone_frame (s : State) (r : BlockResult) :
    (s.loadKeysDone r).chans = s.chans ∧ (s.loadKeysDone r).waiting = s.waiting ∧
    (s.loadKeysDone r).comp = s.comp ∧ (s.loadKeysDone r).contact = s.contact ∧
    (s.loadKeysDone r).tieOrder = s.tieOrder ∧ (s.loadKeysDone r).freeCount = s.freeCount ∧
    (s.loadKeysDone r).pending = s.pending := by
  unfold State.loadKeysDone
  try dsimp only
  (repeat' split) <;> simp

@[simp] theorem State.refuseHead_frame (s : State) (r : DerivRequest) (x : SiteResult) :
    (s.refuseHead r x).reg = s.reg ∧ (s.refuseHead r x).chans = s.chans ∧ (s.refuseHead r x).comp = s.comp ∧
    (s.refuseHead r x).contact = s.contact ∧ (s.refuseHead r x).pending = s.pending := by
  unfold State.refuseHead; simp only []; split <;> simp

@[simp] theorem State.beginDerivation_frame (s : State) (r : DerivRequest) :
    (s.beginDerivation r).reg = s.reg ∧ (s.beginDerivation r).counters = s.counters ∧
    (s.beginDerivation r).mem = s.mem ∧ (s.beginDerivation r).chain = s.chain ∧
    (s.beginDerivation r).sites = s.sites ∧ (s.beginDerivation r).chans = s.chans ∧
    (s.beginDerivation r).waiting = s.waiting ∧ (s.beginDerivation r).comp = s.comp ∧
    (s.beginDerivation r).dies = s.dies ∧ (s.beginDerivation r).escrow = s.escrow ∧
    (s.beginDerivation r).contact = s.contact ∧ (s.beginDerivation r).tieOrder = s.tieOrder ∧
    (s.beginDerivation r).freeCount = s.freeCount ∧ (s.beginDerivation r).pending = s.pending := by
  simp [State.beginDerivation]

@[simp] theorem State.reserveFor_frame (s : State) (r : DerivRequest) :
    (s.reserveFor r).reg = s.reg ∧ (s.reserveFor r).chans = s.chans ∧ (s.reserveFor r).comp = s.comp ∧
    (s.reserveFor r).contact = s.contact ∧ (s.reserveFor r).pending = s.pending := by
  unfold State.reserveFor
  try dsimp only
  (repeat' split) <;> simp

@[simp] theorem State.serveHead_frame (s : State) (r : DerivRequest) :
    (s.serveHead r).reg = s.reg ∧ (s.serveHead r).chans = s.chans ∧ (s.serveHead r).comp = s.comp ∧
    (s.serveHead r).contact = s.contact ∧ (s.serveHead r).pending = s.pending := by
  unfold State.serveHead
  try dsimp only
  (repeat' split) <;> simp

@[simp] theorem State.serveQueue_frame (s : State) :
    (s.serveQueue).reg = s.reg ∧ (s.serveQueue).chans = s.chans ∧ (s.serveQueue).comp = s.comp ∧
    (s.serveQueue).contact = s.contact ∧ (s.serveQueue).pending = s.pending := by
  unfold State.serveQueue
  try dsimp only
  (repeat' split) <;> simp

@[simp] theorem State.takeDerivation_frame (s : State) (n : Site) (c : SiteCtx) (d : Derivation) :
    (s.takeDerivation n c d).reg = s.reg ∧ (s.takeDerivation n c d).counters = s.counters ∧
    (s.takeDerivation n c d).mem = s.mem ∧ (s.takeDerivation n c d).chain = s.chain ∧
    (s.takeDerivation n c d).chans = s.chans ∧ (s.takeDerivation n c d).waiting = s.waiting ∧
    (s.takeDerivation n c d).keys = s.keys ∧ (s.takeDerivation n c d).comp = s.comp ∧
    (s.takeDerivation n c d).contact = s.contact ∧ (s.takeDerivation n c d).tieOrder = s.tieOrder ∧
    (s.takeDerivation n c d).freeCount = s.freeCount ∧ (s.takeDerivation n c d).pending = s.pending := by
  simp [State.takeDerivation]

@[simp] theorem State.identityReturned_frame (s : State) (n : Site) (c : SiteCtx) (i : Identity) :
    (s.identityReturned n c i).reg = s.reg ∧ (s.identityReturned n c i).counters = s.counters ∧
    (s.identityReturned n c i).chain = s.chain ∧ (s.identityReturned n c i).chans = s.chans ∧
    (s.identityReturned n c i).waiting = s.waiting ∧ (s.identityReturned n c i).keys = s.keys ∧
    (s.identityReturned n c i).comp = s.comp ∧ (s.identityReturned n c i).escrow = s.escrow ∧
    (s.identityReturned n c i).contact = s.contact ∧ (s.identityReturned n c i).tieOrder = s.tieOrder ∧
    (s.identityReturned n c i).freeCount = s.freeCount ∧ (s.identityReturned n c i).pending = s.pending := by
  unfold State.identityReturned
  try dsimp only
  (repeat' split) <;> simp

@[simp] theorem State.composed_frame (s : State) (r : CompRequest) (x : Except ComposeError Identity) :
    (s.composed r x).reg = s.reg ∧ (s.composed r x).chans = s.chans ∧ (s.composed r x).comp = s.comp ∧
    (s.composed r x).contact = s.contact ∧ (s.composed r x).pending = s.pending := by
  unfold State.composed
  try dsimp only
  (repeat' split) <;> simp

@[simp] theorem State.absentDie_frame (s : State) (n : Site) (c : SiteCtx) :
    (s.absentDie n c).reg = s.reg ∧ (s.absentDie n c).chans = s.chans ∧ (s.absentDie n c).comp = s.comp ∧
    (s.absentDie n c).contact = s.contact ∧ (s.absentDie n c).pending = s.pending := by
  unfold State.absentDie
  try dsimp only
  (repeat' split) <;> simp

@[simp] theorem State.resumeDie_frame (s : State) (n : Site) (c : SiteCtx) (p : ParkedContext) :
    (s.resumeDie n c p).reg = s.reg ∧ (s.resumeDie n c p).mem = s.mem ∧ (s.resumeDie n c p).chain = s.chain ∧
    (s.resumeDie n c p).chans = s.chans ∧ (s.resumeDie n c p).waiting = s.waiting ∧
    (s.resumeDie n c p).keys = s.keys ∧ (s.resumeDie n c p).comp = s.comp ∧
    (s.resumeDie n c p).contact = s.contact ∧ (s.resumeDie n c p).tieOrder = s.tieOrder ∧
    (s.resumeDie n c p).freeCount = s.freeCount ∧ (s.resumeDie n c p).pending = s.pending := by
  unfold State.resumeDie; simp only []; split <;> simp

@[simp] theorem State.lookedUp_frame (s : State) (n : Site) (c : SiteCtx) (d : Die) :
    (s.lookedUp n c d).reg = s.reg ∧ (s.lookedUp n c d).chans = s.chans ∧ (s.lookedUp n c d).comp = s.comp ∧
    (s.lookedUp n c d).contact = s.contact ∧ (s.lookedUp n c d).pending = s.pending := by
  unfold State.lookedUp
  try dsimp only
  (repeat' split) <;> simp

@[simp] theorem State.placeGranted_frame (s : State) (n : Site) (c : SiteCtx) :
    (s.placeGranted n c).reg = s.reg ∧ (s.placeGranted n c).chain = s.chain ∧
    (s.placeGranted n c).chans = s.chans ∧ (s.placeGranted n c).waiting = s.waiting ∧
    (s.placeGranted n c).comp = s.comp ∧ (s.placeGranted n c).contact = s.contact ∧
    (s.placeGranted n c).tieOrder = s.tieOrder ∧ (s.placeGranted n c).freeCount = s.freeCount ∧
    (s.placeGranted n c).pending = s.pending := by
  unfold State.placeGranted
  try dsimp only
  (repeat' split) <;> simp

@[simp] theorem State.joinPark_frame (s : State) (n : Site) (c : SiteCtx) :
    (s.joinPark n c).reg = s.reg ∧ (s.joinPark n c).chain = s.chain ∧ (s.joinPark n c).chans = s.chans ∧
    (s.joinPark n c).waiting = s.waiting ∧ (s.joinPark n c).keys = s.keys ∧ (s.joinPark n c).comp = s.comp ∧
    (s.joinPark n c).escrow = s.escrow ∧ (s.joinPark n c).contact = s.contact ∧ (s.joinPark n c).tieOrder = s.tieOrder ∧
    (s.joinPark n c).freeCount = s.freeCount ∧ (s.joinPark n c).pending = s.pending := by
  simp [State.joinPark]

@[simp] theorem State.takePark_frame (s : State) (n : Site) (c : SiteCtx) :
    (s.takePark n c).reg = s.reg ∧ (s.takePark n c).chans = s.chans ∧ (s.takePark n c).comp = s.comp ∧
    (s.takePark n c).contact = s.contact ∧ (s.takePark n c).pending = s.pending := by
  simp [State.takePark]

@[simp] theorem State.evictFor_frame (s : State) (n : Site) :
    (s.evictFor n).reg = s.reg ∧ (s.evictFor n).mem = s.mem ∧ (s.evictFor n).chain = s.chain ∧
    (s.evictFor n).sites = s.sites ∧ (s.evictFor n).chans = s.chans ∧ (s.evictFor n).waiting = s.waiting ∧
    (s.evictFor n).keys = s.keys ∧ (s.evictFor n).comp = s.comp ∧ (s.evictFor n).contact = s.contact ∧
    (s.evictFor n).tieOrder = s.tieOrder ∧ (s.evictFor n).freeCount = s.freeCount ∧
    (s.evictFor n).pending = s.pending := by
  unfold State.evictFor
  try dsimp only
  (repeat' split) <;> simp

@[simp] theorem State.evictDry_frame (s : State) :
    (s.evictDry).reg = s.reg ∧ (s.evictDry).mem = s.mem ∧ (s.evictDry).chain = s.chain ∧
    (s.evictDry).sites = s.sites ∧ (s.evictDry).chans = s.chans ∧ (s.evictDry).waiting = s.waiting ∧
    (s.evictDry).keys = s.keys ∧ (s.evictDry).comp = s.comp ∧ (s.evictDry).escrow = s.escrow ∧
    (s.evictDry).contact = s.contact ∧ (s.evictDry).tieOrder = s.tieOrder ∧
    (s.evictDry).freeCount = s.freeCount ∧ (s.evictDry).pending = s.pending := by
  unfold State.evictDry
  try dsimp only
  (repeat' split) <;> simp

@[simp] theorem State.parkDry_frame (s : State) (n : Site) (c : SiteCtx) :
    (s.parkDry n c).reg = s.reg ∧ (s.parkDry n c).chans = s.chans ∧ (s.parkDry n c).comp = s.comp ∧
    (s.parkDry n c).contact = s.contact ∧ (s.parkDry n c).pending = s.pending := by
  unfold State.parkDry; simp only []; split <;> simp

@[simp] theorem State.voidLive_frame (s : State) (p : ParkedContext) :
    (s.voidLive p).reg = s.reg ∧ (s.voidLive p).counters = s.counters ∧ (s.voidLive p).mem = s.mem ∧
    (s.voidLive p).chain = s.chain ∧ (s.voidLive p).sites = s.sites ∧ (s.voidLive p).chans = s.chans ∧
    (s.voidLive p).waiting = s.waiting ∧ (s.voidLive p).keys = s.keys ∧ (s.voidLive p).comp = s.comp ∧
    (s.voidLive p).contact = s.contact ∧ (s.voidLive p).tieOrder = s.tieOrder ∧
    (s.voidLive p).freeCount = s.freeCount ∧ (s.voidLive p).pending = s.pending := by
  simp [State.voidLive]

@[simp] theorem State.voidDry_frame (s : State) (p : ParkedContext) :
    (s.voidDry p).reg = s.reg ∧ (s.voidDry p).mem = s.mem ∧ (s.voidDry p).chain = s.chain ∧
    (s.voidDry p).sites = s.sites ∧ (s.voidDry p).chans = s.chans ∧ (s.voidDry p).waiting = s.waiting ∧
    (s.voidDry p).keys = s.keys ∧ (s.voidDry p).comp = s.comp ∧ (s.voidDry p).escrow = s.escrow ∧
    (s.voidDry p).contact = s.contact ∧ (s.voidDry p).tieOrder = s.tieOrder ∧
    (s.voidDry p).freeCount = s.freeCount ∧ (s.voidDry p).pending = s.pending := by
  simp [State.voidDry]

@[simp] theorem State.voidHeld_frame (s : State) :
    s.voidHeld.reg = s.reg ∧
    s.voidHeld.mem = s.mem ∧
    s.voidHeld.chain = s.chain ∧
    s.voidHeld.sites = s.sites ∧
    s.voidHeld.chans = s.chans ∧
    s.voidHeld.waiting = s.waiting ∧
    s.voidHeld.keys = s.keys ∧
    s.voidHeld.comp = s.comp ∧
    s.voidHeld.contact = s.contact ∧
    s.voidHeld.tieOrder = s.tieOrder ∧
    s.voidHeld.freeCount = s.freeCount ∧
    s.voidHeld.pending = s.pending := by
  unfold State.voidHeld
  split
  · exact ⟨foldl_keeps _ State.reg (by simp) _ s,
      foldl_keeps _ State.mem (by simp) _ s,
      foldl_keeps _ State.chain (by simp) _ s,
      foldl_keeps _ State.sites (by simp) _ s,
      foldl_keeps _ State.chans (by simp) _ s,
      foldl_keeps _ State.waiting (by simp) _ s,
      foldl_keeps _ State.keys (by simp) _ s,
      foldl_keeps _ State.comp (by simp) _ s,
      foldl_keeps _ State.contact (by simp) _ s,
      foldl_keeps _ State.tieOrder (by simp) _ s,
      foldl_keeps _ State.freeCount (by simp) _ s,
      foldl_keeps _ State.pending (by simp) _ s⟩
  · exact ⟨foldl_keeps _ State.reg (by simp) _ s,
      foldl_keeps _ State.mem (by simp) _ s,
      foldl_keeps _ State.chain (by simp) _ s,
      foldl_keeps _ State.sites (by simp) _ s,
      foldl_keeps _ State.chans (by simp) _ s,
      foldl_keeps _ State.waiting (by simp) _ s,
      foldl_keeps _ State.keys (by simp) _ s,
      foldl_keeps _ State.comp (by simp) _ s,
      foldl_keeps _ State.contact (by simp) _ s,
      foldl_keeps _ State.tieOrder (by simp) _ s,
      foldl_keeps _ State.freeCount (by simp) _ s,
      foldl_keeps _ State.pending (by simp) _ s⟩

@[simp] theorem State.voidAllAnswered_frame (s : State) :
    (s.voidAllAnswered).reg = s.reg ∧ (s.voidAllAnswered).counters = s.counters ∧
    (s.voidAllAnswered).mem = s.mem ∧ (s.voidAllAnswered).chain = s.chain ∧
    (s.voidAllAnswered).sites = s.sites ∧ (s.voidAllAnswered).chans = s.chans ∧
    (s.voidAllAnswered).waiting = s.waiting ∧ (s.voidAllAnswered).keys = s.keys ∧
    (s.voidAllAnswered).comp = s.comp ∧ (s.voidAllAnswered).dies = s.dies ∧
    (s.voidAllAnswered).contact = s.contact ∧ (s.voidAllAnswered).tieOrder = s.tieOrder ∧
    (s.voidAllAnswered).freeCount = s.freeCount ∧ (s.voidAllAnswered).pending = s.pending := by
  unfold State.voidAllAnswered
  try dsimp only
  (repeat' split) <;> simp

@[simp] theorem State.writeDump_frame (s : State) (a b : Nat) :
    (s.writeDump a b).reg = s.reg ∧ (s.writeDump a b).counters = s.counters ∧
    (s.writeDump a b).chain = s.chain ∧ (s.writeDump a b).sites = s.sites ∧
    (s.writeDump a b).chans = s.chans ∧ (s.writeDump a b).waiting = s.waiting ∧
    (s.writeDump a b).keys = s.keys ∧ (s.writeDump a b).comp = s.comp ∧ (s.writeDump a b).dies = s.dies ∧
    (s.writeDump a b).escrow = s.escrow ∧ (s.writeDump a b).contact = s.contact ∧
    (s.writeDump a b).tieOrder = s.tieOrder ∧ (s.writeDump a b).freeCount = s.freeCount ∧
    (s.writeDump a b).pending = s.pending := by
  simp [State.writeDump]

@[simp] theorem State.writeDumpCounts_frame (s : State) (b : Block) (n : Nat) :
    (s.writeDumpCounts b n).reg = s.reg ∧ (s.writeDumpCounts b n).counters = s.counters ∧
    (s.writeDumpCounts b n).chain = s.chain ∧ (s.writeDumpCounts b n).sites = s.sites ∧
    (s.writeDumpCounts b n).chans = s.chans ∧ (s.writeDumpCounts b n).waiting = s.waiting ∧
    (s.writeDumpCounts b n).keys = s.keys ∧ (s.writeDumpCounts b n).comp = s.comp ∧
    (s.writeDumpCounts b n).dies = s.dies ∧ (s.writeDumpCounts b n).escrow = s.escrow ∧
    (s.writeDumpCounts b n).contact = s.contact ∧ (s.writeDumpCounts b n).tieOrder = s.tieOrder ∧
    (s.writeDumpCounts b n).freeCount = s.freeCount ∧ (s.writeDumpCounts b n).pending = s.pending := by
  simp [State.writeDumpCounts]

@[simp] theorem State.issueWritten_frame (s : State) (n : Site) :
    (s.issueWritten n).reg = s.reg ∧ (s.issueWritten n).mem = s.mem ∧ (s.issueWritten n).chain = s.chain ∧
    (s.issueWritten n).chans = s.chans ∧ (s.issueWritten n).waiting = s.waiting ∧
    (s.issueWritten n).keys = s.keys ∧ (s.issueWritten n).comp = s.comp ∧
    (s.issueWritten n).contact = s.contact ∧ (s.issueWritten n).tieOrder = s.tieOrder ∧
    (s.issueWritten n).freeCount = s.freeCount ∧ (s.issueWritten n).pending = s.pending := by
  unfold State.issueWritten
  try dsimp only
  (repeat' split) <;> simp

@[simp] theorem State.closeWritten_frame (s : State) (n : Site) (o : CloseOutcome) :
    (s.closeWritten n o).reg = s.reg ∧ (s.closeWritten n o).mem = s.mem ∧
    (s.closeWritten n o).chain = s.chain ∧ (s.closeWritten n o).chans = s.chans ∧
    (s.closeWritten n o).waiting = s.waiting ∧ (s.closeWritten n o).keys = s.keys ∧
    (s.closeWritten n o).comp = s.comp ∧ (s.closeWritten n o).escrow = s.escrow ∧
    (s.closeWritten n o).contact = s.contact ∧ (s.closeWritten n o).tieOrder = s.tieOrder ∧
    (s.closeWritten n o).freeCount = s.freeCount ∧ (s.closeWritten n o).pending = s.pending := by
  unfold State.closeWritten
  try dsimp only
  (repeat' split) <;> simp

@[simp] theorem State.siteReport_frame (s : State) (n : Site) (r : EscrowRecord) :
    (s.siteReport n r).reg = s.reg ∧ (s.siteReport n r).mem = s.mem ∧ (s.siteReport n r).chain = s.chain ∧
    (s.siteReport n r).chans = s.chans ∧ (s.siteReport n r).waiting = s.waiting ∧
    (s.siteReport n r).keys = s.keys ∧ (s.siteReport n r).comp = s.comp ∧
    (s.siteReport n r).contact = s.contact ∧ (s.siteReport n r).tieOrder = s.tieOrder ∧
    (s.siteReport n r).freeCount = s.freeCount ∧ (s.siteReport n r).pending = s.pending := by
  cases r <;> simp [State.siteReport]

@[simp] theorem State.takeBound_frame (s : State) (p : ParkStatus) :
    ((s.takeBound p).1).reg = s.reg ∧ ((s.takeBound p).1).chain = s.chain ∧ ((s.takeBound p).1).chans = s.chans ∧
    ((s.takeBound p).1).waiting = s.waiting ∧ ((s.takeBound p).1).keys = s.keys ∧ ((s.takeBound p).1).comp = s.comp ∧
    ((s.takeBound p).1).escrow = s.escrow ∧ ((s.takeBound p).1).contact = s.contact ∧ ((s.takeBound p).1).tieOrder = s.tieOrder ∧
    ((s.takeBound p).1).freeCount = s.freeCount ∧ ((s.takeBound p).1).pending = s.pending := by
  unfold State.takeBound
  try dsimp only
  (repeat' split) <;> simp

@[simp] theorem State.closingWritten_frame (s : State) (r : CloseRecord) :
    ((s.closingWritten r).1).reg = s.reg ∧ ((s.closingWritten r).1).chain = s.chain ∧ ((s.closingWritten r).1).chans = s.chans ∧
    ((s.closingWritten r).1).waiting = s.waiting ∧ ((s.closingWritten r).1).keys = s.keys ∧ ((s.closingWritten r).1).comp = s.comp ∧
    ((s.closingWritten r).1).escrow = s.escrow ∧ ((s.closingWritten r).1).contact = s.contact ∧ ((s.closingWritten r).1).tieOrder = s.tieOrder ∧
    ((s.closingWritten r).1).freeCount = s.freeCount ∧ ((s.closingWritten r).1).pending = s.pending := by
  unfold State.closingWritten
  try dsimp only
  (repeat' split) <;> simp

@[simp] theorem State.tableReport_frame (s : State) (r : EscrowRecord) :
    ((s.tableReport r).1).reg = s.reg ∧ ((s.tableReport r).1).chain = s.chain ∧ ((s.tableReport r).1).chans = s.chans ∧
    ((s.tableReport r).1).waiting = s.waiting ∧ ((s.tableReport r).1).keys = s.keys ∧ ((s.tableReport r).1).comp = s.comp ∧
    ((s.tableReport r).1).escrow = s.escrow ∧ ((s.tableReport r).1).contact = s.contact ∧ ((s.tableReport r).1).tieOrder = s.tieOrder ∧
    ((s.tableReport r).1).freeCount = s.freeCount ∧ ((s.tableReport r).1).pending = s.pending := by
  cases r <;> simp [State.tableReport]

/-- A requester that takes its report changes sites, tables, counters, the write queue and job memory, nothing else. -/
@[simp] theorem State.requesterReport_frame (s : State) (r : RecordRequest) :
    ((s.requesterReport r).1).reg = s.reg ∧ ((s.requesterReport r).1).chain = s.chain ∧ ((s.requesterReport r).1).chans = s.chans ∧
    ((s.requesterReport r).1).waiting = s.waiting ∧ ((s.requesterReport r).1).keys = s.keys ∧ ((s.requesterReport r).1).comp = s.comp ∧
    ((s.requesterReport r).1).contact = s.contact ∧ ((s.requesterReport r).1).tieOrder = s.tieOrder ∧ ((s.requesterReport r).1).freeCount = s.freeCount ∧
    ((s.requesterReport r).1).pending = s.pending := by
  unfold State.requesterReport
  split <;> simp

@[simp] theorem State.settleReport_frame (s : State) (r : Option SiteResult) :
    (s.settleReport r).chans = s.chans ∧ (s.settleReport r).comp = s.comp ∧
    (s.settleReport r).contact = s.contact ∧ (s.settleReport r).pending = s.pending := by
  cases r <;> simp [State.settleReport]

@[simp] theorem State.summaryWritten_frame (s : State) :
    (s.summaryWritten).chans = s.chans ∧ (s.summaryWritten).waiting = s.waiting ∧
    (s.summaryWritten).comp = s.comp ∧ (s.summaryWritten).contact = s.contact ∧
    (s.summaryWritten).tieOrder = s.tieOrder ∧ (s.summaryWritten).freeCount = s.freeCount ∧
    (s.summaryWritten).pending = s.pending := by
  unfold State.summaryWritten
  try dsimp only
  (repeat' split) <;> simp

@[simp] theorem State.reportWritten_frame (s : State) (r : RecordRequest) :
    (s.reportWritten r).chans = s.chans ∧ (s.reportWritten r).comp = s.comp ∧
    (s.reportWritten r).contact = s.contact ∧ (s.reportWritten r).pending = s.pending := by
  unfold State.reportWritten
  try dsimp only
  (repeat' split) <;> simp

/-! ### Resets and ticks -/

@[simp] theorem State.stopDump_frame (s : State) (n : Nat) :
    (s.stopDump n).reg = s.reg ∧ (s.stopDump n).counters = s.counters ∧ (s.stopDump n).chain = s.chain ∧
    (s.stopDump n).sites = s.sites ∧ (s.stopDump n).chans = s.chans ∧ (s.stopDump n).waiting = s.waiting ∧
    (s.stopDump n).keys = s.keys ∧ (s.stopDump n).comp = s.comp ∧ (s.stopDump n).dies = s.dies ∧
    (s.stopDump n).escrow = s.escrow ∧ (s.stopDump n).contact = s.contact ∧
    (s.stopDump n).tieOrder = s.tieOrder ∧ (s.stopDump n).freeCount = s.freeCount ∧
    (s.stopDump n).pending = s.pending := by
  unfold State.stopDump
  try dsimp only
  (repeat' split) <;> simp

@[simp] theorem State.cutRecord_frame (s : State) (r : RecordCut) :
    (s.cutRecord r).reg = s.reg ∧ (s.cutRecord r).chain = s.chain ∧ (s.cutRecord r).chans = s.chans ∧
    (s.cutRecord r).waiting = s.waiting ∧ (s.cutRecord r).keys = s.keys ∧ (s.cutRecord r).comp = s.comp ∧
    (s.cutRecord r).contact = s.contact ∧ (s.cutRecord r).tieOrder = s.tieOrder ∧ (s.cutRecord r).freeCount = s.freeCount ∧
    (s.cutRecord r).pending = s.pending := by
  unfold State.cutRecord
  split
  · simp
  · split
    · rename_i t q h
      obtain ⟨_, _, _, _, _, _, _, rfl⟩ := s.writeHead_some h
      simp
    · simp

@[simp] theorem State.resetEscrow_frame (s : State) (h : Bool) (n : RecordCut) :
    (s.resetEscrow h n).reg = s.reg ∧ (s.resetEscrow h n).chain = s.chain ∧ (s.resetEscrow h n).chans = s.chans ∧
    (s.resetEscrow h n).waiting = s.waiting ∧ (s.resetEscrow h n).keys = s.keys ∧ (s.resetEscrow h n).comp = s.comp ∧
    (s.resetEscrow h n).contact = s.contact ∧ (s.resetEscrow h n).tieOrder = s.tieOrder ∧ (s.resetEscrow h n).freeCount = s.freeCount ∧
    (s.resetEscrow h n).pending = s.pending := by
  unfold State.resetEscrow; simp only []; split <;> simp

@[simp] theorem State.runTimers_frame (s : State) :
    (s.runTimers).reg = s.reg ∧ (s.runTimers).counters = s.counters ∧ (s.runTimers).mem = s.mem ∧
    (s.runTimers).chain = s.chain ∧ (s.runTimers).keys = s.keys ∧ (s.runTimers).comp = s.comp ∧
    (s.runTimers).dies = s.dies ∧ (s.runTimers).escrow = s.escrow ∧ (s.runTimers).contact = s.contact ∧
    (s.runTimers).tieOrder = s.tieOrder ∧ (s.runTimers).freeCount = s.freeCount ∧
    (s.runTimers).pending = s.pending := by
  simp [State.runTimers]

@[simp] theorem State.resumeArrival_frame (s : State) :
    (s.resumeArrival).chans = s.chans ∧ (s.resumeArrival).waiting = s.waiting ∧
    (s.resumeArrival).comp = s.comp ∧ (s.resumeArrival).contact = s.contact ∧
    (s.resumeArrival).tieOrder = s.tieOrder ∧ (s.resumeArrival).freeCount = s.freeCount ∧
    (s.resumeArrival).pending = s.pending := by
  unfold State.resumeArrival
  try dsimp only
  (repeat' split) <;> simp

@[simp] theorem State.tick_frame (s : State) :
    (s.tick).comp = s.comp ∧ (s.tick).contact = s.contact ∧ (s.tick).tieOrder = s.tieOrder ∧
    (s.tick).freeCount = s.freeCount ∧ (s.tick).pending = s.pending := by
  simp [State.tick]

end Sys2Proof.Machine
end

