-- ==== Sys2Proof/Laws/Memory.lean ====
section
/-! SUPPORT. Job memory: reads after writes, and the canonical form kept by every memory operation. -/

namespace Sys2Proof.Machine

/-! ### Canonical form -/

theorem Memory.wfFrom_mono {m : Memory} : ∀ {low low' : Nat}, low' ≤ low → Memory.wfFrom low m = true →
    Memory.wfFrom low' m = true := by
  intro low low' h hw
  cases m with
  | nil => rfl
  | cons c rest =>
    obtain ⟨a, b⟩ := c
    simp only [Memory.wfFrom, Bool.and_eq_true, decide_eq_true_eq] at hw ⊢
    exact ⟨⟨⟨by omega, hw.1.1.2⟩, hw.1.2⟩, hw.2⟩

theorem Memory.wfFrom_put {m : Memory} : ∀ {low a : Nat} {b : Byte}, low ≤ a → a < jobMemorySize →
    Memory.wfFrom low m = true → Memory.wfFrom low (m.put a b) = true := by
  induction m with
  | nil =>
    intro low a b hl ha _
    simp only [Memory.put]
    split
    · rfl
    · rename_i hb
      simp only [Memory.wfFrom, Bool.and_eq_true, decide_eq_true_eq]
      exact ⟨⟨⟨hl, ha⟩, hb⟩, trivial⟩
  | cons c rest ih =>
    obtain ⟨a', b'⟩ := c
    intro low a b hl ha hw
    simp only [Memory.wfFrom, Bool.and_eq_true, decide_eq_true_eq] at hw
    obtain ⟨⟨⟨h1, h2⟩, h3⟩, h4⟩ := hw
    simp only [Memory.put]
    split
    · split
      · simp only [Memory.wfFrom, Bool.and_eq_true, decide_eq_true_eq]
        exact ⟨⟨⟨h1, h2⟩, h3⟩, h4⟩
      · rename_i hlt hb
        simp only [Memory.wfFrom, Bool.and_eq_true, decide_eq_true_eq]
        exact ⟨⟨⟨hl, ha⟩, hb⟩, ⟨⟨by omega, h2⟩, h3⟩, h4⟩
    · split
      · rename_i hlt heq
        subst heq
        split
        · exact Memory.wfFrom_mono (by omega) h4
        · rename_i hb
          simp only [Memory.wfFrom, Bool.and_eq_true, decide_eq_true_eq]
          exact ⟨⟨⟨h1, h2⟩, hb⟩, h4⟩
      · simp only [Memory.wfFrom, Bool.and_eq_true, decide_eq_true_eq]
        exact ⟨⟨⟨h1, h2⟩, h3⟩, ih (by omega) ha h4⟩

/-- Putting a byte keeps the canonical form. -/
theorem Memory.wf_write {m : Memory} (h : m.wf = true) (a : Nat) (b : Byte) : (m.write a b).wf = true := by
  unfold Memory.write
  split
  · exact Memory.wfFrom_put (Nat.zero_le _) ‹_› h
  · exact h

/-- Writing bytes keeps the canonical form. -/
theorem Memory.wf_writeBytes {m : Memory} (h : m.wf = true) (a : Nat) (bs : List Byte) :
    (m.writeBytes a bs).wf = true := by
  induction bs generalizing m a with
  | nil => exact h
  | cons b bs ih => exact ih (Memory.wf_write h a b) (a + 1)

/-- Writing a field keeps the canonical form. -/
theorem Memory.wf_writeField {m : Memory} (h : m.wf = true) (a n v : Nat) : (m.writeField a n v).wf = true :=
  Memory.wf_writeBytes h a _

/-- Job memory made of any bytes has the canonical form. -/
theorem Memory.wf_ofCells (cells : List (Nat × Byte)) : (Memory.ofCells cells).wf = true := by
  suffices h : ∀ (l : List (Nat × Byte)) (m : Memory), m.wf = true →
      (l.foldl (fun m c => m.write c.1 c.2) m).wf = true from h cells [] rfl
  intro l
  induction l with
  | nil => exact fun _ h => h
  | cons c l ih => exact fun m h => ih _ (Memory.wf_write h c.1 c.2)

/-! ### Reads after writes -/

theorem Memory.read_of_wfFrom {m : Memory} : ∀ {low a : Nat}, Memory.wfFrom low m = true → a < low → m.read a = 0 := by
  induction m with
  | nil => intros; rfl
  | cons c rest ih =>
    obtain ⟨a', b'⟩ := c
    intro low a hw ha
    simp only [Memory.wfFrom, Bool.and_eq_true, decide_eq_true_eq] at hw
    simp only [Memory.read]
    rw [if_neg (by omega)]
    exact ih hw.2 (by omega)

theorem Memory.read_put_ne {m : Memory} {a a' : Nat} {b : Byte} (h : a' ≠ a) : (m.put a b).read a' = m.read a' := by
  induction m with
  | nil =>
    simp only [Memory.put]
    split <;> simp [Memory.read, h]
  | cons c rest ih =>
    obtain ⟨x, y⟩ := c
    simp only [Memory.put]
    split
    · split <;> simp [Memory.read, h]
    · split
      · rename_i hx
        subst hx
        split <;> simp [Memory.read, h]
      · simp only [Memory.read, ih]

theorem Memory.read_put_same {m : Memory} : ∀ {low a : Nat} {b : Byte}, Memory.wfFrom low m = true →
    (m.put a b).read a = b := by
  induction m with
  | nil =>
    intro low a b _
    simp only [Memory.put]
    split
    · simp [Memory.read, *]
    · simp [Memory.read]
  | cons c rest ih =>
    obtain ⟨x, y⟩ := c
    intro low a b hw
    simp only [Memory.wfFrom, Bool.and_eq_true, decide_eq_true_eq] at hw
    simp only [Memory.put]
    split
    · split
      · rename_i hlt hb
        simp only [Memory.read]
        rw [if_neg (by omega), hb]
        exact Memory.read_of_wfFrom hw.2 (by omega)
      · simp [Memory.read]
    · split
      · rename_i hx
        subst hx
        split
        · rename_i hb
          rw [hb]
          exact Memory.read_of_wfFrom hw.2 (by omega)
        · simp [Memory.read]
      · rename_i hne
        simp only [Memory.read]
        rw [if_neg hne]
        exact ih hw.2

/-- A byte other than the written one reads as before. -/
theorem Memory.read_write_ne {m : Memory} {a a' : Nat} {b : Byte} (h : a' ≠ a) : (m.write a b).read a' = m.read a' := by
  unfold Memory.write
  split
  · exact Memory.read_put_ne h
  · rfl

/-- A byte of job memory reads as it was written. -/
theorem Memory.read_write_same {m : Memory} {a : Nat} {b : Byte} (h : m.wf = true) (ha : a < jobMemorySize) :
    (m.write a b).read a = b := by
  unfold Memory.write
  rw [if_pos ha]
  exact Memory.read_put_same h

/-- Bytes outside the written ones read as before. -/
theorem Memory.read_writeBytes_out {m : Memory} {a x : Nat} {bs : List Byte} (h : ¬(a ≤ x ∧ x < a + bs.length)) :
    (m.writeBytes a bs).read x = m.read x := by
  induction bs generalizing m a with
  | nil => rfl
  | cons b bs ih =>
    simp only [List.length_cons] at h
    rw [Memory.writeBytes, ih (by omega)]
    exact Memory.read_write_ne (by omega)

/-- A written byte reads as it was written. -/
theorem Memory.read_writeBytes_in {m : Memory} {a x : Nat} {bs : List Byte} (hw : m.wf = true)
    (h1 : a ≤ x) (h2 : x < a + bs.length) (h3 : x < jobMemorySize) :
    (m.writeBytes a bs).read x = bs[x - a]'(by omega) := by
  induction bs generalizing m a with
  | nil => simp only [List.length_nil] at h2; omega
  | cons b bs ih =>
    simp only [List.length_cons] at h2
    rw [Memory.writeBytes]
    by_cases hx : x = a
    · subst hx
      rw [Memory.read_writeBytes_out (by omega), Memory.read_write_same hw h3]
      simp
    · rw [ih (Memory.wf_write hw a b) (by omega) (by omega)]
      obtain ⟨k, hk⟩ : ∃ k, x - a = k + 1 := ⟨x - a - 1, by omega⟩
      have hk' : x - (a + 1) = k := by omega
      simp only [hk, hk', List.getElem_cons_succ]

@[simp] theorem leBytes_length (n v : Nat) : (leBytes n v).length = n := by
  induction n generalizing v with
  | zero => rfl
  | succ n ih => simp [leBytes, ih]

/-- Reading back the bytes that a number was written as gives the number's low part. -/
theorem leNat_leBytes (n v : Nat) : leNat (leBytes n v) = v % 256 ^ n := by
  induction n generalizing v with
  | zero => simp [leBytes, leNat, Nat.mod_one]
  | succ n ih =>
    simp only [leBytes, leNat, ih]
    rw [BitVec.toNat_ofNat, Nat.pow_succ' (m := 256), Nat.mod_mul]

@[simp] theorem Memory.readBytes_length (m : Memory) (a n : Nat) : (m.readBytes a n).length = n := by
  induction n generalizing a with
  | zero => rfl
  | succ n ih => simp [Memory.readBytes, ih]

/-- Reads that agree byte by byte agree. -/
theorem Memory.readBytes_congr {m m' : Memory} {a n : Nat} (h : ∀ x, a ≤ x → x < a + n → m'.read x = m.read x) :
    m'.readBytes a n = m.readBytes a n := by
  induction n generalizing a with
  | zero => rfl
  | succ n ih =>
    simp only [Memory.readBytes]
    rw [h a (Nat.le_refl _) (by omega), ih (fun x h1 h2 => h x (by omega) (by omega))]

/-- Reading what was just written gives it back. -/
theorem Memory.readBytes_writeBytes {m : Memory} {a : Nat} {bs : List Byte} (hw : m.wf = true)
    (h : a + bs.length ≤ jobMemorySize) : (m.writeBytes a bs).readBytes a bs.length = bs := by
  induction bs generalizing m a with
  | nil => rfl
  | cons b bs ih =>
    simp only [List.length_cons] at h ⊢
    simp only [Memory.readBytes, Memory.writeBytes]
    rw [ih (Memory.wf_write hw a b) (by omega), Memory.read_writeBytes_out (by omega),
      Memory.read_write_same hw (by omega)]

/-- A field reads back as the low part of the number written into it. -/
theorem Memory.read_writeField {m : Memory} {a n v : Nat} (hw : m.wf = true) (h : a + n ≤ jobMemorySize) :
    leNat ((m.writeField a n v).readBytes a n) = v % 256 ^ n := by
  have := Memory.readBytes_writeBytes (m := m) (a := a) (bs := leBytes n v) hw (by simpa using h)
  simp only [leBytes_length] at this
  rw [Memory.writeField, this, leNat_leBytes]

/-- A field outside the written bytes reads as before. -/
theorem Memory.readBytes_writeBytes_out {m : Memory} {a x n : Nat} {bs : List Byte}
    (h : x + n ≤ a ∨ a + bs.length ≤ x) : (m.writeBytes a bs).readBytes x n = m.readBytes x n :=
  Memory.readBytes_congr fun y h1 h2 => Memory.read_writeBytes_out (by omega)

end Sys2Proof.Machine
end

