-- ==== Sys2Proof/Laws/Sites.lean ====
section
/-! SUPPORT. The site engines' shared operations, each said once in the terms of Safety: what a request, a closing, a
parking and a final entry leave, and when the end of a touchdown finds nothing to do. -/

namespace Sys2Proof.Machine

/-- More parts may be named than changed. -/
theorem sameBut.mono {ps qs : List Part} {s t : State} (h : sameBut ps s t) (hs : ps ⊆ qs) : sameBut qs s t :=
  fun p hp => h p fun hq => hp (hs hq)

/-- What neither of two moves changed is unchanged by both. -/
theorem sameBut.trans {ps : List Part} {s t u : State} (h : sameBut ps s t) (h' : sameBut ps t u) : sameBut ps s u :=
  fun p hp => by
    have h1 := h p hp
    have h2 := h' p hp
    cases p
    case order => exact ⟨h2.1.trans h1.1, h2.2.trans h1.2⟩
    all_goals exact Eq.trans h2 h1

theorem setChain_same (s : State) (c) : sameBut [.chain] s (s.setChain c) := fun p hp => by
  cases p <;> simp_all [Part.same]

theorem siteMoves.mono {ps qs : List Part} {s t : State} {n : Site} {x : SiteCtx} (h : siteMoves s t n x ps)
    (hs : ps ⊆ qs) : siteMoves s t n x qs :=
  ⟨h.here, h.others, h.frame.mono (List.cons_subset_cons _ hs)⟩

/-- A part that is not named is the same. -/
theorem sameBut.chain {ps : List Part} {s t : State} (h : sameBut ps s t) (hc : Part.chain ∉ ps) :
    t.chain = s.chain := h .chain hc

theorem State.inTouchdown_congr {s t : State} {n : Site} (h : t.chain = s.chain) :
    t.inTouchdown n ↔ s.inTouchdown n := by
  simp only [State.inTouchdown, h]

theorem setSite_get (s : State) (n m : Site) (c : SiteCtx) :
    (s.setSite n c).sites[m] = if m = n then some c else s.sites[m] := by
  simp only [State.setSite_sites]
  by_cases h : m = n
  · subst h; simp
  · rw [if_neg h]
    have : (n : Nat) ≠ m := fun e => h (Fin.ext e.symm)
    simp [this]

/-- Giving a site a context changes that site alone. -/
theorem setSite_moves (s : State) (n : Site) (c : SiteCtx) : siteMoves s (s.setSite n c) n c [] := by
  refine ⟨by rw [setSite_get, if_pos rfl], fun m hm => by rw [setSite_get, if_neg hm], fun p hp => ?_⟩
  cases p <;> simp_all [Part.same]

/-- A request in flight (R13). -/
theorem send_moves (s : State) (n : Site) (c : SiteCtx) (st : SiteState) (cmd : DieCommand) (row bit : Nat)
    (arg : BitVec 32) : siteMoves s (s.send n c st cmd row bit arg) n (c.asks st cmd row bit arg) [] :=
  setSite_moves s n _

/-- A ROW_CHECK in flight (R18). -/
theorem sendRowCheck_moves (s : State) (n : Site) (c : SiteCtx) (st : SiteState) (row : Nat) :
    siteMoves s (s.sendRowCheck n c st row) n (c.asks st .rowCheck row 0 s.profile.thresholds) [] :=
  setSite_moves s n _

/-- A live closing (R76). -/
theorem beginClosing_closes (s : State) (n : Site) (c : SiteCtx) (o : CloseOutcome) (hd : s.dryRun = false) :
    closesWith s (s.beginClosing n c o) n c o [] := by
  have e : s.beginClosing n c o = (s.setSite n
      { c with state := .closing, outcome := some o, exch := none, closeWritten := false }).queueRecord
        (.close (c.closeRecord o)) (.site n) := by simp [State.beginClosing, hd]
  have m := setSite_moves s n { c with state := .closing, outcome := some o, exch := none, closeWritten := false }
  rw [e]
  refine ⟨⟨m.here, m.others, fun p hp => ?_⟩, ?_⟩
  · cases p <;> simp_all [Part.same]
  · simp [State.queueRecord]

/-- A parking (R77). -/
theorem beginParking_moves (s : State) (n : Site) (c : SiteCtx) :
    siteMoves s (s.beginParking n c) n { c with state := .parking, exch := none } [.dies] ∧
      (s.beginParking n c).dies = { s.dies with queue := s.dies.queue ++ [.park n] } := by
  have m := setSite_moves s n { c with state := .parking, exch := none }
  refine ⟨⟨m.here, m.others, fun p hp => ?_⟩, by simp [State.beginParking, State.queueTable]⟩
  cases p <;> simp_all [Part.same, State.beginParking]

/-- An early end before the first pulse (R78). -/
theorem stopBurn_void (s : State) (n : Site) (c : SiteCtx) (cause : StopCause) (h : c.totalPulses = 0)
    (hd : s.dryRun = false) : closesWith s (s.stopBurn n c cause) n { c with stop := cause } .voidUnused [] := by
  unfold State.stopBurn
  rw [if_pos h]
  exact beginClosing_closes s n _ _ hd

/-- An early end after a pulse (R78). -/
theorem stopBurn_park (s : State) (n : Site) (c : SiteCtx) (cause : StopCause) (h : c.totalPulses ≠ 0) :
    siteMoves s (s.stopBurn n c cause) n { c with stop := cause, state := .parking, exch := none } [.dies] ∧
      (s.stopBurn n c cause).dies = { s.dies with queue := s.dies.queue ++ [.park n] } := by
  unfold State.stopBurn
  rw [if_neg h]
  exact beginParking_moves s n _

/-- The thirty-eight bytes that a site writes into its entry (R84). -/
@[simp] theorem entryBytes_length (c : SiteCtx) (r : SiteResult) (ts : Option Nat) : (entryBytes c r ts).length = 38 := by
  simp [entryBytes, serialField, padTo, leBytes_length]

/-- Result codes fit a byte. -/
theorem SiteResult.code_lt (r : SiteResult) : r.code < 256 := by cases r <;> decide

/-- A final entry (R84). -/
theorem enterFinal_ends (s : State) (n : Site) (c d : SiteCtx) (r : SiteResult) (ts : Option Nat)
    (hi : d.index = c.index) : entryEnds s (s.enterFinal n d r ts) n c r [] := by
  constructor
  · exact ⟨{ d with state := .final, result := some r, exch := none }, by
      rw [State.enterFinal, setSite_get, if_pos rfl], rfl, rfl, rfl⟩
  · intro m hm
    simp only [State.enterFinal, setSite_get, if_neg hm]
    split <;> simp
  · intro b hb hw hin
    simp only [State.enterFinal, State.entryOffset, hb, Option.map_some, State.setSite_mem, State.store,
      State.setMem_mem]
    rw [Memory.read_writeBytes_in hw (by omega) (by rw [entryBytes_length]; omega) (by omega)]
    have : b.offset + 80 + 48 * c.index + 12 - (b.offset + 80 + 48 * d.index + 10) = 2 := by omega
    simp only [this, entryBytes]
    simp [Nat.mod_eq_of_lt r.code_lt]
  · intro b hb a ha
    simp only [State.enterFinal, State.entryOffset, hb, Option.map_some, State.setSite_mem, State.store,
      State.setMem_mem]
    exact Memory.read_writeBytes_out (by rw [entryBytes_length, hi]; exact ha)
  · intro p hp
    cases p <;> simp_all [Part.same]

/-- A reported result that starts no halt changes nothing (R154). -/
theorem reportResult_noHalt (s : State) (r : SiteResult) (h : s.noHalt ∨ r.startsHalt = false) :
    s.reportResult r = s := by
  unfold State.reportResult
  split
  · rename_i b hb
    have : b.haltsOn r = false := by
      unfold Block.haltsOn
      split
      · rename_i es hw
        rcases h with h | h
        · rcases h b hb with h | h
          · simp [h]
          · exact absurd hw (h es)
        · simp [h]
      · rfl
    simp [this]
  · rfl

/-- A finished entry without a halt (R84, R154). -/
theorem finish_ends (s : State) (n : Site) (c d : SiteCtx) (r : SiteResult) (ts : Option Nat)
    (hi : d.index = c.index) (h : s.noHalt ∨ r.startsHalt = false) : entryEnds s (s.finish n d r ts) n c r [] := by
  have e : s.finish n d r ts = s.enterFinal n d r ts := by
    unfold State.finish
    refine reportResult_noHalt _ _ (h.imp (fun h b hb => h b ?_) id)
    simpa using hb
  rw [e]
  exact enterFinal_ends s n c d r ts hi

/-- While an entry of the touchdown runs, the touchdown does not end (R152). -/
theorem settleTouchdown_running {s : State} {n : Site} (h : s.inTouchdown n) (hf : s.isFinal n = false) :
    s.settleTouchdown = s := by
  obtain ⟨b, es, rel, hal, hb, hw, e, he, hn⟩ := h
  have : s.allFinal es = false := by
    simp only [State.allFinal, List.all_eq_false]
    exact ⟨e, he, by simp [hn, hf]⟩
  simp [State.settleTouchdown, hb, hw, this]

/-- A site that moves on within its entry does not end the touchdown (R152). -/
theorem siteMoves.settle {s u : State} {n : Site} {x : SiteCtx} {ps : List Part} (h : siteMoves s u n x ps)
    (hin : s.inTouchdown n) (hx : x.state ≠ .final) (hc : Part.chain ∉ ps) : u.settleTouchdown = u := by
  refine settleTouchdown_running (n := n) ((State.inTouchdown_congr (h.frame.chain (by simp [hc]))).2 hin) ?_
  have := h.here
  simp [State.isFinal, this, hx]

theorem closesWith.settle {s u : State} {n : Site} {c : SiteCtx} {o : CloseOutcome} {ps : List Part}
    (h : closesWith s u n c o ps) (hin : s.inTouchdown n) (hc : Part.chain ∉ ps) : u.settleTouchdown = u :=
  h.moves.settle hin (by simp) (by simp [hc])

/-- An entry that ends while another runs does not end the touchdown (R152). -/
theorem entryEnds.settle {s u : State} {n : Site} {c : SiteCtx} {r : SiteResult} {ps : List Part}
    (h : entryEnds s u n c r ps) (ho : s.othersRun n) (hc : Part.chain ∉ ps) : u.settleTouchdown = u := by
  obtain ⟨m, hm, hin, hf⟩ := ho
  refine settleTouchdown_running (n := m) ((State.inTouchdown_congr (h.frame.chain (by simp [hc]))).2 hin) ?_
  have := h.others m hm
  simpa only [State.isFinal, this] using hf

end Sys2Proof.Machine
end

