-- ==== Sys2Proof/Laws/Exchanges.lean ====
section
/-! SUPPORT. What each die-port event does when its frame answers the exchange in flight (R14, R15), what the choice of a
row's next bit and of a row's next spare answers (R30, R35), the ways in which a burn goes on or ends (R44, R75, R78),
and what a search of the die table finds (R121). -/

namespace Sys2Proof.Machine

/-! ### Frames that answer an exchange (R14, R15) -/

/-- A good frame with status OK reaches the meaning of its exchange with the frame's data. -/
theorem respond_answered {s : State} {n : Site} {c : SiteCtx} {cmd : DieCommand} {f : ResponseFrame}
    (h : s.answers n c cmd f) (hello : cmd = .hello → 16 ≤ helloRows f.data ∧ helloRows f.data ≤ 512)
    (ended : State → Site → SiteCtx → Exchange → Option (BitVec 64) → State) :
    ∃ e, c.exch = some e ∧ e.cmd = cmd ∧ s.respond n cmd f ended = ended s n c e (some f.data) := by
  obtain ⟨e, he, hc⟩ := h.inFlight
  have hj : judge cmd f = .ok f.data := by
    simp only [judge, h.good, h.ok]
    simpa using hello
  exact ⟨e, he, hc, by simp only [State.respond, h.context, he, hc, if_true, hj]⟩

/-- A good frame with status REFUSED reaches the meaning of its exchange without data. -/
theorem respond_refused {s : State} {n : Site} {c : SiteCtx} {cmd : DieCommand} {f : ResponseFrame}
    (h : s.refuses n c cmd f) (ended : State → Site → SiteCtx → Exchange → Option (BitVec 64) → State) :
    ∃ e, c.exch = some e ∧ e.cmd = cmd ∧ s.respond n cmd f ended = ended s n c e none := by
  obtain ⟨e, he, hc⟩ := h.inFlight
  have hj : judge cmd f = .refused := by simp [judge, h.good, h.refused, h.notHello, statusRefused, statusOk]
  exact ⟨e, he, hc, by simp only [State.respond, h.context, he, hc, if_true, hj]⟩

theorem exec_rowCheck_answered {s : State} {n : Site} {c : SiteCtx} {f : ResponseFrame} (h : s.answers n c .rowCheck f) :
    exec (.rowCheckResponse n f) s = .next (s.rowCheckEnded n c (some f.data)).settleTouchdown := by
  obtain ⟨e, -, -, hr⟩ := respond_answered h (by simp) fun t m c _ d => t.rowCheckEnded m c d
  simp only [exec, execRowCheckResponse, hr]

theorem exec_rowCheck_refused {s : State} {n : Site} {c : SiteCtx} {f : ResponseFrame} (h : s.refuses n c .rowCheck f) :
    exec (.rowCheckResponse n f) s = .next (s.rowCheckEnded n c none).settleTouchdown := by
  obtain ⟨e, -, -, hr⟩ := respond_refused h fun t m c _ d => t.rowCheckEnded m c d
  simp only [exec, execRowCheckResponse, hr]

theorem exec_armBit_answered {s : State} {n : Site} {c : SiteCtx} {f : ResponseFrame} (h : s.answers n c .armBit f) :
    exec (.armBitResponse n f) s = .next (s.armed n c).settleTouchdown := by
  obtain ⟨e, -, -, hr⟩ := respond_answered h (by simp) State.armEnded
  simp only [exec, execArmBitResponse, hr, State.armEnded]

theorem exec_armBit_refused {s : State} {n : Site} {c : SiteCtx} {f : ResponseFrame} (h : s.refuses n c .armBit f) :
    exec (.armBitResponse n f) s = .next (s.armRefused n c).settleTouchdown := by
  obtain ⟨e, -, -, hr⟩ := respond_refused h State.armEnded
  simp only [exec, execArmBitResponse, hr, State.armEnded]

theorem exec_senseBit_answered {s : State} {n : Site} {c : SiteCtx} {f : ResponseFrame} (h : s.answers n c .senseBit f) :
    exec (.senseBitResponse n f) s = .next (s.sensed n c (senseCode f.data)).settleTouchdown := by
  obtain ⟨e, -, -, hr⟩ := respond_answered h (by simp) State.senseEnded
  simp only [exec, execSenseBitResponse, hr, State.senseEnded]

/-- A REFUSED SENSE_BIT counts as a sense code of 1023 (R15). -/
theorem exec_senseBit_refused {s : State} {n : Site} {c : SiteCtx} {f : ResponseFrame} (h : s.refuses n c .senseBit f) :
    exec (.senseBitResponse n f) s = .next (s.sensed n c 1023).settleTouchdown := by
  obtain ⟨e, -, -, hr⟩ := respond_refused h State.senseEnded
  simp only [exec, execSenseBitResponse, hr, State.senseEnded]

/-! ### A meaning that ends in the end of a touchdown, at a site whose entry runs on (R152) -/

theorem siteMoves.next {s u : State} {o : Host.Outcome State Fault Refusal} {n : Site} {x : SiteCtx} {ps : List Part}
    (ho : o = .next u.settleTouchdown) (h : siteMoves s u n x ps) (hin : s.inTouchdown n) (hx : x.state ≠ .final)
    (hc : Part.chain ∉ ps) : o = .next u := by rw [ho, h.settle hin hx hc]

theorem closesWith.next {s u : State} {o : Host.Outcome State Fault Refusal} {n : Site} {c : SiteCtx}
    {outcome : CloseOutcome} {ps : List Part} (ho : o = .next u.settleTouchdown) (h : closesWith s u n c outcome ps)
    (hin : s.inTouchdown n) (hc : Part.chain ∉ ps) : o = .next u := by rw [ho, h.settle hin hc]

theorem closesDry.next {s u : State} {o : Host.Outcome State Fault Refusal} {n : Site} {c : SiteCtx}
    {outcome : CloseOutcome} {ps : List Part} (ho : o = .next u.settleTouchdown) (h : closesDry s u n c outcome ps)
    (hin : s.inTouchdown n) (hc : Part.chain ∉ ps) : o = .next u := by
  rw [ho, h.moves.settle hin (by simp) (by simp [hc])]

theorem entryEnds.next {s u : State} {o : Host.Outcome State Fault Refusal} {n : Site} {c : SiteCtx} {r : SiteResult}
    {ps : List Part} (ho : o = .next u.settleTouchdown) (h : entryEnds s u n c r ps) (hr : s.othersRun n)
    (hc : Part.chain ∉ ps) : o = .next u := by rw [ho, h.settle hr hc]

/-! ### Counters -/

/-- A count moves one counter, and stops at its top (R182). -/
theorem bump_counts (s : State) (k : Counter) :
    (s.bump k).counter k = satInc (s.counter k) ∧ countersBut [k] s (s.bump k) := by
  refine ⟨by simp [State.bump, State.counter], fun j hj => ?_⟩
  have hne : k.index ≠ j.index := by
    revert hj
    cases k <;> cases j <;> simp [Counter.index]
  simp only [State.bump, State.counter, State.setCounters_counters]
  exact Vector.getElem_set_ne k.index.isLt j.index.isLt fun h => hne (Fin.ext h)

/-- A site that moves on after a count has moved on from before it, the counters beside. -/
theorem siteMoves.of_bump {s u : State} {n : Site} {x : SiteCtx} {ps : List Part} {k : Counter}
    (h : siteMoves (s.bump k) u n x ps) : siteMoves s u n x (.counters :: ps) := by
  refine ⟨h.here, fun m hm => by rw [h.others m hm]; simp, fun p hp => ?_⟩
  have := h.frame p (by simp_all)
  cases p <;> simp_all [Part.same]

theorem closesWith.of_bump {s u : State} {n : Site} {c : SiteCtx} {o : CloseOutcome} {ps : List Part} {k : Counter}
    (h : closesWith (s.bump k) u n c o ps) : closesWith s u n c o (.counters :: ps) :=
  ⟨h.moves.of_bump.mono (by intro p hp; simp_all; tauto), by simpa using h.queued⟩

/-! ### Bits and spares (R30, R35, R36) -/

theorem topBitBelow_of_topBit {n i : Nat} {t : FuseRow} (h : topBit t n i) : topBitBelow n t = some i := by
  obtain ⟨hi, hb, hj⟩ := h
  induction n with
  | zero => omega
  | succ n ih =>
    unfold topBitBelow
    by_cases e : i = n
    · subst e; simp [hb]
    · rw [if_neg (by simp [hj n (by omega) (by omega)])]
      exact ih (by omega) fun j h1 h2 => hj j h1 (by omega)

theorem topBitBelow_eq_none {n : Nat} {t : FuseRow} (h : ∀ i, i < n → t.getLsbD i = false) : topBitBelow n t = none := by
  induction n with
  | zero => rfl
  | succ n ih =>
    unfold topBitBelow
    rw [if_neg (by simp [h n])]
    exact ih fun i hi => h i (by omega)

/-- A spare is in the list of free spares exactly when it is left. -/
theorem mem_freeSpares {b : BurnState} {p : Profile} {i : Nat} : i ∈ b.freeSpares p ↔ b.spareLeft p i := by
  simp only [BurnState.freeSpares, List.mem_filter, List.mem_range, BurnState.spareFree, BurnState.spareLeft]
  simp

theorem freeSpares_sorted (b : BurnState) (p : Profile) : (b.freeSpares p).Pairwise (· < ·) :=
  List.pairwise_lt_range.filter _

theorem freeSpares_eq_nil {b : BurnState} {p : Profile} (h : b.noSpareLeft p) : b.freeSpares p = [] := by
  refine List.eq_nil_iff_forall_not_mem.2 fun i hi => ?_
  obtain ⟨h1, h2, h3⟩ := mem_freeSpares.1 hi
  exact (h i h1).elim h2 h3

/-- The lists of strictly rising numbers are determined by their members. -/
theorem sorted_ext {l m : List Nat} (hl : l.Pairwise (· < ·)) (hm : m.Pairwise (· < ·)) (h : ∀ i, i ∈ l ↔ i ∈ m) :
    l = m :=
  ((List.perm_ext_iff_of_nodup (hl.imp Nat.ne_of_lt) (hm.imp Nat.ne_of_lt)).2 h).eq_of_pairwise
    (fun _ _ _ _ h1 h2 => absurd h1 (Nat.lt_asymm h2)) hl hm

/-- The free spares below a spare that is left, that spare, and the rest. -/
theorem freeSpares_split {b : BurnState} {p : Profile} {j : Nat} {us : List Nat} (hu : b.unusableBelow p j us)
    (hj : b.spareLeft p j) : ∃ l, b.freeSpares p = us ++ j :: l := by
  refine ⟨(b.freeSpares p).filter fun i => decide (j < i), sorted_ext (freeSpares_sorted b p) ?_ fun i => ?_⟩
  · refine List.pairwise_append.2 ⟨hu.1, List.pairwise_cons.2 ⟨fun i hi => ?_, (freeSpares_sorted b p).filter _⟩, ?_⟩
    · simpa using (List.mem_filter.1 hi).2
    · intro a ha c hc
      have h1 := ((hu.2.1 a).1 ha).1
      rcases List.mem_cons.1 hc with rfl | hc
      · exact h1
      · exact Nat.lt_trans h1 (by simpa using (List.mem_filter.1 hc).2)
  · simp only [List.mem_append, List.mem_cons, List.mem_filter, hu.2.1 i, mem_freeSpares, decide_eq_true_eq]
    constructor
    · intro h
      rcases Nat.lt_trichotomy i j with h1 | h1 | h1
      · exact .inl ⟨h1, h⟩
      · exact .inr (.inl h1)
      · exact .inr (.inr ⟨h, h1⟩)
    · rintro (⟨-, h⟩ | rfl | ⟨h, -⟩)
      · exact h
      · exact hj
      · exact h

theorem freeSpares_of_unusable {b : BurnState} {p : Profile} {us : List Nat}
    (hu : b.unusableBelow p p.spareCount us) : b.freeSpares p = us :=
  sorted_ext (freeSpares_sorted b p) hu.1 fun i => by
    rw [mem_freeSpares, hu.2.1 i]
    exact ⟨fun h => ⟨h.1, h⟩, fun h => h.2⟩

theorem freeSpares_of_nextSpare {b : BurnState} {p : Profile} {i : Nat} (h : b.nextSpare p i) :
    ∃ l, b.freeSpares p = i :: l := by
  refine freeSpares_split (us := []) ⟨by simp, fun j => ?_, by simp⟩ ⟨h.1, h.2.1, h.2.2.1⟩
  simp only [List.not_mem_nil, false_iff, not_and]
  exact fun hj hl => (h.2.2.2 j hj).elim hl.2.1 hl.2.2

/-! ### Ends of a burn (R76, R78) -/

/-- A closing of a dry-run wafer asks for its settlement, and counts a FAILED_ outcome (R76, R85, R126). -/
theorem beginClosing_dry (s : State) (n : Site) (c : SiteCtx) (o : CloseOutcome) (hd : s.dryRun = true) :
    closesDry s (s.beginClosing n c o) n c o [.counters] ∧
      (s.beginClosing n c o).counters = (if o.isFailed then s.bump .diesFailed else s).counters := by
  have m := setSite_moves s n { c with state := .closing, outcome := some o, exch := none, closeWritten := false }
  refine ⟨⟨⟨?_, fun k hk => ?_, fun p hp => ?_⟩, ?_⟩, ?_⟩
  · have := m.here
    simp only [State.beginClosing, hd, if_true]
    split <;> exact this
  · have := m.others k hk
    simp only [State.beginClosing, hd, if_true]
    split <;> exact this
  · simp only [State.beginClosing, hd, if_true]
    cases p <;> simp_all [Part.same] <;> split <;> simp
  · simp only [State.beginClosing, hd, if_true]
    split <;> simp [State.queueTable]
  · simp only [State.beginClosing, hd, if_true]
    split <;> rfl

/-- A burn that stops early closes with VOID_UNUSED before a pulse and parks after one (R78). -/
theorem stopBurn_stops (s : State) (n : Site) (c : SiteCtx) (cause : StopCause) :
    burnStops s (s.stopBurn n c cause) n { c with stop := cause } c.totalPulses :=
  ⟨fun h hd => stopBurn_void s n c cause h hd, fun h => stopBurn_park s n c cause h⟩

/-! ### Lengths (section 11.3, R138) -/

theorem EscrowRecord.bytes_length (r : EscrowRecord) (counters : Vector Nat 16) :
    (r.bytes counters).length = 64 * r.slots := by simp [EscrowRecord.bytes, padTo]

/-- The records of a dump fit its buffer (R138). -/
theorem DieTableUnit.dumpBytes_length_le (u : DieTableUnit) (capacity : Nat) :
    (u.dumpBytes capacity).length ≤ capacity := by
  have flat : ∀ l : List (List Byte), (∀ x ∈ l, x.length = 16) → l.flatten.length = 16 * l.length := by
    intro l h
    induction l with
    | nil => rfl
    | cons x t ih => simp [ih fun y hy => h y (List.mem_cons_of_mem _ hy), h x List.mem_cons_self]; omega
  unfold DieTableUnit.dumpBytes
  rw [flat]
  · simp only [DieTableUnit.dumpRecords, DieTableUnit.entriesDumped, DieTableUnit.summariesDumped]
    simp
    split <;> simp <;> omega
  · intro x hx
    simp only [DieTableUnit.dumpRecords, List.mem_append, List.mem_map] at hx
    rcases hx with ⟨_, _, rfl⟩ | ⟨_, _, rfl⟩ <;> simp [entryRecord, summaryRecord, serialField]

/-! ### The first step of a burn, and the resume check (R44, R75) -/

/-- The burn's step sends the request that the table of R44 names. -/
theorem burnStep_firstStep {s : State} {n : Site} {c : SiteCtx} {b : BurnState} {st : SiteState} {cmd : DieCommand}
    {row bit : Nat} (h : b.firstStep s.profile st cmd row bit) :
    s.burnStep n c b = s.send n { c with burn := some b } st cmd row bit (s.profile.burnArg cmd) := by
  rcases h with ⟨hu, rfl, rfl, rfl, rfl⟩ | ⟨hu, hw, rfl, rfl, rfl, i, hi, hus, rfl⟩ | ⟨hu, hw, h⟩
  · simp [State.burnStep, hu, Profile.burnArg]
  · obtain ⟨l, hl⟩ := freeSpares_of_nextSpare hi
    simp [State.burnStep, hu, hw, State.trySpares, hl, State.selectSpare, hus, State.sendRowCheck, Profile.burnArg]
  · rcases h with ⟨hc, hs, rfl, rfl, rfl, rfl⟩ | ⟨hs, hst, hp, h1, h2, rfl, rfl, rfl, rfl⟩ |
      ⟨hc, hs, hst, rfl, rfl, rfl, rfl⟩ | ⟨hc, hst, rfl, rfl, rfl, rfl⟩
    · cases hcur : b.cur <;> simp_all [State.burnStep, State.sendRowCheck, Profile.burnArg]
    · have hsp : b.bitSpent s.profile = false := by simp [BurnState.bitSpent, BurnState.pulseWidth, hp]; omega
      cases hcur : b.cur <;>
        simp_all [State.burnStep, Profile.burnArg, State.armBit, BurnState.lockSettle]
    · cases hcur : b.cur <;> simp_all [State.burnStep, State.sendRowCheck, Profile.burnArg]
    · simp_all [State.burnStep, State.sendRowCheck, Profile.burnArg, BurnState.lockSettle]

theorem BurnState.doneAt.lt {b : BurnState} {i : Nat} (h : b.doneAt i) : i < 14 := by
  rcases h with ⟨k, rfl, _⟩ | ⟨j, rfl, _⟩ <;> omega

theorem doneAt_iff {b : BurnState} {i : Nat} (hi : i < 14) : b.doneAt i ↔ b.resumeState i = .done := by
  unfold BurnState.doneAt BurnState.resumeState
  split
  · rename_i h
    refine ⟨?_, fun h' => .inl ⟨⟨i, h⟩, rfl, by simpa using h'⟩⟩
    rintro (⟨k, rfl, hk⟩ | ⟨j, hj, _⟩)
    · simpa using hk
    · omega
  · rename_i h
    have h2 : i - 12 < 2 := by omega
    rw [dif_pos h2]
    refine ⟨?_, fun h' => .inr ⟨⟨i - 12, h2⟩, by simp; omega, by simpa using h'⟩⟩
    rintro (⟨k, rfl, hk⟩ | ⟨j, rfl, hj⟩)
    · omega
    · simpa using hj

theorem nextDone_first {b : BurnState} {low i : Nat} (h : b.firstDone low i) : b.nextDone low = some i := by
  obtain ⟨h1, h2, h3⟩ := h
  unfold BurnState.nextDone
  rw [List.find?_range_eq_some]
  refine ⟨by simpa using ⟨h1, (doneAt_iff h2.lt).1 h2⟩, by simpa using h2.lt, fun j hj => ?_⟩
  have : low ≤ j → ¬b.resumeState j = .done := fun hl hd =>
    h3 j hl hj ((doneAt_iff (by have := h2.lt; omega)).2 hd)
  simp only [Bool.not_eq_true', Bool.and_eq_false_iff, decide_eq_false_iff_not, beq_eq_false_iff_ne]
  exact (Nat.lt_or_ge j low).imp (by omega) this

theorem nextDone_none {b : BurnState} {low : Nat} (h : ∀ i, low ≤ i → ¬b.doneAt i) : b.nextDone low = none := by
  unfold BurnState.nextDone
  rw [List.find?_range_eq_none]
  intro j hj
  have : low ≤ j → ¬b.resumeState j = .done := fun hl hd => h j hl ((doneAt_iff hj).2 hd)
  simp only [Bool.not_eq_true', Bool.and_eq_false_iff, decide_eq_false_iff_not, beq_eq_false_iff_ne]
  exact (Nat.lt_or_ge j low).imp (by omega) this

theorem resumeRow_at {b : BurnState} {p : Profile} {tg : Vector FuseRow 12} {i row : Nat} {target : FuseRow}
    (h : b.rowAt p tg i row target) : b.resumeRow p tg i = (row, target) := by
  rcases h with ⟨k, rfl, rfl, rfl⟩ | ⟨j, rfl, rfl, rfl⟩
  · simp [BurnState.resumeRow]
  · have := j.isLt
    simp [BurnState.resumeRow, show ¬12 + j.val < 12 by omega]; omega

/-! ### The die table (R121, R123) -/

/-- Setting a die's entry changes what a search finds for that die alone. -/
theorem tableFind_set (l : List (Die × DieEntry)) (d : Die) (e : DieEntry) (d' : Die) :
    tableFind (tableSet l d e) d' = if d' = d then some e else tableFind l d' := by
  induction l with
  | nil => simp only [tableSet, tableFind, eq_comm (a := d)]
  | cons x t ih =>
    obtain ⟨x, y⟩ := x
    unfold tableSet
    by_cases h1 : x = d
    · subst h1; simp only [if_true, tableFind, eq_comm (a := x)]; split <;> rfl
    · rw [if_neg h1]
      split
      · simp only [tableFind, eq_comm (a := d)]
      · simp only [tableFind, ih]
        by_cases h2 : x = d' <;> simp_all

/-! ### The order in which a release or a halt reaches the sites (log 10) -/

/-- Every site engine comes up exactly once. -/
theorem siteOrder_nodup (s : State) : s.siteOrder.Nodup ∧ ∀ m, m ∈ s.siteOrder := by
  unfold State.siteOrder
  refine ⟨?_, fun m => by simpa [allSites] using em _⟩
  rw [List.nodup_append]
  refine ⟨List.nodup_dedup _, (List.nodup_finRange 24).filter _, ?_⟩
  rintro a ha b hb rfl
  simp only [List.mem_filter, List.mem_dedup] at ha hb
  simp [ha] at hb

end Sys2Proof.Machine
end

