-- ==== Sys2Proof/Laws/Burn.lean ====
section
/-! SUPPORT. Burn states keep their ranges through everything that happens to them (R23 to R41):
  one lemma per operation of `Burn.lean`. -/

namespace Sys2Proof.Machine

variable {p : Profile} {b : BurnState}

/-- A burn begins within its profile (R23, R24). -/
theorem begin_kept (h : p.w0 ≤ p.wmax) : (BurnState.begin p).kept p :=
  ⟨⟨h, Nat.zero_le _, Nat.zero_le _, Nat.zero_le _, List.nodup_nil, fun _ h => nomatch h⟩, fun h => nomatch h⟩

/-- Changing only fields that the ranges do not read. -/
theorem BurnState.inRange_of_fields {b' : BurnState} (h : b.inRange p) (h1 : b'.width ≤ p.wmax)
    (h2 : b'.rowStress ≤ p.cmax)
   (h3 : b'.bitPulses ≤ p.pmax) (h4 : b'.maxStress ≤ p.cmax) (h5 : b'.remaps = b.remaps)
     (h6 : b'.rejected = b.rejected) :
   b'.inRange p := ⟨h1, h2, h3, h4, by rw [h5, h6]; exact h.sparesOnce, by rw [h5, h6]; exact h.spares⟩

theorem enterBit_inRange (hr : p.w0 ≤ p.wmax) (h : b.inRange p) (i) : (b.enterBit p i).inRange p :=
  BurnState.inRange_of_fields h hr h.rowStress (Nat.zero_le _) h.maxStress rfl rfl

theorem startBits_inRange (hr : p.w0 ≤ p.wmax) (h : b.inRange p) (t) : (b.startBits p t).inRange p := by
  unfold BurnState.startBits; split
  · exact enterBit_inRange hr h _
  · exact BurnState.inRange_of_fields h h.width h.rowStress h.bitPulses h.maxStress rfl rfl

theorem setCurState_fields (b : BurnState) (st) : (b.setCurState st).width = b.width ∧ (b.setCurState st).rowStress =
    b.rowStress ∧ (b.setCurState st).bitPulses = b.bitPulses ∧ (b.setCurState st).maxStress = b.maxStress ∧
    (b.setCurState st).remaps = b.remaps ∧ (b.setCurState st).rejected = b.rejected ∧ (b.setCurState st).cur = b.cur ∧
    (b.setCurState st).step = b.step ∧ (b.setCurState st).bit = b.bit := by
  unfold BurnState.setCurState; split <;> simp

theorem setCurState_inRange (h : b.inRange p) (st) : (b.setCurState st).inRange p := by
  obtain ⟨a1, a2, a3, a4, a5, a6, -⟩ := setCurState_fields b st
  exact BurnState.inRange_of_fields h (a1 ▸ h.width) (a2 ▸ h.rowStress) (a3 ▸ h.bitPulses) (a4 ▸ h.maxStress) a5 a6

theorem finishRow_inRange (h : b.inRange p) : b.finishRow.inRange p :=
  BurnState.inRange_of_fields h h.width h.rowStress h.bitPulses (Nat.max_le.2 ⟨h.maxStress, h.rowStress⟩) rfl rfl

theorem finishRow_kept (h : b.kept p) : b.finishRow.kept p := ⟨finishRow_inRange h.toinRange, h.lock⟩

theorem preCheckPassed_inRange (hr : p.w0 ≤ p.wmax) (h : b.inRange p) (t) : (b.preCheckPassed p t).inRange p := by
  unfold BurnState.preCheckPassed
  refine startBits_inRange hr ?_ t
  have := setCurState_inRange h .inProgress
  exact BurnState.inRange_of_fields this this.width (Nat.zero_le _) this.bitPulses this.maxStress rfl rfl

theorem rowBad_inRange (h : b.inRange p) : b.rowBad.inRange p := by
  have := finishRow_inRange (setCurState_inRange h .inProgress)
  exact BurnState.inRange_of_fields this this.width this.rowStress this.bitPulses this.maxStress rfl rfl

theorem moveOn_inRange (hr : p.w0 ≤ p.wmax) (h : b.inRange p) : (b.moveOn p).inRange p := by
  unfold BurnState.moveOn
  (repeat' split) <;> first
    | exact h
    | exact BurnState.inRange_of_fields h h.width (Nat.zero_le _) h.bitPulses h.maxStress rfl rfl
    | exact BurnState.inRange_of_fields h hr (Nat.zero_le _) (Nat.zero_le _) h.maxStress rfl rfl

theorem rowDone_inRange (hr : p.w0 ≤ p.wmax) (h : b.inRange p) : (b.rowDone p).inRange p :=
  moveOn_inRange hr (finishRow_inRange (setCurState_inRange h .done))

theorem lockBitJudged_inRange (hr : p.w0 ≤ p.wmax) (h : b.inRange p) : (b.lockBitJudged p).inRange p := by
  unfold BurnState.lockBitJudged; split
  · exact BurnState.inRange_of_fields h h.width h.rowStress h.bitPulses h.maxStress rfl rfl
  · exact enterBit_inRange hr h _

/-- Judging a bit of the lock row keeps the burn within its profile (R40). -/
theorem lockBitJudged_kept (hr : p.w0 ≤ p.wmax) (h : b.kept p) : (b.lockBitJudged p).kept p := by
  refine ⟨lockBitJudged_inRange hr h.toinRange, ?_⟩
  unfold BurnState.lockBitJudged; split
  · rename_i hb; intro hc; exact ⟨.inr rfl, by simp [hb]⟩
  · rename_i i hb; intro hc; refine ⟨.inl rfl, ?_⟩
    have := (h.lock hc).2
    simp only [BurnState.enterBit]; omega

theorem bitDone_kept (hr : p.w0 ≤ p.wmax) (h : b.kept p) (t) : (b.bitDone p t).kept p := by
  unfold BurnState.bitDone
  split
  · exact lockBitJudged_kept hr h
  · rename_i hc
    split
    · exact ⟨enterBit_inRange hr h.toinRange _, fun hl => absurd hl hc⟩
    · exact ⟨BurnState.inRange_of_fields h.toinRange h.width h.rowStress h.bitPulses h.maxStress rfl rfl,
        fun hl => absurd hl hc⟩

theorem lockSettle_kept (hr : p.w0 ≤ p.wmax) : ∀ (n : Nat) {b : BurnState}, b.kept p →
    (BurnState.lockSettle p n b).kept p
  | 0, b, h => by unfold BurnState.lockSettle; split; exact lockBitJudged_kept hr h; exact h
  | n+1, b, h => by
    unfold BurnState.lockSettle; split
    · exact lockSettle_kept hr n (lockBitJudged_kept hr h)
    · exact h

theorem lockBitJudged_cur (b : BurnState) : (b.lockBitJudged p).cur = b.cur := by
  unfold BurnState.lockBitJudged; split <;> rfl

/-- After the settling of lock bits the bit in hand may be pulsed, or the lock check follows. -/
theorem lockSettle_ends : ∀ (n : Nat) {b : BurnState}, (b.step = .bits ∨ b.step = .lockCheck) → b.bit ≤ n →
    (BurnState.lockSettle p n b).step = .lockCheck ∨ (BurnState.lockSettle p n b).bitSpent p = false
  | 0, b, h, hb => by
    unfold BurnState.lockSettle
    split
    · left; simp [BurnState.lockBitJudged, show b.bit = 0 by omega]
    · rename_i hn
      rcases h with h | h
      · right; simpa [h] using hn
      · exact .inl h
  | n+1, b, h, hb => by
    unfold BurnState.lockSettle
    split
    · refine lockSettle_ends n ?_ ?_
      · unfold BurnState.lockBitJudged; split; exact .inr rfl; exact .inl rfl
      · unfold BurnState.lockBitJudged; split
        · rename_i e; simp [e]
        · rename_i i e; simp only [BurnState.enterBit]; omega
    · rename_i hn
      rcases h with h | h
      · right; simpa [h] using hn
      · exact .inl h

/-- The charge of a pulse that was allowed keeps the spent pulses and the stress within the caps (R25, R27). -/
theorem charge_kept (h : b.kept p) (hs : b.bitSpent p = false) : (b.charge (b.pulseWidth p)).kept p := by
  have hp : b.bitPulses ≠ p.pmax := by simp [BurnState.bitSpent] at hs; exact hs.1
  refine ⟨BurnState.inRange_of_fields h.toinRange h.width ?_ ?_ h.maxStress rfl rfl, h.lock⟩
  · have := h.rowStress; simp only [BurnState.charge, BurnState.pulseWidth]; omega
  · have := h.bitPulses; simp only [BurnState.charge]; omega

/-- The growth of the width stops at Wmax (R29). -/
theorem grow_kept (h : b.kept p) : (b.grow p).kept p :=
  ⟨BurnState.inRange_of_fields h.toinRange (Nat.min_le_left _ _) h.rowStress h.bitPulses h.maxStress rfl rfl, h.lock⟩

/-- A pulse that is allowed has a width between one and Wmax (R25). -/
theorem pulseWidth_pos (h : b.inRange p) (hs : b.bitSpent p = false) : 1 ≤ b.pulseWidth p ∧
    b.pulseWidth p ≤ p.wmax := by
  have h2 : b.pulseWidth p ≠ 0 := by simp [BurnState.bitSpent] at hs; simpa using hs.2
  have := h.width
  constructor
  · omega
  · simp only [BurnState.pulseWidth]; omega

theorem kept_of_notLock (h : b.inRange p) (hc : b.cur ≠ .lock) : b.kept p := ⟨h, fun e => absurd e hc⟩

theorem startBits_cur (b : BurnState) (t) : (b.startBits p t).cur = b.cur := by
  unfold BurnState.startBits; split <;> rfl

theorem preCheckPassed_kept (hr : p.w0 ≤ p.wmax) (h : b.inRange p) (hc : b.cur ≠ .lock) (t) :
    (b.preCheckPassed p t).kept p := by
  refine kept_of_notLock (preCheckPassed_inRange hr h t) ?_
  unfold BurnState.preCheckPassed; rw [startBits_cur]; exact (setCurState_fields b .inProgress).2.2.2.2.2.2.1 ▸ hc

theorem rowBad_kept (h : b.inRange p) (hc : b.cur ≠ .lock) : b.rowBad.kept p := by
  refine kept_of_notLock (rowBad_inRange h) ?_
  show (b.setCurState .inProgress).cur ≠ _
  rw [(setCurState_fields b .inProgress).2.2.2.2.2.2.1]; exact hc

theorem moveOn_kept (hr : p.w0 ≤ p.wmax) (h : b.kept p) : (b.moveOn p).kept p := by
  refine ⟨moveOn_inRange hr h.toinRange, ?_⟩
  unfold BurnState.moveOn
  (repeat' split) <;> first
    | exact h.lock
    | (intro e; exact ⟨.inl rfl, Nat.le_refl 2⟩)
    | (intro e; cases e)

theorem rowDone_kept (hr : p.w0 ≤ p.wmax) (h : b.kept p) : (b.rowDone p).kept p := by
  refine moveOn_kept hr ⟨finishRow_inRange (setCurState_inRange h.toinRange .done), ?_⟩
  obtain ⟨-, -, -, -, -, -, a7, a8, a9⟩ := setCurState_fields b .done
  simp only [BurnState.finishRow, a7, a8, a9]; exact h.lock

/-- Rejecting a spare that is left keeps the spares each used once (R35). -/
theorem reject_inRange (h : b.inRange p) {i} (hi : b.spareLeft p i) : (b.reject i).inRange p := by
  obtain ⟨h1, h2, h3⟩ := hi
  refine ⟨h.width, h.rowStress, h.bitPulses, h.maxStress, ?_, ?_⟩
  · show (b.remaps.map Prod.snd ++ (b.rejected ++ [i])).Nodup
    rw [← List.append_assoc, List.nodup_append]
    refine ⟨h.sparesOnce, List.nodup_singleton _, fun a ha c hc => ?_⟩
    simp only [List.mem_singleton] at hc; subst hc
    rintro rfl
    rcases List.mem_append.1 ha with h | h
    · exact h2 h
    · exact h3 h
  · show ∀ j ∈ b.remaps.map Prod.snd ++ (b.rejected ++ [i]), _
    intro j hj
    rw [← List.append_assoc] at hj
    rcases List.mem_append.1 hj with hj | hj
    · exact h.spares j hj
    · simp only [List.mem_singleton] at hj; subst hj; exact h1

theorem reject_kept (h : b.kept p) {i} (hi : b.spareLeft p i) : (b.reject i).kept p :=
  ⟨reject_inRange h.toinRange hi, h.lock⟩

/-- Taking a spare that is left keeps the spares each used once (R35, R37). -/
theorem accept_inRange (hr : p.w0 ≤ p.wmax) (h : b.inRange p) {i} (hi : b.spareLeft p i) (k t) :
    (b.accept p k i t).inRange p := by
  obtain ⟨h1, h2, h3⟩ := hi
  unfold BurnState.accept
  refine startBits_inRange hr ?_ t
  refine ⟨h.width, Nat.zero_le _, h.bitPulses, h.maxStress, ?_, ?_⟩
  · show ((b.remaps ++ [(k, i)]).map Prod.snd ++ b.rejected).Nodup
    have hp : ((b.remaps ++ [(k, i)]).map Prod.snd ++ b.rejected).Perm
      (i :: (b.remaps.map Prod.snd ++ b.rejected)) := by
      simp only [List.map_append, List.map_cons, List.map_nil, List.append_assoc, List.cons_append, List.nil_append]
      exact List.perm_middle
    rw [hp.nodup_iff, List.nodup_cons]
    refine ⟨fun hh => ?_, h.sparesOnce⟩
    rcases List.mem_append.1 hh with h | h
    · exact h2 h
    · exact h3 h
  · show ∀ j ∈ (b.remaps ++ [(k, i)]).map Prod.snd ++ b.rejected, _
    intro j hj
    simp only [List.map_append, List.map_cons, List.map_nil, List.mem_append, List.mem_singleton] at hj
    rcases hj with (hj | hj) | hj
    · exact h.spares j (List.mem_append.2 (.inl hj))
    · subst hj; exact h1
    · exact h.spares j (List.mem_append.2 (.inr hj))

/-- The first free spare is left (R35). -/
theorem spareLeft_of_freeSpares {l : List Nat} {i} (h : b.freeSpares p = i :: l) : b.spareLeft p i := by
  have : i ∈ b.freeSpares p := by rw [h]; simp
  simp only [BurnState.freeSpares, List.mem_filter, List.mem_range, BurnState.spareFree, Bool.and_eq_true,
    Bool.not_eq_true', List.contains_eq_mem, decide_eq_false_iff_not] at this
  exact ⟨this.1, this.2.1, this.2.2⟩

end Sys2Proof.Machine
end

