-- ==== Sys2Proof/Laws/Chain.lean ====
section
/-! SUPPORT. The chain unit's shared operations, each said once: the end of a block, the waits and holds that follow it,
and what an arrival at a ready block does (R147, R148). -/

namespace Sys2Proof.Machine

/-! ### Fields of job memory -/

theorem Memory.read16_eq_leNat (m : Memory) (a : Nat) : m.read16 a = leNat (m.readBytes a 2) := rfl

theorem Memory.read16_congr {m m' : Memory} {a : Nat} (h : ∀ x, a ≤ x → x < a + 2 → m'.read x = m.read x) :
    m'.read16 a = m.read16 a := by
  rw [read16_eq_leNat, read16_eq_leNat, Memory.readBytes_congr h]

theorem Memory.read32_congr {m m' : Memory} {a : Nat} (h : ∀ x, a ≤ x → x < a + 4 → m'.read x = m.read x) :
    m'.read32 a = m.read32 a := congrArg leNat (Memory.readBytes_congr h)

/-- A byte outside a written field is as before. -/
theorem Memory.read_writeField_out {m : Memory} {a n v x : Nat} (h : ¬(a ≤ x ∧ x < a + n)) :
    (m.writeField a n v).read x = m.read x := Memory.read_writeBytes_out (by simpa using h)

theorem storeField_bytes (s : State) (a n v : Nat) : bytesBut a n s (s.storeField a n v) := fun x h => by
  simpa [State.storeField] using Memory.read_writeField_out h

/-! ### The end of a block (R148) -/

/-- The link of a block whose result and done tag alone changed is the same. -/
theorem linkOf_of_doneBytes {s t : State} {b : Block} (h : doneBytes s t b) : t.linkOf b.offset = s.linkOf b.offset :=
  Memory.read32_congr fun x h1 h2 => h x (by omega) (by omega)

/-- A link's ready tag lies on none of the bytes that the end of a block writes. -/
theorem ready_of_doneBytes {s t : State} {b : Block} {a : Nat} (h : doneBytes s t b) (hb : b.offset % 64 = 0)
    (ha : a % 64 = 0) : t.mem.read16 a = s.mem.read16 a :=
  Memory.read16_congr fun x h1 h2 => h x (by omega) (by omega)

theorem validBlockOffset_mod {a : Nat} (h : validBlockOffset a = true) : a % 64 = 0 := by
  simp only [validBlockOffset, validOffset, Bool.and_eq_true, decide_eq_true_eq] at h
  omega

/-- Steps 2 to 4 of R148. -/
theorem closeBlock_closes {s : State} {b : Block} {tag : Nat} (h : s.endsBlock b tag) :
    blockCloses s (s.closeBlock b.offset b.notify) b tag where
  chain := by
    simp only [State.closeBlock, h.expected]
    split <;> simp [State.storeField, h.expected]
  doneTag := by
    have h1 := Memory.read_writeField (m := s.mem) (a := b.offset + 12) (n := 2) (v := tag) h.memory
      (by have := h.inside; omega)
    simp only [State.closeBlock, h.expected, Option.getD_some]
    rw [Memory.read16_eq_leNat]
    split <;> simp only [State.setChain_mem, State.raise_mem, State.storeField, State.setMem_mem] <;> rw [h1] <;>
      exact Nat.mod_eq_of_lt (by have := h.tagRange.2; omega)
  bytes := fun x hx => by
    have := storeField_bytes s (b.offset + 12) 2 (s.chain.expected.getD 0) x hx
    simp only [State.closeBlock]
    split <;> simpa using this
  events := by
    simp only [State.closeBlock]
    split <;> simp [State.storeField, State.raise]
  frame := fun p hp => by
    simp only [State.closeBlock]
    cases p <;> simp_all [Part.same] <;> split <;> simp [State.storeField]

/-- Steps 1 to 4 of R148. -/
theorem writeResult_closeBlock_ends {s : State} {b : Block} {tag : Nat} {r : BlockResult} (h : s.endsBlock b tag) :
    blockEnds s ((s.writeResult b.offset r).closeBlock b.offset b.notify) b tag r := by
  have hin := h.inside
  have hw : (s.writeResult b.offset r).endsBlock b tag :=
    ⟨by simpa [State.writeResult, State.storeField] using Memory.wf_writeField h.memory _ _ _, h.aligned, h.inside,
      by simpa [State.writeResult, State.storeField] using h.expected, h.tagRange⟩
  have c := closeBlock_closes hw
  have hr : (s.writeResult b.offset r).reg = s.reg := by simp [State.writeResult, State.storeField]
  have hc : (s.writeResult b.offset r).chain = s.chain := by simp [State.writeResult, State.storeField]
  refine ⟨by rw [c.chain, hc], ?_, c.doneTag, fun x h1 h2 => ?_, by rw [c.events, hr], fun p hp => ?_⟩
  · rw [c.bytes _ (by omega)]
    have h1 := Memory.read_writeField (m := s.mem) (a := b.offset + 16) (n := 1) (v := r.code) h.memory (by omega)
    have h2 : r.code < 256 := by cases r <;> decide
    simpa [State.writeResult, State.storeField, Memory.readBytes, leNat, Nat.mod_eq_of_lt h2] using h1
  · rw [c.bytes x (by omega)]
    exact storeField_bytes s (b.offset + 16) 1 r.code x (by omega)
  · have := c.frame p hp
    cases p <;> simp_all [Part.same, State.writeResult, State.storeField]

/-! ### Waits and holds (R145) -/

/-- The unit waits with nothing to flush. -/
theorem flush_quiet {s : State} (h : s.nothingToFlush) : s.flush = s := by
  cases hw : s.escrow.writer with
  | opened page slot records =>
    obtain ⟨rfl, hq⟩ := h _ _ _ hw
    simp [State.flush, State.recordInProgress, State.handOverRecords, hw, hq]
  | idle => simp [State.flush, State.recordInProgress, State.handOverRecords, hw]
  | stalled source => simp [State.flush, State.recordInProgress, State.handOverRecords, hw]

theorem nothingToFlush_congr {s t : State} (h : t.escrow = s.escrow) (hs : s.nothingToFlush) : t.nothingToFlush :=
  fun p l r hw => by rw [h] at hw ⊢; exact hs p l r hw

theorem enterWaiting_quiet {s : State} (h : s.nothingToFlush) (offset : Nat) :
    s.enterWaiting offset =
      (s.setChain { s.chain with state := .waiting, offset := some offset }).raise .chainWait := by
  unfold State.enterWaiting
  exact flush_quiet (nothingToFlush_congr (by simp) h)

/-- The unit waits while a record is being written: the flush is pending (R168). -/
theorem enterWaiting_writing {s : State} (h : s.recordInProgress = true) (offset : Nat) :
    s.enterWaiting offset =
      ((s.setChain { s.chain with state := .waiting, offset := some offset }).raise .chainWait).setEscrow
        { s.escrow with flushPending := true } := by
  unfold State.enterWaiting State.flush
  have : ((s.setChain { s.chain with state := .waiting, offset := some offset }).raise .chainWait).recordInProgress =
      true := by simpa [State.recordInProgress] using h
  rw [if_pos this]; simp

theorem chainFault_quiet {s : State} (h : s.nothingToFlush) (reason : HoldReason) :
    s.chainFault reason =
      ((s.raise .chainFault).setChain { s.chain with state := .held reason, offset := none }).raise .held := by
  unfold State.chainFault State.enterHeld
  rw [flush_quiet (nothingToFlush_congr (by simp) h)]
  simp [State.raise, State.setChain, State.setReg]

/-! ### Arrivals (R147, R148) -/

theorem arrive_notReady {s : State} {offset : Nat} (h : s.blockReady offset = false) (fuel : Nat) :
    s.arrive (fuel + 1) offset = s.enterWaiting offset := by simp [State.arrive, h]

theorem arrive_inHand {s t : State} {offset : Nat} (h : s.blockReady offset = true)
    (ht : s.takeBlock offset = (t, none)) (fuel : Nat) : s.arrive (fuel + 1) offset = t := by simp [State.arrive, h, ht]

/-- The state in which a block done at once has its result and done tag, before its link is judged. -/
theorem arrive_done {s t : State} {offset tag : Nat} {r : BlockResult} (h : s.blockReady offset = true)
    (ht : s.takeBlock offset = (t, some r)) (he : t.endsBlock (readBlock s.mem offset) tag) :
    ∃ u, blockEnds t u (readBlock s.mem offset) tag r ∧ ∀ fuel,
      (validBlockOffset (t.linkOf offset) = true → s.arrive (fuel + 1) offset = u.arrive fuel (t.linkOf offset)) ∧
      (validBlockOffset (t.linkOf offset) = false → s.arrive (fuel + 1) offset = u.chainFault .linkFault) := by
  have e : blockEnds t _ (readBlock s.mem offset) tag r := writeResult_closeBlock_ends he
  have hl : State.linkOf _ offset = t.linkOf offset := linkOf_of_doneBytes e.bytes
  refine ⟨_, e, fun fuel => ⟨fun hv => ?_, fun hv => ?_⟩⟩
  · simp only [State.arrive, h, ht, if_true]
    exact (if_pos (by rw [← hv, ← hl]; rfl)).trans (by rw [← hl]; rfl)
  · simp only [State.arrive, h, ht, if_true]
    exact if_neg (by rw [← hl] at hv; exact fun hc => absurd (hv.symm.trans hc) (by simp))

theorem blockEnds.ready {s u : State} {b : Block} {tag : Nat} {r : BlockResult} {link : Nat} (h : blockEnds s u b tag r)
    (hb : b.offset % 64 = 0) (hl : validBlockOffset link = true) :
    u.blockReady link = decide (nextTag tag = s.mem.read16 link) := by
  simp only [State.blockReady, h.chain, ready_of_doneBytes h.bytes hb (validBlockOffset_mod hl), Option.some.injEq]

/-- The unit goes on to a linked block that is not ready, with nothing to flush. -/
theorem blockEnds.waiting {s u : State} {b : Block} {tag : Nat} {r : BlockResult} (h : blockEnds s u b tag r)
    (hq : s.nothingToFlush) (link : Nat) (hl : link = s.linkOf b.offset) :
    blockDoneWaiting s (u.enterWaiting link) b tag r ∧ doneBytes s (u.enterWaiting link) b ∧
      sameBut [.reg, .mem, .chain] s (u.enterWaiting link) := by
  have he : u.escrow = s.escrow := h.frame .escrow (by simp)
  rw [enterWaiting_quiet (nothingToFlush_congr he hq)]
  refine ⟨⟨by simp [h.chain, hl], by simpa using h.result, by simpa using h.doneTag, ?_⟩, fun x h1 h2 => ?_,
    fun p hp => ?_⟩
  · rw [← h.events]; simp [State.raise]
  · simpa using h.bytes x h1 h2
  · have := h.frame p hp
    cases p <;> simp_all [Part.same]

/-- The same while a record is being written. -/
theorem blockEnds.flushing {s u : State} {b : Block} {tag : Nat} {r : BlockResult} (h : blockEnds s u b tag r)
    (hq : s.recordInProgress = true) (link : Nat) (hl : link = s.linkOf b.offset) :
    blockDoneWaiting s (u.enterWaiting link) b tag r ∧ doneBytes s (u.enterWaiting link) b ∧
      (u.enterWaiting link).escrow = { s.escrow with flushPending := true } ∧
      sameBut [.reg, .mem, .chain, .escrow] s (u.enterWaiting link) := by
  have he : u.escrow = s.escrow := h.frame .escrow (by simp)
  rw [enterWaiting_writing (by simpa [State.recordInProgress, he] using hq)]
  refine ⟨⟨by simp [h.chain, hl], by simpa using h.result, by simpa using h.doneTag, ?_⟩, fun x h1 h2 => ?_,
    by simp [he], fun p hp => ?_⟩
  · rw [← h.events]; simp [State.raise]
  · simpa using h.bytes x h1 h2
  · have := h.frame p (by simp_all)
    cases p <;> simp_all [Part.same]

/-- The unit holds on an invalid link. -/
theorem blockEnds.faulty {s u : State} {b : Block} {tag : Nat} {r : BlockResult} (h : blockEnds s u b tag r)
    (hq : s.nothingToFlush) : blockEndsFaulty s (u.chainFault .linkFault) b tag r := by
  have he : u.escrow = s.escrow := h.frame .escrow (by simp)
  rw [chainFault_quiet (nothingToFlush_congr he hq)]
  refine ⟨by simp [h.chain], by simpa using h.result, by simpa using h.doneTag, fun x h1 h2 => ?_, ?_, fun p hp => ?_⟩
  · simpa using h.bytes x h1 h2
  · rw [← h.events]; simp [State.raise]
  · have := h.frame p hp
    cases p <;> simp_all [Part.same]

/-- What an arrival at a ready block does. -/
theorem arrive_takesReady {u : State} {offset : Nat} (h : u.blockReady offset = true) (fuel : Nat) :
    takesReady u offset (.next (u.arrive (fuel + 2) offset)) where
  inHand := fun t ht => by rw [arrive_inHand h ht]
  waits := fun t r tag ht hw => by
    obtain ⟨w, e, ha⟩ := arrive_done h ht hw.toendsBlock
    refine ⟨_, rfl, ?_⟩
    rw [(ha _).1 hw.link, arrive_notReady (offset := t.linkOf offset)
      ((e.ready hw.aligned hw.link).trans (decide_eq_false (Ne.symm hw.notReady)))]
    exact e.waiting hw.quiet _ rfl
  flushes := fun t r tag ht hw hq => by
    obtain ⟨w, e, ha⟩ := arrive_done h ht hw.toendsBlock
    refine ⟨_, rfl, ?_⟩
    rw [(ha _).1 hw.link, arrive_notReady (offset := t.linkOf offset)
      ((e.ready hw.aligned hw.link).trans (decide_eq_false (Ne.symm hw.notReady)))]
    exact e.flushing hq _ rfl
  faults := fun t r tag ht hw => by
    obtain ⟨w, e, ha⟩ := arrive_done h ht hw.toendsBlock
    refine ⟨_, rfl, ?_⟩
    rw [(ha _).2 hw.link]
    exact e.faulty hw.quiet
  follows := fun t r tag ht hw => by
    obtain ⟨w, e, ha⟩ := arrive_done h ht hw.toendsBlock
    refine ⟨w, e, fun v hv => ?_⟩
    rw [(ha _).1 hw.link, arrive_inHand (offset := t.linkOf offset)
      ((e.ready hw.aligned hw.link).trans (decide_eq_true hw.ready.symm)) hv]

/-- The link of a done block is ready: the unit takes the linked block. -/
theorem followLink_takesReady {u : State} {offset : Nat} (hl : validBlockOffset (u.linkOf offset) = true)
    (h : u.blockReady (u.linkOf offset) = true) : takesReady u (u.linkOf offset) (.next (u.followLink offset)) := by
  unfold State.followLink
  rw [if_pos hl]
  exact arrive_takesReady h 65534

end Sys2Proof.Machine
end

