-- ==== Sys2Proof/Laws/Entries.lean ====
section
/-! SUPPORT. The entries of a TOUCHDOWN that starts, each said once (R64, R152). -/

namespace Sys2Proof.Machine

/-- What the taking of one entry does (R64, R65, R84). -/
theorem takeEntry_moves (s : State) (e : SiteEntry) (k : Nat) (b : Block) (hb : s.chain.block = some b) :
    entryTaken s (s.takeEntry (e, k)) b e k ∧ sitesBut e.site s (s.takeEntry (e, k)) ∧
      (∀ a, (e.action = .skip → outsideEntry b k a) → (s.takeEntry (e, k)).mem.read a = s.mem.read a) ∧
      sameBut [.sites, .mem] s (s.takeEntry (e, k)) ∧ (s.mem.wf = true → (s.takeEntry (e, k)).mem.wf = true) := by
  by_cases ha : e.action = .skip
  · have he : s.takeEntry (e, k) = s.enterFinal e.site (e.context k) .skipped none := by simp [State.takeEntry, ha]
    have hends := enterFinal_ends s e.site (e.context k) (e.context k) .skipped none rfl
    have hfin : (s.enterFinal e.site (e.context k) .skipped none).sites[e.site] =
        some { e.context k with state := .final, result := some .skipped, exch := none } := by
      rw [State.enterFinal, setSite_get, if_pos rfl]
    rw [he]
    refine ⟨⟨_, hfin, rfl, rfl, rfl, rfl, rfl, rfl, rfl, rfl, rfl, fun _ => ⟨rfl, rfl, rfl, hends.code b hb⟩,
      fun h => absurd ha h⟩, hends.others, fun a hna => hends.bytes b hb a fun h => hna ha ?_, hends.frame, fun hw => ?_⟩
    · simpa [SiteEntry.context, Nat.add_assoc] using h
    · simp only [State.enterFinal, State.entryOffset, hb, Option.map_some, State.setSite_mem, State.store,
        State.setMem_mem]
      exact Memory.wf_writeBytes hw _ _
  · have he : s.takeEntry (e, k) =
        s.send e.site { e.context k with lanesUsed := e.lanes.first } .hail .hello 0 0 0 := by
      unfold State.takeEntry
      dsimp only
      split
      · exact absurd ‹_› ha
      · rfl
    have m := send_moves s e.site { e.context k with lanesUsed := e.lanes.first } .hail .hello 0 0 0
    have hmem := m.frame .mem (by simp)
    rw [he]
    refine ⟨⟨_, m.here, rfl, rfl, rfl, rfl, rfl, rfl, rfl, rfl, rfl, fun h => absurd h ha, fun _ => ⟨rfl, ?_, rfl⟩⟩,
      m.others, fun a _ => congrArg (Memory.read · a) hmem, m.frame.mono (by simp), fun hw => ?_⟩
    · simp only [SiteCtx.asks]
      cases e.lanes <;> rfl
    · exact (congrArg Memory.wf hmem).trans hw

/-- What stands of a taken entry stands whatever happens to other sites and other bytes. -/
theorem entryTaken.keep {s t u : State} {b : Block} {e : SiteEntry} {k : Nat} (h : entryTaken s t b e k)
    (hs : u.sites[e.site] = t.sites[e.site])
    (hm : e.action = .skip → u.mem.read (b.offset + 80 + 48 * k + 12) = t.mem.read (b.offset + 80 + 48 * k + 12)) :
    entryTaken s u b e k := by
  obtain ⟨x, hx, h1, h2, h3, h4, h5, h6, h7, h8, h9, hskip, hother⟩ := h
  refine ⟨x, hs.trans hx, h1, h2, h3, h4, h5, h6, h7, h8, h9, fun ha => ?_, hother⟩
  obtain ⟨q1, q2, q3, q4⟩ := hskip ha
  exact ⟨q1, q2, q3, fun hw hin => by rw [hm ha]; exact q4 hw hin⟩

/-- What the taking of all the entries, on sites of their own, does. -/
theorem takeEntries (b : Block) : ∀ (l : List (SiteEntry × Nat)) (s : State), s.chain.block = some b →
    (l.map fun e => e.1.site).Nodup → (l.map Prod.snd).Nodup →
    let t := l.foldl State.takeEntry s
    (∀ e ∈ l, entryTaken s t b e.1 e.2) ∧ (∀ n : Site, (∀ e ∈ l, e.1.site ≠ n) → t.sites[n] = s.sites[n]) ∧
      (∀ a, (∀ e ∈ l, e.1.action = .skip → outsideEntry b e.2 a) → t.mem.read a = s.mem.read a) ∧
      sameBut [.sites, .mem] s t
  | [], _, _, _, _ =>
    ⟨fun _ he => (nomatch he), fun _ _ => rfl, fun _ _ => rfl, fun p _ => by cases p <;> simp [Part.same]⟩
  | (e, k) :: l, s, hb, h1, h2 => by
    simp only [List.map_cons, List.nodup_cons] at h1 h2
    obtain ⟨m1, m2, m3, m4, m5⟩ := takeEntry_moves s e k b hb
    obtain ⟨i1, i2, i3, i4⟩ := takeEntries b l (s.takeEntry (e, k)) ((congrArg _ (m4 .chain (by simp))).trans hb) h1.2
      h2.2
    refine ⟨fun f hf => ?_, fun n hn => ?_, fun a ha => ?_, m4.trans i4⟩
    · rcases List.mem_cons.1 hf with rfl | hf
      · refine m1.keep (i2 _ fun g hg hgs => h1.1 (List.mem_map.2 ⟨g, hg, hgs⟩)) fun _ => i3 _ fun g hg _ => ?_
        have : g.2 ≠ k := fun h => h2.1 (List.mem_map.2 ⟨g, hg, h⟩)
        unfold outsideEntry
        omega
      · obtain ⟨x, hx, r1, r2, r3, r4, r5, r6, r7, r8, r9, r10, r11⟩ := i1 f hf
        exact ⟨x, hx, r1, r2, r3, r4, r5, r6, r7, r8, r9, fun hs =>
          ⟨(r10 hs).1, (r10 hs).2.1, (r10 hs).2.2.1, fun hw => (r10 hs).2.2.2 (m5 hw)⟩, r11⟩
    · rw [List.foldl_cons, i2 n fun f hf => hn f (List.mem_cons_of_mem _ hf),
        m2 n fun h => hn (e, k) List.mem_cons_self h.symm]
    · rw [List.foldl_cons, i3 a fun f hf => ha f (List.mem_cons_of_mem _ hf), m3 a (ha (e, k) List.mem_cons_self)]

/-- The start of a TOUCHDOWN: its entries taken, the block marked as started (R152). -/
theorem startEntries_start (s : State) (b : Block) (es : List SiteEntry) (hn : (es.map SiteEntry.site).Nodup) :
    entriesStart s (s.startEntries b es) b es ∧ sameBut [.sites, .mem, .chain] s (s.startEntries b es) ∧
      (s.startEntries b es).chain =
        { s.chain with block := some { b with work := .touchdown es true false false } } := by
  obtain ⟨f1, f2, f3, f4⟩ := takeEntries { b with work := .touchdown es true false false } es.zipIdx
    (s.setChain { s.chain with block := some { b with work := .touchdown es true false false } }) rfl
    (by
      rw [show (fun e : SiteEntry × Nat => e.1.site) = SiteEntry.site ∘ Prod.fst from rfl, ← List.map_map,
        List.zipIdx_map_fst]
      exact hn)
    (by
      rw [List.zipIdx_map_snd]
      exact List.nodup_range')
  have hc : (s.startEntries b es).chain =
      { s.chain with block := some { b with work := .touchdown es true false false } } := f4 .chain (by simp)
  refine ⟨⟨fun k h => f1 (es[k], k) (by rw [List.mem_zipIdx_iff_getElem?]; simp [h]),
    fun n hns => f2 n fun e he => hns e.1 (List.fst_mem_of_mem_zipIdx he), fun a ha => f3 a fun e he hs => ?_,
    by rw [hc]⟩, ((setChain_same s _).mono (by simp)).trans (f4.mono (by simp)), hc⟩
  obtain ⟨hl, hv⟩ := List.getElem?_eq_some_iff.1 (List.mem_zipIdx_iff_getElem?.1 he)
  exact ha e.2 hl (by rw [hv]; exact hs)

end Sys2Proof.Machine
end

