-- ==== Sys2Proof/Laws/Kept.lean ====
section
/-! SUPPORT. The order of the site engines and the ranges of their burns as one property of the board, which may leave
out what some sites wait for while they are worked on; and what each way of moving a site on does to it. -/

namespace Sys2Proof.Machine

variable {p : Profile} {s t : State} {x : Site → Prop} {n : Site} {c : SiteCtx}

/-- `orderly` and `burnsKept` as one property, which asks nothing of the waits of the sites in `x` but that they have no
request: those are being worked on. -/
structure KeptBut (x : Site → Prop) (p : Profile) (s : State) : Prop where
  range : p.w0 ≤ p.wmax
  unstarted : ∀ (b : Block) (es : List SiteEntry) (released halted : Bool), s.chain.block = some b →
    b.work = .touchdown es false released halted → s.chain.state = .running
  leftOver : s.chain.arrival.isSome → s.chain.state = .running ∧ s.chain.block = none
  named : ∀ n : Site, s.sites[n].isSome → s.chain.state = .running ∧ s.inTouchdown n
  quiet : ∀ m : Site, x m → s.requests m = []
  one : ∀ m : Site, ¬x m → (s.tasks m).length ≤ 1
  fits : ∀ (m : Site) (k : Task), ¬x m → k ∈ s.tasks m → ∃ c, s.sites[m] = some c ∧ c.state ∈ k.states
  kept : ∀ (m : Site) (c : SiteCtx) (b : BurnState), ¬x m → s.sites[m] = some c → c.burn = some b → b.kept p
  parked : ∀ q ∈ s.dies.parked, q.burn.kept p
  armed : ∀ (m : Site) (c : SiteCtx) (b : BurnState) (e : Exchange), ¬x m → s.sites[m] = some c → c.burn = some b →
    c.exch = some e → e.cmd = .armBit → b.bitSpent p = false
  waiting : ∀ r ∈ s.waiting, s.pulseFits p r.site r.width
  driving : ∀ (i : Chan) (n : Site) (w e : Nat), s.chans[i].state = .driving n w e → s.pulseFits p n w

/-- `orderly` and `burnsKept` together, of every site. -/
abbrev Kept (p : Profile) (s : State) : Prop := KeptBut (fun _ => False) p s

/-- What `Kept` says, in the words of `Safety.lean`. -/
theorem kept_iff : (s.orderly ∧ s.burnsKept p) ↔ Kept p s :=
  ⟨fun ⟨a, b⟩ => ⟨b.range, a.unstarted, a.leftOver, a.named, fun _ h => h.elim, fun m _ => a.one m,
    fun m k _ => a.fits m k,
     fun m c bb _ => b.sites m c bb, b.parked, fun m c bb e _ => b.armed m c bb e, b.waiting, b.driving⟩,
   fun h => ⟨⟨h.unstarted, h.leftOver, h.named, fun m => h.one m (fun f => f), fun m k => h.fits m k (fun f => f)⟩,
     ⟨h.range, fun m c bb => h.kept m c bb (fun f => f), h.parked, fun m c bb e => h.armed m c bb e (fun f => f),
       h.waiting, h.driving⟩⟩⟩

/-- What a site waits for depends on the queues, the channels and the parked contexts alone. -/
theorem requests_congr (h1 : t.dies.queue = s.dies.queue) (h2 : t.comp = s.comp) (h3 : t.keys.queue = s.keys.queue)
    (h4 : t.waiting = s.waiting) (h5 : t.chans = s.chans) (h6 : t.dies.parked = s.dies.parked)
    (h7 : t.escrow.queue = s.escrow.queue) (m : Site) : t.requests m = s.requests m := by
  simp only [State.requests, h1, h2, h3, h4, h5, h6, h7]

theorem tasks_eq (s : State) (m : Site) : s.tasks m = (match s.sites[m] with
    | some c => if c.exch.isSome then [Task.exchange] else []
    | none => []) ++ s.requests m := rfl

theorem tasks_congr {m : Site} (h0 : t.sites[m] = s.sites[m]) (h : t.requests m = s.requests m) : t.tasks m =
    s.tasks m := by
  simp only [tasks_eq, h0, h]

/-- Waiting requests and driving channels are among the requests. -/
theorem grant_mem {r : GrantRequest} (h : r ∈ s.waiting) : Task.grant ∈ s.requests r.site := by
  simp only [State.requests, List.mem_append]
  refine .inl (.inl (.inl (.inr ?_)))
  exact List.mem_filterMap.2 ⟨r, h, by simp⟩

theorem allChans_mem (i : Chan) : i ∈ allChans := by revert i; decide

theorem pulse_mem {i : Chan} {n w e} (h : s.chans[i].state = .driving n w e) : Task.pulse ∈ s.requests n := by
  simp only [State.requests, List.mem_append]
  refine .inl (.inl (.inr ?_))
  exact List.mem_filterMap.2 ⟨i, allChans_mem i, by rw [h]; simp [ChannelState.task]⟩

/-- The general step: the chain's part is kept, sites outside x keep their contexts and their requests. -/
theorem KeptBut.frame (h : KeptBut x p s) (hc : t.chain = s.chain) (hs : t.sites = s.sites)
    (hq : ∀ m, t.requests m = s.requests m)
    (hp : t.dies.parked = s.dies.parked) (hw : t.waiting = s.waiting) (hch : t.chans = s.chans) : KeptBut x p t := by
  have hpf : ∀ n w, t.pulseFits p n w ↔ s.pulseFits p n w := fun n w => by simp only [State.pulseFits, hs]
  exact ⟨h.range, hc ▸ h.unstarted, hc ▸ h.leftOver, fun n hn => by
      rw [hs] at hn; rw [hc]; exact ⟨(h.named n hn).1, (State.inTouchdown_congr hc).2 (h.named n hn).2⟩,
    fun m hm => by rw [hq]; exact h.quiet m hm, fun m hm => by rw [tasks_congr (by rw [hs]) (hq m)]; exact h.one m hm,
    fun m k hm hk => by rw [tasks_congr (by rw [hs]) (hq m)] at hk; rw [hs]; exact h.fits m k hm hk,
    fun m c b hm => by rw [hs]; exact h.kept m c b hm, hp ▸ h.parked,
    fun m c b e hm => by rw [hs]; exact h.armed m c b e hm, fun r hr => (hpf _ _).2 (h.waiting r (hw ▸ hr)),
    fun i n w e hd => (hpf _ _).2 (h.driving i n w e (by rw [← hch]; exact hd))⟩

/-- Nothing that the invariant reads changed. -/
theorem KeptBut.same (h : KeptBut x p s) (hc : t.chain = s.chain) (hs : t.sites = s.sites) (h1 : t.dies = s.dies)
    (h2 : t.comp = s.comp) (h3 : t.keys.queue = s.keys.queue) (hw : t.waiting = s.waiting) (hch : t.chans = s.chans)
    (h7 : t.escrow.queue = s.escrow.queue) : KeptBut x p t :=
  h.frame hc hs (requests_congr (by rw [h1]) h2 h3 hw hch (by rw [h1]) h7) (by rw [h1]) hw hch

/-- With site n free: n's requests all gone. -/
abbrev Aside (n : Site) (p : Profile) (s : State) : Prop := KeptBut (· = n) p s

/-- A site whose requests are gone may be set aside. -/
theorem KeptBut.free (h : Kept p s) {n : Site} (hn : s.requests n = []) : Aside n p s :=
  ⟨h.range, h.unstarted, h.leftOver, h.named, fun _ hm => hm ▸ hn, fun m _ => h.one m id, fun m k _ => h.fits m k id,
    fun m c b _ => h.kept m c b id, h.parked, fun m c b e _ => h.armed m c b e id, h.waiting, h.driving⟩

/-- Changing site n alone while set aside. -/
theorem Aside.set {n : Site} (h : Aside n p s) (c : SiteCtx) (hn : s.chain.state = .running ∧ s.inTouchdown n) :
    Aside n p (s.setSite n c) := by
  have hq : ∀ m, (s.setSite n c).requests m = s.requests m := requests_congr rfl rfl rfl rfl rfl rfl rfl
  have hs : ∀ m, m ≠ n → (s.setSite n c).sites[m] = s.sites[m] := fun m hm => by rw [setSite_get, if_neg hm]
  have hpf : ∀ m w, m ≠ n → ((s.setSite n c).pulseFits p m w ↔ s.pulseFits p m w) := fun m w hm => by
    simp only [State.pulseFits, hs m hm]
  refine ⟨h.range, h.unstarted, h.leftOver, fun m hm => ?_, fun m hm => by rw [hq]; exact h.quiet m hm,
    fun m hm => by rw [tasks_congr (hs m hm) (hq m)]; exact h.one m hm,
    fun m k hm hk => by rw [tasks_congr (hs m hm) (hq m)] at hk; rw [hs m hm]; exact h.fits m k hm hk,
    fun m c b hm => by rw [hs m hm]; exact h.kept m c b hm, h.parked,
    fun m c b e hm => by rw [hs m hm]; exact h.armed m c b e hm, fun r hr => ?_, fun i m w e hd => ?_⟩
  · by_cases hmn : m = n
    · subst hmn; exact hn
    · rw [hs m hmn] at hm; exact h.named m hm
  · have hr' : r ∈ s.waiting := hr
    by_cases hmn : r.site = n
    · have := grant_mem hr'; rw [hmn, h.quiet n rfl] at this; exact nomatch this
    · exact (hpf _ _ hmn).2 (h.waiting r hr')
  · have hd' : s.chans[i].state = .driving m w e := hd
    by_cases hmn : m = n
    · have := pulse_mem hd'; rw [hmn, h.quiet n rfl] at this; exact nomatch this
    · exact (hpf _ _ hmn).2 (h.driving i m w e hd')

/-- Put the site back: it waits for one thing at most. -/
theorem Aside.back {n : Site} (h : Aside n p s) {c : SiteCtx} (hc : s.sites[n] = some c)
    (he : ∀ e, c.exch = some e → c.state ∈ Task.exchange.states) (hb : ∀ b, c.burn = some b → b.kept p)
    (ha : ∀ b e, c.burn = some b → c.exch = some e → e.cmd = .armBit → b.bitSpent p = false) : Kept p s := by
  have hq := h.quiet n rfl
  refine ⟨h.range, h.unstarted, h.leftOver, h.named, fun _ h => h.elim, fun m _ => ?_, fun m k _ hk => ?_,
    fun m d b _ hd hbb => ?_,
    h.parked, fun m d b e _ hd hbb hee hec => ?_, h.waiting, h.driving⟩
  · by_cases hm : m = n
    · subst hm; rw [tasks_eq, hq, hc]; dsimp only; split <;> simp
    · exact h.one m hm
  · by_cases hm : m = n
    · subst hm; rw [tasks_eq, hq, hc] at hk
      dsimp only at hk
      split at hk
      · rename_i hs
        simp only [List.append_nil, List.mem_singleton] at hk; subst hk
        obtain ⟨e, hee⟩ := Option.isSome_iff_exists.1 hs
        exact ⟨c, hc, he e hee⟩
      · simp at hk
    · exact h.fits m k hm hk
  · by_cases hm : m = n
    · subst hm; rw [hc] at hd; cases hd; exact hb b hbb
    · exact h.kept m d b hm hd hbb
  · by_cases hm : m = n
    · subst hm; rw [hc] at hd; cases hd; exact ha b e hbb hee hec
    · exact h.armed m d b e hm hd hbb hee hec

/-- Put the site back with one request. -/
theorem Aside.ask {n : Site} {k : Task} (h : Aside n p s) {c : SiteCtx} (hc : s.sites[n] = some c)
    (hch : t.chain = s.chain) (hs : t.sites = s.sites)
    (hq : ∀ m, t.requests m = if m = n then [k] else s.requests m) (hp : ∀ q ∈ t.dies.parked, q.burn.kept p)
    (hw : ∀ r ∈ t.waiting, r ∈ s.waiting ∨ t.pulseFits p r.site r.width)
    (hd : ∀ (i : Chan) (n : Site) (w e : Nat), t.chans[i].state = .driving n w e → s.chans[i].state =
      .driving n w e ∨ t.pulseFits p n w)
    (he : c.exch = none) (hk : c.state ∈ k.states) (hb : ∀ b, c.burn = some b → b.kept p) : Kept p t := by
  have hpf : ∀ n w, t.pulseFits p n w ↔ s.pulseFits p n w := fun n w => by simp only [State.pulseFits, hs]
  refine ⟨h.range, hch ▸ h.unstarted, hch ▸ h.leftOver, fun m hm => ?_, fun _ h => h.elim, fun m _ => ?_,
    fun m j _ hj => ?_, fun m d b _ hd hbb => ?_,
    hp, fun m d b e _ hd hbb hee hec => ?_, fun r hr => ?_, fun i m w e hm => ?_⟩
  · rw [hs] at hm; rw [hch]; exact ⟨(h.named m hm).1, (State.inTouchdown_congr hch).2 (h.named m hm).2⟩
  · by_cases hm : m = n
    · subst hm; rw [tasks_eq, hq, hs, hc]; simp [he]
    · rw [tasks_congr (s := s) (t := t) (by rw [hs]) (by rw [hq, if_neg hm])]; exact h.one m hm
  · by_cases hm : m = n
    · subst hm; rw [tasks_eq, hq, hs, hc] at hj; simp [he] at hj; subst hj; exact ⟨c, by rw [hs]; exact hc, hk⟩
    · rw [tasks_congr (s := s) (t := t) (by rw [hs]) (by rw [hq, if_neg hm])] at hj; rw [hs]; exact h.fits m j hm hj
  · rw [hs] at hd
    by_cases hm : m = n
    · subst hm; rw [hc] at hd; cases hd; exact hb b hbb
    · exact h.kept m d b hm hd hbb
  · rw [hs] at hd
    by_cases hm : m = n
    · subst hm; rw [hc] at hd; cases hd; rw [he] at hee; exact nomatch hee
    · exact h.armed m d b e hm hd hbb hee hec
  · rcases hw r hr with h' | h'
    · exact (hpf _ _).2 (h.waiting r h')
    · exact h'
  · rcases hd i m w e hm with h' | h'
    · exact (hpf _ _).2 (h.driving i m w e h')
    · exact h'

/-! ### Requests of the setters -/
theorem requests_queueTable (s : State) (r : TableRequest) (m : Site) (h : s.requests m = [] ∨ r.task m = none) :
    (s.queueTable r).requests m = match r.task m with | some k => k :: s.requests m | none => s.requests m := by
  simp only [State.requests, State.queueTable, State.setDies_dies, State.setDies_comp, State.setDies_keys,
    State.setDies_waiting, State.setDies_chans, State.setDies_escrow, List.filterMap_append, List.filterMap_cons,
    List.filterMap_nil] at *
  rcases h with h | h
  · simp only [List.append_eq_nil_iff] at h
    obtain ⟨⟨⟨⟨⟨⟨h1, h2⟩, h3⟩, h4⟩, h5⟩, h6⟩, h7⟩ := h
    rw [h1, h2, h3, h4, h5, h6, h7]; cases r.task m <;> rfl
  · rw [h]; simp

theorem requests_queueRecord (s : State) (r : EscrowRecord) (rep : ReportTo) (m : Site) :
    (s.queueRecord r rep).requests m = s.requests m ++
      (RecordRequest.task m { record := r, report := rep }).toList := by
  simp only [State.requests, State.queueRecord, State.setEscrow_dies, State.setEscrow_comp, State.setEscrow_keys,
    State.setEscrow_waiting, State.setEscrow_chans, State.setEscrow_escrow, List.filterMap_append, List.filterMap_cons,
    List.filterMap_nil, List.append_assoc]
  cases RecordRequest.task m { record := r, report := rep } <;> rfl

/-- A die table request that no site waits for may join its queue. -/
theorem KeptBut.queueQuiet (h : KeptBut x p s) {r : TableRequest} (hr : ∀ m, r.task m = none) :
    KeptBut x p (s.queueTable r) :=
  h.frame rfl rfl (fun m => by rw [requests_queueTable s r m (.inr (hr m)), hr]) rfl rfl rfl

/-- A site waits at the die table unit. -/
theorem Aside.table {n : Site} {c : SiteCtx} (h : Aside n p s) (hc : s.sites[n] = some c) {r : TableRequest} {k : Task}
    (hr : ∀ m, r.task m = if m = n then some k else none) (he : c.exch = none) (hk : c.state ∈ k.states)
    (hb : ∀ b, c.burn = some b → b.kept p) : Kept p (s.queueTable r) := by
  refine h.ask (k := k) hc rfl rfl (fun m => ?_) h.parked (fun r hr => .inl hr) (fun i m w e hd => .inl hd) he hk hb
  by_cases hm : m = n
  · subst hm; rw [requests_queueTable s r m (.inl (h.quiet m rfl)), hr, if_pos rfl, if_pos rfl, h.quiet m rfl]
  · rw [requests_queueTable s r m (.inr (by rw [hr, if_neg hm])), hr, if_neg hm, if_neg hm]


/-- Site n set aside inside the touchdown, the wafer's profile p. -/
structure AtSite (n : Site) (p : Profile) (s : State) : Prop where
  but : Aside n p s
  inn : s.chain.state = .running ∧ s.inTouchdown n
  prof : s.profile = p

theorem AtSite.same (h : AtSite n p s) (hc : t.chain = s.chain) (hs : t.sites = s.sites) (h1 : t.dies = s.dies)
    (h2 : t.comp = s.comp) (h3 : t.keys.queue = s.keys.queue) (hw : t.waiting = s.waiting) (hch : t.chans = s.chans)
    (h7 : t.escrow.queue = s.escrow.queue) : AtSite n p t :=
  ⟨h.but.same hc hs h1 h2 h3 hw hch h7, by rw [hc]; exact ⟨h.inn.1, (State.inTouchdown_congr hc).2 h.inn.2⟩, by
    rw [← h.prof]; simp [State.profile, hc]⟩

theorem AtSite.bump (h : AtSite n p s) (k : Counter) : AtSite n p (s.bump k) := h.same rfl rfl rfl rfl rfl rfl rfl rfl
theorem KeptBut.bump (h : KeptBut x p s) (k : Counter) : KeptBut x p (s.bump k) :=
    h.same rfl rfl rfl rfl rfl rfl rfl rfl

theorem AtSite.quietTable (h : AtSite n p s) {r : TableRequest} (hr : ∀ m, r.task m = none) :
    AtSite n p (s.queueTable r) :=
  ⟨h.but.queueQuiet hr, h.inn, h.prof⟩

theorem AtSite.set (h : AtSite n p s) (c : SiteCtx) : AtSite n p (s.setSite n c) := ⟨h.but.set c h.inn, h.inn, h.prof⟩

/-- A site reads as it was set. -/
theorem setSite_same (s : State) (n : Site) (c : SiteCtx) : (s.setSite n c).sites[n] =
    some c := by rw [setSite_get, if_pos rfl]

/-- The burn state of a context is kept. -/
def SiteCtx.burnKept (p : Profile) (c : SiteCtx) : Prop := ∀ b, c.burn = some b → b.kept p

/-- A site may rest in any state with no exchange. -/
theorem AtSite.idle (h : AtSite n p s) {c : SiteCtx} (he : c.exch = none) (hb : c.burnKept p) :
    Kept p (s.setSite n c) :=
  (h.set c).but.back (setSite_same s n c) (fun e hh => by rw [he] at hh; exact nomatch hh) hb
    (fun b e _ hh => by rw [he] at hh; exact nomatch hh)

/-- A site may start an exchange (R14) from a state that waits for one. -/
theorem AtSite.send (h : AtSite n p s) {c : SiteCtx} {st cmd row bit arg} (hst : st ∈ Task.exchange.states)
    (hb : c.burnKept p)
    (ha : cmd = .armBit → ∀ b, c.burn = some b → b.bitSpent p = false) : Kept p (s.send n c st cmd row bit arg) := by
  refine (h.set _).but.back (setSite_same s n _) (fun e hh => hst) hb (fun b e hbb hh hc => ?_)
  simp only [Option.some.injEq] at hh; subst hh; exact ha hc b hbb

theorem AtSite.check (h : AtSite n p s) {c : SiteCtx} {st row} (hst : st ∈ Task.exchange.states) (hb : c.burnKept p) :
    Kept p (s.sendRowCheck n c st row) :=
  h.send hst hb (fun hh => nomatch hh)

theorem RecordRequest_close (n m : Site) (r : CloseRecord) :
    (RecordRequest.task m { record := .close r, report := .site n }) = if m = n then some .close else none := by
  by_cases hm : m = n
  · subst hm; simp [RecordRequest.task]
  · simp [RecordRequest.task, hm, show ¬ n = m from fun e => hm e.symm]

theorem task_self_iff (n m : Site) (k : Task) : (if n = m then some k else none) = if m = n then some k else none := by
  by_cases hm : m = n
  · subst hm; rfl
  · simp [hm, show ¬ n = m from fun e => hm e.symm]

theorem Aside.record {n : Site} {c : SiteCtx} (h : Aside n p s) (hc : s.sites[n] = some c) {r : CloseRecord}
    (he : c.exch = none) (hk : c.state = .closing) (hb : c.burnKept p) :
      Kept p (s.queueRecord (.close r) (.site n)) := by
  refine h.ask (k := .close) hc rfl rfl (fun m => ?_) h.parked (fun r hr => .inl hr) (fun i m w e hd => .inl hd) he
    (by simp [Task.states, hk]) hb
  rw [requests_queueRecord, RecordRequest_close]
  by_cases hm : m = n
  · subst hm; rw [h.quiet m rfl]; simp
  · simp [hm]

theorem AtSite.closing (h : AtSite n p s) {c : SiteCtx} (hb : c.burnKept p) (o : CloseOutcome) :
    Kept p (s.beginClosing n c o) := by
  unfold State.beginClosing
  have h' := h.set { c with state := .closing, outcome := some o, exch := none, closeWritten := false }
  dsimp only
  split
  · split
    · exact (h'.bump .diesFailed).but.table (k := .settle) (setSite_same s n _)
        (fun m => by simp only [TableRequest.task]; exact task_self_iff n m _) rfl (by simp [Task.states]) hb
    · exact h'.but.table (k := .settle) (setSite_same s n _)
        (fun m => by simp only [TableRequest.task]; exact task_self_iff n m _) rfl (by simp [Task.states]) hb
  · exact h'.but.record (setSite_same s n _) rfl rfl hb

theorem AtSite.parking (h : AtSite n p s) {c : SiteCtx} (hb : c.burnKept p) : Kept p (s.beginParking n c) :=
  (h.set _).but.table (k := .park) (setSite_same s n _)
    (fun m => by simp only [TableRequest.task]; exact task_self_iff n m _) rfl (by simp [Task.states]) hb

theorem AtSite.stop (h : AtSite n p s) {c : SiteCtx} (hb : c.burnKept p) (cause) : Kept p (s.stopBurn n c cause) := by
  unfold State.stopBurn; dsimp only; split
  · exact h.closing (c := { c with stop := cause }) hb _
  · exact h.parking (c := { c with stop := cause }) hb

theorem AtSite.giveBack (h : AtSite n p s) (c) : AtSite n p (s.giveBack n c) := by
  unfold State.giveBack; split
  · exact h.quietTable fun _ => rfl
  · exact h

theorem AtSite.store (h : AtSite n p s) (a bs) : AtSite n p (s.store a bs) := h.same rfl rfl rfl rfl rfl rfl rfl rfl

theorem AtSite.final (h : AtSite n p s) {c : SiteCtx} (hb : c.burnKept p) (r ts) : Kept p (s.enterFinal n c r ts) := by
  unfold State.enterFinal; dsimp only; split
  · exact (h.store _ _).idle rfl hb
  · exact h.idle rfl hb

theorem AtSite.early (h : AtSite n p s) {c : SiteCtx} (hb : c.burnKept p) (cause) : Kept p (s.endEarly n c cause) :=
  (h.giveBack c).final (c := { c with stop := cause, placeHeld := false }) hb _ _

/-! ### What a kept state says of a site -/
theorem exchange_not_request (s : State) (n : Site) : Task.exchange ∉ s.requests n := by
  simp only [State.requests, List.mem_append, List.mem_filterMap, not_or, not_exists, not_and]
  refine ⟨⟨⟨⟨⟨⟨?_, ?_⟩, ?_⟩, ?_⟩, ?_⟩, ?_⟩, ?_⟩
  · intro r _; cases r <;> simp only [TableRequest.task] <;> (try split) <;> simp
  · intro r _; split <;> simp
  · intro r _; split <;> simp
  · intro r _; split <;> simp
  · intro i _; generalize (s.chans[i]).state = q; cases q <;> simp only [ChannelState.task] <;> (try split) <;> simp
  · intro r _; split <;> simp
  · intro r _; unfold RecordRequest.task; split <;> (try split) <;> simp

/-- A site with a context has one request at most, in a state that waits for it. -/
theorem KeptBut.only (h : Kept p s) (hc : s.sites[n] = some c) {k : Task} (hk : k ∈ s.requests n) :
    c.state ∈ k.states ∧ k ≠ .exchange := by
  obtain ⟨d, hd, hs⟩ := h.fits n k id (by rw [tasks_eq]; exact List.mem_append_right _ hk)
  rw [hc] at hd; cases hd
  exact ⟨hs, fun e => exchange_not_request s n (e ▸ hk)⟩

/-- A site without a context waits for nothing. -/
theorem KeptBut.absent (h : Kept p s) (hc : s.sites[n] = none) : s.requests n = [] := by
  refine List.eq_nil_iff_forall_not_mem.2 fun k hk => ?_
  obtain ⟨d, hd, hs⟩ := h.fits n k id (by rw [tasks_eq]; exact List.mem_append_right _ hk)
  rw [hc] at hd; exact nomatch hd

/-- A site whose state waits for nothing but an exchange has no request. -/
theorem KeptBut.noRequest (h : Kept p s) (hc : s.sites[n] = some c)
    (hs : ∀ k : Task, c.state ∈ k.states → k = .exchange) : s.requests n = [] :=
  List.eq_nil_iff_forall_not_mem.2 fun k hk => (h.only hc hk).2 (hs k (h.only hc hk).1)

/-- A site in an exchange waits for nothing else. -/
theorem KeptBut.exch (h : Kept p s) (hc : s.sites[n] = some c) {e} (he : c.exch = some e) : s.requests n = [] ∧
    c.state ∈ Task.exchange.states := by
  have h1 := h.one n id
  rw [tasks_eq, hc] at h1; simp only [he, Option.isSome_some, if_true, List.singleton_append, List.length_cons] at h1
  refine ⟨List.eq_nil_of_length_eq_zero (by omega), ?_⟩
  obtain ⟨d, hd, hs⟩ := h.fits n .exchange id (by rw [tasks_eq, hc]; simp [he])
  rw [hc] at hd; cases hd; exact hs

theorem KeptBut.noExch (h : Kept p s) (hc : s.sites[n] = some c) (hr : s.requests n ≠ []) : c.exch = none := by
  cases he : c.exch with
  | none => rfl
  | some e => exact absurd (h.exch hc he).1 hr

theorem KeptBut.lenReq (h : Kept p s) (n : Site) : (s.requests n).length ≤ 1 := by
  have := h.one n id
  rw [tasks_eq, List.length_append] at this; omega

/-- A site that waits for nothing is free to be worked on. -/
theorem KeptBut.at (h : Kept p s) (hc : s.sites[n] = some c) (hq : s.requests n = []) (hp : s.profile = p) :
    AtSite n p s :=
  ⟨h.free hq, h.named n (by rw [hc]; rfl), hp⟩

theorem KeptBut.bk (h : Kept p s) (hc : s.sites[n] = some c) : c.burnKept p := fun b hb => h.kept n c b id hc hb

/-- Removing requests of site n alone, all of them: site n is set aside. -/
theorem KeptBut.drop (h : Kept p s) (hch : t.chain = s.chain) (hs : t.sites = s.sites)
    (hq : ∀ m, t.requests m = if m = n then [] else s.requests m)
    (hp : ∀ q ∈ t.dies.parked, q.burn.kept p) (hw : ∀ r ∈ t.waiting, r ∈ s.waiting)
    (hd : ∀ (i : Chan) (n : Site) (w e : Nat), t.chans[i].state = .driving n w e → s.chans[i].state = .driving n w e) :
      Aside n p t := by
  have hpf : ∀ n w, t.pulseFits p n w ↔ s.pulseFits p n w := fun n w => by simp only [State.pulseFits, hs]
  refine ⟨h.range, hch ▸ h.unstarted, hch ▸ h.leftOver, fun m hm => ?_, fun m hm => by rw [hq, if_pos hm],
    fun m hm => ?_,
    fun m k hm hk => ?_, fun m d b hm hd => ?_, hp, fun m d b e hm hd => ?_,
      fun r hr => (hpf _ _).2 (h.waiting r (hw r hr)),
    fun i m w e hdr => (hpf _ _).2 (h.driving i m w e (hd i m w e hdr))⟩
  · rw [hs] at hm; rw [hch]; exact ⟨(h.named m hm).1, (State.inTouchdown_congr hch).2 (h.named m hm).2⟩
  · rw [tasks_congr (s := s) (t := t) (by rw [hs]) (by rw [hq, if_neg hm])]; exact h.one m id
  · rw [tasks_congr (s := s) (t := t) (by rw [hs]) (by rw [hq, if_neg hm])] at hk; rw [hs]; exact h.fits m k id hk
  · rw [hs] at hd; exact h.kept m d b id hd
  · rw [hs] at hd; exact h.armed m d b e id hd

theorem KeptBut.dropAt (h : Kept p s) (hc : s.sites[n] = some c) (hprof : s.profile = p) (hch : t.chain = s.chain)
    (hs : t.sites = s.sites) (hq : ∀ m, t.requests m = if m = n then [] else s.requests m)
    (hp : t.dies.parked = s.dies.parked) (hw : ∀ r ∈ t.waiting, r ∈ s.waiting)
    (hd : ∀ (i : Chan) (n : Site) (w e : Nat), t.chans[i].state = .driving n w e → s.chans[i].state = .driving n w e) :
      AtSite n p t :=
  have hn := h.named n (by rw [hc]; rfl)
  ⟨h.drop hch hs hq (hp ▸ h.parked) hw hd, hch ▸ ⟨hn.1, (State.inTouchdown_congr hch).2 hn.2⟩,
    by rw [← hprof]; simp [State.profile, hch]⟩

/-- A change of the context that leaves its state, exchange and burn. -/
theorem KeptBut.touch (h : Kept p s) (hc : s.sites[n] = some c) {d : SiteCtx} (h1 : d.state = c.state)
    (h2 : d.exch = c.exch) (h3 : d.burn = c.burn) :
    Kept p (s.setSite n d) := by
  have hq : ∀ m, (s.setSite n d).requests m = s.requests m := requests_congr rfl rfl rfl rfl rfl rfl rfl
  have hn : s.chain.state = .running ∧ s.inTouchdown n := h.named n (by rw [hc]; rfl)
  have hs : ∀ m, m ≠ n → (s.setSite n d).sites[m] = s.sites[m] := fun m hm => by rw [setSite_get, if_neg hm]
  have ht : ∀ m, (s.setSite n d).tasks m = s.tasks m := fun m => by
    by_cases hm : m = n
    · subst hm; rw [tasks_eq, tasks_eq, hq, setSite_same, hc]; simp [h2]
    · exact tasks_congr (hs m hm) (hq m)
  have hpf : ∀ m w, s.pulseFits p m w → (s.setSite n d).pulseFits p m w := fun m w hf => by
    by_cases hm : m = n
    · subst hm; intro e b he hb; rw [setSite_same] at he; cases he; exact hf c b hc (h3 ▸ hb)
    · simpa only [State.pulseFits, hs m hm] using hf
  refine ⟨h.range, h.unstarted, h.leftOver, fun m hm => ?_, fun m hm => hm.elim,
    fun m _ => by rw [ht]; exact h.one m id,
    fun m k _ hk => ?_, fun m e b _ he hb => ?_, h.parked, fun m e b f _ he hb => ?_,
      fun r hr => hpf _ _ (h.waiting r hr), fun i m w e hd => hpf _ _ (h.driving i m w e hd)⟩
  · by_cases hmn : m = n
    · subst hmn; exact hn
    · rw [hs m hmn] at hm; exact h.named m hm
  · rw [ht] at hk
    obtain ⟨e, he, hes⟩ := h.fits m k id hk
    by_cases hm : m = n
    · subst hm; rw [hc] at he; cases he; exact ⟨d, setSite_same _ _ _, h1 ▸ hes⟩
    · exact ⟨e, by rw [hs m hm]; exact he, hes⟩
  · by_cases hm : m = n
    · subst hm; rw [setSite_same] at he; cases he; exact h.kept m c b id hc (h3 ▸ hb)
    · rw [hs m hm] at he; exact h.kept m e b id he hb
  · by_cases hm : m = n
    · subst hm; rw [setSite_same] at he; cases he; rw [h2]; exact h.armed m c b f id hc (h3 ▸ hb)
    · rw [hs m hm] at he; exact h.armed m e b f id he hb

/-! ### Withdrawals -/
theorem filterMap_filter_off {α β} (l : List α) (f : α → Option β) (q : α → Bool)
    (h : ∀ a ∈ l, q a = false → f a = none) :
    (l.filter q).filterMap f = l.filterMap f := by
  induction l with
  | nil => rfl
  | cons a l ih =>
    have ih' := ih fun a ha => h a (List.mem_cons_of_mem _ ha)
    by_cases hq : q a
    · simp [List.filter_cons_of_pos hq, List.filterMap_cons, ih']
    · rw [List.filter_cons_of_neg hq, ih', List.filterMap_cons, h a List.mem_cons_self (by simpa using hq)]

theorem withdrawn_task {r : TableRequest} {n m : Site} (h : (!r.withdrawn n) = false) (hm : m ≠ n) :
    r.task m = none := by
  cases r <;> simp [TableRequest.withdrawn] at h <;> subst h <;> simp [TableRequest.task, Ne.symm hm]

/-- What a kept entry of the die table queue is waited for as. -/
theorem kept_task {r : TableRequest} {n : Site} {k : Task} (h : (!r.withdrawn n) = true) (hk : r.task n = some k) :
    k = .settle ∨ k = .park := by
  cases r <;> simp [TableRequest.withdrawn, TableRequest.task] at h hk <;> simp_all

/-- What an entry of the die table queue may be waited for as. -/
theorem table_task {r : TableRequest} {n : Site} {k : Task} (hk : r.task n = some k) :
    k = .lookup ∨ k = .hold ∨ k = .voidEntry ∨ k = .settle ∨ k = .park := by
  cases r <;> simp [TableRequest.task] at hk <;> simp [← hk.2]

theorem chan_task {c : ChannelState} {n : Site} {k : Task} (hk : c.task n = some k) : k = .pulse := by
  unfold ChannelState.task at hk
  split at hk
  · split at hk <;> simp_all
  · simp at hk

theorem record_task {r : RecordRequest} {n : Site} {k : Task} (hk : r.task n = some k) : k = .close := by
  unfold RecordRequest.task at hk
  split at hk
  · split at hk <;> simp_all
  · simp at hk

/-- A site's requests by where they stand, each with the kinds of thing it can be waited for as. -/
theorem mem_requests {k : Task} : k ∈ s.requests n ↔
    (∃ r ∈ s.dies.queue, r.task n = some k) ∨
    (k = .composition ∧ ∃ r ∈ s.comp, r.site = n) ∨
    (k = .key ∧ ∃ r ∈ s.keys.queue, r.site = n) ∨
    (k = .grant ∧ ∃ r ∈ s.waiting, r.site = n) ∨
    (k = .pulse ∧ ∃ c ∈ allChans, s.chans[c].state.task n = some k) ∨
    (k = .eviction ∧ ∃ q ∈ s.dies.parked, q.status = .closing (some n)) ∨
    (k = .close ∧ ∃ r ∈ s.escrow.queue, r.task n = some k) := by
  have hc : ∀ {c : Chan}, s.chans[c].state.task n = some k → k = .pulse := chan_task
  have hr : ∀ {r : RecordRequest}, r.task n = some k → k = .close := record_task
  simp only [State.requests, List.mem_append, List.mem_filterMap, Option.ite_none_right_eq_some, Option.some.injEq,
    or_assoc]
  refine or_congr .rfl (or_congr ?_ (or_congr ?_ (or_congr ?_ (or_congr ?_ (or_congr ?_ ?_)))))
  · exact ⟨fun ⟨r, h, e, hk⟩ => ⟨hk.symm, r, h, e⟩, fun ⟨hk, r, h, e⟩ => ⟨r, h, e, hk.symm⟩⟩
  · exact ⟨fun ⟨r, h, e, hk⟩ => ⟨hk.symm, r, h, e⟩, fun ⟨hk, r, h, e⟩ => ⟨r, h, e, hk.symm⟩⟩
  · exact ⟨fun ⟨r, h, e, hk⟩ => ⟨hk.symm, r, h, e⟩, fun ⟨hk, r, h, e⟩ => ⟨r, h, e, hk.symm⟩⟩
  · exact ⟨fun ⟨c, h, e⟩ => ⟨hc e, c, h, e⟩, fun ⟨_, c, h, e⟩ => ⟨c, h, e⟩⟩
  · exact ⟨fun ⟨r, h, e, hk⟩ => ⟨hk.symm, r, h, e⟩, fun ⟨hk, r, h, e⟩ => ⟨r, h, e, hk.symm⟩⟩
  · exact ⟨fun ⟨r, h, e⟩ => ⟨hr e, r, h, e⟩, fun ⟨_, r, h, e⟩ => ⟨r, h, e⟩⟩

theorem requests_withdrawTable_other (s : State) {n m : Site} (hm : m ≠ n) :
    (s.withdrawTable n).requests m = s.requests m := by
  simp only [State.requests, State.withdrawTable, State.setDies_dies, State.setDies_comp, State.setDies_keys,
    State.setDies_waiting, State.setDies_chans, State.setDies_escrow]
  rw [filterMap_filter_off _ _ _ fun r _ h => withdrawn_task h hm]

theorem requests_withdrawTable_self (s : State) (n : Site) {k : Task} (h : k ∈ (s.withdrawTable n).requests n) :
    k ∈ s.requests n ∧ k ≠ .lookup ∧ k ≠ .hold ∧ k ≠ .voidEntry := by
  simp only [mem_requests] at h ⊢
  rcases h with ⟨r, hr, hk⟩ | ⟨rfl, h⟩ | ⟨rfl, h⟩ | ⟨rfl, h⟩ | ⟨rfl, h⟩ | ⟨rfl, h⟩ | ⟨rfl, h⟩
  · obtain ⟨hr, hw⟩ := List.mem_filter.1 hr
    refine ⟨.inl ⟨r, hr, hk⟩, ?_⟩
    rcases kept_task hw hk with rfl | rfl <;> simp
  all_goals exact ⟨.inr (by simpa [State.withdrawTable] using h), by simp⟩

theorem requests_withdrawComp_other (s : State) {n m : Site} (hm : m ≠ n) :
    (s.withdrawComp n).requests m = s.requests m := by
  simp only [State.requests, State.withdrawComp, State.setComp_dies, State.setComp_comp, State.setComp_keys,
    State.setComp_waiting, State.setComp_chans, State.setComp_escrow]
  rw [filterMap_filter_off _ _ _ fun r _ h => ?_]
  simp at h
  simp [h, Ne.symm hm]

theorem requests_withdrawComp_self (s : State) (n : Site) {k : Task} (h : k ∈ (s.withdrawComp n).requests n) :
    k ∈ s.requests n ∧ k ≠ .composition := by
  simp only [mem_requests] at h ⊢
  rcases h with ⟨r, hr, hk⟩ | ⟨rfl, r, hr, e⟩ | ⟨rfl, h⟩ | ⟨rfl, h⟩ | ⟨rfl, h⟩ | ⟨rfl, h⟩ | ⟨rfl, h⟩
  · exact ⟨.inl ⟨r, hr, hk⟩, by rcases table_task hk with rfl | rfl | rfl | rfl | rfl <;> simp⟩
  · simp [State.withdrawComp, e] at hr
  all_goals exact ⟨.inr (by simpa [State.withdrawComp] using h), by simp⟩

theorem requests_withdrawDerivation_other (s : State) {n m : Site} (hm : m ≠ n) :
    (s.withdrawDerivation n).requests m = s.requests m := by
  simp only [State.requests, State.withdrawDerivation, State.setKeys_dies, State.setKeys_comp, State.setKeys_keys,
    State.setKeys_waiting, State.setKeys_chans, State.setKeys_escrow]
  rw [filterMap_filter_off _ _ _ fun r _ h => ?_]
  simp at h
  simp [h, Ne.symm hm]

theorem requests_withdrawDerivation_self (s : State) (n : Site) {k : Task}
    (h : k ∈ (s.withdrawDerivation n).requests n) : k ∈ s.requests n ∧ k ≠ .key := by
  simp only [mem_requests] at h ⊢
  rcases h with ⟨r, hr, hk⟩ | ⟨rfl, h⟩ | ⟨rfl, r, hr, e⟩ | ⟨rfl, h⟩ | ⟨rfl, h⟩ | ⟨rfl, h⟩ | ⟨rfl, h⟩
  · exact ⟨.inl ⟨r, hr, hk⟩, by rcases table_task hk with rfl | rfl | rfl | rfl | rfl <;> simp⟩
  rotate_left
  · simp [State.withdrawDerivation, e] at hr
  all_goals exact ⟨.inr (by simpa [State.withdrawDerivation] using h), by simp⟩

theorem requests_leaveWaiting_other (s : State) {n m : Site} (hm : m ≠ n) :
    (s.leaveWaiting n).requests m = s.requests m := by
  simp only [State.requests, State.leaveWaiting, State.setWaiting_dies, State.setWaiting_comp, State.setWaiting_keys,
    State.setWaiting_waiting, State.setWaiting_chans, State.setWaiting_escrow]
  rw [filterMap_filter_off _ _ _ fun r _ h => ?_]
  simp at h
  simp [h, Ne.symm hm]

theorem requests_leaveWaiting_self (s : State) (n : Site) {k : Task} (h : k ∈ (s.leaveWaiting n).requests n) :
    k ∈ s.requests n ∧ k ≠ .grant := by
  simp only [mem_requests] at h ⊢
  rcases h with ⟨r, hr, hk⟩ | ⟨rfl, h⟩ | ⟨rfl, h⟩ | ⟨rfl, r, hr, e⟩ | ⟨rfl, h⟩ | ⟨rfl, h⟩ | ⟨rfl, h⟩
  · exact ⟨.inl ⟨r, hr, hk⟩, by rcases table_task hk with rfl | rfl | rfl | rfl | rfl <;> simp⟩
  rotate_left 2
  · simp [State.leaveWaiting, e] at hr
  all_goals exact ⟨.inr (by simpa [State.leaveWaiting] using h), by simp⟩

end Sys2Proof.Machine
end

