-- ==== Sys2Proof/Laws/KeptSites.lean ====
section
/-! SUPPORT. The site engines keep the order of the board and the ranges of its burns: releases and halts, each
step of a burn, each end of an exchange, and the arbiter's grants. -/

namespace Sys2Proof.Machine

variable {p : Profile} {b : BurnState} {s t : State} {x : Site → Prop} {n : Site} {c : SiteCtx}

/-- A halted LOOKUP or PREP takes its die table requests with it (R127, log 9): the site is then free. -/
theorem withdrawTable_atSite (h : Kept p s) (hp : s.profile = p) (hc : s.sites[n] = some c)
    (hs : c.state = .lookup ∨ (c.state = .prep ∧ s.hasTableRequest n = true)) :
    AtSite n p (s.withdrawTable n) := by
  refine h.dropAt hc hp rfl rfl (fun m => ?_) rfl (fun r hr => hr) (fun i m w e hd => hd)
  by_cases hm : m = n
  · subst hm; rw [if_pos rfl]
    refine List.eq_nil_iff_forall_not_mem.2 fun k hk => ?_
    obtain ⟨hk1, hk2, hk3, hk4⟩ := requests_withdrawTable_self s m hk
    have hst := (h.only hc hk1).1
    rcases hs with hs | ⟨hs, hr⟩
    · rw [hs] at hst; cases k <;> simp [Task.states] at hst hk2
    · -- a second request beside the one withdrawn
      simp only [State.hasTableRequest, List.any_eq_true] at hr
      obtain ⟨r, hr1, hr2⟩ := hr
      obtain ⟨j, hj1, hj2⟩ : ∃ j, r.task m = some j ∧ (j = .lookup ∨ j = .hold ∨ j = .voidEntry) := by
        cases r <;> simp [TableRequest.withdrawn] at hr2 <;> simp [TableRequest.task, hr2]
      have hj : j ∈ s.requests m := mem_requests.2 (.inl ⟨r, hr1, hj1⟩)
      have hl := h.lenReq m
      obtain ⟨a, ha⟩ : ∃ a, s.requests m = [a] := by
        cases hq : s.requests m with
        | nil => rw [hq] at hk1; exact nomatch hk1
        | cons a l => rw [hq] at hl; simp at hl; exact ⟨a, by rw [hl]⟩
      rw [ha, List.mem_singleton] at hk1 hj
      rw [hj] at hj2
      rw [hk1] at hk2 hk3 hk4
      tauto
  · rw [if_neg hm]; exact requests_withdrawTable_other s hm

/-- A halted ISSUE_WAIT takes its key derivation with it (R104). -/
theorem withdrawDerivation_atSite (h : Kept p s) (hp : s.profile = p) (hc : s.sites[n] = some c)
    (hs : c.state = .issueWait) :
    AtSite n p (s.withdrawDerivation n) := by
  refine h.dropAt hc hp rfl rfl (fun m => ?_) rfl (fun r hr => hr) (fun i m w e hd => hd)
  by_cases hm : m = n
  · subst hm; rw [if_pos rfl]
    refine List.eq_nil_iff_forall_not_mem.2 fun k hk => ?_
    obtain ⟨hk1, hk2⟩ := requests_withdrawDerivation_self s m hk
    have hst := (h.only hc hk1).1
    rw [hs] at hst; cases k <;> simp [Task.states] at hst hk2
  · rw [if_neg hm]; exact requests_withdrawDerivation_other s hm

/-- A halted WAIT_GRANT leaves the waiting set (R58, R59). -/
theorem leaveWaiting_atSite (h : Kept p s) (hp : s.profile = p) (hc : s.sites[n] = some c) (hs : c.state = .waitGrant) :
    AtSite n p (s.leaveWaiting n) := by
  refine h.dropAt hc hp rfl rfl (fun m => ?_) rfl (fun r hr => (List.mem_filter.1 hr).1) (fun i m w e hd => hd)
  by_cases hm : m = n
  · subst hm; rw [if_pos rfl]
    refine List.eq_nil_iff_forall_not_mem.2 fun k hk => ?_
    obtain ⟨hk1, hk2⟩ := requests_leaveWaiting_self s m hk
    have hst := (h.only hc hk1).1
    rw [hs] at hst; cases k <;> simp [Task.states] at hst hk2
  · rw [if_neg hm]; exact requests_leaveWaiting_other s hm

/-- A halted PREP takes its composition with it (log 9). -/
theorem withdrawPrep_atSite (h : Kept p s) (hp : s.profile = p) (hc : s.sites[n] = some c) (hs : c.state = .prep) :
    AtSite n p ((s.withdrawComp n).withdrawTable n) := by
  refine h.dropAt hc hp rfl rfl (fun m => ?_) rfl (fun r hr => hr) (fun i m w e hd => hd)
  by_cases hm : m = n
  · subst hm; rw [if_pos rfl]
    refine List.eq_nil_iff_forall_not_mem.2 fun k hk => ?_
    obtain ⟨hk1, hk2, hk3, hk4⟩ := requests_withdrawTable_self _ m hk
    obtain ⟨hk1, hk5⟩ := requests_withdrawComp_self _ m hk1
    have hst := (h.only hc hk1).1
    have := (h.only hc hk1).2
    rw [hs] at hst; cases k <;> simp_all [Task.states]
  · rw [if_neg hm, requests_withdrawTable_other _ hm, requests_withdrawComp_other s hm]

theorem KeptBut.at' (h : Kept p s) (hp : s.profile = p) (hc : s.sites[n] = some c)
    (hs : ∀ k : Task, c.state ∈ k.states → k = .exchange) : AtSite n p s :=
  h.at hc (h.noRequest hc hs) hp

/-- A halt that reaches one site keeps the order (R81). -/
theorem haltSite_keeps (h : Kept p s) (hp : s.profile = p) (n : Site) : Kept p (s.haltSite n) := by
  unfold State.haltSite
  split
  · exact h
  · rename_i c hc
    have hb := h.bk hc
    have ht : Kept p (s.setSite n { c with haltPending := true }) := h.touch hc rfl rfl rfl
    dsimp only
    split
    · exact ht
    · rename_i hs; split
      · exact (withdrawTable_atSite h hp hc (.inl hs)).early (c := { c with haltPending := true }) hb _
      · exact ht
    · rename_i hs; split
      · rename_i hr
        exact (withdrawTable_atSite h hp hc (.inr ⟨hs, hr⟩)).early (c := { c with haltPending := true }) hb _
      · exact ht
    · rename_i hs; exact (withdrawDerivation_atSite h hp hc hs).early (c := { c with haltPending := true }) hb _
    · rename_i hs
      exact (h.at' hp hc (by rw [hs]; intro k; cases k <;> simp [Task.states])).stop
        (c := { c with haltPending := true }) hb _
    · rename_i hs; exact (leaveWaiting_atSite h hp hc hs).stop (c := { c with haltPending := true }) hb _
    all_goals first | exact ht | exact h

/-- The release of one site keeps the order (R79), once no request waits and no pulse is driven. -/
theorem releaseSite_keeps (h : Kept p s) (hp : s.profile = p) (n : Site) (hw : s.waiting = [])
    (hd : ∀ (i : Chan) n w e, s.chans[i].state ≠ .driving n w e) :
    Kept p (s.releaseSite n) := by
  have hg : ∀ k, k ∈ s.requests n → k ≠ .grant ∧ k ≠ .pulse := by
    intro k hk
    rcases mem_requests.1 hk with ⟨r, -, hk⟩ | ⟨rfl, -⟩ | ⟨rfl, -⟩ | ⟨rfl, r, hr, -⟩ | ⟨rfl, i, -, hk⟩ | ⟨rfl, -⟩ |
      ⟨rfl, -⟩
    · rcases table_task hk with rfl | rfl | rfl | rfl | rfl <;> simp
    rotate_left 2
    · rw [hw] at hr; exact nomatch hr
    · have := hd i
      generalize s.chans[i].state = q at this hk
      cases q <;> simp_all [ChannelState.task]
    all_goals simp
  unfold State.releaseSite
  split
  · exact h
  · rename_i c hc
    have hb := h.bk hc
    have hq : (∀ k : Task, c.state ∈ k.states → k = .exchange ∨ k = .grant ∨ k = .pulse) → AtSite n p s := fun hh => by
      refine h.at hc (List.eq_nil_iff_forall_not_mem.2 fun k hk => ?_) hp
      have := hh k (h.only hc hk).1; have := (h.only hc hk).2; have := hg k hk; tauto
    split
    · rename_i hs; exact (hq (by rw [hs]; intro k; cases k <;> simp [Task.states])).early hb _
    · rename_i hs; exact (withdrawTable_atSite h hp hc (.inl hs)).early hb _
    · rename_i hs; exact (withdrawPrep_atSite h hp hc hs).early hb _
    · rename_i hs; exact (withdrawDerivation_atSite h hp hc hs).early hb _
    · rename_i hs; exact (hq (by rw [hs]; intro k; cases k <;> simp [Task.states])).stop hb _
    · rename_i hs; exact (hq (by rw [hs]; intro k; cases k <;> simp [Task.states])).early hb _
    · exact h
    · exact h
    · exact h
    · refine (hq ?_).stop hb _
      cases hs : c.state <;> simp_all <;> intro k <;> cases k <;> simp [Task.states]

theorem inTouchdown_mark (s : State) {b : Block} (hb : s.chain.block = some b) (f : Block → Block)
   (hf : ∀ es st rel hal, b.work = .touchdown es st rel hal → ∃ r' h', (f b).work = .touchdown es st r' h') (n) :
   s.inTouchdown n → (s.setChain { s.chain with block := some (f b) }).inTouchdown n := by
  rintro ⟨b', es, rel, hal, h1, h2, e, he, hn⟩
  rw [hb] at h1; cases h1
  obtain ⟨r', h', hw⟩ := hf es true rel hal h2
  exact ⟨f b, es, r', h', rfl, hw, e, he, hn⟩

theorem KeptBut.mark (h : KeptBut x p s) {b : Block} (hb : s.chain.block = some b) (f : Block → Block)
   (hf : ∀ es st rel hal, b.work = .touchdown es st rel hal → ∃ r' h', (f b).work = .touchdown es st r' h')
   (hg : ∀ es st rel hal, (f b).work = .touchdown es st rel hal → ∃ r' h', b.work = .touchdown es st r' h') :
   KeptBut x p (s.setChain { s.chain with block := some (f b) }) := by
  have hq : ∀ m, (s.setChain { s.chain with block := some (f b) }).requests m = s.requests m :=
    requests_congr rfl rfl rfl rfl rfl rfl rfl
  refine ⟨h.range, ?_, ?_, fun m hm => ⟨(h.named m hm).1, inTouchdown_mark s hb f hf m (h.named m hm).2⟩,
    fun m hm => by rw [hq]; exact h.quiet m hm,
    h.one, h.fits,
    h.kept, h.parked, h.armed, h.waiting, h.driving⟩
  · intro b' es rel hal h1 h2
    simp only [State.setChain_chain, Option.some.injEq] at h1; subst h1
    obtain ⟨r', h', hw⟩ := hg es false rel hal h2
    exact h.unstarted b es r' h' hb hw
  · intro ha
    have := (h.leftOver ha).2; rw [hb] at this; exact nomatch this

theorem foldl_haltSite_keeps : ∀ (l : List Site) {s : State}, Kept p s → s.profile = p →
    Kept p (l.foldl State.haltSite s)
  | [], s, h, _ => h
  | n :: l, s, h, hp => foldl_haltSite_keeps l (haltSite_keeps h hp n) (by rw [← hp]; simp [State.profile])

theorem reportResult_keeps (h : Kept p s) (hp : s.profile = p) (r) : Kept p (s.reportResult r) := by
  unfold State.reportResult
  split
  · rename_i b hb
    split
    · unfold State.startHalt
      have hm : Kept p (s.setChain { s.chain with block := some b.markHalted }) := by
        refine h.mark hb Block.markHalted ?_ ?_ <;> intro es st rel hal hw
        · exact ⟨rel, true, by simp [Block.markHalted, hw]⟩
        · unfold Block.markHalted at hw; split at hw
          · rename_i hw'; simp only [Work.touchdown.injEq] at hw; obtain ⟨rfl, rfl, rfl, rfl⟩ := hw; exact ⟨_, _, hw'⟩
          · exact ⟨_, _, hw⟩
      exact (foldl_haltSite_keeps _ hm (by rw [← hp]; rfl)).same rfl rfl rfl rfl rfl rfl rfl rfl
    · exact h
  · exact h

theorem AtSite.finish (h : AtSite n p s) {c : SiteCtx} (hb : c.burnKept p) (r ts) : Kept p (s.finish n c r ts) :=
  reportResult_keeps (h.final hb r ts) (by rw [← h.prof]; simp [State.profile]) r


theorem burnKept_some {b : BurnState} (h : b.kept p) (c : SiteCtx) : SiteCtx.burnKept p { c with burn := some b } :=
  fun b' e => by
    simp only [Option.some.injEq] at e
    exact e ▸ h

theorem stageState_exchanges (r : CurRow) : r.stageState ∈ Task.exchange.states := by cases r <;>
    simp [CurRow.stageState, Task.states]

theorem AtSite.select : ∀ (l : List Nat) {s : State} {b : BurnState} (c : SiteCtx), AtSite n p s → b.kept p → l.Nodup →
    (∀ i ∈ l, b.spareLeft p i) → Kept p (s.selectSpare n c b l)
  | [], s, b, c, h, hb, _, _ => h.closing (burnKept_some hb c) _
  | i :: l, s, b, c, h, hb, hn, hl => by
    unfold State.selectSpare
    split
    · exact h.check (by decide) (burnKept_some hb c)
    · refine AtSite.select l c (h.bump _) (reject_kept hb (hl i (by simp))) (List.nodup_cons.1 hn).2 fun j hj => ?_
      obtain ⟨h1, h2, h3⟩ := hl j (by simp [hj])
      refine ⟨h1, h2, ?_⟩
      simp only [BurnState.reject, List.mem_append, List.mem_singleton, not_or]
      exact ⟨h3, fun e => (List.nodup_cons.1 hn).1 (e ▸ hj)⟩

theorem AtSite.spares (h : AtSite n p s) (hb : b.kept p) (c : SiteCtx) : Kept p (s.trySpares n c b) := by
  have hp := h.prof; subst hp
  exact AtSite.select _ c h hb (List.Nodup.filter _ List.nodup_range) fun i hi => mem_freeSpares.1 hi

theorem AtSite.arm (h : AtSite n p s) (hb : b.kept p) (hs : b.bitSpent p = false) (c : SiteCtx) :
    Kept p (s.armBit n c b) := by
  refine h.send (stageState_exchanges _) (burnKept_some hb c) fun _ b' e => ?_
  simp only [Option.some.injEq] at e; exact e ▸ hs

theorem AtSite.failed (h : AtSite n p s) (hb : b.kept p) (c : SiteCtx) {next}
    (hn : ∀ b' : BurnState, b'.kept p → Kept p (next s n c b')) : Kept p (s.rowFailed n c b next) := by
  unfold State.rowFailed
  split
  · rename_i k hk; exact hn _ (rowBad_kept hb.toinRange (by rw [hk]; simp))
  · exact h.closing (burnKept_some (finishRow_kept hb) c) _

/-- Every step that a burn may take next keeps the order (R30 to R41). -/
theorem AtSite.step (h : AtSite n p s) (hb : b.kept p) (c : SiteCtx) : Kept p (s.burnStep n c b) := by
  have hp := h.prof; subst hp
  have hr := h.but.range
  unfold State.burnStep
  dsimp only
  split
  · exact h.send (by decide) (burnKept_some hb c) (fun e => nomatch e)
  · split
    · exact h.spares hb c
    · split
      · rename_i hc
        have hl := hb.lock hc
        have hk := lockSettle_kept hr 2 hb
        split
        · exact h.check (by decide) (burnKept_some hk c)
        · rename_i hn
          rcases lockSettle_ends (p := s.profile) 2 hl.1 hl.2 with h1 | h1
          · exact absurd h1 hn
          · exact h.arm hk h1 c
      · split
        · exact h.check (stageState_exchanges _) (burnKept_some hb c)
        · split
          · split
            · exact h.failed hb c fun b' hb' => h.spares hb' c
            · rename_i hs; exact h.arm hb (by simpa using hs) c
          · exact h.check (by decide) (burnKept_some hb c)

theorem AtSite.on (h : AtSite n p s) (hb : b.kept p) (c : SiteCtx) : Kept p (s.burnOn n c b) := by
  unfold State.burnOn; split
  · exact h.stop (burnKept_some hb c) _
  · exact h.step hb c

theorem AtSite.bad (h : AtSite n p s) (hb : b.kept p) (c : SiteCtx) : Kept p (s.afterBadRow n c b) := by
  unfold State.afterBadRow; split
  · exact h.closing (burnKept_some hb c) _
  · exact h.on hb c

theorem AtSite.begin (h : AtSite n p s) (c : SiteCtx) : Kept p (s.beginBurn n c) := by
  have hp := h.prof; subst hp
  exact h.step (begin_kept h.but.range) _

theorem AtSite.resume (h : AtSite n p s) (hb : b.kept p) (c : SiteCtx) (i) : Kept p (s.resumeFrom n c b i) := by
  unfold State.resumeFrom; split
  · exact h.check (c := { c with burn := some b, checkIndex := _ }) (by decide)
      (fun b' e => by simp only [Option.some.injEq] at e; exact e ▸ hb)
  · exact h.step hb c

theorem burnState_kept (hr : p.w0 ≤ p.wmax) (hb : c.burnKept p) : (c.burnState p).kept p := by
  unfold SiteCtx.burnState
  cases hc : c.burn with
  | none => exact begin_kept hr
  | some b => exact hb b hc

theorem AtSite.checked (h : AtSite n p s) (hb : c.burnKept p) (clean blown) :
    Kept p (s.rowChecked n c clean blown) := by
  have hp := h.prof; subst hp
  have hr := h.but.range
  have hk := burnState_kept hr hb
  unfold State.rowChecked; dsimp only
  split
  · rename_i k hc
    have hl : (c.burnState s.profile).cur ≠ .lock := by rw [hc]; simp
    split
    · exact h.on (preCheckPassed_kept hr hk.toinRange hl _) c
    · exact h.bad (rowBad_kept hk.toinRange hl) c
  · rename_i j hc
    have hl : (c.burnState s.profile).cur ≠ .lock := by rw [hc]; simp
    split
    · split
      · exact h.on (rowDone_kept hr hk) c
      · exact h.on (preCheckPassed_kept hr hk.toinRange hl _) c
    · exact h.failed hk c fun b' hb' => h.bad hb' c
  · exact h.closing (burnKept_some (finishRow_kept hk) c) _

theorem AtSite.verified (h : AtSite n p s) (hb : c.burnKept p) (pass) : Kept p (s.rowVerified n c pass) := by
  have hp := h.prof; subst hp
  have hr := h.but.range
  have hk := burnState_kept hr hb
  unfold State.rowVerified; dsimp only
  split
  · exact h.on (rowDone_kept hr hk) c
  · exact h.failed hk c fun b' hb' => h.bad hb' c

theorem AtSite.spareCk (h : AtSite n p s) (hb : c.burnKept p) (hg : Kept p s) (clean) :
    Kept p (s.spareChecked n c clean) := by
  have hp := h.prof; subst hp
  have hr := h.but.range
  have hk := burnState_kept hr hb
  unfold State.spareChecked; dsimp only
  split
  · rename_i i l k hf hc
    have hs := spareLeft_of_freeSpares hf
    split
    · refine (h.bump .remaps).on (kept_of_notLock (accept_inRange hr hk.toinRange hs _ _) ?_) c
      unfold BurnState.accept; rw [startBits_cur]; rw [hc]; simp
    · exact (h.bump .sparesRejected).bad (reject_kept hk hs) c
  · exact hg

theorem AtSite.resumeCk (h : AtSite n p s) (hb : c.burnKept p) (pass) : Kept p (s.resumeChecked n c pass) := by
  have hp := h.prof; subst hp
  have hk := burnState_kept h.but.range hb
  unfold State.resumeChecked; dsimp only
  split
  · exact h.closing hb _
  · split
    · exact h.stop hb _
    · exact h.resume hk c _

theorem AtSite.wait (h : AtSite n p s) {c : SiteCtx} {r : TableRequest} {k : Task}
    (hr : ∀ m, r.task m = if m = n then some k else none) (he : c.exch = none)
    (hk : c.state ∈ k.states) (hb : c.burnKept p) : Kept p ((s.setSite n c).queueTable r) :=
  (h.set c).but.table (setSite_same s n c) hr he hk hb

theorem AtSite.composition (h : AtSite n p s) {c : SiteCtx} (he : c.exch = none) (hk : c.state = .prep)
    (hb : c.burnKept p) {r : CompRequest} (hr : r.site = n) :
    Kept p ((s.setSite n c).setComp ((s.setSite n c).comp ++ [r])) := by
  have h' := h.set c
  refine h'.but.ask (k := .composition) (setSite_same s n c) rfl rfl (fun m => ?_) h'.but.parked (fun r hr => .inl hr)
    (fun i m w e hd => .inl hd) he (by simp [Task.states, hk]) hb
  have hq := h'.but.quiet n rfl
  by_cases hm : m = n
  · subst hm
    simp only [State.requests, List.append_eq_nil_iff] at hq
    obtain ⟨⟨⟨⟨⟨⟨h1, h2⟩, h3⟩, h4⟩, h5⟩, h6⟩, h7⟩ := hq
    simp only [State.requests, State.setComp_dies, State.setComp_comp, State.setComp_keys, State.setComp_waiting,
      State.setComp_chans, State.setComp_escrow, List.filterMap_append, h1, h2, h3, h4, h5, h6, h7]
    simp [hr]
  · simp only [State.requests, State.setComp_dies, State.setComp_comp, State.setComp_keys, State.setComp_waiting,
      State.setComp_chans, State.setComp_escrow, List.filterMap_append, if_neg hm]
    simp [hr, Ne.symm hm]

theorem AtSite.hello (h : AtSite n p s) (hb : c.burnKept p) (d) : Kept p (s.helloOk n c d) := by
  unfold State.helloOk; dsimp only
  split
  · split
    · exact h.early (c := { c with rows := _, locked := _, exch := none }) hb _
    · exact h.wait (k := .lookup) (fun m => by simp only [TableRequest.task]; exact task_self_iff n m _) rfl
        (by simp [Task.states]) hb
  · split
    · exact h.finish (c := { c with rows := _, locked := _, exch := none }) hb _ _
    · split
      · exact h.early (c := { c with rows := _, locked := _, exch := none }) hb _
      · exact h.send (by decide) hb (fun e => nomatch e)

theorem AtSite.blankOk (h : AtSite n p s) (hs : c.state = .prep) (hb : c.burnKept p) : Kept p (s.blankPassed n c) := by
  unfold State.blankPassed; dsimp only
  split
  · exact h.early (c := { c with exch := none }) hb _
  · split
    · exact h.check (by decide) hb
    · split
      · exact AtSite.composition (c := { c with exch := none }) h rfl hs hb rfl
      · exact h.idle rfl hb

theorem AtSite.blankBad (h : AtSite n p s) (hs : c.state = .prep) (hb : c.burnKept p) : Kept p (s.blankFailed n c) :=
  h.wait (k := .voidEntry) (fun m => by simp only [TableRequest.task]; exact task_self_iff n m _) rfl
    (by simp [Task.states, hs]) hb

theorem AtSite.rowCheck (h : AtSite n p s) (hb : c.burnKept p) (hg : Kept p s) (d) :
    Kept p (s.rowCheckEnded n c d) := by
  unfold State.rowCheckEnded; dsimp only
  split
  · rename_i hs; split
    · exact h.blankOk hs hb
    · exact h.blankBad hs hb
  · exact h.resumeCk hb _
  · exact h.verified hb _
  · exact h.spareCk hb hg _
  · exact h.checked hb _ _
  · exact h.checked hb _ _
  · exact h.checked hb _ _
  · exact hg

/-! ### Grants -/
theorem topRequest_mem : ∀ {l : List GrantRequest} {r}, topRequest l = some r → r ∈ l
  | [], r, h => nomatch h
  | a :: l, r, h => by
    unfold topRequest at h
    split at h
    · rename_i t ht
      split at h
      · cases h; exact List.mem_cons_of_mem _ (topRequest_mem ht)
      · cases h; exact List.mem_cons_self
    · cases h; exact List.mem_cons_self

theorem requests_setChan (s : State) (i : Chan) (ch : Channel) (m : Site)
    (h : ch.state.task m = (s.chans[i]).state.task m) :
    (s.setChan i ch).requests m = s.requests m := by
  simp only [State.requests, State.setChan_dies, State.setChan_comp, State.setChan_keys, State.setChan_waiting,
    State.setChan_escrow, State.setChan_chans]
  have : (allChans.filterMap fun c : Chan => ((s.chans.set i ch)[c]).state.task m) =
    (allChans.filterMap fun c : Chan => (s.chans[c]).state.task m) := by
    refine List.filterMap_congr fun c hc => ?_
    by_cases hci : c = i
    · subst hci; simpa using h
    · have : ¬ (i.val = c.val) := fun e => hci (Fin.ext e.symm)
      simp [this]
  rw [← this]

theorem setChan_get (s : State) (i j : Chan) (ch : Channel) : (s.setChan i ch).chans[j] = if j =
    i then ch else s.chans[j] := by
  by_cases h : j = i
  · subst h; simp
  · have : ¬ (i.val = j.val) := fun e => h (Fin.ext e.symm)
    simp [this, h]

/-- A channel that begins a pulse for a site with no request gives it that one. -/
theorem requests_setChan_one (s : State) (i : Chan) (ch : Channel) (n : Site) (hq : s.requests n = []) {k}
    (h : ch.state.task n = some k) :
    (s.setChan i ch).requests n = [k] := by
  simp only [State.requests, List.append_eq_nil_iff] at hq
  obtain ⟨⟨⟨⟨⟨⟨h1, h2⟩, h3⟩, h4⟩, h5⟩, h6⟩, h7⟩ := hq
  have e : (allChans.filterMap fun c : Chan => ((s.chans.set i ch)[c]).state.task n) = [k] := by
    have hall : ∀ c : Chan, c ≠ i → ((s.chans.set i ch)[c]).state.task n = none := fun c hc => by
      have h5' := List.filterMap_eq_nil_iff.1 h5 c (allChans_mem c)
      have : ¬ (i.val = c.val) := fun e => hc (Fin.ext e.symm)
      simpa [this] using h5'
    have hi : ((s.chans.set i ch)[i]).state.task n = some k := by simpa using h
    generalize hf : (fun c : Chan => ((s.chans.set i ch)[c]).state.task n) = f
    have hall' : ∀ c : Chan, c ≠ i → f c = none := fun c hc => by rw [← hf]; exact hall c hc
    have hi' : f i = some k := by rw [← hf]; exact hi
    clear hf hall hi h5
    revert hall' hi'
    unfold allChans
    match i with
    | 0 => intro ha hi; simp [hi, ha 1 (by decide), ha 2 (by decide), ha 3 (by decide)]
    | 1 => intro ha hi; simp [hi, ha 0 (by decide), ha 2 (by decide), ha 3 (by decide)]
    | 2 => intro ha hi; simp [hi, ha 1 (by decide), ha 0 (by decide), ha 3 (by decide)]
    | 3 => intro ha hi; simp [hi, ha 1 (by decide), ha 2 (by decide), ha 0 (by decide)]
  simp only [State.requests, State.setChan_dies, State.setChan_comp, State.setChan_keys, State.setChan_waiting,
    State.setChan_escrow, State.setChan_chans, h1, h2, h3, h4, h6, h7]
  rw [e]; rfl

/-- A grant keeps the order (R50, R56). -/
theorem grantTo_keeps (h : Kept p s) (hp : s.profile = p) (i : Chan) : Kept p (s.grantTo i) := by
  unfold State.grantTo
  split
  · rename_i hrdy
    split
    · rename_i r hr
      have hmem := topRequest_mem hr
      have hgr := grant_mem hmem
      have hsite : ∃ c, s.sites[r.site] = some c := by
        obtain ⟨c, hc, -⟩ := h.fits r.site .grant id (by rw [tasks_eq]; exact List.mem_append_right _ hgr)
        exact ⟨c, hc⟩
      obtain ⟨c, hc⟩ := hsite
      have hst : c.state = .waitGrant := by simpa [Task.states] using (h.only hc hgr).1
      have hne := h.noExch hc (List.ne_nil_of_mem hgr)
      have hat := leaveWaiting_atSite h hp hc hst
      have hbk := h.bk hc
      have hset := hat.set { c with state := .pulsing }
      have e : s.grant i r = (((s.leaveWaiting r.site).setSite r.site { c with state := .pulsing }).setChan i
        { s.chans[i] with state := .driving r.site r.width 0 }) := by
        simp only [State.grant, State.modSite, State.setChan_sites, State.leaveWaiting_sites, hc]
        rfl
      rw [e]
      have hpfs := h.waiting r hmem
      refine hset.but.ask (k := .pulse) (setSite_same _ _ _) rfl rfl (fun m => ?_) hset.but.parked
        (fun r hr => .inl hr) (fun j m w e hd => ?_) hne (by simp [Task.states]) hbk
      · by_cases hm : m = r.site
        · subst hm
          rw [if_pos rfl]
          exact requests_setChan_one _ _ _ _ (hset.but.quiet _ rfl) (by simp [ChannelState.task])
        · rw [if_neg hm]; refine requests_setChan _ _ _ _ ?_
          have : ((((s.leaveWaiting r.site).setSite r.site { c with state := .pulsing }).chans[i]).state) = .ready :=
            hrdy
          rw [this]; simp [ChannelState.task, Ne.symm hm]
      · rw [setChan_get] at hd
        split at hd
        · right; simp only [ChannelState.driving.injEq] at hd; obtain ⟨rfl, rfl, rfl⟩ := hd
          intro c' b' hc' hb'
          rw [show (((s.leaveWaiting r.site).setSite r.site { c with state := .pulsing }).setChan i
            { s.chans[i] with state := .driving r.site r.width 0 }).sites =
            ((s.leaveWaiting r.site).setSite r.site { c with state := .pulsing }).sites from rfl, setSite_same] at hc'
          cases hc'; exact hpfs c b' hc hb'
        · exact .inl hd
    · exact h
  · exact h

theorem arbitrate_keeps (h : Kept p s) (hp : s.profile = p) : Kept p s.arbitrate := by
  unfold State.arbitrate allChans
  have step : ∀ (l : List Chan) {s : State}, Kept p s → s.profile = p → Kept p (l.foldl State.grantTo s) := by
    intro l; induction l with
    | nil => intro s h _; exact h
    | cons i l ih => intro s h hp; exact ih (grantTo_keeps h hp i) (by rw [← hp]; simp [State.profile])
  exact step _ h hp

theorem AtSite.armed (h : AtSite n p s) (hb : c.burnKept p) (hs : ∀ b, c.burn = some b → b.bitSpent p = false) :
    Kept p (s.armed n c) := by
  have hp := h.prof; subst hp
  unfold State.armed
  split
  · exact h.stop hb _
  · refine arbitrate_keeps ?_ rfl
    have hset := h.set { c with state := .waitGrant, exch := none }
    refine hset.but.ask (k := .grant) (setSite_same _ _ _) rfl rfl (fun m => ?_) hset.but.parked (fun r hr => ?_)
      (fun j m w e hd => .inl hd) rfl (by simp [Task.states]) hb
    · have hq := hset.but.quiet n rfl
      by_cases hm : m = n
      · subst hm
        simp only [State.requests, List.append_eq_nil_iff] at hq
        obtain ⟨⟨⟨⟨⟨⟨h1, h2⟩, h3⟩, h4⟩, h5⟩, h6⟩, h7⟩ := hq
        simp only [State.requests, State.joinWaiting_dies, State.joinWaiting_comp, State.joinWaiting_keys,
          State.joinWaiting_waiting, State.joinWaiting_chans, State.joinWaiting_escrow, List.filterMap_cons, h1, h2,
          h3, h4, h5, h6, h7]
        simp
      · simp only [State.requests, State.joinWaiting_dies, State.joinWaiting_comp, State.joinWaiting_keys,
          State.joinWaiting_waiting, State.joinWaiting_chans, State.joinWaiting_escrow, List.filterMap_cons, if_neg hm]
        simp [Ne.symm hm]
    · simp only [State.joinWaiting_waiting, List.mem_cons] at hr
      rcases hr with rfl | hr
      · right; intro c' b' hc' hb'
        rw [State.joinWaiting_sites, setSite_same] at hc'; cases hc'
        exact ⟨hs b' hb', by rw [SiteCtx.burnState, show c.burn = some b' from hb']; rfl⟩
      · exact .inl hr

theorem AtSite.refused (h : AtSite n p s) (hb : c.burnKept p) : Kept p (s.armRefused n c) := by
  have hp := h.prof; subst hp
  have hk := burnState_kept h.but.range hb
  unfold State.armRefused; dsimp only
  split
  · exact h.on (lockBitJudged_kept h.but.range hk) c
  · exact h.failed hk c fun b' hb' => h.bad hb' c

theorem AtSite.sensed (h : AtSite n p s) (hb : c.burnKept p) (code) : Kept p (s.sensed n c code) := by
  have hp := h.prof; subst hp
  have hk := burnState_kept h.but.range hb
  unfold State.sensed; dsimp only
  split
  · exact h.on (bitDone_kept h.but.range (b := { c.burnState s.profile with unsensed := false })
      ⟨BurnState.inRange_of_fields hk.toinRange hk.width hk.rowStress hk.bitPulses hk.maxStress rfl rfl, hk.lock⟩ _) c
  · exact h.on (grow_kept hk) c

theorem AtSite.tag (h : AtSite n p s) (hb : c.burnKept p) (part d) : Kept p (s.tagRead n c part d) := by
  unfold State.tagRead
  split
  · exact h.send (by decide) hb (fun e => nomatch e)
  · split
    · split
      · exact (h.bump _).finish hb _ _
      · exact (h.bump _).finish hb _ _
    · refine AtSite.finish h ?_ _ _
      exact hb

theorem AtSite.lost (h : AtSite n p s) (hb : c.burnKept p) : Kept p (s.contactLost n c) := by
  unfold State.contactLost
  split
  · exact h.finish (c := { c with stop := .contact }) hb _ _
  · exact (h.giveBack c).finish (c := { c with stop := .contact, placeHeld := false }) hb _ _
  · exact h.finish (c := { c with stop := .contact }) hb _ _
  · exact h.stop hb _

theorem AtSite.attempt (h : AtSite n p s) (hb : c.burnKept p) {e : Exchange}
    (hs : c.state ∈ Task.exchange.states)
    (ha : ∀ b, c.burn = some b → e.cmd = .armBit → b.bitSpent p = false) : Kept p (s.attemptFailed n c e) := by
  unfold State.attemptFailed
  split
  · unfold State.resend
    refine KeptBut.bump ?_ _
    refine (h.set _).but.back (setSite_same s n _) (fun e' hh => hs) hb fun b e' hbb hh hc => ?_
    simp only [Option.some.injEq] at hh; subst hh; exact ha b hbb hc
  · unfold State.exchangeFailed
    split
    · exact h.send (c := { c with lanesUsed := .reversed }) (by decide) hb (fun e => nomatch e)
    · exact (h.bump _).lost (c := { c with exch := none }) hb

/-- The end of an exchange, whatever the answer, keeps the order (R14, R15). -/
theorem respond_keeps (h : Kept p s) (hp : s.profile = p) (n : Site) (cmd f)
    {ended : State → Site → SiteCtx → Exchange → Option (BitVec 64) → State}
    (hh : ∀ c e d, s.sites[n] = some c → c.exch = some e → e.cmd = cmd → AtSite n p s → c.burnKept p →
      Kept p (ended s n c e d)) :
    Kept p (s.respond n cmd f ended) := by
  unfold State.respond
  split
  · exact h
  · rename_i c hc
    split
    · exact h
    · rename_i e he
      obtain ⟨hq, hs⟩ := h.exch hc he
      have hat := h.at hc hq hp
      split
      · rename_i hcmd
        split
        · exact hat.attempt (h.bk hc) hs fun b hb hcm => h.armed n c b e id hc hb he hcm
        · exact hh c e _ hc he hcmd hat (h.bk hc)
        · exact hh c e _ hc he hcmd hat (h.bk hc)
      · exact h

/-- What arrives at a die port, or does not arrive, keeps the order (R14). -/
theorem diePort_keeps (h : Kept p s) (hp : s.profile = p) (n : Site) (f : ResponseFrame) :
    Kept p (s.respond n .hello f State.helloEnded) ∧ Kept p
      (s.respond n .rowCheck f fun t m c _ d => t.rowCheckEnded m c d) ∧
    Kept p (s.respond n .armBit f State.armEnded) ∧ Kept p (s.respond n .senseBit f State.senseEnded) ∧
    Kept p (s.respond n .readTag f State.tagEnded) ∧ Kept p (s.timeoutAt n) := by
  refine ⟨respond_keeps h hp n _ f ?_, respond_keeps h hp n _ f ?_, respond_keeps h hp n _ f ?_,
    respond_keeps h hp n _ f ?_, respond_keeps h hp n _ f ?_, ?_⟩
  · intro c e d hc he hcm hat hb
    unfold State.helloEnded; split
    · exact hat.hello hb _
    · exact h
  · intro c e d hc he hcm hat hb
    exact hat.rowCheck hb h d
  · intro c e d hc he hcm hat hb
    unfold State.armEnded; split
    · exact hat.armed hb fun b hbb => h.armed n c b e id hc hbb he hcm
    · exact hat.refused hb
  · intro c e d hc he hcm hat hb
    unfold State.senseEnded; split <;> exact hat.sensed hb _
  · intro c e d hc he hcm hat hb
    unfold State.tagEnded; split
    · exact hat.tag hb _ _
    · exact hat.finish hb _ _
  · unfold State.timeoutAt
    split
    · rename_i c hc
      split
      · rename_i e he
        obtain ⟨hq, hs⟩ := h.exch hc he
        exact (h.at hc hq hp).attempt (h.bk hc) hs fun b hb hcm => h.armed n c b e id hc hb he hcm
      · exact h
    · exact h

end Sys2Proof.Machine
end

