-- ==== Sys2Proof/Laws/KeptChain.lean ====
section
/-! SUPPORT. The chain unit, the pulses and the releases keep the order of the board and the ranges of its burns. -/

namespace Sys2Proof.Machine

variable {p : Profile} {b : BurnState} {s t : State} {x : Site → Prop} {n : Site} {c : SiteCtx}

/-! ### The write queue through pages -/
@[simp] theorem stallWriter_queue (s : State) (a e) : (s.stallWriter a e).escrow.queue = s.escrow.queue := by
  unfold State.stallWriter State.setWriter; dsimp only; split <;> simp
@[simp] theorem openPage_queue (s : State) (o a e) : (s.openPage o a e).escrow.queue = s.escrow.queue := by
  unfold State.openPage State.setWriter; dsimp only; split <;> simp
@[simp] theorem handOver_queue (s : State) : s.handOver.escrow.queue = s.escrow.queue := by
  unfold State.handOver; dsimp only; split <;> simp
@[simp] theorem handOverRecords_queue (s : State) : s.handOverRecords.escrow.queue = s.escrow.queue := by
  unfold State.handOverRecords; split <;> (try split) <;> simp
@[simp] theorem flush_queue (s : State) : s.flush.escrow.queue = s.escrow.queue := by
  unfold State.flush; split <;> simp
@[simp] theorem handOverFull_queue (s : State) : s.handOverFull.escrow.queue = s.escrow.queue := by
  unfold State.handOverFull; split <;> simp
@[simp] theorem makeRoom_queue (s : State) : s.makeRoom.escrow.queue = s.escrow.queue := by
  unfold State.makeRoom; split <;> (try split) <;> simp
@[simp] theorem nudgeWriter_queue (s : State) : s.nudgeWriter.escrow.queue = s.escrow.queue := by
  unfold State.nudgeWriter; split <;> simp

theorem KeptBut.flush (h : KeptBut x p s) : KeptBut x p s.flush :=
  h.same (by simp) (by simp) (by simp) (by simp) (by simp) (by simp) (by simp) (by simp)

/-- No site, no request. -/
structure NoSites (p : Profile) (s : State) : Prop where
  range : p.w0 ≤ p.wmax
  none : ∀ n : Site, s.sites[n] = none
  quiet : ∀ n : Site, s.requests n = []
  parked : ∀ q ∈ s.dies.parked, q.burn.kept p

/-- With no site in use, the order of the board is the order of the chain. -/
theorem NoSites.kept (h : NoSites p s) (hu : ∀ (b : Block) (es : List SiteEntry) (released halted : Bool),
    s.chain.block = some b →
    b.work = .touchdown es false released halted → s.chain.state = .running)
    (hl : s.chain.arrival.isSome → s.chain.state = .running ∧ s.chain.block = Option.none) : Kept p s :=
  ⟨h.range, hu, hl, fun n hn => by rw [h.none] at hn; exact (nomatch hn), fun _ hf => hf.elim,
    fun m _ => by rw [tasks_eq, h.none, h.quiet]; simp,
    fun m k _ hk => by rw [tasks_eq, h.none, h.quiet] at hk; exact (nomatch hk),
    fun m c b _ hc => by rw [h.none] at hc; exact (nomatch hc), h.parked,
    fun m c b e _ hc => by rw [h.none] at hc; exact (nomatch hc),
    fun r _ c b hc => by rw [h.none] at hc; exact (nomatch hc),
    fun i m w e _ c b hc => by rw [h.none] at hc; exact (nomatch hc)⟩

theorem KeptBut.clear (h : Kept p s) (hn : ∀ n : Site, s.sites[n] = none) : NoSites p s :=
  ⟨h.range, hn, fun n => h.absent (hn n), h.parked⟩

theorem NoSites.frame (h : NoSites p s) (hs : t.sites = s.sites) (hq : ∀ m, t.requests m = s.requests m)
    (hp : t.dies.parked = s.dies.parked) : NoSites p t :=
  ⟨h.range, fun n => by rw [hs]; exact h.none n, fun n => by rw [hq]; exact h.quiet n, hp ▸ h.parked⟩

theorem NoSites.same (h : NoSites p s) (hs : t.sites = s.sites) (h1 : t.dies = s.dies)
    (h2 : t.comp = s.comp) (h3 : t.keys.queue = s.keys.queue) (hw : t.waiting = s.waiting) (hch : t.chans = s.chans)
    (h7 : t.escrow.queue = s.escrow.queue) : NoSites p t :=
  h.frame hs (requests_congr (by rw [h1]) h2 h3 hw hch (by rw [h1]) h7) (by rw [h1])

theorem NoSites.chain (h : NoSites p s) (c) : NoSites p (s.setChain c) := h.same rfl rfl rfl rfl rfl rfl rfl

theorem NoSites.enterHeld (h : NoSites p s) (r) (hu : ∀ (b : Block) es rel hal, s.chain.block = some b →
    b.work ≠ .touchdown es false rel hal)
    (ha : s.chain.arrival = Option.none) : Kept p (s.enterHeld r) := by
  unfold State.enterHeld
  refine KeptBut.flush (NoSites.kept (h.same rfl rfl rfl rfl rfl rfl rfl) ?_ ?_)
  · intro b es rel hal hb hw; exact absurd hw (hu b es rel hal hb)
  · intro hh; simp [ha] at hh

/-! ### TakeEntry -/
structure EntriesStarted (es : List SiteEntry) (p : Profile) (t : State) : Prop where
  range : p.w0 ≤ p.wmax
  state : t.chain.state = .running
  arrival : t.chain.arrival = none
  block : ∃ b, t.chain.block = some b ∧ b.work = .touchdown es true false false
  quiet : ∀ n : Site, t.requests n = []
  parked : ∀ q ∈ t.dies.parked, q.burn.kept p
  sites : ∀ (n : Site) (c : SiteCtx), t.sites[n] = some c → (∃ e ∈ es, e.site = n) ∧ c.burn = none ∧
    (c.exch.isSome → c.state = .hail)

/-- A TOUCHDOWN whose entries are being started keeps the order (R64). -/
theorem EntriesStarted.kept {es} (h : EntriesStarted es p t) : Kept p t := by
  obtain ⟨b, hb, hw⟩ := h.block
  refine ⟨h.range, fun b' es' r h' hb' hw' => h.state, fun ha => by rw [h.arrival] at ha; exact (nomatch ha),
    fun n hn => ⟨h.state, ?_⟩, fun _ hf => hf.elim,
    fun m _ => ?_, fun m k _ hk => ?_, fun m c b' _ hc hbb => ?_, h.parked, fun m c b' e _ hc hbb => ?_,
      fun r hr => ?_, fun i m w e hd => ?_⟩
  · obtain ⟨c, hc⟩ := Option.isSome_iff_exists.1 hn
    exact ⟨b, es, false, false, hb, hw, (h.sites n c hc).1⟩
  · rw [tasks_eq, h.quiet]; split <;> (try split) <;> simp
  · rw [tasks_eq, h.quiet] at hk
    cases hc : t.sites[m] with
    | none => rw [hc] at hk; simp at hk
    | some c =>
      rw [hc] at hk; dsimp only at hk
      split at hk
      · rename_i he; simp only [List.append_nil, List.mem_singleton] at hk; subst hk
        exact ⟨c, rfl, by rw [(h.sites m c hc).2.2 he]; simp [Task.states]⟩
      · simp at hk
  · rw [(h.sites m c hc).2.1] at hbb; exact (nomatch hbb)
  · rw [(h.sites m c hc).2.1] at hbb; exact (nomatch hbb)
  · have := grant_mem hr; rw [h.quiet] at this; exact (nomatch this)
  · have := pulse_mem hd; rw [h.quiet] at this; exact (nomatch this)

theorem EntriesStarted.set {es} (h : EntriesStarted es p t) {n : Site} {c : SiteCtx} (hn : ∃ e ∈ es, e.site = n)
    (hb : c.burn = none) (hx : c.exch.isSome → c.state = .hail) :
    EntriesStarted es p (t.setSite n c) :=
  ⟨h.range, h.state, h.arrival, h.block, h.quiet, h.parked, fun m d hd => by
    rw [setSite_get] at hd; split at hd
    · rename_i hm; subst hm; cases hd; exact ⟨hn, hb, hx⟩
    · exact h.sites m d hd⟩

theorem EntriesStarted.entry {es} (h : EntriesStarted es p t) {e : SiteEntry × Nat} (he : e.1 ∈ es) :
    EntriesStarted es p (t.takeEntry e) := by
  unfold State.takeEntry; dsimp only
  split
  · unfold State.enterFinal; dsimp only; split
    · have h' : ∀ a bs, EntriesStarted es p (t.store a bs) := fun a bs =>
        ⟨h.range, h.state, h.arrival, h.block, h.quiet, h.parked, h.sites⟩
      refine (h' _ _).set ⟨_, he, rfl⟩ ?_ ?_
      · rfl
      · intro hh; cases hh
    · refine h.set ⟨_, he, rfl⟩ ?_ ?_
      · rfl
      · intro hh; cases hh
  · refine h.set ⟨_, he, rfl⟩ ?_ ?_
    · rfl
    · intro hh; rfl

theorem EntriesStarted.fold {es} : ∀ (l : List (SiteEntry × Nat)) {u : State}, (∀ e ∈ l, e.1 ∈ es) →
    EntriesStarted es p u → EntriesStarted es p (l.foldl State.takeEntry u)
  | [], _, _, h => h
  | e :: l, _, hl, h => EntriesStarted.fold l (fun e' he' => hl e' (List.mem_cons_of_mem _ he'))
    (h.entry (hl e List.mem_cons_self))

theorem NoSites.start (h : NoSites p s) (hr : s.chain.state = .running) (ha : s.chain.arrival = Option.none)
    (b : Block) (es) : EntriesStarted es p (s.startEntries b es) := by
  unfold State.startEntries
  refine EntriesStarted.fold _ (fun e he => ?_) ⟨h.range, hr, ha, ⟨_, rfl, rfl⟩, h.quiet, h.parked, fun n c hc => by
    change s.sites[n] = some c at hc; rw [h.none n] at hc; exact (nomatch hc)⟩
  have := List.fst_mem_of_mem_zipIdx he
  exact this

theorem EntriesStarted.leave {es} (h : EntriesStarted es p t) : NoSites p t.leaveSites :=
  ⟨h.range, fun n => by simp [State.leaveSites], h.quiet, h.parked⟩

theorem NoSites.queueQuiet (h : NoSites p s) {r : TableRequest} (hr : ∀ m, r.task m = Option.none) :
    NoSites p (s.queueTable r) :=
  h.frame rfl (fun m => by rw [requests_queueTable s r m (.inr (hr m)), hr]) rfl

theorem NoSites.recordQuiet (h : NoSites p s) {r : EscrowRecord} {rep}
    (hr : ∀ m, RecordRequest.task m { record := r, report := rep } = Option.none) : NoSites p (s.queueRecord r rep) :=
  h.frame rfl (fun m => by rw [requests_queueRecord, hr]; simp) rfl

/-- The taking of a block (R151 to R160): it stays in hand with the order kept, or it is done with no site in use. -/
theorem takeBlock_clear (h : NoSites p s) (ha : s.chain.arrival = none) (offset) :
    ((s.takeBlock offset).2 = none → Kept p (s.takeBlock offset).1) ∧
    ((s.takeBlock offset).2 ≠ none → NoSites p (s.takeBlock offset).1 ∧ (s.takeBlock offset).1.chain.arrival =
      none) := by
  unfold State.takeBlock
  dsimp only
  have h' := h.chain { s.chain with state := .running, offset := some offset }
  generalize hu : s.setChain { s.chain with state := .running, offset := some offset } = u at h'
  have hur : u.chain.state = .running := by rw [← hu]; rfl
  have hua : u.chain.arrival = none := by rw [← hu]; exact ha
  have base : NoSites p u ∧ u.chain.arrival = none := ⟨h', hua⟩
  split
  · unfold State.takeLoadKeys
    split
    · exact ⟨fun e => (nomatch e), fun _ => base⟩
    · split
      · exact ⟨fun e => (nomatch e), fun _ => base⟩
      · refine ⟨fun _ => NoSites.kept (h'.same rfl rfl rfl rfl rfl rfl rfl) ?_ ?_, fun e => absurd rfl e⟩
        · intro b es r hh hb hw; exact hur
        · intro hh; simp [State.holdBlock, hua] at hh
  · unfold State.takeWaferStart
    split
    · exact ⟨fun e => (nomatch e), fun _ => base⟩
    · split
      · exact ⟨fun e => (nomatch e), fun _ => base⟩
      · refine ⟨fun e => (nomatch e), fun _ => ⟨?_, by simp [State.openWafer, hua]⟩⟩
        unfold State.openWafer
        refine NoSites.recordQuiet (NoSites.chain ?_ _) fun _ => rfl
        exact NoSites.same ((h'.chain _).queueQuiet (r := .clear) fun _ => rfl) rfl rfl rfl rfl rfl rfl rfl
  · unfold State.takeTouchdown
    split
    · exact ⟨fun e => (nomatch e), fun _ => base⟩
    · split
      · exact ⟨fun e => (nomatch e), fun _ => base⟩
      · split
        · have hs := h'.start hur hua (readBlock s.mem offset) (by assumption)
          dsimp only
          split
          · exact ⟨fun e => (nomatch e), fun _ => ⟨hs.leave, hs.arrival⟩⟩
          · exact ⟨fun _ => hs.kept, fun e => absurd rfl e⟩
        · refine ⟨fun _ => NoSites.kept (h'.chain _) ?_ ?_, fun e => absurd rfl e⟩
          · intro b es r hh hb hw; exact hur
          · intro hh; simp [State.holdBlock, hua] at hh
  · unfold State.takeWaferEnd
    split
    · exact ⟨fun e => (nomatch e), fun _ => base⟩
    · refine ⟨fun _ => NoSites.kept ((h'.chain _).queueQuiet (r := .voidAll) fun _ => rfl) ?_ ?_, fun e => absurd rfl e⟩
      · intro b es r hh hb hw; exact hur
      · intro hh; simp [State.holdBlock, State.queueTable, hua] at hh
  · unfold State.takeStats
    split
    · exact ⟨fun e => (nomatch e), fun _ => base⟩
    · dsimp only
      refine ⟨fun e => (nomatch e), fun _ => ?_⟩
      split
      · exact ⟨h'.same rfl rfl rfl rfl rfl rfl rfl, hua⟩
      · exact ⟨h'.same rfl rfl rfl rfl rfl rfl rfl, hua⟩
  · unfold State.takeDump; dsimp only
    split
    · refine ⟨fun _ => NoSites.kept ((h'.chain _).queueQuiet (r := .dump _ _) fun _ => rfl) ?_ ?_,
        fun e => absurd rfl e⟩
      · intro b es r hh hb hw; exact hur
      · intro hh; simp [State.holdBlock, State.queueTable, hua] at hh
    · exact ⟨fun e => (nomatch e), fun _ => base⟩
  · exact ⟨fun e => (nomatch e), fun _ => base⟩

theorem NoSites.fault (h : NoSites p s) (r) (hu : ∀ (b : Block) es rel hal, s.chain.block = some b →
    b.work ≠ .touchdown es false rel hal)
    (ha : s.chain.arrival = Option.none) : Kept p (s.chainFault r) := by
  unfold State.chainFault
  refine NoSites.enterHeld (s := (s.setChain { s.chain with offset := Option.none }).raise .chainFault) ?_ r ?_ ?_
  · exact h.same rfl rfl rfl rfl rfl rfl rfl
  · exact hu
  · exact ha

/-- The walk of the chain over ready blocks keeps the order (R147, log 21). -/
theorem arrive_keeps : ∀ (fuel : Nat) {s : State} (offset), NoSites p s → s.chain.arrival = none →
    (∀ (b : Block) es rel hal, s.chain.block = some b → b.work ≠ .touchdown es false rel hal) →
      (fuel = 0 → s.chain.block = none) →
    Kept p (State.arrive fuel s offset)
  | 0, s, offset, h, ha, hu, hf => by
    unfold State.arrive
    refine (h.chain _).kept ?_ ?_
    · intro b es r hh hb hw; rfl
    · intro _; exact ⟨rfl, hf rfl⟩
  | fuel + 1, s, offset, h, ha, hu, hf => by
    unfold State.arrive
    split
    · obtain ⟨h1, h2⟩ := takeBlock_clear h ha offset
      split
      · rename_i t ht; rw [ht] at h1; exact h1 rfl
      · rename_i t r ht; rw [ht] at h2
        obtain ⟨hc, hta⟩ := h2 (by simp)
        dsimp only
        generalize hv : ((t.writeResult offset r).closeBlock offset (readBlock s.mem offset).notify) = v
        have hvc : NoSites p v := by
          rw [← hv]
          refine hc.same (by simp) (by simp) (by simp) (by simp) (by simp) (by simp) ?_
          simp only [State.closeBlock, State.writeResult]
          split <;> rfl
        have hvb : v.chain.block = none := by rw [← hv]; simp [State.closeBlock]
        have hva : v.chain.arrival = none := by
          rw [← hv]
          simp only [State.closeBlock]
          split <;> simpa [State.writeResult] using hta
        have hvu : ∀ (b : Block) es rel hal, v.chain.block = some b → b.work ≠ .touchdown es false rel hal :=
          fun b es r hh hb => by rw [hvb] at hb; exact (nomatch hb)
        split
        · exact arrive_keeps fuel _ hvc hva hvu fun _ => hvb
        · exact hvc.fault _ hvu hva
    · unfold State.enterWaiting
      refine KeptBut.flush (NoSites.kept (h.same rfl rfl rfl rfl rfl rfl rfl) ?_ ?_)
      · intro b es rel hal hb hw; exact absurd hw (hu b es rel hal hb)
      · intro hh; simp [ha] at hh

theorem arriveAt_keeps {s : State} (offset) (h : NoSites p s) (ha : s.chain.arrival = none)
    (hu : ∀ (b : Block) es rel hal, s.chain.block = some b → b.work ≠ .touchdown es false rel hal) :
      Kept p (s.arriveAt offset) :=
  arrive_keeps _ _ h ha hu fun e => nomatch e

theorem followLink_keeps {s : State} (offset) (h : NoSites p s) (ha : s.chain.arrival = none)
    (hu : ∀ (b : Block) es rel hal, s.chain.block = some b → b.work ≠ .touchdown es false rel hal) :
      Kept p (s.followLink offset) := by
  unfold State.followLink; split
  · exact arriveAt_keeps _ h ha hu
  · exact h.fault _ hu ha

theorem endBlock_keeps {s : State} (b : Block) (h : NoSites p s) (ha : s.chain.arrival = none) :
    Kept p (s.endBlock b) := by
  unfold State.endBlock
  have hvb : (s.closeBlock b.offset b.notify).chain.block = none := by simp [State.closeBlock]
  refine followLink_keeps _ (h.same (by simp) (by simp) (by simp) (by simp) (by simp) (by simp)
    (by simp [State.closeBlock]; split <;> rfl)) ?_ fun b es r hh hb => by rw [hvb] at hb; exact (nomatch hb)
  simp only [State.closeBlock]; split <;> simp <;> exact ha

theorem blockDone_keeps {s : State} (b : Block) (r) (h : NoSites p s) (ha : s.chain.arrival = none) :
    Kept p (s.blockDone b r) :=
  endBlock_keeps b (h.same (by simp) (by simp) (by simp) (by simp) (by simp) (by simp) (by simp [State.writeResult]))
    (by simpa using ha)

theorem NoSites.anchor (h : NoSites p s) (a) : NoSites p (s.takeAnchor a) := by
  unfold State.takeAnchor
  have h1 := h.recordQuiet (r := .restart s.reg.lastReset s.keys.h) (rep := .nobody) fun _ => rfl
  exact h1.same (by simp) (by simp) (by simp) (by simp) (by simp) (by simp) (by simp)

theorem readHeaderStep_keeps {s : State} (h : NoSites p s) (ha : s.chain.arrival = none)
    (hu : ∀ (b : Block) es rel hal, s.chain.block = some b → b.work ≠ .touchdown es false rel hal) :
      Kept p s.readHeaderStep := by
  unfold State.readHeaderStep; dsimp only; split
  · refine arriveAt_keeps _ ?_ (by simpa using ha) (by simpa using hu)
    exact NoSites.anchor (h.chain _) _
  · exact h.fault _ hu ha

/-! ### Facts of the chain in a kept state -/
theorem KeptBut.noneOf (h : Kept p s) (hr : s.chain.state ≠ .running) : ∀ n : Site, s.sites[n] = none := fun n => by
  cases hc : s.sites[n] with
  | none => rfl
  | some c => exact absurd (h.named n (by rw [hc]; rfl)).1 hr

theorem KeptBut.noneOf' (h : Kept p s) {b} (hb : s.chain.block = some b)
    (hw : ∀ es rel hal, b.work ≠ .touchdown es true rel hal) : ∀ n : Site, s.sites[n] = none := fun n => by
  cases hc : s.sites[n] with
  | none => rfl
  | some c =>
    obtain ⟨b', es, rel, hal, h1, h2, -⟩ := (h.named n (by rw [hc]; rfl)).2
    rw [hb] at h1; cases h1; exact absurd h2 (hw _ _ _)

theorem KeptBut.arr (h : Kept p s) {b} (hb : s.chain.block = some b) : s.chain.arrival = none := by
  cases ha : s.chain.arrival with
  | none => rfl
  | some o => have := (h.leftOver (by rw [ha]; rfl)).2; rw [hb] at this; exact (nomatch this)

theorem KeptBut.arr' (h : Kept p s) (hr : s.chain.state ≠ .running) : s.chain.arrival = none := by
  cases ha : s.chain.arrival with
  | none => rfl
  | some o => exact absurd (h.leftOver (by rw [ha]; rfl)).1 hr

theorem KeptBut.un (h : Kept p s) (hr : s.chain.state ≠ .running) : ∀ (b : Block) es rel hal, s.chain.block = some b →
    b.work ≠ .touchdown es false rel hal :=
  fun b es rel hal hb hw => hr (h.unstarted b es rel hal hb hw)

/-- A TOUCHDOWN whose sites are all final ends in order (R148). -/
theorem settleTouchdown_keeps (h : Kept p s) : Kept p s.settleTouchdown := by
  unfold State.settleTouchdown
  split
  · rename_i b hb
    split
    · rename_i es rel hal hw
      split
      · rename_i hc
        have hq : ∀ n, s.requests n = [] := fun n => by
          cases hx : s.sites[n] with
          | none => exact h.absent hx
          | some c =>
            obtain ⟨b', es', rel', hal', h1, h2, e, he, hen⟩ := (h.named n (by rw [hx]; rfl)).2
            rw [hb] at h1; cases h1; rw [hw] at h2; cases h2
            have hf := hc.2
            simp only [State.allFinal, List.all_eq_true] at hf
            have := hf e he
            rw [hen] at this; simp only [State.isFinal, hx, beq_iff_eq] at this
            exact h.noRequest hx (by rw [this]; intro k; cases k <;> simp [Task.states])
        have hcl : NoSites p s.leaveSites := ⟨h.range, fun n => by simp [State.leaveSites], hq, h.parked⟩
        have hcw : ∀ r, NoSites p (s.writeResult b.offset r).leaveSites := fun r =>
          ⟨h.range, fun n => by simp [State.leaveSites], hq, h.parked⟩
        have ha := h.arr hb
        have hne : ∀ (t : State), t.chain = s.chain → ∀ (b : Block) es rel hal, t.chain.block = some b →
          b.work ≠ .touchdown es false rel hal := by
          intro t ht b' es' r' h' hb' hw'
          rw [ht, hb] at hb'; cases hb'; rw [hw] at hw'; cases hw'
        split
        · exact (hcw _).enterHeld _ (hne _ rfl) ha
        · split
          · exact (hcw _).enterHeld _ (hne _ rfl) ha
          · exact blockDone_keeps b _ hcl ha
      · exact h
    · exact h
  · exact h

theorem nudgeChain_keeps (h : Kept p s) : Kept p s.nudgeChain := by
  unfold State.nudgeChain
  split
  · rename_i hs
    have hr : s.chain.state ≠ .running := by rw [hs]; simp
    exact readHeaderStep_keeps (h.clear (h.noneOf hr)) (h.arr' hr) (h.un hr)
  · rename_i hs ho
    have hr : s.chain.state ≠ .running := by rw [hs]; simp
    split
    · exact arriveAt_keeps _ (h.clear (h.noneOf hr)) (h.arr' hr) (h.un hr)
    · exact h
  · exact h

theorem KeptBut.nudgeWriter (h : KeptBut x p s) : KeptBut x p s.nudgeWriter :=
  h.same (by simp) (by simp) (by simp) (by simp) (by simp) (by simp) (by simp) (by simp)

theorem continueChain_keeps (h : Kept p s) : Kept p s.continueChain := by
  have k : ∀ r, s.chain.state = .held r → s.chain.state ≠ .running := fun r e => by rw [e]; simp
  unfold State.continueChain
  split
  · rename_i hs; exact readHeaderStep_keeps (h.clear (h.noneOf (k _ hs))) (h.arr' (k _ hs)) (h.un (k _ hs))
  · rename_i hs; split
    · exact followLink_keeps _ (h.clear (h.noneOf (k _ hs))) (h.arr' (k _ hs)) (h.un (k _ hs))
    · exact h
  · rename_i hs; split
    · rename_i b hb
      have hc := h.clear (h.noneOf (k _ hs))
      split
      · exact endBlock_keeps _ hc (h.arr' (k _ hs))
      · have hc' : NoSites p (s.raise .contactLost) := hc.same rfl rfl rfl rfl rfl rfl rfl
        exact hc'.enterHeld _ (h.un (k _ hs)) (h.arr' (k _ hs))
    · exact h
  · rename_i hs; split
    · exact endBlock_keeps _ (h.clear (h.noneOf (k _ hs))) (h.arr' (k _ hs))
    · exact h
  · exact h

theorem startWaiting_keeps (h : Kept p s) : Kept p s.startWaiting := by
  unfold State.startWaiting
  split
  · rename_i b hb
    split
    · rename_i es r hh hw
      have hn := h.noneOf' hb (fun es' r' h' e => by rw [hw] at e; cases e)
      have hst := (h.clear hn).start (h.unstarted b _ _ _ hb hw) (h.arr hb) b es
      exact settleTouchdown_keeps hst.kept
    · exact h
  · exact h


/-- A site may lose its requests, and the board its pulses. -/
theorem KeptBut.less (h : Kept p s) (hc : t.chain = s.chain) (hs : t.sites = s.sites)
    (hq : ∀ m, (t.requests m).Sublist (s.requests m))
    (hp : ∀ q ∈ t.dies.parked, q.burn.kept p) (hw : ∀ r ∈ t.waiting, r ∈ s.waiting)
    (hd : ∀ (i : Chan) (n : Site) (w e : Nat), t.chans[i].state = .driving n w e → s.chans[i].state = .driving n w e) :
      Kept p t := by
  have ht : ∀ m, (t.tasks m).Sublist (s.tasks m) := fun m => by
    rw [tasks_eq, tasks_eq, hs]; exact List.Sublist.append (List.Sublist.refl _) (hq m)
  have hpf : ∀ n w, t.pulseFits p n w ↔ s.pulseFits p n w := fun n w => by simp only [State.pulseFits, hs]
  exact ⟨h.range, hc ▸ h.unstarted, hc ▸ h.leftOver, fun n hn => by
      rw [hs] at hn; rw [hc]; exact ⟨(h.named n hn).1, (State.inTouchdown_congr hc).2 (h.named n hn).2⟩,
    fun m hm => hm.elim, fun m _ => Nat.le_trans (ht m).length_le (h.one m id),
      fun m k _ hk => by rw [hs]; exact h.fits m k id ((ht m).subset hk),
    fun m c b _ hc => h.kept m c b id (hs ▸ hc), hp, fun m c b e _ hc => h.armed m c b e id (hs ▸ hc),
    fun r hr => (hpf _ _).2 (h.waiting r (hw r hr)), fun i n w e hdr => (hpf _ _).2
      (h.driving i n w e (hd i n w e hdr))⟩

theorem pop_requests {r : TableRequest} {rest} (hq : s.dies.queue = r :: rest) (m : Site) :
    s.requests m = (r.task m).toList ++ s.popTable.requests m := by
  simp only [State.requests, State.popTable, DieTableUnit.pop, State.setDies_dies, State.setDies_comp,
    State.setDies_keys, State.setDies_waiting, State.setDies_chans, State.setDies_escrow, hq, List.tail_cons,
    List.filterMap_cons]
  cases r.task m <;> simp

theorem popTable_keeps (h : Kept p s) {r : TableRequest} {rest} (hq : s.dies.queue = r :: rest) : Kept p s.popTable :=
  h.less rfl rfl (fun m => by rw [pop_requests hq]; exact List.sublist_append_right _ _) h.parked (fun _ h => h)
    (fun _ _ _ _ h => h)

theorem popTable_atSite (h : Kept p s) (hp : s.profile = p) {r : TableRequest} {rest} {k}
    (hq : s.dies.queue = r :: rest) (hr : ∀ m, r.task m = if m = n then some k else none)
    (hc : s.sites[n] = some c) : AtSite n p s.popTable ∧ c.exch = none ∧ c.state ∈ k.states := by
  have hn := pop_requests hq n
  rw [hr, if_pos rfl] at hn
  have hk : k ∈ s.requests n := by rw [hn]; simp
  refine ⟨h.dropAt hc hp rfl rfl (fun m => ?_) rfl (fun _ h => h) (fun _ _ _ _ h => h),
    h.noExch hc (List.ne_nil_of_mem hk), (h.only hc hk).1⟩
  by_cases hm : m = n
  · subst hm; rw [if_pos rfl]
    have := h.lenReq m; rw [hn] at this; simp at this; exact this
  · rw [if_neg hm]; have := pop_requests hq m; rw [hr, if_neg hm] at this; exact this.symm

/-! ### Pulses -/
theorem driving_site (h : Kept p s) {i : Chan} {w e} (hd : s.chans[i].state = .driving n w e) : ∃ c, s.sites[n] =
    some c ∧ c.state = .pulsing ∧ c.exch = none := by
  have hk := pulse_mem hd
  obtain ⟨c, hc, hs⟩ := h.fits n .pulse id (by rw [tasks_eq]; exact List.mem_append_right _ hk)
  exact ⟨c, hc, by simpa [Task.states] using hs, h.noExch hc (List.ne_nil_of_mem hk)⟩

theorem filterMap_set_none {α β} [DecidableEq α] (l : List α) (f g : α → Option β) (i : α) (hg : g i = none)
    (hne : ∀ a, a ≠ i → g a = f a) :
   (l.filterMap g).Sublist (l.filterMap f) ∧ ∀ k, f i = some k → i ∈ l →
     (l.filterMap g).length < (l.filterMap f).length := by
  induction l with
  | nil => exact ⟨List.Sublist.refl _, fun _ _ h => nomatch h⟩
  | cons a l ih =>
    by_cases ha : a = i
    · subst ha
      simp only [List.filterMap_cons, hg]
      cases hf : f a with
      | none => exact ⟨ih.1, fun k hk => nomatch hk⟩
      | some j => exact ⟨ih.1.cons _, fun _ _ _ => Nat.lt_succ_of_le ih.1.length_le⟩
    · simp only [List.filterMap_cons, hne a ha]
      cases hf : f a with
      | none => exact ⟨ih.1, fun k hk hm => ih.2 k hk (by simpa [Ne.symm ha] using hm)⟩
      | some j => exact ⟨ih.1.cons_cons _, fun k hk hm => Nat.succ_lt_succ (ih.2 k hk (by simpa [Ne.symm ha] using hm))⟩

theorem requests_chan_none (s : State) (i : Chan) (ch : Channel) (m : Site) (hn : ch.state.task m = none) :
    ((s.setChan i ch).requests m).Sublist (s.requests m) ∧ ∀ k, (s.chans[i]).state.task m = some k →
      ((s.setChan i ch).requests m).length < (s.requests m).length := by
  have key := filterMap_set_none allChans (fun c : Chan => (s.chans[c]).state.task m)
    (fun c : Chan => ((s.setChan i ch).chans[c]).state.task m) i
    (by rw [setChan_get, if_pos rfl]; exact hn) (fun a ha => by rw [setChan_get, if_neg ha])
  constructor
  · exact (((List.Sublist.append (List.Sublist.append (List.Sublist.refl _) key.1) (List.Sublist.refl _))).append
      (List.Sublist.refl _))
  · intro k hk
    have := key.2 k hk (allChans_mem i)
    simp only [State.requests, List.length_append] at *
    simp only [State.setChan_dies, State.setChan_comp, State.setChan_keys, State.setChan_waiting,
      State.setChan_escrow] at *
    omega

theorem task_of_not_driving {ch : ChannelState} (h : ∀ m w e, ch ≠ .driving m w e) (m : Site) : ch.task m = none := by
  cases ch with
  | driving m w e => exact absurd rfl (h m w e)
  | _ => rfl

/-- The site whose pulse ends is free to be worked on. -/
theorem setChan_atSite (h : Kept p s) (hp : s.profile = p) {i : Chan} {w e} (hd : s.chans[i].state = .driving n w e)
    (ch : Channel) (hch : ∀ m w e, ch.state ≠ .driving m w e) :
    AtSite n p (s.setChan i ch) := by
  obtain ⟨c, hc, -, -⟩ := driving_site h hd
  have hnone := task_of_not_driving hch
  refine h.dropAt hc hp rfl rfl (fun m => ?_) rfl (fun _ h => h) (fun j m w e hj => ?_)
  · by_cases hm : m = n
    · subst hm; rw [if_pos rfl]
      have := (requests_chan_none s i ch m (hnone m)).2 .pulse (by rw [hd]; simp [ChannelState.task])
      have := h.lenReq m
      exact List.eq_nil_of_length_eq_zero (by omega)
    · rw [if_neg hm]; exact requests_setChan _ _ _ _ (by rw [hnone, hd]; simp [ChannelState.task, Ne.symm hm])
  · rw [setChan_get] at hj; split at hj
    · exact absurd hj (hch _ _ _)
    · exact hj

/-- The charge of the pulse that has ended. -/
theorem AtSite.charge (h : AtSite n p s) (hc : s.sites[n] = some c) (hb : c.burnKept p) (he : c.exch = none) {w}
    (hf : ∀ b, c.burn = some b → b.bitSpent p = false ∧ w = b.pulseWidth p) :
    AtSite n p (s.chargePulse n w) ∧ ∃ d, (s.chargePulse n w).sites[n] = some d ∧ d.burnKept p ∧ d.exch = none ∧
      d.state = c.state := by
  unfold State.chargePulse
  rw [hc]; dsimp only
  cases hbb : c.burn with
  | none => exact ⟨h, c, hc, hb, he, rfl⟩
  | some b =>
    dsimp only
    obtain ⟨h1, rfl⟩ := hf b hbb
    refine ⟨(h.set _).bump _, _, setSite_same _ _ _, burnKept_some (charge_kept (hb b hbb) h1) c, he, rfl⟩

theorem AtSite.settleDelay (h : AtSite n p s) (hc : s.sites[n] = some c) (hb : c.burnKept p) (he : c.exch = none) :
    Kept p (s.beginSettle n) := by
  unfold State.beginSettle State.modSite; rw [hc]
  exact h.idle (c := { c with state := .settling, timer := 0 }) he hb

/-- The end of a pulse charges it and begins the settle delay (R27, R28). -/
theorem pulseEnd_keeps (h : Kept p s) (hp : s.profile = p) {i : Chan} {w e} (hd : s.chans[i].state = .driving n w e)
    (ch : Channel) (hch : ∀ m w e, ch.state ≠ .driving m w e) :
    Kept p (((s.setChan i ch).chargePulse n w).beginSettle n) := by
  have hat := setChan_atSite h hp hd ch hch
  obtain ⟨c, hc, hst, he⟩ := driving_site h hd
  obtain ⟨h1, d, hd1, hd2, hd3, hd4⟩ := hat.charge (c := c) hc (h.bk hc) he (w := w) fun b hb => h.driving i n w e hd c
    b hc hb
  exact h1.settleDelay hd1 hd2 hd3

theorem setChan_keeps (h : Kept p s) (i : Chan) (ch : Channel)
    (hn : ch.state = s.chans[i].state ∨ ∀ m w e, ch.state ≠ .driving m w e) : Kept p (s.setChan i ch) := by
  rcases hn with hn | hn
  · refine h.less rfl rfl (fun m => ?_) h.parked (fun _ h => h) (fun j m w e hj => ?_)
    · rw [requests_setChan _ _ _ _ (by rw [hn])]
    · rw [setChan_get] at hj; split at hj
      · rename_i hji; subst hji; rw [← hn]; exact hj
      · exact hj
  · have hnone := task_of_not_driving hn
    refine h.less rfl rfl (fun m => (requests_chan_none s i ch m (hnone m)).1) h.parked (fun _ h => h)
      (fun j m w e hj => ?_)
    rw [setChan_get] at hj; split at hj
    · exact absurd hj (hn _ _ _)
    · exact hj

theorem cutPulse_keeps (h : Kept p s) (hp : s.profile = p) (i : Chan) : Kept p (s.cutPulse i) := by
  unfold State.cutPulse
  split
  · rename_i n w e hd
    have hat := setChan_atSite h hp hd { s.chans[i] with state := .ready } (by simp)
    obtain ⟨c, hc, hst, he⟩ := driving_site h hd
    obtain ⟨h1, d, hd1, hd2, hd3, hd4⟩ := hat.charge (c := c) hc (h.bk hc) he (w := w) fun b hb => h.driving i n w e hd
      c b hc hb
    exact h1.but.back hd1 (fun e' hh => by rw [hd3] at hh; exact (nomatch hh)) hd2
      (fun b e' _ hh => by rw [hd3] at hh; exact (nomatch hh))
  · exact h

theorem chargePulse_chans (s : State) (n w) : (s.chargePulse n w).chans = s.chans ∧ (s.chargePulse n w).waiting =
    s.waiting ∧ (s.chargePulse n w).chain = s.chain := by
  unfold State.chargePulse; split <;> (try split) <;> simp

theorem cutPulse_chans (s : State) (i j : Chan) : (∀ n w e, (s.cutPulse i).chans[i].state ≠ .driving n w e) ∧
    ((∀ n w e, s.chans[j].state ≠ .driving n w e) → ∀ n w e, (s.cutPulse i).chans[j].state ≠ .driving n w e) ∧
      (s.cutPulse i).waiting = s.waiting ∧ (s.cutPulse i).chain = s.chain := by
  unfold State.cutPulse
  split
  · rename_i n w e hd
    obtain ⟨h1, h2, h3⟩ := chargePulse_chans (s.setChan i { s.chans[i] with state := .ready }) n w
    refine ⟨?_, ?_, by rw [h2]; rfl, by rw [h3]; rfl⟩
    · intro a b c; rw [h1, setChan_get, if_pos rfl]; simp
    · intro hj a b c; rw [h1, setChan_get]; split
      · simp
      · exact hj a b c
  · rename_i hn
    exact ⟨hn, fun h => h, rfl, rfl⟩

theorem releaseChannels_keeps (h : Kept p s) (hp : s.profile = p) : Kept p s.releaseChannels ∧
    s.releaseChannels.waiting = [] ∧
    (∀ (i : Chan) n w e, s.releaseChannels.chans[i].state ≠ .driving n w e) ∧ s.releaseChannels.chain = s.chain := by
  have h0 : Kept p (s.setWaiting []) := h.less rfl rfl (fun m => by
      simp only [State.requests, State.setWaiting_dies, State.setWaiting_comp, State.setWaiting_keys,
        State.setWaiting_waiting, State.setWaiting_chans, State.setWaiting_escrow, List.filterMap_nil]
      exact (((List.Sublist.append (List.Sublist.refl _) (List.nil_sublist _)).append (List.Sublist.refl _)).append
        (List.Sublist.refl _)).append (List.Sublist.refl _)) h.parked
    (fun _ h => nomatch h) (fun _ _ _ _ h => h)
  have step : ∀ (l : List Chan) {t : State}, Kept p t → t.profile = p → t.waiting = [] →
    Kept p (l.foldl State.cutPulse t) ∧ (l.foldl State.cutPulse t).waiting = [] ∧
      (∀ i : Chan, (i ∈ l ∨ ∀ n w e, t.chans[i].state ≠ .driving n w e) → ∀ n w e,
        (l.foldl State.cutPulse t).chans[i].state ≠ .driving n w e) ∧ (l.foldl State.cutPulse t).chain = t.chain := by
    intro l; induction l with
    | nil => intro t h _ hw; exact ⟨h, hw, fun i hi => hi.elim (fun h => nomatch h) id, rfl⟩
    | cons i l ih =>
      intro t h hp hw
      obtain ⟨-, -, hw', hch⟩ := cutPulse_chans t i i
      obtain ⟨a1, a2, a3, a4⟩ := ih (cutPulse_keeps h hp i) (by rw [← hp]; simp only [State.profile, hch])
        (by rw [hw', hw])
      refine ⟨a1, a2, fun j hj => ?_, by rw [List.foldl_cons, a4, hch]⟩
      obtain ⟨k1, k2, -⟩ := cutPulse_chans t i j
      refine a3 j ?_
      rcases hj with hj | hj
      · rcases List.mem_cons.1 hj with rfl | hj
        · exact .inr k1
        · exact .inl hj
      · exact .inr (k2 hj)
  obtain ⟨a1, a2, a3, a4⟩ := step allChans h0 hp rfl
  exact ⟨a1, a2, fun i => a3 i (.inl (allChans_mem i)), a4⟩

theorem foldl_releaseSite_keeps : ∀ (l : List Site) {s : State}, Kept p s → s.profile = p → s.waiting = [] →
    (∀ (i : Chan) n w e, s.chans[i].state ≠ .driving n w e) →
    Kept p (l.foldl State.releaseSite s)
  | [], s, h, _, _, _ => h
  | n :: l, s, h, hp, hw, hd => foldl_releaseSite_keeps l (releaseSite_keeps h hp n hw hd)
    (by rw [← hp]; simp [State.profile]) (by simpa using hw)
      (fun i => by have : (s.releaseSite n).chans = s.chans := by simp
                   rw [this]; exact hd i)

/-- A release in RUNNING keeps the order (R153). -/
theorem releaseIfRunning_keeps (h : Kept p s) (hp : s.profile = p) : Kept p s.releaseIfRunning := by
  unfold State.releaseIfRunning
  split
  · rename_i b hb
    have hb' : s.chain.block = some b := by
      unfold State.releasable at hb
      split at hb
      · split at hb
        · split at hb
          · cases hb; assumption
          · cases hb
        · cases hb
      · cases hb
    unfold State.takeRelease
    dsimp only
    have ht : Kept p ((s.raise .contactLost).bump .releases) := h.same rfl rfl rfl rfl rfl rfl rfl rfl
    have hm := ht.mark (b := b) hb' Block.markReleased (by
      intro es st rel hal hw; exact ⟨true, hal, by simp [Block.markReleased, hw]⟩) (by
      intro es st rel hal hw
      unfold Block.markReleased at hw; split at hw
      · rename_i hw'; simp only [Work.touchdown.injEq] at hw; obtain ⟨rfl, rfl, rfl, rfl⟩ := hw; exact ⟨_, _, hw'⟩
      · exact ⟨_, _, hw⟩)
    obtain ⟨a1, a2, a3, a4⟩ := releaseChannels_keeps hm (by rw [← hp]; rfl)
    have hpr : ∀ (u v : State), v.chain = u.chain → v.profile = u.profile :=
      fun u v e => by simp only [State.profile, e]
    have hf := foldl_releaseSite_keeps (State.siteOrder
      (((((s.raise .contactLost).bump .releases).setChain
      { ((s.raise .contactLost).bump .releases).chain with block := some b.markReleased }).releaseChannels))) a1
      (by rw [← hp, hpr _ _ a4]; rfl) a2 a3
    refine settleTouchdown_keeps ?_
    generalize List.foldl State.releaseSite _ _ = u at hf ⊢
    exact hf.same rfl rfl rfl rfl rfl rfl rfl rfl
  · exact h

theorem grantLimit_keeps (h : Kept p s) (hp : s.profile = p) (n : Site) : Kept p (if s.isWaiting n then
      let t := (s.leaveWaiting n).bump .grantTimeouts
      match s.sites[n] with
      | some c => t.stopBurn n c .supply
      | none => t
    else s) := by
  split
  · rename_i hw
    simp only [State.isWaiting, List.any_eq_true, decide_eq_true_eq] at hw
    obtain ⟨r, hr, rfl⟩ := hw
    have hk := grant_mem hr
    obtain ⟨c, hc, hs⟩ := h.fits r.site .grant id (by rw [tasks_eq]; exact List.mem_append_right _ hk)
    have hst : c.state = .waitGrant := by simpa [Task.states] using hs
    dsimp only
    rw [hc]
    exact ((leaveWaiting_atSite h hp hc hst).bump _).stop (h.bk hc) _
  · exact h

theorem pulseComplete_keeps (h : Kept p s) (hp : s.profile = p) (c : Chan) : ∀ t, execPulseComplete c s = .next t →
    Kept p t := by
  intro t ht
  unfold execPulseComplete at ht
  split at ht
  · rename_i hd; cases ht
    refine arbitrate_keeps (pulseEnd_keeps h hp hd _ (by simp)) ?_
    rw [← hp]; simp [State.profile]
  · cases ht; exact h

theorem chargePulse_setChan (s : State) (c : Chan) (ch) (n : Site) (w) : (s.setChan c ch).chargePulse n w =
    (s.chargePulse n w).setChan c ch := by
  have e : (s.setChan c ch).sites[n] = s.sites[n] := rfl
  unfold State.chargePulse
  cases hs : s.sites[n] with
  | none => simp only [e, hs]
  | some x => simp only [e, hs]; cases x.burn <;> rfl

theorem beginSettle_setChan (s : State) (c : Chan) (ch) (n : Site) : (s.setChan c ch).beginSettle n =
    (s.beginSettle n).setChan c ch := by
  have e : (s.setChan c ch).sites[n] = s.sites[n] := rfl
  unfold State.beginSettle State.modSite
  cases hs : s.sites[n] with
  | none => simp only [e, hs]
  | some x => simp only [e, hs]; rfl

/-- Taking a channel offline after its pulse ended is ending the pulse on the channel taken offline. -/
theorem goOffline_after_pulse (s : State) (c : Chan) (n w) : (((s.chargePulse n w).beginSettle n).goOffline c) =
   (((((s.setChan c { s.chans[c] with state := .offline }).chargePulse n w).beginSettle n).raise .channelUnlock).bump
     .channelUnlocks) := by
  rw [chargePulse_setChan, beginSettle_setChan, State.goOffline]
  rw [show ((s.chargePulse n w).beginSettle n).chans[c] = s.chans[c] by simp]

theorem regulationLost_keeps (h : Kept p s) (hp : s.profile = p) (c : Chan) : ∀ t, execRegulationLost c s = .next t →
    Kept p t := by
  intro t ht
  unfold execRegulationLost at ht
  dsimp only at ht
  have h1 : Kept p (s.setChan c { s.chans[c] with good := false }) := setChan_keeps h c _ (.inl rfl)
  have off : ∀ {u : State}, Kept p u → Kept p (u.goOffline c) := fun {u} hu =>
    (setChan_keeps hu c { u.chans[c] with state := .offline } (.inr (by simp))).same rfl rfl rfl rfl rfl rfl rfl rfl
  split at ht
  · rename_i n w e hd; cases ht
    rw [goOffline_after_pulse]
    have hd' : (s.setChan c { s.chans[c] with good := false }).chans[c].state =
      .driving n w e := by rw [setChan_get, if_pos rfl]; exact hd
    exact (pulseEnd_keeps h1 hp hd' { (s.setChan c { s.chans[c] with good := false }).chans[c] with state := .offline }
      (by simp)).same rfl rfl rfl rfl rfl rfl rfl rfl
  · cases ht; exact h1
  · cases ht; exact off h1

end Sys2Proof.Machine
end

