-- ==== Sys2Proof/Laws/KeptUnits.lean ====
section
/-! SUPPORT. The die table unit, the composition unit, the key unit, the escrow writer, the resets and the idle step keep
the order of the board and the ranges of its burns. -/

namespace Sys2Proof.Machine

variable {p : Profile} {b : BurnState} {s t : State} {x : Site → Prop} {n : Site} {c : SiteCtx}

/-! ### The die table unit -/
theorem AtSite.dies (h : AtSite n p s) (u : DieTableUnit) (h1 : u.queue = s.dies.queue) (h2 : u.parked = s.dies.parked)
    : AtSite n p (s.setDies u) :=
  ⟨h.but.frame rfl rfl (requests_congr h1 rfl rfl rfl rfl h2 rfl) h2 rfl rfl, h.inn, h.prof⟩
theorem KeptBut.dies (h : KeptBut x p s) (u : DieTableUnit) (h1 : u.queue = s.dies.queue)
    (h2 : u.parked = s.dies.parked) : KeptBut x p (s.setDies u) :=
  h.frame rfl rfl (requests_congr h1 rfl rfl rfl rfl h2 rfl) h2 rfl rfl

theorem evictions_sublist {l m : List ParkedContext} (h : l.Sublist m) (n : Site) :
   (l.filterMap fun q => if q.status = .closing (some n) then some Task.eviction else none).Sublist
     (m.filterMap fun q => if q.status = .closing (some n) then some Task.eviction else none) :=
  h.filterMap _

theorem requests_parked (s : State) (u : DieTableUnit) (h1 : u.queue = s.dies.queue) (m : Site)
    (h2 : (u.parked.filterMap fun q => if q.status = .closing (some m) then some Task.eviction else none).Sublist
      (s.dies.parked.filterMap fun q => if q.status = .closing (some m) then some Task.eviction else none)) :
    ((s.setDies u).requests m).Sublist (s.requests m) := by
  simp only [State.requests, State.setDies_dies, State.setDies_comp, State.setDies_keys, State.setDies_waiting,
    State.setDies_chans, State.setDies_escrow, h1]
  exact (List.Sublist.append (List.Sublist.refl _) h2).append (List.Sublist.refl _)

theorem requests_parked_eq (s : State) (u : DieTableUnit) (h1 : u.queue = s.dies.queue) (m : Site)
    (h2 : (u.parked.filterMap fun q => if q.status = .closing (some m) then some Task.eviction else none) =
      (s.dies.parked.filterMap fun q => if q.status = .closing (some m) then some Task.eviction else none)) :
    (s.setDies u).requests m = s.requests m := by
  simp only [State.requests, State.setDies_dies, State.setDies_comp, State.setDies_keys, State.setDies_waiting,
    State.setDies_chans, State.setDies_escrow, h1, h2]

/-- A context leaves or joins the list without binding. -/
theorem Aside.fewer (h : Aside n p s) (u : DieTableUnit) (h1 : u.queue = s.dies.queue)
    (hp : ∀ q ∈ u.parked, q.burn.kept p)
    (h2 : ∀ m, (u.parked.filterMap fun q => if q.status = .closing (some m) then some Task.eviction else none).Sublist
      (s.dies.parked.filterMap fun q => if q.status = .closing (some m) then some Task.eviction else none)) :
    Aside n p (s.setDies u) := by
  have hq := fun m => requests_parked s u h1 m (h2 m)
  have ht : ∀ m, ((s.setDies u).tasks m).Sublist (s.tasks m) := fun m => by
    rw [tasks_eq, tasks_eq]; exact List.Sublist.append (List.Sublist.refl _) (hq m)
  exact ⟨h.range, h.unstarted, h.leftOver, h.named, fun m hm => List.sublist_nil.1 (h.quiet m hm ▸ hq m),
    fun m hm => Nat.le_trans (ht m).length_le (h.one m hm), fun m k hm hk => h.fits m k hm ((ht m).subset hk), h.kept,
      hp, h.armed, h.waiting, h.driving⟩

theorem AtSite.fewer (h : AtSite n p s) (u : DieTableUnit) (h1 : u.queue = s.dies.queue)
    (hp : ∀ q ∈ u.parked, q.burn.kept p)
    (h2 : ∀ m, (u.parked.filterMap fun q => if q.status = .closing (some m) then some Task.eviction else none).Sublist
      (s.dies.parked.filterMap fun q => if q.status = .closing (some m) then some Task.eviction else none)) :
    AtSite n p (s.setDies u) := ⟨h.but.fewer u h1 hp h2, h.inn, h.prof⟩

theorem burnKept_of (h : c.burnKept p) {d : SiteCtx} (e : d.burn = c.burn) : d.burnKept p := fun b hb => h b (e ▸ hb)

theorem AtSite.absent (h : AtSite n p s) (hb : c.burnKept p) : Kept p (s.absentDie n c) := by
  unfold State.absentDie
  split
  · exact h.finish hb _ _
  · split
    · exact h.early hb _
    · split
      · exact h.finish hb _ _
      · split
        · exact h.finish hb _ _
        · exact h.check (by decide) hb

theorem heldContext_mem {l : List ParkedContext} {d q} (h : heldContext l d = some q) : q ∈ l ∧ q.status = .held := by
  unfold heldContext at h
  refine ⟨List.mem_of_find?_eq_some h, ?_⟩
  have := List.find?_some h; simp [ParkedContext.isHeld] at this; exact this.1

theorem AtSite.resumeDie (h : AtSite n p s) (c : SiteCtx) {q : ParkedContext} (hq : q ∈ s.dies.parked) :
    Kept p (s.resumeDie n c q) := by
  unfold State.resumeDie; dsimp only
  have hk := h.but.parked q hq
  have h' := (h.fewer { s.dies.mark q.die .issued with parked := removeContext s.dies.parked q } rfl
    (fun q' hq' => h.but.parked q' (List.mem_of_mem_erase hq')) (fun m => evictions_sublist List.erase_sublist m)).bump
      .diesResumed
  split
  · refine AtSite.stop h' ?_ _
    intro b e; simp only [SiteCtx.resume, Option.some.injEq] at e; exact e ▸ hk
  · exact h'.resume hk _ _

theorem AtSite.looked (h : AtSite n p s) (hg : Kept p s) (hb : c.burnKept p) (d) : Kept p (s.lookedUp n c d) := by
  unfold State.lookedUp
  split
  · exact h.absent hb
  · split
    · exact h.finish hb _ _
    · exact h.finish hb _ _
    · exact h.finish hb _ _
    · split
      · rename_i hq; exact h.resumeDie c (heldContext_mem hq).1
      · exact hg
    · exact hg

theorem AtSite.key (h : AtSite n p s) {c : SiteCtx} (he : c.exch = none) (hk : c.state = .issueWait)
    (hb : c.burnKept p) {r : DerivRequest} (hr : r.site = n) :
    Kept p ((s.setSite n c).setKeys { (s.setSite n c).keys with queue := (s.setSite n c).keys.queue ++ [r] }) := by
  have h' := h.set c
  refine h'.but.ask (k := .key) (setSite_same s n c) rfl rfl (fun m => ?_) h'.but.parked (fun r hr => .inl hr)
    (fun i m w e hd => .inl hd) he (by simp [Task.states, hk]) hb
  have hq := h'.but.quiet n rfl
  by_cases hm : m = n
  · subst hm
    simp only [State.requests, List.append_eq_nil_iff] at hq
    obtain ⟨⟨⟨⟨⟨⟨h1, h2⟩, h3⟩, h4⟩, h5⟩, h6⟩, h7⟩ := hq
    simp only [State.requests, State.setKeys_dies, State.setKeys_comp, State.setKeys_keys, State.setKeys_waiting,
      State.setKeys_chans, State.setKeys_escrow, List.filterMap_append, h1, h2, h3, h4, h5, h6, h7]
    simp [hr]
  · simp only [State.requests, State.setKeys_dies, State.setKeys_comp, State.setKeys_keys, State.setKeys_waiting,
      State.setKeys_chans, State.setKeys_escrow, List.filterMap_append, if_neg hm]
    simp [hr, Ne.symm hm]

theorem AtSite.granted (h : AtSite n p s) (he : c.exch = none) (hb : c.burnKept p) : Kept p (s.placeGranted n c) := by
  unfold State.placeGranted; dsimp only
  split
  · exact h.early (c := { c with placeHeld := true }) hb _
  · split
    · exact AtSite.begin (h.quietTable (r := .toEntry n c.die 0) fun _ => rfl) _
    · exact h.key (c := { c with placeHeld := true, state := .issueWait }) he rfl hb rfl

/-- No request is open for a site without a context. -/
theorem held_of_site_none (h : Kept p s) {k} (hk : k ∈ s.requests n) (hc : s.sites[n] = none) : False := by
  rw [h.absent hc] at hk; exact (nomatch hk)

theorem parked_append (l : List ParkedContext) (q : ParkedContext) (hq : q.status = .held) (m : Site) :
    ((l ++ [q]).filterMap fun q => if q.status = .closing (some m) then some Task.eviction else none) =
      l.filterMap fun q => if q.status = .closing (some m) then some Task.eviction else none := by
  simp [List.filterMap_append, hq]

theorem modSite_at (s : State) (n : Site) (f) (hc : s.sites[n] = some c) : s.modSite n f = s.setSite n (f c) := by
  simp only [State.modSite, hc]

theorem AtSite.park (h : AtSite n p s) (hb : c.burnKept p) : Kept p (s.takePark n c) := by
  have hp := h.prof; subst hp
  unfold State.takePark State.joinPark; dsimp only
  have hk := burnState_kept h.but.range hb
  have h' := h.fewer { s.dies.mark c.die .parked with parked := (s.dies.mark c.die .parked).parked ++
    [c.parked s.profile] } rfl
    (fun q hq => by
      rcases List.mem_append.1 hq with hq | hq
      · exact h.but.parked q hq
      · simp only [List.mem_singleton] at hq; subst hq; exact hk)
    (fun m => by rw [parked_append _ _ rfl]; exact List.Sublist.refl _)
  generalize s.setDies _ = u at h'
  have hf : AtSite n s.profile (u.enterFinal n c c.stop.parkResult none) := by
    unfold State.enterFinal; dsimp only; split
    · exact (h'.store _ _).set _
    · exact h'.set _
  have hs : (u.enterFinal n c c.stop.parkResult none).sites[n] = some
    { c with state := .final, result := some c.stop.parkResult, exch := none } := by
    unfold State.enterFinal; rw [setSite_same]
  rw [modSite_at _ _ _ hs]
  refine reportResult_keeps (hf.idle ?_ ?_) ?_ _
  · rfl
  · exact hb
  · exact hf.prof

/-! ### CloseFirstHeld -/
theorem closeFirst_none : ∀ (l : List ParkedContext) (m : Site),
    ((closeFirstHeld none l).filterMap fun q => if q.status = .closing (some m) then some Task.eviction else none) =
    l.filterMap fun q => if q.status = .closing (some m) then some Task.eviction else none
  | [], m => rfl
  | q :: l, m => by
    unfold closeFirstHeld
    split
    · rename_i hq; simp [ParkedContext.isHeld] at hq; simp [hq]
    · simp only [List.filterMap_cons, closeFirst_none l m]

/-- An eviction for a site closes the oldest HELD context for that site alone (R132). -/
theorem closeFirst_some (n : Site) : ∀ (l : List ParkedContext) (m : Site), l.any ParkedContext.isHeld = true →
   (m ≠ n → ((closeFirstHeld (some n) l).filterMap fun q => if q.status =
     .closing (some m) then some Task.eviction else none) = l.filterMap fun q => if q.status = .closing (some m)
     then some Task.eviction else none) ∧
   (m = n → (l.filterMap fun q => if q.status = .closing (some m) then some Task.eviction else none) = [] →
     ((closeFirstHeld (some n) l).filterMap fun q => if q.status = .closing (some m) then some Task.eviction else none)
     = [.eviction])
  | [], m, h => nomatch h
  | q :: l, m, h => by
    unfold closeFirstHeld
    split
    · rename_i hq; simp [ParkedContext.isHeld] at hq
      refine ⟨fun hm => ?_, fun hm hl => ?_⟩
      · simp [hq, Ne.symm hm]
      · subst hm; simp only [List.filterMap_cons, hq] at hl ⊢
        simp at hl ⊢; exact hl
    · rename_i hq
      have h' : l.any ParkedContext.isHeld = true := by simpa [hq] using h
      obtain ⟨h1, h2⟩ := closeFirst_some n l m h'
      refine ⟨fun hm => by simp only [List.filterMap_cons, h1 hm], fun hm hl => ?_⟩
      simp only [List.filterMap_cons] at hl ⊢
      by_cases hx : q.status = .closing (some m)
      · simp [hx] at hl
      · simp only [if_neg hx] at hl ⊢; exact h2 hm hl

theorem closeFirst_burn (bound) : ∀ (l : List ParkedContext), (∀ q ∈ l, q.burn.kept p) → ∀ q ∈ closeFirstHeld bound l,
    q.burn.kept p
  | [], _, q, hq => nomatch hq
  | a :: l, h, q, hq => by
    unfold closeFirstHeld at hq
    split at hq
    · rcases List.mem_cons.1 hq with rfl | hq
      · exact h a List.mem_cons_self
      · exact h q (List.mem_cons_of_mem _ hq)
    · rcases List.mem_cons.1 hq with rfl | hq
      · exact h q List.mem_cons_self
      · exact closeFirst_burn bound l (fun q hq => h q (List.mem_cons_of_mem _ hq)) q hq

theorem KeptBut.recordQuiet (h : KeptBut x p s) {r : EscrowRecord} {rep}
    (hr : ∀ m, RecordRequest.task m { record := r, report := rep } = none) : KeptBut x p (s.queueRecord r rep) :=
  h.frame rfl rfl (fun m => by rw [requests_queueRecord, hr]; simp) rfl rfl rfl

/-- A site that finds the parking slots full waits for one eviction (R132). -/
theorem AtSite.evict (h : AtSite n p s) (hc : s.sites[n] = some c) (he : c.exch = none) (hs : c.state = .parking)
    (hb : c.burnKept p) : Kept p (s.evictFor n) := by
  unfold State.evictFor
  split
  · rename_i q hq
    have hany : s.dies.parked.any ParkedContext.isHeld = true := by
      rw [List.any_eq_true]; exact ⟨q, List.mem_of_find?_eq_some hq, List.find?_some hq⟩
    refine KeptBut.recordQuiet (KeptBut.bump ?_ _) fun _ => rfl
    refine h.but.ask (k := .eviction) hc rfl rfl (fun m => ?_) (closeFirst_burn _ _ h.but.parked) (fun r hr => .inl hr)
      (fun i m w e hd => .inl hd) he (by simp [Task.states, hs]) hb
    obtain ⟨a1, a2⟩ := closeFirst_some n s.dies.parked m hany
    split
    · rename_i hm
      have hq := h.but.quiet m hm
      simp only [State.requests, List.append_eq_nil_iff] at hq
      obtain ⟨⟨⟨⟨⟨⟨h1, h2⟩, h3⟩, h4⟩, h5⟩, h6⟩, h7⟩ := hq
      simp only [State.requests, State.setDies_dies, State.setDies_comp, State.setDies_keys, State.setDies_waiting,
        State.setDies_chans, State.setDies_escrow, DieTableUnit.mark, h1, h2, h3, h4, h5, h7, a2 hm h6]
      simp
    · rename_i hm
      exact requests_parked_eq s
        { s.dies.mark q.die .void with parked := closeFirstHeld (some n) s.dies.parked } rfl m (a1 hm)
  · exact h.but.back hc (fun e hh => by rw [he] at hh; exact (nomatch hh)) hb
      (fun b e _ hh => by rw [he] at hh; exact (nomatch hh))

theorem AtSite.evictDry (h : AtSite n p s) : AtSite n p s.evictDry ∧ s.evictDry.sites = s.sites := by
  unfold State.evictDry
  split
  · rename_i q hq
    exact ⟨((h.fewer { s.dies.mark q.die .void with parked := removeContext s.dies.parked q } rfl
      (fun q' hq' => h.but.parked q' (List.mem_of_mem_erase hq'))
      fun m => evictions_sublist List.erase_sublist m).bump _).bump _, rfl⟩
  · exact ⟨h, rfl⟩

theorem AtSite.parkDry (h : AtSite n p s) (hc : s.sites[n] = some c) (he : c.exch = none) (hb : c.burnKept p) :
    Kept p (s.parkDry n c) := by
  obtain ⟨h1, h2⟩ := h.evictDry
  unfold State.parkDry; dsimp only; split
  · exact h1.park hb
  · exact h1.but.back (by rw [h2]; exact hc) (fun e hh => by rw [he] at hh; exact (nomatch hh)) hb
      (fun b e _ hh => by rw [he] at hh; exact (nomatch hh))

theorem KeptBut.fewerParked (h : Kept p s) (u : DieTableUnit) (h1 : u.queue = s.dies.queue)
    (hp : ∀ q ∈ u.parked, q.burn.kept p)
    (h2 : ∀ m, (u.parked.filterMap fun q => if q.status = .closing (some m) then some Task.eviction else none).Sublist
      (s.dies.parked.filterMap fun q => if q.status = .closing (some m) then some Task.eviction else none)) :
    Kept p (s.setDies u) :=
  h.less rfl rfl (fun m => requests_parked s u h1 m (h2 m)) hp (fun _ h => h) (fun _ _ _ _ h => h)

theorem voidHeld_keeps (h : Kept p s) : Kept p s.voidHeld := by
  unfold State.voidHeld
  generalize (s.dies.parked.filter ParkedContext.isHeld) = l
  generalize s.dryRun = d
  induction l generalizing s with
  | nil => exact h
  | cons q l ih =>
    refine ih ?_
    split
    · unfold State.voidDry
      exact (h.fewerParked { s.dies.mark q.die .void with parked := removeContext s.dies.parked q } rfl
        (fun q' hq' => h.parked q' (List.mem_of_mem_erase hq'))
        fun m => evictions_sublist List.erase_sublist m).bump _
    · unfold State.voidLive
      exact (h.fewerParked { s.dies.mark q.die .void with parked := closeFirstHeld none s.dies.parked } rfl
        (closeFirst_burn _ _ h.parked) fun m => by rw [closeFirst_none]).recordQuiet fun _ => rfl

theorem lookup_task (n m : Site) (d) : (TableRequest.lookup n d).task m =
    if m = n then some .lookup else none := by
  simp only [TableRequest.task]
  exact task_self_iff n m _

theorem hold_task (n m : Site) (d) : (TableRequest.hold n d).task m =
    if m = n then some .hold else none := by
  simp only [TableRequest.task]
  exact task_self_iff n m _

theorem void_task (n m : Site) (d) : (TableRequest.voidEntry n d).task m =
    if m = n then some .voidEntry else none := by
  simp only [TableRequest.task]
  exact task_self_iff n m _

theorem settle_task (n m : Site) (d o) : (TableRequest.settle n d o).task m =
    if m = n then some .settle else none := by
  simp only [TableRequest.task]
  exact task_self_iff n m _

theorem park_task (n m : Site) : (TableRequest.park n).task m =
    if m = n then some .park else none := by
  simp only [TableRequest.task]
  exact task_self_iff n m _

/-- Each service of the die table unit keeps the order (R122 to R138). -/
theorem dieTable_keeps (h : Kept p s) (hp : s.profile = p) : (∀ t, execDieLookup s = .next t → Kept p t) ∧
    (∀ t, execPlaceHold s = .next t → Kept p t) ∧
    (∀ t, execPlaceGiveBack s = .next t → Kept p t) ∧ (∀ t, execPlaceToEntry s = .next t → Kept p t) ∧
      (∀ t, execVoidEntry s = .next t → Kept p t) ∧
    (∀ t, execEntrySettle s = .next t → Kept p t) ∧ (∀ t, execContextPark s = .next t → Kept p t) ∧
      (∀ t, execTableClear s = .next t → Kept p t) ∧
    (∀ t, execVoidAllParked s = .next t → Kept p t) ∧ (∀ t, execTableDump s = .next t → Kept p t) := by
  refine ⟨fun t ht => ?_, fun t ht => ?_, fun t ht => ?_, fun t ht => ?_, fun t ht => ?_, fun t ht => ?_,
    fun t ht => ?_, fun t ht => ?_, fun t ht => ?_, fun t ht => ?_⟩
  · unfold execDieLookup at ht; cases ht
    split
    · rename_i hq; dsimp only; split
      · rename_i c hc
        exact settleTouchdown_keeps ((popTable_atSite h hp hq (fun m => lookup_task _ m _) hc).1.looked
          (popTable_keeps h hq) (h.bk hc) _)
      · exact popTable_keeps h hq
    · exact h
  · unfold execPlaceHold at ht; cases ht
    split
    · rename_i n die rest hq; dsimp only; split
      · rename_i c hc
        obtain ⟨ha, he, hs⟩ := popTable_atSite h hp hq (fun m => hold_task _ m _) hc
        split
        · exact settleTouchdown_keeps ((ha.dies (s.popTable.dies.holdPlace n die) rfl rfl).granted he (h.bk hc))
        · exact settleTouchdown_keeps (ha.finish (h.bk hc) _ _)
      · exact popTable_keeps h hq
    · exact h
  · unfold execPlaceGiveBack at ht; cases ht
    split
    · rename_i hq; exact (popTable_keeps h hq).dies _ rfl rfl
    · exact h
  · unfold execPlaceToEntry at ht; cases ht
    split
    · rename_i hq; exact (popTable_keeps h hq).dies _ rfl rfl
    · exact h
  · unfold execVoidEntry at ht; cases ht
    split
    · rename_i n die rest hq; dsimp only
      by_cases hr : s.popTable.dies.hasRoom
      · simp only [hr, if_true]
        split
        · rename_i c hc
          exact settleTouchdown_keeps ((((popTable_atSite h hp hq (fun m => void_task _ m _) (c := c) hc).1.dies
            (s.popTable.dies.setEntry die { state := .void, serial := 0 }) rfl rfl).bump .diesVoided).finish
            (h.bk (c := c) hc) _ _)
        · exact ((popTable_keeps h hq).dies (s.popTable.dies.setEntry die { state := .void, serial := 0 }) rfl
            rfl).bump _
      · simp only [hr]
        split
        · rename_i c hc
          exact settleTouchdown_keeps ((popTable_atSite h hp hq (fun m => void_task _ m _) hc).1.finish (h.bk hc) _ _)
        · exact popTable_keeps h hq
    · exact h
  · unfold execEntrySettle at ht; cases ht
    split
    · rename_i n die o rest hq; dsimp only
      have hd : (s.popTable.dies.settle die o).queue = s.popTable.dies.queue ∧ (s.popTable.dies.settle die o).parked =
        s.popTable.dies.parked := by
        unfold DieTableUnit.settle; split <;> exact ⟨rfl, rfl⟩
      split
      · rename_i c hc
        exact settleTouchdown_keeps (((popTable_atSite h hp hq (fun m => settle_task _ m _ _) (c := c) hc).1.dies _
          hd.1 hd.2).finish (c := c.eraseKey) (h.bk (c := c) hc) _ _)
      · exact (popTable_keeps h hq).dies _ hd.1 hd.2
    · exact h
  · unfold execContextPark at ht; cases ht
    split
    · rename_i n rest hq; dsimp only
      split
      · rename_i c hc
        obtain ⟨ha, he, hs⟩ := popTable_atSite h hp hq (fun m => park_task _ m) (c := c) hc
        split
        · exact settleTouchdown_keeps (ha.park (h.bk hc))
        · split
          · exact settleTouchdown_keeps (ha.parkDry hc he (h.bk hc))
          · exact ha.evict hc he (by simpa [Task.states] using hs) (h.bk hc)
      · exact popTable_keeps h hq
    · exact h
  · unfold execTableClear at ht; cases ht
    split
    · rename_i hq; exact (popTable_keeps h hq).dies _ rfl rfl
    · exact h
  · unfold execVoidAllParked at ht; cases ht
    split
    · rename_i hq
      have := voidHeld_keeps (popTable_keeps h hq)
      unfold State.voidAllAnswered
      split
      · split
        · exact this.recordQuiet fun _ => rfl
        · exact this
      · exact this
    · exact h
  · unfold execTableDump at ht; cases ht
    split
    · rename_i buffer capacity rest hq
      have hw : Kept p (s.popTable.writeDump buffer capacity) := (popTable_keeps h hq).same rfl rfl rfl rfl rfl rfl rfl
        rfl
      dsimp only
      split
      · rename_i b hb
        split
        · rename_i hwk
          have hn := hw.noneOf' hb (fun es r hh e => by rw [hwk] at e; cases e)
          exact blockDone_keeps b _ ((hw.clear hn).same (by simp) (by simp) (by simp) (by simp) (by simp) (by simp)
            (by simp [State.writeDumpCounts])) (by simpa using hw.arr hb)
        · exact hw
      · exact hw
    · exact h


theorem request_site (h : Kept p s) {k} (hk : k ∈ s.requests n) : ∃ c, s.sites[n] = some c ∧ c.state ∈ k.states ∧
    c.exch = none := by
  obtain ⟨c, hc, hs⟩ := h.fits n k id (by rw [tasks_eq]; exact List.mem_append_right _ hk)
  exact ⟨c, hc, hs, h.noExch hc (List.ne_nil_of_mem hk)⟩

theorem comp_requests {r : CompRequest} {rest} (hq : s.comp = r :: rest) (m : Site) :
    (s.requests m).length = ((s.setComp rest).requests m).length + (if m = r.site then 1 else 0) ∧
      ((s.setComp rest).requests m).Sublist (s.requests m) ∧
    (m ≠ r.site → (s.setComp rest).requests m = s.requests m) ∧ (m = r.site → Task.composition ∈ s.requests m) := by
  simp only [State.requests, State.setComp_dies, State.setComp_comp, State.setComp_keys, State.setComp_waiting,
    State.setComp_chans, State.setComp_escrow, hq, List.filterMap_cons]
  by_cases hm : m = r.site
  · subst hm
    simp
    omega
  · simp [Ne.symm hm, hm]

/-- The end of a composition keeps the order (R69). -/
theorem compositionComplete_keeps (h : Kept p s) (hp : s.profile = p) : ∀ t, execCompositionComplete s = .next t →
    Kept p t := by
  intro t ht
  unfold execCompositionComplete at ht; cases ht
  split
  · rename_i r rest hq
    obtain ⟨c, hc, hs, he⟩ := request_site h ((comp_requests hq r.site).2.2.2 rfl)
    have hs' : c.state = .prep := by simpa [Task.states] using hs
    have hat : AtSite r.site p (s.setComp rest) := by
      refine h.dropAt hc hp rfl rfl (fun m => ?_) rfl (fun _ h => h) (fun _ _ _ _ h => h)
      by_cases hm : m = r.site
      · subst hm
        rw [if_pos rfl]
        have h1 := (comp_requests hq r.site).1
        have h2 := h.lenReq r.site
        rw [if_pos rfl] at h1
        exact List.eq_nil_of_length_eq_zero (by omega)
      · rw [if_neg hm]; exact (comp_requests hq m).2.2.1 hm
    refine settleTouchdown_keeps ?_
    unfold State.composed
    rw [show (s.setComp rest).sites[r.site] = some c from hc]
    dsimp only
    split
    · rename_i i _
      unfold State.identityReturned; dsimp only
      split
      · exact hat.early (c := { c with identity := some i }) (h.bk (c := c) hc) _
      · exact hat.wait (c := { c with identity := some i }) (k := .hold) (fun m => hold_task _ m _) he
          (by simp [Task.states, hs']) (h.bk (c := c) hc)
    · exact hat.finish (h.bk hc) _ _
  · exact h

theorem key_requests {r : DerivRequest} {rest} (hq : s.keys.queue = r :: rest) {k : KeyUnit} (hk : k.queue = rest)
    (m : Site) :
    (s.requests m).length = ((s.setKeys k).requests m).length + (if m = r.site then 1 else 0) ∧
      ((s.setKeys k).requests m).Sublist (s.requests m) ∧
    (m ≠ r.site → (s.setKeys k).requests m = s.requests m) ∧ (m = r.site → Task.key ∈ s.requests m) := by
  simp only [State.requests, State.setKeys_dies, State.setKeys_comp, State.setKeys_keys, State.setKeys_waiting,
    State.setKeys_chans, State.setKeys_escrow, hq, hk, List.filterMap_cons]
  by_cases hm : m = r.site
  · subst hm
    simp
    omega
  · simp [Ne.symm hm, hm]

theorem keys_atSite (h : Kept p s) (hp : s.profile = p) {r : DerivRequest} {rest} (hq : s.keys.queue = r :: rest)
    {k : KeyUnit} (hk : k.queue = rest) :
    ∃ c, s.sites[r.site] = some c ∧ c.exch = none ∧ AtSite r.site p (s.setKeys k) := by
  obtain ⟨c, hc, hs, he⟩ := request_site h ((key_requests hq hk r.site).2.2.2 rfl)
  refine ⟨c, hc, he, h.dropAt hc hp rfl rfl (fun m => ?_) rfl (fun _ h => h) (fun _ _ _ _ h => h)⟩
  by_cases hm : m = r.site
  · subst hm
    rw [if_pos rfl]
    have h1 := (key_requests hq hk r.site).1
    have h2 := h.lenReq r.site
    rw [if_pos rfl] at h1
    exact List.eq_nil_of_length_eq_zero (by omega)
  · rw [if_neg hm]; exact (key_requests hq hk m).2.2.1 hm

theorem KeptBut.keys (h : KeptBut x p s) (k : KeyUnit) (hk : k.queue = s.keys.queue) : KeptBut x p (s.setKeys k) :=
    h.same rfl rfl rfl rfl hk rfl rfl rfl

theorem refuseHead_keeps (h : Kept p s) (hp : s.profile = p) {r : DerivRequest} {rest} (hq : s.keys.queue = r :: rest)
    (res) : Kept p (s.refuseHead r res) := by
  unfold State.refuseHead; dsimp only
  obtain ⟨c, hc, he, hat⟩ := keys_atSite h hp hq (k := { s.keys with queue := s.keys.queue.tail }) (by simp [hq])
  rw [show (s.setKeys { s.keys with queue := s.keys.queue.tail }).sites[r.site] = some c from hc]
  dsimp only
  exact (hat.giveBack c).finish (c := { c with placeHeld := false }) (h.bk (c := c) hc) _ _

/-- Each event of the key unit keeps the order (R88 to R104). -/
theorem keyUnit_keeps (h : Kept p s) (hp : s.profile = p) : (∀ t, execKeyImportComplete s = .next t → Kept p t) ∧
    (∀ t, execDerivationQueueServe s = .next t → Kept p t) ∧
    (∀ t, execReservationSuccess s = .next t → Kept p t) ∧ (∀ b t, execReservationFailure b s = .next t → Kept p t) ∧
      (∀ t, execDerivationComplete s = .next t → Kept p t) := by
  refine ⟨fun t ht => ?_, fun t ht => ?_, fun t ht => ?_, fun b t ht => ?_, fun t ht => ?_⟩
  · unfold execKeyImportComplete at ht; cases ht
    split
    · rename_i st hst
      have hk : (s.keys.import st).queue = s.keys.queue := by unfold KeyUnit.import; dsimp only; split <;> rfl
      have h' := h.keys _ hk
      unfold State.loadKeysDone
      split
      · rename_i b hb
        split
        · rename_i hw
          have hn := h'.noneOf' hb (fun es r hh e => by rw [hw] at e; cases e)
          exact blockDone_keeps b _ (h'.clear hn) (h'.arr hb)
        · exact h'
      · exact h'
    · exact h
  · unfold execDerivationQueueServe at ht; cases ht
    refine settleTouchdown_keeps ?_
    unfold State.serveQueue
    split
    · rename_i r rest hd hq
      split
      · exact h
      · unfold State.serveHead
        split
        · exact refuseHead_keeps h hp hq _
        · split
          · exact refuseHead_keeps h hp hq _
          · exact refuseHead_keeps h hp hq _
          · exact h
          · split
            · exact h.keys _ rfl
            · unfold State.reserveFor
              split
              · exact h.keys _ rfl
              · have h2 : Kept p (s.setKeys { s.keys with alloc := .exhausted }) := h.keys _ rfl
                exact refuseHead_keeps h2 hp hq _
    · exact h
  · unfold execReservationSuccess at ht; cases ht
    split
    · refine h.keys _ ?_; split <;> rfl
    · exact h
  · unfold execReservationFailure at ht; cases ht
    split
    · dsimp only; split
      · exact h.keys _ rfl
      · exact h.same rfl rfl rfl rfl rfl rfl rfl rfl
    · exact h
  · unfold execDerivationComplete at ht; cases ht
    split
    · rename_i d r rest hd hq
      obtain ⟨c, hc, he, hat⟩ := keys_atSite h hp hq (k := s.keys.derived) (by simp [KeyUnit.derived, hq])
      dsimp only
      rw [show ((s.setKeys s.keys.derived).bump .keysIssued).sites[r.site] = some c from hc]
      dsimp only
      unfold State.takeDerivation; dsimp only
      refine KeptBut.recordQuiet ?_ fun _ => ?_
      · refine KeptBut.queueQuiet ?_ fun _ => rfl
        refine (hat.bump .keysIssued).idle ?_ ?_
        · exact he
        · exact h.bk (c := c) hc
      · rfl
    · exact h

/-! ### Escrow -/
theorem esc_requests {r : RecordRequest} {rest} (hq : s.escrow.queue = r :: rest) {t : State} (h1 : t.dies = s.dies)
    (h2 : t.comp = s.comp) (h3 : t.keys = s.keys)
    (h4 : t.waiting = s.waiting) (h5 : t.chans = s.chans) (h7 : t.escrow.queue = rest) (m : Site) :
    (s.requests m).length = (t.requests m).length + (r.task m).toList.length ∧ (t.requests m).Sublist (s.requests m) ∧
    (r.task m = none → t.requests m = s.requests m) ∧ (∀ k, r.task m = some k → k ∈ s.requests m) := by
  simp only [State.requests, h1, h2, h3, h4, h5, h7, hq, List.filterMap_cons]
  cases r.task m with
  | none => simp
  | some k => simp; omega

theorem closeWritten_keeps (h : AtSite n p s) (hg : Kept p s) (hc : s.sites[n] = some c) (he : c.exch = none)
    (hb : c.burnKept p) (o) : Kept p (s.closeWritten n o) := by
  unfold State.closeWritten; rw [hc]; dsimp only
  split
  · rename_i hh
    have hset := h.set { c.eraseKey with closeWritten := true }
    split
    · exact (hset.bump _).but.table (k := .settle) (setSite_same s n _) (fun m => settle_task _ m _ _) he
        (by simp [Task.states, SiteCtx.eraseKey, hh.1]) hb
    · exact hset.but.table (k := .settle) (setSite_same s n _) (fun m => settle_task _ m _ _) he
        (by simp [Task.states, SiteCtx.eraseKey, hh.1]) hb
  · exact hg

theorem issueWritten_keeps (h : Kept p s) (hp : s.profile = p) : Kept p (s.issueWritten n) := by
  unfold State.issueWritten
  split
  · rename_i c hc
    split
    · rename_i hs
      exact (h.at' hp hc (by rw [hs]; intro k; cases k <;> simp [Task.states])).begin _
    · exact h.touch hc rfl rfl rfl
  · exact h

theorem closingContext_mem {l : List ParkedContext} {d q} (h : closingContext l d = some q) : q ∈ l ∧
    q.status ≠ .held := by
  unfold closingContext at h
  refine ⟨List.mem_of_find?_eq_some h, ?_⟩
  have := List.find?_some h; simp [ParkedContext.isHeld] at this; exact this.1

theorem erase_evict {l : List ParkedContext} {q : ParkedContext} (hq : q ∈ l) (m : Site) :
    (l.filterMap fun q => if q.status = .closing (some m) then some Task.eviction else none).length =
      ((removeContext l q).filterMap fun q => if q.status = .closing (some m) then some Task.eviction else none).length
        + (if q.status = .closing (some m) then 1 else 0) := by
  have hp := List.perm_cons_erase hq
  rw [(hp.filterMap _).length_eq, List.filterMap_cons, removeContext]
  split <;> simp_all

theorem closingWritten_keeps (h : Kept p s) (hp : s.profile = p) (r) :
    Kept p ((s.closingWritten r).1.settleReport (s.closingWritten r).2) := by
  unfold State.closingWritten
  split
  · rename_i q hq
    obtain ⟨hm, hst⟩ := closingContext_mem hq
    have hlen := erase_evict hm
    have hsub : Kept p (s.setDies { s.dies with parked := removeContext s.dies.parked q }) :=
      h.fewerParked _ rfl (fun q' hq' => h.parked q' (List.mem_of_mem_erase hq'))
        (fun m => evictions_sublist List.erase_sublist m)
    unfold State.takeBound
    split
    · rename_i n hqs
      split
      · rename_i c hc
        have hc' : s.sites[n] = some c := hc
        refine settleTouchdown_keeps (AtSite.park (AtSite.bump ?_ _) (h.bk hc'))
        refine ⟨h.drop rfl rfl (fun m => ?_) (fun q' hq' => h.parked q' (List.mem_of_mem_erase hq')) (fun _ h => h)
          (fun _ _ _ _ h => h), h.named n (by rw [hc']; rfl), hp⟩
        have hl := hlen m
        have hs1 := requests_parked s { s.dies with parked := removeContext s.dies.parked q } rfl m
          (evictions_sublist List.erase_sublist m)
        have hlen2 : (s.requests m).length = ((s.setDies
          { s.dies with parked := removeContext s.dies.parked q }).requests m).length +
          (if q.status = .closing (some m) then 1 else 0) := by
          simp only [State.requests, List.length_append, State.setDies_dies, State.setDies_comp, State.setDies_keys,
            State.setDies_waiting, State.setDies_chans, State.setDies_escrow] at *
          omega
        by_cases hmn : m = n
        · subst hmn; rw [if_pos rfl]; rw [if_pos hqs] at hlen2
          have := h.lenReq m
          exact List.eq_nil_of_length_eq_zero (by omega)
        · rw [if_neg hmn]
          rw [if_neg (by rw [hqs]; simp [Ne.symm hmn])] at hlen2
          exact hs1.eq_of_length (by omega)
      · exact settleTouchdown_keeps (hsub.bump _)
    · exact settleTouchdown_keeps (hsub.bump _)
  · exact settleTouchdown_keeps h

theorem summaryWritten_keeps (h : Kept p s) : Kept p s.summaryWritten := by
  unfold State.summaryWritten
  split
  · rename_i b hb
    split
    · rename_i hw
      have hn := h.noneOf' hb (fun es r hh e => by rw [hw] at e; cases e)
      have hf : NoSites p s.flush := (h.clear hn).same (by simp) (by simp) (by simp) (by simp) (by simp) (by simp)
        (by simp)
      exact blockDone_keeps b _ (hf.chain _) (by simpa using h.arr hb)
    · exact h
  · exact h

/-- The write of a record keeps the order (R166). -/
theorem writeRecord_keeps (h : Kept p s) (hp : s.profile = p) : Kept p s.writeRecord := by
  unfold State.writeRecord
  split
  · rename_i t r hw
    have hfacts : ∃ rest, s.escrow.queue = r :: rest ∧ t.escrow.queue = rest ∧ t.chain = s.chain ∧ t.sites = s.sites ∧
      t.dies = s.dies ∧ t.comp = s.comp ∧ t.keys = s.keys ∧ t.waiting = s.waiting ∧ t.chans = s.chans := by
      unfold State.writeHead at hw
      split at hw
      · rename_i page slot records r' rest hwr hq
        split at hw
        · simp only [Option.some.injEq, Prod.mk.injEq] at hw
          obtain ⟨rfl, rfl⟩ := hw
          exact ⟨rest, hq, rfl, rfl, rfl, rfl, rfl, rfl, rfl, rfl⟩
        · cases hw
      · cases hw
    obtain ⟨rest, hq, hq', f1, f2, f3, f4, f5, f6, f7⟩ := hfacts
    have hq'' : (t.setEscrow { t.escrow with flushPending := false }).escrow.queue = rest := hq'
    generalize hu : t.setEscrow { t.escrow with flushPending := false } = u at hq''
    have g1 : u.chain = s.chain := by rw [← hu]; exact f1
    have g2 : u.sites = s.sites := by rw [← hu]; exact f2
    have g3 : u.dies = s.dies := by rw [← hu]; exact f3
    have g4 : u.comp = s.comp := by rw [← hu]; exact f4
    have g5 : u.keys = s.keys := by rw [← hu]; exact f5
    have g6 : u.waiting = s.waiting := by rw [← hu]; exact f6
    have g7 : u.chans = s.chans := by rw [← hu]; exact f7
    have hreq := esc_requests hq g3 g4 g5 g6 g7 hq''
    have hgu : Kept p u := h.less g1 g2 (fun m => (hreq m).2.1) (g3 ▸ h.parked) (fun _ hh => g6 ▸ hh)
      (fun i _ _ _ hh => g7 ▸ hh)
    have hpu : u.profile = p := by rw [← hp]; simp only [State.profile, g1]
    have hrep : Kept p (u.reportWritten r) := by
      unfold State.reportWritten
      split
      · exact hgu
      · exact summaryWritten_keeps hgu
      · rename_i n hr
        simp only [State.requesterReport, hr, State.settleReport]
        refine settleTouchdown_keeps ?_
        unfold State.siteReport
        split
        · exact issueWritten_keeps hgu hpu
        · rename_i r' hrec
          have htask : ∀ m, r.task m = if m = n then some .close else none := fun m => by
            rw [← RecordRequest_close n m r', ← hr, ← hrec]
          obtain ⟨c, hc, hs, he⟩ := request_site h ((hreq n).2.2.2 .close (by rw [htask, if_pos rfl]))
          refine closeWritten_keeps (c := c) ?_ hgu (by rw [g2]; exact hc) he (h.bk hc) _
          refine h.dropAt hc hp g1 g2 (fun m => ?_) (by rw [g3]) (fun _ hh => g6 ▸ hh) (fun i _ _ _ hh => g7 ▸ hh)
          by_cases hm : m = n
          · subst hm; rw [if_pos rfl]
            have h1 := (hreq m).1; rw [htask, if_pos rfl] at h1; simp at h1
            have := h.lenReq m
            exact List.eq_nil_of_length_eq_zero (by omega)
          · rw [if_neg hm]; exact (hreq m).2.2.1 (by rw [htask, if_neg hm])
        · exact hgu
      · rename_i hr
        simp only [State.requesterReport, hr, State.tableReport]
        split
        · exact closingWritten_keeps hgu hpu _
        · exact settleTouchdown_keeps hgu
    have hfull : Kept p ((u.reportWritten r).handOverFull) := hrep.same (by simp) (by simp) (by simp) (by simp)
      (by simp) (by simp) (by simp) (by simp)
    unfold State.flushAfter
    split
    · exact hfull.same (by simp) (by simp) (by simp) (by simp) (by simp) (by simp) (by simp) (by simp)
    · exact hfull
  · exact h

/-! ### Resets and ticks -/
theorem goOffline_chan (s : State) (c j : Chan) : (s.goOffline c).chans[j] = if j =
    c then { s.chans[c] with state := .offline } else s.chans[j] := setChan_get s c j _

theorem resetChannel_not (r : BitVec 4) (s : State) (c j : Chan) :
    (∀ n w e, (s.resetChannel r c).chans[c].state ≠ .driving n w e) ∧
    ((∀ n w e, s.chans[j].state ≠ .driving n w e) → ∀ n w e, (s.resetChannel r c).chans[j].state ≠ .driving n w e) := by
  unfold State.resetChannel; dsimp only
  by_cases hg : r.getLsbD c.val = true
  · simp only [hg, if_true]
    refine ⟨fun n w e => by rw [setChan_get, if_pos rfl]; simp, fun h n w e => ?_⟩
    rw [setChan_get]
    by_cases hj : j = c
    · rw [if_pos hj]; simp
    · rw [if_neg hj]; exact h n w e
  · simp only [hg]
    refine ⟨fun n w e => ?_, fun h n w e => ?_⟩
    · simp only [if_neg (show ¬ (false = true) by simp)]; rw [goOffline_chan, if_pos rfl]; simp
    · simp only [if_neg (show ¬ (false = true) by simp)]; rw [goOffline_chan]
      by_cases hj : j = c
      · rw [if_pos hj]; simp
      · rw [if_neg hj, setChan_get, if_neg hj]; exact h n w e

theorem resetChannels_not (s : State) (r) : ∀ (i : Chan) n w e, (s.resetChannels r).chans[i].state ≠ .driving n w
    e := by
  have step : ∀ (l : List Chan) (t : State) (i : Chan), (i ∈ l ∨ ∀ n w e, t.chans[i].state ≠ .driving n w e) → ∀ n w e,
    (l.foldl (State.resetChannel r) t).chans[i].state ≠ .driving n w e := by
    intro l; induction l with
    | nil => intro t i h; exact h.elim (fun h => nomatch h) id
    | cons c l ih =>
      intro t i h
      refine ih _ i ?_
      obtain ⟨k1, k2⟩ := resetChannel_not r t c i
      rcases h with h | h
      · rcases List.mem_cons.1 h with rfl | h
        · exact .inr k1
        · exact .inl h
      · exact .inr (k2 h)
  intro i; exact step _ _ i (.inl (allChans_mem i))

/-- A board with no site, no request and no pulse is in order. -/
theorem reset_kept (hr : p.w0 ≤ p.wmax) {t : State} (h1 : ∀ n : Site, t.sites[n] = none) (h2 : t.dies = .reset)
    (h3 : t.comp = []) (h4 : t.keys.queue = [])
    (h5 : t.waiting = []) (h6 : ∀ (i : Chan) n w e, t.chans[i].state ≠ .driving n w e) (h7 : t.escrow = .reset)
      (h8 : t.chain.block = none) (h9 : t.chain.arrival = none) : Kept p t := by
  refine NoSites.kept ⟨hr, h1, fun n => ?_, ?_⟩ ?_ ?_
  · simp only [State.requests, h2, h3, h4, h5, h7, DieTableUnit.reset, EscrowWriter.reset, List.filterMap_nil,
      List.append_nil, List.nil_append]
    refine List.filterMap_eq_nil_iff.2 fun i _ => ?_
    have := h6 i
    revert this; generalize t.chans[i].state = q; intro hq; cases q <;> simp_all [ChannelState.task]
  · rw [h2]; intro q hq; exact (nomatch hq)
  · intro b es r hh hb; rw [h8] at hb; exact (nomatch hb)
  · intro hh; rw [h9] at hh; exact (nomatch hh)

/-- A reset leaves the board in order (R62, R86, R139). -/
theorem resetBoard_keeps (hr : p.w0 ≤ p.wmax) (s : State) (cause hw inp) : Kept p (s.resetBoard cause hw inp) := by
  unfold State.resetBoard; dsimp only
  refine reset_kept hr ?_ ?_ ?_ ?_ ?_ (resetChannels_not _ _) ?_ ?_ ?_
  · intro n; simp [State.leaveSites]
  · simp
  · simp
  · simp [KeyUnit.atReset]; split <;> rfl
  · have hfw : ∀ (l : List Chan) (u : State), (l.foldl (State.resetChannel inp.regulation) u).waiting = u.waiting := by
      intro l; induction l with
      | nil => intro u; rfl
      | cons c l ih => intro u; rw [List.foldl_cons, ih]; unfold State.resetChannel; dsimp only; split <;> rfl
    unfold State.resetChannels; rw [hfw]; rfl
  · simp [State.resetEscrow]
  · simp [ChainUnit.atReset, ChainUnit.reset]
  · simp [ChainUnit.atReset, ChainUnit.reset]

/-- An idle step, whatever runs out in it, keeps the order (log 1). -/
theorem tick_keeps (h : Kept p s) : Kept p s.tick := by
  unfold State.tick
  have hrun : Kept p s.runTimers := by
    have hs : ∀ m : Site, s.runTimers.sites[m] = s.sites[m].map (SiteCtx.tick s.profile) := fun m => by
      show (Vector.ofFn _)[m] = _; simp
    have htk : ∀ c : SiteCtx, (c.tick s.profile).state = c.state ∧ (c.tick s.profile).exch = c.exch ∧
      (c.tick s.profile).burn = c.burn := fun c => by
      unfold SiteCtx.tick; split <;> (try split) <;> exact ⟨rfl, rfl, rfl⟩
    have hch : ∀ i : Chan, s.runTimers.chans[i] = s.chans[i].tick := fun i => by
      show (Vector.ofFn _)[i] = _; simp
    have hct : ∀ (ch : Channel) m, ch.tick.state.task m = ch.state.task m := fun ch m => by
      unfold Channel.tick; split <;> simp_all [ChannelState.task]
    have hq : ∀ m, s.runTimers.requests m = s.requests m := fun m => by
      have e1 : (s.runTimers.waiting.filterMap fun r => if r.site = m then some Task.grant else none) =
        s.waiting.filterMap fun r => if r.site = m then some Task.grant else none := by
        show ((s.waiting.map (GrantRequest.tick s.profile)).filterMap _) = _
        rw [List.filterMap_map]; rfl
      have e2 : (allChans.filterMap fun c : Chan => (s.runTimers.chans[c]).state.task m) = allChans.filterMap fun c :
        Chan => (s.chans[c]).state.task m := by
        refine List.filterMap_congr fun i _ => ?_
        rw [hch, hct]
      have f1 : s.runTimers.dies = s.dies := by simp
      have f2 : s.runTimers.comp = s.comp := by simp
      have f3 : s.runTimers.keys = s.keys := by simp
      have f4 : s.runTimers.escrow = s.escrow := by simp
      simp only [State.requests, e1, e2, f1, f2, f3, f4]
    have ht : ∀ m, s.runTimers.tasks m = s.tasks m := fun m => by
      rw [tasks_eq, tasks_eq, hq, hs]
      cases hc : s.sites[m] with
      | none => rfl
      | some c => simp [(htk c).2.1]
    have hpf : ∀ m w, s.pulseFits p m w → s.runTimers.pulseFits p m w := fun m w hf c b hc hb => by
      rw [hs] at hc
      obtain ⟨d, hd, rfl⟩ := Option.map_eq_some_iff.1 hc
      exact hf d b hd ((htk d).2.2.symm.trans hb)
    have hcc : s.runTimers.chain = s.chain := by simp
    have hdd : s.runTimers.dies = s.dies := by simp
    refine ⟨h.range, by rw [hcc]; exact h.unstarted, by rw [hcc]; exact h.leftOver, fun m hm => ?_,
      fun _ hf => hf.elim, fun m _ => by rw [ht]; exact h.one m id, fun m k _ hk => ?_, fun m c b _ hc hb =>
      ?_, by rw [hdd]; exact h.parked, fun m c b e _ hc hb he => ?_, fun r hr => ?_, fun i m w e hd => ?_⟩
    · rw [hs] at hm
      have := h.named m (by simpa using hm)
      rw [hcc]
      exact ⟨this.1, (State.inTouchdown_congr hcc).2 this.2⟩
    · rw [ht] at hk; obtain ⟨c, hc, hst⟩ := h.fits m k id hk
      exact ⟨_, by rw [hs, hc]; rfl, by rw [(htk c).1]; exact hst⟩
    · rw [hs] at hc; obtain ⟨d, hd, rfl⟩ := Option.map_eq_some_iff.1 hc
      exact h.kept m d b id hd ((htk d).2.2.symm.trans hb)
    · rw [hs] at hc; obtain ⟨d, hd, rfl⟩ := Option.map_eq_some_iff.1 hc
      exact h.armed m d b e id hd ((htk d).2.2.symm.trans hb) ((htk d).2.1.symm.trans he)
    · have : r ∈ s.waiting.map (GrantRequest.tick s.profile) := hr
      obtain ⟨r', hr', rfl⟩ := List.mem_map.1 this
      exact hpf _ _ (h.waiting r' hr')
    · rw [hch] at hd
      unfold Channel.tick at hd
      split at hd
      · cases hd
      · rename_i hd'; simp only [ChannelState.driving.injEq] at hd; obtain ⟨rfl, rfl, rfl⟩ := hd
        exact hpf _ _ (h.driving i _ _ _ hd')
      · rename_i hd'; rw [hd'] at hd; cases hd
      · rename_i hd'; rw [hd'] at hd; cases hd
  unfold State.resumeArrival
  split
  · rename_i o ho
    obtain ⟨hr, hb⟩ := hrun.leftOver (by rw [ho]; rfl)
    have hn : ∀ n : Site, s.runTimers.sites[n] = none := fun n => by
      cases hc : s.runTimers.sites[n] with
      | none => rfl
      | some c =>
        obtain ⟨b', es, rel, hal, h1, -⟩ := (hrun.named n (by rw [hc]; rfl)).2
        rw [hb] at h1; exact (nomatch h1)
    exact arriveAt_keeps _ ((hrun.clear hn).chain _) rfl (fun b es r hh hb' => by
      change s.runTimers.chain.block = some b at hb'; rw [hb] at hb'; exact (nomatch hb'))
  · exact hrun

end Sys2Proof.Machine
end

