-- ==== Sys2Proof/Laws/Writes.lean ====
section
/-! SUPPORT. The escrow writer's shared operations, each said once: the opening of a page, a NUDGE of the writer, and the
write of a record with room to spare, and what its requester does on its report (R133, R163, R164, R166). -/

namespace Sys2Proof.Machine

/-! ### Pages (R163, R164) -/

/-- A NUDGE does nothing to a writer that is idle or has a page open (R164). -/
theorem nudgeWriter_id {s : State} (h : s.escrow.writer = .idle ∨ ∃ p l r, s.escrow.writer = .opened p l r) :
    s.nudgeWriter = s := by
  unfold State.nudgeWriter
  rcases h with h | ⟨p, l, r, h⟩ <;> simp [h]

/-- A stalled writer that finds its page no better stays as it is (R164). -/
theorem openPage_stall_id {s : State} {next source} (hw : s.escrow.writer = .stalled source)
    (h : validPage next = false ∨ s.mem.read32 next ≠ ownerEngine) : s.openPage next source false = s := by
  unfold State.openPage
  rw [if_neg (by rcases h with h | h <;> simp [h])]
  simp only [State.stallWriter, State.setWriter, ← hw]
  cases s
  rfl

/-- A valid page owned by the engine is opened: its sequence number and record count are written (R163). -/
theorem openPage_open {s : State} {next source e} (h1 : validPage next = true)
    (h2 : s.mem.read32 next = ownerEngine) :
    (s.openPage next source e).escrow = { s.escrow with writer := .opened next 0 0 } ∧
      bytesBut (next + 4) 8 s (s.openPage next source e) ∧ sameBut [.mem, .escrow] s (s.openPage next source e) := by
  unfold State.openPage
  rw [if_pos ⟨h1, h2⟩]
  refine ⟨by simp [State.setWriter, State.storeField], fun x hx => ?_, fun p hp => ?_⟩
  · simp only [State.setWriter, State.setEscrow_mem, State.storeField, State.setMem_mem]
    rw [Memory.read_writeField_out (by omega), Memory.read_writeField_out (by omega)]
  · cases p <;> simp_all [Part.same, State.setWriter, State.storeField]

/-- A NUDGE of a stalled writer reads its anchor or link again and tries that page (R164). -/
theorem nudgeWriter_stalled {s : State} {source next} (hw : s.escrow.writer = .stalled source)
    (h : (source = .anchor ∧ next = s.mem.read32 12) ∨ (∃ page, source = .link page ∧ next = s.mem.read32 (page + 12))) :
    s.nudgeWriter = s.openPage next source false := by
  unfold State.nudgeWriter
  rcases h with ⟨rfl, rfl⟩ | ⟨p, rfl, rfl⟩ <;> simp [hw]

/-! ### A NUDGE that takes a block (R150, R164) -/

/-- The taking of a block leaves the writer's page alone. -/
theorem takeBlock_writer (s : State) (o : Nat) : (s.takeBlock o).1.escrow.writer = s.escrow.writer := by
  have := State.startEntries_frame
  have h1 := State.openWafer_frame
  unfold State.takeBlock
  simp only
  split <;> simp only [State.takeLoadKeys, State.takeWaferStart, State.takeTouchdown, State.takeWaferEnd,
    State.takeStats, State.takeDump] <;> (repeat' split) <;>
    simp [State.holdBlock, State.queueTable, State.openWafer, State.queueRecord, State.store, State.leaveSites]

/-- Where the writer takes a NUDGE without effect, what was said of the block taken stands when the writer takes it last. -/
theorem takesReady_nudge {s : State} {o} {f : State → State} {v : State} (h : takesReady s o (.next v))
    (hid : ∀ x : State, x.escrow.writer = s.escrow.writer → f x = x) : takesReady s o (.next (f v)) := by
  have key : v.escrow.writer = s.escrow.writer → f v = v := hid v
  refine ⟨fun t ht => ?_, fun t r tag ht hw => ?_, fun t r tag ht hw hq => ?_, fun t r tag ht hw => ?_,
    fun t r tag ht hw => ?_⟩
  · have := h.inHand t ht; cases this
    rw [key]; rw [← takeBlock_writer s o, ht]
  · obtain ⟨x, hx, h1, h2, h3⟩ := h.waits t r tag ht hw
    cases hx
    have e : v.escrow = t.escrow := h3 .escrow (by simp)
    have : (s.takeBlock o).1 = t := by rw [ht]
    exact ⟨v, by rw [key]; rw [e, ← this]; exact takeBlock_writer s o, h1, h2, h3⟩
  · obtain ⟨x, hx, h1, h2, h3, h4⟩ := h.flushes t r tag ht hw hq
    cases hx
    have : (s.takeBlock o).1 = t := by rw [ht]
    exact ⟨v, by rw [key]; rw [h3, ← this]; exact takeBlock_writer s o, h1, h2, h3, h4⟩
  · obtain ⟨x, hx, h1⟩ := h.faults t r tag ht hw
    cases hx
    have e : v.escrow = t.escrow := h1.frame .escrow (by simp)
    have : (s.takeBlock o).1 = t := by rw [ht]
    exact ⟨v, by rw [key]; rw [e, ← this]; exact takeBlock_writer s o, h1⟩
  · obtain ⟨w, h1, h2⟩ := h.follows t r tag ht hw
    refine ⟨w, h1, fun x hx => ?_⟩
    have := h2 x hx; cases this
    have e : w.escrow = t.escrow := h1.frame .escrow (by simp)
    have e2 : (s.takeBlock o).1 = t := by rw [ht]
    have e3 : (w.takeBlock (t.linkOf o)).1 = v := by rw [hx]
    rw [key]; rw [← e3, takeBlock_writer, e, ← e2, takeBlock_writer]

/-! ### The write of a record (R166) -/

/-- The head of the write queue is written with room to spare: what stands then, before its report. -/
theorem exec_recordWrite {s : State} {page slot records : Nat} {r : RecordRequest} {rest : List RecordRequest}
    (h : s.writesRecord page slot records r rest) :
    ∃ u, recordStands s u page slot records r rest ∧ sameBut [.mem, .escrow] s u ∧ u.mem.wf = true ∧
      exec .escrowRecordWrite s = .next (u.reportWritten r).handOverFull := by
  have hroom := h.room
  have hin := h.inside
  have hc := h.count
  have hlen := EscrowRecord.bytes_length r.record s.counters
  let m := s.mem.writeBytes (slotOffset page slot) (r.record.bytes s.counters)
  let t := (s.store (slotOffset page slot) (r.record.bytes s.counters)).storeField (page + 8) 4 (records + 1)
  let e : EscrowWriter := { t.escrow with writer := .opened page (slot + r.record.slots) (records + 1), queue := rest }
  let u := t.setEscrow { e with flushPending := false }
  have hw1 : m.wf = true := Memory.wf_writeBytes h.memory _ _
  refine ⟨u, ⟨?_, ?_, fun a h1 h2 => ?_, ?_⟩, fun p hp => ?_, Memory.wf_writeField hw1 _ _ _, ?_⟩
  · show (m.writeField (page + 8) 4 (records + 1)).readBytes _ _ = _
    rw [Memory.readBytes_congr (m := m) (fun x h1 h2 => Memory.read_writeField_out (by omega)), ← hlen]
    exact Memory.readBytes_writeBytes h.memory (by rw [hlen]; simp only [slotOffset]; omega)
  · show (m.writeField (page + 8) 4 (records + 1)).read32 _ = _
    have := Memory.read_writeField (m := m) (a := page + 8) (n := 4) (v := records + 1) hw1 (by omega)
    exact this.trans (Nat.mod_eq_of_lt (by simp only [counterMax] at hc; omega))
  · show (m.writeField (page + 8) 4 (records + 1)).read a = _
    rw [Memory.read_writeField_out (by omega), Memory.read_writeBytes_out (by rw [hlen]; simp only [slotOffset]; omega)]
  · simp [u, e, t, State.storeField, State.store, h.noFlush]
  · cases p <;> simp_all [Part.same, u, e, t, State.storeField, State.store]
  · have hmk : s.makeRoom = s := by
      simp only [State.makeRoom, h.writer, h.queue]
      rw [if_pos (by omega)]
    have hwh : s.writeHead = some (t.setEscrow e, r) := by
      simp only [State.writeHead, h.writer, h.queue]
      rw [if_pos (by omega)]
    simp only [exec, execEscrowRecordWrite, hmk, State.writeRecord, hwh, h.noFlush, State.flushAfter]
    rfl

/-- A requester's acts on its report leave the writer as it is, but for its queue (R166 step 4). -/
theorem requesterReport_writer (s : State) (r : RecordRequest) :
    (s.requesterReport r).1.escrow.writer = s.escrow.writer ∧ (s.requesterReport r).1.escrow.seq = s.escrow.seq := by
  have hb : ∀ n c, (s.beginBurn n c).escrow = s.escrow := fun n c => by
    simp [State.beginBurn, State.burnStep, BurnState.begin, CurRow.stageState, BurnState.curState, State.sendRowCheck,
      State.send]
  unfold State.requesterReport
  split
  · cases r.record <;> simp only [State.siteReport, State.issueWritten] <;> (repeat' split) <;> simp [hb]
  · simp
  · simp
  · simp

/-- A requester's acts on its report leave job memory alone, unless a park was bound to the context closed (R133). -/
theorem requesterReport_mem {s : State} {r : RecordRequest}
    (h : r.report = .dieTable → ∀ x, r.record = .close x → ∀ q ∈ s.dies.parked, q.die = x.die →
      ∀ n, q.status ≠ .closing (some n)) : (s.requesterReport r).1.mem = s.mem := by
  unfold State.requesterReport
  split
  · simp
  · rename_i hr
    unfold State.tableReport
    split
    · rename_i x hx
      unfold State.closingWritten
      split
      · rename_i q hq
        have hd : q.die = x.die := by
          have := List.find?_some hq
          simp only [Bool.and_eq_true, decide_eq_true_eq] at this
          exact this.2
        unfold State.takeBound
        split
        · rename_i n hn
          exact absurd hn (h hr x hx q (List.mem_of_find?_eq_some hq) hd n)
        · simp
      · rfl
    · rfl
  · rfl
  · rfl

/-- The CLOSE of a context bound to a park writes that park's entry and nothing else of job memory (R133 step 4, R77). -/
theorem requesterReport_bound {s : State} {r : CloseRecord} {p : ParkedContext} {n : Site} {c : SiteCtx} {b : Block}
    (hp : (s.dies.parked.filter fun q => !q.isHeld && decide (q.die = r.die)) = [p]) (hst : p.status = .closing (some n))
    (hc : s.sites[n] = some c) (hb : s.chain.block = some b) :
    (s.requesterReport { record := .close r, report := .dieTable }).1.mem =
      s.mem.writeBytes (b.offset + 80 + 48 * c.index + 10) (entryBytes c c.stop.parkResult none) := by
  have hq : closingContext s.dies.parked r.die = some p := by
    unfold closingContext
    rw [← List.head?_filter, hp]
    rfl
  simp only [State.requesterReport, State.tableReport, State.closingWritten, hq, State.takeBound, hst]
  rw [show ((s.setDies { s.dies with parked := removeContext s.dies.parked p }).bump .diesVoided).sites[n] = some c
    from hc]
  simp [State.joinPark, State.enterFinal, State.entryOffset, hb, State.store]

/-- A page with a slot free is not handed over (R167). -/
theorem handOverFull_id {s : State} {page slot records : Nat} (h : s.escrow.writer = .opened page slot records)
    (hs : slot ≤ 15) : s.handOverFull = s := by
  unfold State.handOverFull
  split
  · rename_i h'
    rw [h] at h'
    cases h'
    omega
  · rfl

/-- A record stands whatever happens apart from memory and the writer. -/
theorem recordStands.of {s u t : State} {page slot records : Nat} {r rest}
    (h : recordStands s u page slot records r rest) (hm : t.mem = u.mem) (he : t.escrow = u.escrow) :
    recordStands s t page slot records r rest :=
  ⟨by rw [hm]; exact h.bytes, by rw [hm]; exact h.count, by rw [hm]; exact h.memory, by rw [he]; exact h.escrow⟩

/-- What a site does after other parts changed, from before those. -/
theorem siteMoves.after {s u t : State} {n : Site} {x} {ps qs : List Part} (h : sameBut qs s u) (hs : Part.sites ∉ qs)
    (m : siteMoves u t n x ps) : siteMoves s t n x (qs ++ ps) := by
  have h0 : u.sites = s.sites := h .sites hs
  refine ⟨m.here, fun k hk => by rw [m.others k hk, h0], ?_⟩
  exact (h.mono (by simp)).trans (m.frame.mono (by simp))

end Sys2Proof.Machine
end

