-- ==== Sys2Proof/Tests/Slice0.lean ====
section
/-! SUPPORT. Tests: the worked examples of the spec, the checks of WellFormed, and for each obligation with hypotheses a
concrete state that meets them. Expected results stand in the spec; each test names the place. -/

namespace Sys2Proof.Tests

open Sys2Proof.Machine

/-! ### WellFormed: ill-formed terms refused -/

def quiet : ResetInputs := { contact := false, regulation := 15, record := .abandoned 0, dumpWords := 0 }

theorem test_wf_reset_accepts :
    (Instr.engineReset { quiet with record := .abandoned 32, dumpWords := 33024 }).wellFormed = true ∧
      (Instr.linkReset { quiet with record := .counted }).wellFormed = true := by decide
theorem test_wf_record : (Instr.engineReset { quiet with record := .abandoned 33 }).wellFormed = false := by decide
theorem test_wf_dumpWords : (Instr.linkReset { quiet with dumpWords := 33025 }).wellFormed = false := by decide
theorem test_wf_power : (Instr.powerOnReset { quiet with record := .abandoned 33 } true).wellFormed = false := by decide
theorem test_wf_write_accepts : (Instr.otherRegisterWrite 0x7FFFFF 1 0).wellFormed = true := by decide
theorem test_wf_write_below : (Instr.otherRegisterWrite 0x3FFFFF 1 0).wellFormed = false := by decide
theorem test_wf_write_above : (Instr.otherRegisterWrite 0x7FFFFE 4 0).wellFormed = false := by decide
theorem test_wf_write_empty : (Instr.otherRegisterWrite 0x400014 0 0).wellFormed = false := by decide
theorem test_wf_write_wide : (Instr.otherRegisterWrite 0x400014 5 0).wellFormed = false := by decide
theorem test_wf_write_command : (Instr.otherRegisterWrite 0x400000 4 4).wellFormed = false := by decide
theorem test_wf_write_events : (Instr.otherRegisterWrite 0x400008 4 0).wellFormed = false := by decide
theorem test_wf_write_unknown_code : (Instr.otherRegisterWrite 0x400000 4 5).wellFormed = true := by decide

/-- The rows of the table carry no bits. -/
theorem test_no_word : decodeTableWord 32 1 = none := rfl

/-- 10, R176: an 8-bit write of CONTROL gives no command, a full one of code 3 is RELEASE. -/
theorem test_write_narrow : commandOfWrite 0x400000 1 3 quiet true = .otherRegisterWrite 0x400000 1 3 := by decide
theorem test_write_release : commandOfWrite 0x400000 4 3 quiet true = .release := by decide

/-! ### Helpers -/

/-- The burn parameters of section 2.3 with the geometry and windows of the worked example of section 1.6. -/
def prof : Profile where
  w0 := 40
  wmax := 200
  cmax := 1000
  tb := 200
  tu := 600
  grantLimit := 100
  growth := 4
  pmax := 6
  settleDelay := 5
  frameTimeout := 50
  frameRetries := 2
  spareCount := 4
  recordBase := 16
  spareBase := 40
  remapBase := 30
  lockRow := 32
  windows := [⟨0, 16, .readOnly⟩, ⟨0, 64, .program⟩, ⟨64, 64, .none⟩, ⟨96, 32, .program⟩]

/-- The character table of section 6.1. -/
def table64 : List Byte :=
  (List.range 10).map (BitVec.ofNat 8 <| 48 + ·) ++ (List.range 26).map (BitVec.ofNat 8 <| 65 + ·) ++
    (List.range 26).map (BitVec.ofNat 8 <| 97 + ·) ++ [0x2D, 0x20]

/-- The wafer of section 6.5. -/
def wafer7 : WaferContext where
  profile := prof
  lot := [0x51, 0x54, 0x34, 0x34, 0x31, 0x30]
  number := 7
  pad := 0x2D
  table := table64
  steps := [.lot 6, .num .wafer 2, .lit 0x58, .num .x 3, .lit 0x59, .num .y 3]
  dry := false

def req7 : CompRequest := { site := 0, lot := wafer7.lot, number := 7, die := ⟨102, 9⟩ }

/-- The wafer of section 6.6 with the width of its NUM SITE. -/
def wafer12 (w : Nat) : WaferContext where
  profile := prof
  lot := [0x41, 0x42, 0x2D, 0x37]
  number := 12
  pad := 0x2D
  table := table64
  steps := [.skip 3, .lot 2, .lit 0x2D, .supp 0x20, .num .x 4, .num .y 4, .num .site w]
  dry := false

def req12 (n : Site) : CompRequest := { site := n, lot := (wafer12 2).lot, number := 12, die := ⟨5, 1000⟩ }

/-! ### Worked examples of chapters 1, 2, 5 and 6 -/

/-- R13: the frame of a ROW_CHECK of row 261 with Tb 200 and Tu 600 ends in check byte 0xD6. -/
theorem test_frame_check :
    ({ cmd := .rowCheck, row := 261, bit := 0, arg := prof.thresholds, resends := 0 } : Exchange).frame =
      [0x02, 0x01, 0x05, 0x00, 0x02, 0x58, 0x00, 0xC8, 0xD6] := by decide

/-- Section 1.3: rows 0 and 8 of the record of key 3C 01 00 FF .., C 225, serial 0x12_3456_789A. -/
theorem test_record_targets :
    let k : Key := BitVec.ofNat 256 (0x3C0100FF * 2 ^ 224)
    (recordTargets k 225 0x123456789A [])[0] = 0x3C0100FF ∧ (recordTargets k 225 0x123456789A [])[8] = 0x00E1789A := by
  decide

/-- Section 1.4: the remap rows of (3, 0), (3, 1), (10, 2). -/
theorem test_remap_targets :
    remapTarget [(3, 0), (3, 1), (10, 2)] 0 = 0x9899D200 ∧ remapTarget [(3, 0), (3, 1), (10, 2)] 1 = 0 := by decide

/-- Section 1.6: rows 5, 20, 100 and 200, the geometry test at R = 32 and 64, the window of base 80 and size 32. -/
theorem test_windows :
    [5, 20, 100, 200].map (rowAccess prof.windows) = [.readOnly, .program, .none, .none] ∧
      prof.windowTest = true ∧ prof.geometryTest 32 = false ∧ prof.geometryTest 64 = true ∧
      (⟨80, 32, .program⟩ : Window).accepted = false := by decide

/-- Section 2.3: the widths of one bit from W0 40 with G 4 and Wmax 200, and 2, 3, 4, 6, 9, 13 from W0 2. -/
theorem test_widths :
    [40, 60, 90, 135, 200].map (grownWidth prof) = [60, 90, 135, 200, 200] ∧
      [2, 3, 4, 6, 9].map (grownWidth { prof with wmax := 4095 }) = [3, 4, 6, 9, 13] := by decide

/-- Section 2.7: lock bit 0 at S_row 825 is pulsed with 40 and then with 60; two of three blown bits lock. -/
theorem test_lock :
    ({ BurnState.begin prof with cur := .lock, rowStress := 825 }).pulseWidth prof = 40 ∧
      ({ BurnState.begin prof with cur := .lock, rowStress := 865, width := 60 }).pulseWidth prof = 60 ∧
      lockBlown 5 = true ∧ lockBlown 4 = false := by decide

/-- Section 2.9: the check words 225, 672, 1904 and 0. -/
theorem test_check_words :
    checkWord (BitVec.ofNat 256 (2 ^ 240 + 65535)) = 225 ∧ checkWord dryRunKey = 672 ∧
      checkWord (BitVec.allOnes 256) = 1904 ∧ checkWord 0 = 0 := by decide

/-- The answer of a composition: its characters and codes, or its error. -/
def answer (w : WaferContext) (r : CompRequest) : Option (List Byte × List Nat) × Option ComposeError :=
  match compose w r with
  | .ok i => (some (i.chars, i.codes), none)
  | .error e => (none, some e)

/-- The codes of die (102, 9) of section 6.5. -/
def codes7 : List Nat := [26, 29, 4, 4, 1, 0, 0, 7, 33, 1, 0, 2, 34, 0, 0, 9]

/-- Section 6.5: QT441007X102Y009, its codes and its three targets. -/
theorem test_compose_7 :
    (answer wafer7 req7).1 = some ([0x51, 0x54, 0x34, 0x34, 0x31, 0x30, 0x30, 0x37, 0x58, 0x31, 0x30, 0x32, 0x59,
      0x30, 0x30, 0x39], codes7) := by decide
theorem test_identity_rows :
    (recordTargets 0 0 0 codes7)[9] = 0x69D10404 ∧ (recordTargets 0 0 0 codes7)[10] = 0x00078410 ∧
      (recordTargets 0 0 0 codes7)[11] = 0x02880009 := by decide

/-- Section 6.6: site 17 at die (5, 1000) gives "7--   5100017---"; with NUM SITE 1 it overflows; a pad that is not in the
table, and LOT 12, NUM WAFER 4, LIT '-', fail. -/
theorem test_compose_12 :
    (answer (wafer12 2) (req12 17)).1.map Prod.snd = some [7, 62, 62, 63, 63, 63, 5, 1, 0, 0, 0, 1, 7, 62, 62, 62] ∧
      (answer (wafer12 1) (req12 17)).2 = some .overflow ∧ (answer (wafer12 1) (req12 4)).2 = none ∧
      (answer { wafer12 2 with pad := 0x2E } (req12 17)).2 = some .badChar ∧
      (answer { wafer12 2 with steps := [.lot 12, .num .wafer 4, .lit 0x2D] } (req12 17)).2 = some .overflow := by decide

/-! ### Boards for the witnesses -/

/-- The state after a command. -/
def after (c : Instr) (s : State) : State :=
  match exec c s with
  | .next t => t
  | _ => s

/-- Bytes at an offset, 0 left out. -/
def bytesAt (a : Nat) (bs : List Byte) : Memory :=
  (bs.zipIdx a).filterMap fun p => if p.1 = 0 then none else some (p.2, p.1)

def e0 : SiteEntry := { site := 0, action := .provision, lanes := .auto, arb := 63, die := ⟨102, 9⟩, expected := 0 }
def e1 : SiteEntry := { site := 1, action := .verify, lanes := .normal, arb := 0, die := ⟨40, 9⟩, expected := 225 }

/-- A block at 0x1000 without HALT_ON_ERROR. -/
def blk (w : Work) : Block := { offset := 0x1000, notify := true, haltOnError := false, work := w }

/-- The chain unit with that block in hand, at the last tag before the wrap, and wafer 7 open. -/
def chainOf (w : Work) : ChainUnit :=
  { ChainUnit.reset with
    state := .running, expected := some 65535, offset := some 0x1000, block := some (blk w), wafer := some wafer7 }

def touching : Work := .touchdown [e0, e1] true false false

/-- A started touchdown of two entries: site 0 has a context, site 1 runs. -/
def board (c : SiteCtx) : State :=
  { State.reset with
    chain := chainOf touching, contact := true
    sites := ((Vector.replicate 24 none).set 0 (some c)).set 1 (some { e1.context 1 with state := .reading }) }

/-- The board in a dry run. -/
def dryBoard (c : SiteCtx) : State :=
  { board c with chain := { chainOf touching with wafer := some { wafer7 with dry := true } } }

theorem at0 (c : SiteCtx) : (board c).sites[(0 : Site)] = some c := by simp [board]

theorem touch {s : State} (h : s.chain.block = some (blk touching)) : s.inTouchdown 0 :=
  ⟨_, _, _, _, h, rfl, e0, by simp, rfl⟩

theorem others {s : State} (h : s.chain.block = some (blk touching)) (h1 : s.isFinal 1 = false) : s.othersRun 0 :=
  ⟨1, by decide, ⟨_, _, _, _, h, rfl, e1, by simp, rfl⟩, h1⟩

theorem calm {s : State} {w : Work} (h : s.chain.block = some (blk w)) : s.noHalt := by
  intro b hb; rw [h] at hb; cases hb; exact .inl rfl

/-- A block in hand whose link, 0x1400, is not ready. -/
def linked : Memory := [(0x1009, 0x14)]

theorem waits {s : State} {w : Work} {b : Block} (hm : s.mem = linked) (hb : b = blk w)
    (he : s.chain.expected = some 65535) (hw : s.escrow.writer = .idle) : s.waitsAfter b 65535 := by
  subst hb
  refine ⟨⟨⟨?_, (by decide : 0x1000 % 64 = 0), (by decide : 0x1000 + 64 ≤ jobMemorySize), he, by decide⟩, ?_, ?_⟩,
    fun p l r h => by rw [hw] at h; cases h⟩
  · rw [hm]; decide
  · simp only [State.linkOf, hm, blk]; decide
  · simp only [State.linkOf, hm, blk]; decide

/-- Site 0 with a request in flight whose last resend is out. -/
def asking (st : SiteState) (cmd : DieCommand) (arg : BitVec 32 := 0) : SiteCtx :=
  { e0.context 0 with
    state := st, rows := some 64, locked := some false
    exch := some { cmd := cmd, row := 16, bit := 31, arg := arg, resends := 2 } }

/-- Site 0 between exchanges. -/
def resting (st : SiteState) : SiteCtx := { asking st .hello with exch := none }

def ident7 : Identity :=
  { chars := [0x51, 0x54, 0x34, 0x34, 0x31, 0x30, 0x30, 0x37, 0x58, 0x31, 0x30, 0x32, 0x59, 0x30, 0x30, 0x39]
    codes := codes7 }

/-- Targets whose 1-bits are bits 31 and 30. -/
def tgs : Vector FuseRow 12 := Vector.replicate 12 0xC0000000

/-- A site whose burn stands at a burn state. -/
def burning (st : SiteState) (cmd : DieCommand) (b : BurnState) : SiteCtx :=
  { asking st cmd with
    serial := some 1, key := some dryRunKey, check := some 672, identity := some ident7, targets := some tgs
    burn := some b, touchdowns := some 1 }

def burn0 : BurnState := .begin prof

/-- A good answer with status OK, and a refusal. -/
def good (d : BitVec 64) : ResponseFrame := sealResponse statusOk d
def refusal : ResponseFrame := sealResponse statusRefused 0

theorem ok_to {s : State} {c : SiteCtx} {cmd : DieCommand} {d : BitVec 64} (hs : s.sites[(0 : Site)] = some c)
    (he : c.exch.map Exchange.cmd = some cmd) (hg : responseGood (good d) = true) : s.answers 0 c cmd (good d) := by
  refine ⟨hs, ?_, hg, rfl⟩
  cases h : c.exch <;> simp_all

theorem no_to {s : State} {c : SiteCtx} {cmd : DieCommand} (hs : s.sites[(0 : Site)] = some c)
    (he : c.exch.map Exchange.cmd = some cmd) (hn : cmd ≠ .hello) : s.refuses 0 c cmd refusal := by
  refine ⟨hs, ?_, hn, by decide, rfl⟩
  cases h : c.exch <;> simp_all

/-! ### Witnesses: steps, registers, resets -/

theorem witness_StepTakesFrontCommand :
    ({ State.reset with pending := [.release, .continueCmd] } : State).pending = .release :: [.continueCmd] := rfl

/-- One channel in each state, one site settling, one with a request in flight. -/
def ticking : State :=
  { board { burning .settling .senseBit burn0 with exch := none } with
    chans := #v[⟨.settling 499, true⟩, ⟨.driving 2 40 39, true⟩, ⟨.ready, true⟩, ⟨.offline, false⟩] }

theorem witness_IdleStepCountsTimers :
    ticking.pending = [] ∧ ticking.chain.arrival = none ∧ ticking.chans[(0 : Chan)].state = .settling 499 ∧
      ticking.chans[(1 : Chan)].state = .driving 2 40 39 ∧ ticking.chans[(2 : Chan)].state = .ready ∧
      ticking.chans[(3 : Chan)].state = .offline ∧ ticking.sites[(2 : Site)] = none ∧
      (∃ x, ticking.sites[(0 : Site)] = some x ∧ x.state = .settling) ∧
      (∃ x, ticking.sites[(1 : Site)] = some x ∧ x.state ≠ .settling ∧ x.exch = none) ∧
      ∃ x, (board (asking .hail .hello)).sites[(0 : Site)] = some x ∧ x.state ≠ .settling ∧ x.exch.isSome := by
  refine ⟨rfl, rfl, by decide, by decide, by decide, by decide, by decide, ⟨_, rfl, rfl⟩, ⟨_, rfl, by decide, rfl⟩,
    ⟨_, rfl, by decide, rfl⟩⟩

/-- Section 10.5: three messages for five settings of enabled bits. -/
theorem test_events :
    let r0 : RegisterBlock := { State.reset.reg with enable := 0x15 }
    let r1 := (r0.setEvent .blockDone).setEvent .escrowReady
    let r2 := ((r1.clearEvents 9).setEvent .escrowStall)
    let r3 := ((r2.setEvent .contactLost).setEvent .held).clearEvents 0x10
    let r4 := (r3.writeEnable 0x55).clearEvents 0x44
    let r5 := (r4.setEvent .contactLost).setEvent .held
    r1.msiSent = 1 ∧ r2.msiSent = 2 ∧ r3.events = 0x44 ∧ r4.msiSent = 2 ∧ r5.msiSent = 3 := by decide

/-- A board in a reset, and one with the largest tag and mark. -/
def inReset : State := { State.reset with reg := { State.reset.reg with resetting := true } }
def topMark : State :=
  { State.reset with
    chain := chainOf .dump, keys := { KeyUnit.reset with h := serialTop - 255, reserve := serialTop - 255 } }

theorem witness_RegisterWindow :
    inReset.reg.resetting = true ∧ writeHasEffect 0x400000 4 0 = false ∧ writeHasEffect 0x400000 4 5 = false ∧
      writeHasEffect 0x400000 4 1 = true ∧ writeHasEffect 0x400000 4 4 = true ∧ writeHasEffect 0x400008 4 0 = true ∧
      writeHasEffect 0x40000C 4 0 = true ∧ (∀ tag, topMark.chain.expected = some tag → tag ≤ 65535) ∧
      topMark.keys.h ≤ serialTop - 255 := by
  refine ⟨rfl, by decide, by decide, by decide, by decide, by decide, by decide, fun tag h => ?_, by decide⟩
  cases h; decide

/-- Section 5.4: SERIAL_MARK at the end is 4,294,967,295. -/
theorem test_serial_mark : topMark.registerRead 0x400010 = 4294967295 := by decide

theorem witness_EngineResetResult : State.reset.reg.resetting = false := rfl

theorem witness_HardwareResetResult : State.reset.keys.writeInFlight = none := rfl

/-- The last page of job memory open with sixteen records, and open with none. -/
def paged (slot records : Nat) : State :=
  { State.reset with escrow := { EscrowWriter.reset with writer := .opened 4193216 slot records } }

theorem witness_ResetHandsOverAndEnds :
    ((paged 16 16).mem.wf = true ∧ quiet.dumpWords = 0 ∧ quiet.record = .abandoned 0 ∧ (paged 16 16).reg.resetting = false ∧
      (paged 16 16).escrow.writer = .opened 4193216 16 16 ∧ (paged 16 16).escrow.seq ≤ counterMax ∧
      4193216 + 1088 ≤ jobMemorySize) ∧
    (∀ page slot records, (paged 0 0).escrow.writer = .opened page slot records → records = 0) ∧
    (inReset.reg.resetting = true ∧ inReset.keys.writeInFlight = none) ∧
    ({ inReset with keys := { KeyUnit.reset with writeInFlight := some 257 } } : State).keys.writeInFlight ≠ none := by
  refine ⟨⟨rfl, rfl, rfl, rfl, rfl, by decide, by decide⟩, fun p l r h => ?_, ⟨rfl, rfl⟩, by decide⟩
  cases h; rfl

/-- A dump of the worked example of section 7.8 in progress, and a WAFER_OPEN being written into the last slot of the
last page. -/
def cutDump : State :=
  { State.reset with
    dies := { DieTableUnit.reset with entries := [(⟨3, 3⟩, ⟨.void, 0⟩), (⟨40, 9⟩, ⟨.parked, 6675⟩)]
                                      queue := [.dump 0x10000 96] } }
def cutPage : State :=
  { paged 15 9 with
    mem := [(4193216, 1)]
    escrow := { (paged 15 9).escrow with queue := [{ record := .waferOpen, report := .nobody }] } }

theorem witness_ResetHandsOverAndEnds_cut :
    (cutDump.mem.wf = true ∧ cutDump.dies.queue = .dump 0x10000 96 :: [] ∧ 0x10000 + 96 ≤ jobMemorySize ∧
      4 * 8 ≤ (cutDump.dies.dumpBytes 96).length) ∧
    (cutPage.mem.wf = true ∧ cutPage.escrow.writer = .opened 4193216 15 9 ∧
      cutPage.escrow.queue = { record := .waferOpen, report := .nobody } :: [] ∧ 15 + EscrowRecord.waferOpen.slots ≤ 16 ∧
      9 < counterMax ∧ 4193216 + 1088 ≤ jobMemorySize ∧ 16 ≤ 16 * EscrowRecord.waferOpen.slots ∧
      ({ record := .waferOpen, report := .nobody } : RecordRequest).report ≠ .dieTable ∧
      cutPage.reg.resetting = false ∧ cutPage.escrow.seq ≤ counterMax) := by decide

/-! ### Witnesses: chain unit -/

/-- A header with anchor 0x1000, start tag 65534 and escrow anchor 0x2000, and page 0x2000 ENGINE. -/
def headed : State :=
  { State.reset with
    mem := [(0, 0x4B), (1, 0x32), (2, 0x36), (3, 0x34), (5, 0x10), (8, 0xFE), (9, 0xFF), (13, 0x20), (0x2000, 1)] }

theorem witness_NudgeReadsGoodHeader :
    headed.reg.resetting = false ∧ headed.chain.state = .idle ∧ headed.escrow.writer = .idle ∧ headed.escrow.queue = [] ∧
      (readHeader headed.mem).passes = true ∧ validPage (readHeader headed.mem).escrowAnchor = true ∧
      headed.mem.read32 (readHeader headed.mem).escrowAnchor = ownerEngine ∧
      (readHeader headed.mem).anchor + 2 ≤ (readHeader headed.mem).escrowAnchor + 4 ∧
      headed.mem.read16 (readHeader headed.mem).anchor ≠ (readHeader headed.mem).startTag := by decide

/-- The header's escrow anchor page belongs to the tester. -/
theorem witness_NudgeReadsGoodHeader_stalled :
    let s := { headed with mem := headed.mem.take 8 }
    (readHeader s.mem).passes = true ∧ s.mem.read16 (readHeader s.mem).anchor ≠ (readHeader s.mem).startTag ∧
      s.mem.read32 (readHeader s.mem).escrowAnchor ≠ ownerEngine := by decide

/-- The same header with a LOAD_KEYS at the anchor that is ready, its link at 0x1400. -/
def ready : State :=
  { State.reset with
    mem :=
      [(0, 0x4B), (1, 0x32), (2, 0x36), (3, 0x34), (5, 0x10), (8, 0xFE), (9, 0xFF), (13, 0x20), (0x1000, 0xFE),
        (0x1001, 0xFF), (0x1004, 1), (0x1009, 0x14), (0x2000, 1)] }

theorem witness_NudgeReadsGoodHeader_ready :
    (ready.reg.resetting = false ∧ ready.escrow.writer = .idle ∧ ready.escrow.queue = [] ∧
      (readHeader ready.mem).passes = true ∧ ready.chain.state = .idle ∧
      ready.mem.read16 (readHeader ready.mem).anchor = (readHeader ready.mem).startTag ∧ ready.mem.wf = true ∧
      ready.escrow.seq ≤ counterMax ∧ validPage (readHeader ready.mem).escrowAnchor = true ∧
      ready.mem.read32 (readHeader ready.mem).escrowAnchor = ownerEngine ∧
      (readHeader ready.mem).anchor + 2 ≤ (readHeader ready.mem).escrowAnchor + 4) ∧
    ({ ready with chain := { ChainUnit.reset with state := .held .headerFault } } : State).chain.state =
      .held .headerFault ∧
    (let s := { ready with mem := ready.mem.take 12 }
     s.mem.read32 (readHeader s.mem).escrowAnchor ≠ ownerEngine) := by decide

/-- R146, R156: the NUDGE takes the LOAD_KEYS, whose blobs are handed to the key unit, and RESTART waits behind it. -/
theorem test_nudge_ready :
    let t := after (.nudge true) ready
    t.chain.state = .running ∧ t.chain.block.map Block.work = some .loadKeys ∧ t.keys.importing.isSome = true ∧
      t.escrow.writer = .opened 0x2000 0 0 ∧ t.escrow.queue.length = 1 ∧ t = after (.nudge false) ready := by decide

/-- The unit about to take a block of no kind, whose link is as given and whose linked block is ready or not. -/
def taking (link : Byte) (tag : Byte) : State :=
  { State.reset with
    mem := bytesAt 0x1000 [0xFE, 0xFF] ++ bytesAt 0x1009 [link] ++ bytesAt 0x1400 [tag, tag]
    chain := { ChainUnit.reset with expected := some 65534 } }

/-- The four ends of a block that is done at once: waiting, with a flush pending, a link fault, a ready link. -/
theorem witness_takesReady :
    (∀ l g, (taking l g).takeBlock 0x1000 =
      ((taking l g).setChain { (taking l g).chain with state := .running, offset := some 0x1000 },
        some .blockInvalid) ∨ (taking l g).mem.read 0x1004 ≠ 0) ∧
    (taking 0x14 0).mem.read 0x1004 = 0 ∧
    (let s := taking 0x14 0
     s.mem.wf = true ∧ s.linkOf 0x1000 = 0x1400 ∧ validBlockOffset 0x1400 = true ∧
       s.mem.read16 0x1400 ≠ nextTag 65534 ∧ s.escrow.writer = .idle) ∧
    (let s := { ready with escrow := { EscrowWriter.reset with
                  writer := .opened 0x2000 0 0, queue := [{ record := .waferOpen, report := .nobody }] } }
     s.recordInProgress = true) ∧
    validBlockOffset ((taking 0 0).linkOf 0x1000) = false ∧
    (taking 0x14 0xFF).mem.read16 ((taking 0x14 0xFF).linkOf 0x1000) = nextTag 65534 := by
  refine ⟨fun l g => ?_, by decide⟩
  by_cases h : (taking l g).mem.read 0x1004 = 0
  · left
    have h' : (taking l g).mem.read (0x1000 + 4) = 0 := h
    simp [State.takeBlock, h']
  · exact .inr h

/-- WAITING at 0x1000 with the writer stalled on page 0x3000, whose next page field is as given. -/
def stalled (next : Byte) : State :=
  { State.reset with
    mem := if next = 0 then [(0x2000, 1)] else [(0x2000, 1), (0x300D, next)]
    chain := { ChainUnit.reset with state := .waiting, expected := some 1, offset := some 0x1000 }
    escrow := { EscrowWriter.reset with writer := .stalled (.link 0x3000) } }

theorem witness_NudgeWithoutProgress :
    (State.reset.reg.resetting = false ∧ (readHeader State.reset.mem).passes = false ∧
      State.reset.escrow.writer = .idle ∧ State.reset.chain.state = .idle) ∧
    ({ State.reset with chain := { ChainUnit.reset with state := .held .headerFault } } : State).chain.state =
      .held .headerFault ∧
    ((stalled 0x20).reg.resetting = false ∧ (stalled 0x20).chain.state = .waiting ∧
      (stalled 0x20).chain.offset = some 0x1000 ∧ (stalled 0x20).blockReady 0x1000 = false ∧
      (stalled 0x20).escrow.writer = .stalled (.link 0x3000) ∧
      validPage ((stalled 0x20).mem.read32 (0x3000 + 12)) = true ∧
      (stalled 0x20).mem.read32 ((stalled 0x20).mem.read32 (0x3000 + 12)) = ownerEngine ∧
      0x1000 + 2 ≤ (stalled 0x20).mem.read32 (0x3000 + 12) + 4) ∧
    validPage ((stalled 0).mem.read32 (0x3000 + 12)) = false ∧
    (validPage ((stalled 0x40).mem.read32 (0x3000 + 12)) = true ∧
      (stalled 0x40).mem.read32 ((stalled 0x40).mem.read32 (0x3000 + 12)) ≠ ownerEngine) := by decide

/-- The same with its block ready. -/
def readyToTake (w : WriterState) : State :=
  { stalled 0 with mem := [(0x1000, 1), (0x2000, 1)], escrow := { EscrowWriter.reset with writer := w } }

/-- The same with its block not ready, or in RUNNING or HELD, and a writer that waits at the anchor, 0x2000. -/
def atAnchor (st : UnitState) (page : Byte) : State :=
  { stalled 0 with
    mem := bytesAt 12 [0, page] ++ [(0x2000, 1)]
    chain := { (stalled 0).chain with state := st }, escrow := { EscrowWriter.reset with writer := .stalled .anchor } }

theorem witness_NudgeWithoutProgress_writers :
    (∀ w, (readyToTake w).reg.resetting = false ∧ (readyToTake w).chain.state = .waiting ∧
      (readyToTake w).chain.offset = some 0x1000 ∧ (readyToTake w).blockReady 0x1000 = true ∧
      (readyToTake w).escrow.writer = w ∧ validPage ((readyToTake w).mem.read32 (0x3000 + 12)) = false) ∧
    (∀ st, (atAnchor st 0x20).reg.resetting = false ∧ (atAnchor st 0x20).chain.state = st ∧
      (atAnchor st 0x20).chain.offset = some 0x1000 ∧ (atAnchor st 0x20).escrow.writer = .stalled .anchor) ∧
    ((atAnchor .waiting 0x20).blockReady 0x1000 = false ∧ validPage ((atAnchor .waiting 0x20).mem.read32 12) = true ∧
      (atAnchor .waiting 0x20).mem.read32 ((atAnchor .waiting 0x20).mem.read32 12) = ownerEngine ∧
      0x1000 + 2 ≤ (atAnchor .waiting 0x20).mem.read32 12 + 4) ∧
    validPage ((atAnchor .waiting 0).mem.read32 12) = false ∧
    (atAnchor .waiting 0x40).mem.read32 ((atAnchor .waiting 0x40).mem.read32 12) ≠ ownerEngine :=
  ⟨fun _ => ⟨rfl, rfl, rfl, by show (Memory.read16 [(0x1000, 1), (0x2000, 1)] 0x1000 == 1) = true; decide, rfl,
      by show validPage (Memory.read32 [(0x1000, 1), (0x2000, 1)] (0x3000 + 12)) = false; decide⟩,
    fun st => ⟨rfl, rfl, rfl, rfl⟩, by decide, by decide, by decide⟩

theorem witness_NudgeWithoutProgress_opens :
    let s := { readyToTake (.stalled (.link 0x3000)) with mem := [(0x1000, 1), (0x2000, 1), (0x300D, 0x20)] }
    s.chain.state = .waiting ∧ s.chain.offset = some 0x1000 ∧ s.blockReady 0x1000 = true ∧
      s.escrow.writer = .stalled (.link 0x3000) ∧ validPage (s.mem.read32 (0x3000 + 12)) = true ∧
      s.mem.read32 (s.mem.read32 (0x3000 + 12)) = ownerEngine ∧ 0x1000 + 2 ≤ s.mem.read32 (0x3000 + 12) + 4 := by
  decide

/-- HELD with the linked block in hand. -/
def heldFor (r : HoldReason) (contact : Bool) : State :=
  { State.reset with mem := linked, contact := contact, chain := { chainOf touching with state := .held r } }

theorem witness_ContinueEndsHold :
    (∀ r, State.reset.chain.state ≠ .held r) ∧
    ((heldFor .release false).reg.resetting = false ∧ (heldFor .release false).chain.state = .held .release ∧
      (heldFor .release false).chain.block = some (blk touching) ∧ (heldFor .release false).contact = false ∧
      (heldFor .release false).nothingToFlush) ∧
    ((heldFor .halt false).waitsAfter (blk touching) 65535 ∧ (heldFor .halt false).chain.state = .held .halt) ∧
    (heldFor .release true).waitsAfter (blk touching) 65535 ∧ (heldFor .release true).chain.state = .held .release ∧
      (heldFor .release true).contact = true := by
  refine ⟨fun r h => (nomatch h), ⟨rfl, rfl, rfl, rfl, fun p l r h => (nomatch h)⟩, ⟨waits rfl rfl rfl rfl, rfl⟩,
    waits rfl rfl rfl rfl, rfl, rfl⟩

/-- The board after reset with other job memory and another chain unit. -/
def heldAt (m : Memory) (c : ChainUnit) : State := { State.reset with mem := m, chain := c }

/-- A hold with a block in hand whose link is 0, or is 0x1400 with a block that is ready for the tag after the wrap. -/
theorem witness_ContinueEndsHold_links :
    (heldAt [] { chainOf touching with state := .held .halt }).linkFails (blk touching) 65535 ∧
    (heldAt [(0x1009, 0x14), (0x1400, 1)] { chainOf touching with state := .held .halt }).linkReady (blk touching)
      65535 := by
  refine ⟨⟨⟨rfl, by decide, by decide, rfl, by decide⟩, ?_, fun p l r h => (nomatch h)⟩,
    ⟨⟨by decide, by decide, by decide, rfl, by decide⟩, ?_, ?_⟩⟩ <;>
    simp only [State.linkOf, heldAt, blk] <;> decide

/-- HELD for a link fault after the block at 0x1000. -/
def faulted (m : Memory) : State :=
  heldAt m { ChainUnit.reset with state := .held .linkFault, expected := some 1, lastDone := some 0x1000 }

theorem witness_ContinueEndsHold_faults :
    (∀ m, (faulted m).reg.resetting = false ∧ (faulted m).chain.state = .held .linkFault ∧
      (faulted m).chain.lastDone = some 0x1000 ∧ (faulted m).nothingToFlush) ∧
    validBlockOffset ((faulted []).linkOf 0x1000) = false ∧
    (validBlockOffset ((faulted linked).linkOf 0x1000) = true ∧
      (faulted linked).blockReady ((faulted linked).linkOf 0x1000) = false) ∧
    (faulted [(0x1009, 0x14), (0x1400, 1)]).blockReady ((faulted [(0x1009, 0x14), (0x1400, 1)]).linkOf 0x1000) = true :=
  ⟨fun m => ⟨rfl, rfl, rfl, fun p l r h => (nomatch h)⟩, by decide, by decide, by decide⟩

/-- R149: a CONTINUE finds the link mended and its block, of no kind, ready: it is done with BLOCK_INVALID. -/
theorem test_continue_link :
    let t := after .continueCmd (faulted [(0x1009, 0x14), (0x1400, 1)])
    t.chain.state = .held .linkFault ∧ t.chain.lastDone = some 0x1400 ∧ t.mem.read16 0x140C = 1 ∧
      t.chain.expected = some 2 := by decide

/-- Job memory with a block of a kind at 0x1000, and a wafer open or not. -/
def kindOf (k : Byte) (w : Option WaferContext) : State :=
  { State.reset with mem := [(0x1004, k)], chain := { ChainUnit.reset with wafer := w } }

theorem witness_RefusedBlockHasNoEffect :
    (State.reset.takeBlock 0x1000).2 = some .blockInvalid ∧ (State.reset.mem.read (0x1000 + 4)).toNat = 0 ∧
      6 < ((kindOf 7 none).mem.read (0x1000 + 4)).toNat ∧
      ((kindOf 1 (some wafer7)).chain.wafer.isSome = true ∧ (kindOf 1 (some wafer7)).mem.read (0x1000 + 4) = 1) ∧
      (kindOf 2 (some wafer7)).mem.read (0x1000 + 4) = 2 ∧
      ((kindOf 3 none).chain.wafer = none ∧ (kindOf 3 none).mem.read (0x1000 + 4) = 3) ∧
      (kindOf 4 none).mem.read (0x1000 + 4) = 4 := by decide

/-- A STATS block at the last place its body fits. -/
def statsAtTop : State := { State.reset with mem := [(4194176, 5)] }

theorem witness_StatsBlockWritesCounters :
    statsAtTop.mem.wf = true ∧ statsAtTop.countersBounded ∧ statsAtTop.mem.read (4194172 + 4) = 5 ∧
      4194172 + 132 ≤ jobMemorySize := by
  refine ⟨by decide, ?_, by decide, by decide⟩
  show ∀ i : Fin 16, (Vector.replicate 16 0)[i] ≤ counterMax
  decide

/-- Profile 0 and a WAFER_START at 0x1000 as section 11.1 and 11.2 lay them out: lot "QT", wafer 7, list LOT 2; END. -/
def startMemory : Memory :=
  bytesAt 64 [40, 0, 200, 0, 0xE8, 3, 200, 0, 0x58, 2, 100, 0, 4, 6, 5, 50, 2, 4, 1, 0, 16, 0, 40, 0, 30, 0, 32, 0] ++
    bytesAt 96 [0, 0, 64, 0, 2] ++ bytesAt 0x1004 [2] ++ bytesAt 0x1040 [2, 0, 0, 0x2D, 7] ++
    bytesAt 0x1048 [0x51, 0x54] ++ bytesAt 0x1060 table64 ++ bytesAt 0x10A0 [1, 2]

/-- A TOUCHDOWN at 0x1000 with the two entries of these tests. -/
def touchMemory : Memory :=
  bytesAt 0x1004 [3] ++ bytesAt 0x1040 [2] ++ bytesAt 0x1050 [0, 1, 2, 63, 102, 0, 9] ++
    bytesAt 0x1080 [1, 2, 0, 0, 40, 0, 9, 0, 225]

def started : WaferContext :=
  { wafer7 with
    profile := { prof with windows := [⟨0, 64, .program⟩] }, lot := [0x51, 0x54], steps := [.lot 2] }

theorem readStart : readWaferStart startMemory 0x1000 = .ok started := by
  have h : (readWaferStart startMemory 0x1000).toOption = some started := by decide
  revert h
  cases readWaferStart startMemory 0x1000 <;> simp [Except.toOption]

theorem witness_IntakeValidates :
    readWaferStart startMemory 0x1000 = .ok started ∧ readTouchdown touchMemory 0x1000 = some [e0, e1] :=
  ⟨readStart, by decide⟩

theorem witness_IntakeValidates_accepts :
    (let m := startMemory
     let b := 0x1000
     let a := 64 + 256 * (m.read (b + 65)).toNat
     (m.read (b + 65)).toNat ≤ 3 ∧ (m.read (b + 66)).toNat ≤ 1 ∧ b + 224 ≤ jobMemorySize ∧ 1 ≤ m.read16 a ∧
       m.read16 a ≤ m.read16 (a + 2) ∧ m.read16 (a + 2) ≤ 4095 ∧ (m.read (a + 12)).toNat ≤ 15 ∧
       1 ≤ (m.read (a + 13)).toNat ∧ (m.read (a + 13)).toNat ≤ 15 ∧ 1 ≤ m.read16 (a + 4) ∧
       m.read16 (a + 6) < m.read16 (a + 8) ∧ m.read16 (a + 8) ≤ 1023 ∧ (m.read (a + 17)).toNat ≤ 8 ∧
       (m.read (a + 18)).toNat = 1 ∧ (m.read (a + 36)).toNat ≤ 2 ∧ m.read16 (a + 34) = 2 ^ 6 ∧ m.read16 (a + 32) = 0 ∧
       (m.read (b + 64)).toNat = 2 ∧ m.read (b + 72) = m.read (b + 96 + 26) ∧ m.read (b + 73) = m.read (b + 96 + 29) ∧
       m.read (b + 160) = 1 ∧ (m.read (b + 161)).toNat = 2 ∧ m.read (b + 164) = 0) ∧
    (let m := touchMemory
     let b := 0x1000
     (m.read (b + 64)).toNat = 2 ∧ b + 80 + 48 * 2 ≤ jobMemorySize ∧ (m.read (b + 80 + 1)).toNat = 1 ∧
       (m.read (b + 80 + 3)).toNat = 63 ∧ m.read (b + 80) ≠ m.read (b + 128) ∧
       m.read (b + 80 + 3) ≠ m.read (b + 128 + 3) ∧ m.read16 (b + 80 + 4) ≠ m.read16 (b + 128 + 4)) := by decide

theorem table_prints : (∀ i : Fin 64, 0x20 ≤ (startMemory.read (0x1060 + i.val)).toNat ∧
    (startMemory.read (0x1060 + i.val)).toNat ≤ 0x7E) ∧ (startMemory.readBytes 0x1060 64).Nodup := by decide

/-- A DUMP at 0x1000 with the lowest buffer, and one whose buffer is the block's own line. -/
def dumpBlock (line : Byte) : State := { State.reset with mem := bytesAt 0x1004 [6] ++ bytesAt 0x1040 [line, 4, 0, 0, 16] }

theorem witness_IntakeValidates_dump :
    ((dumpBlock 0x40).mem.read (0x1000 + 4) = 6 ∧ 0x1000 + 88 ≤ jobMemorySize ∧
      (dumpBlock 0x40).mem.read32 (0x1000 + 64) = 1088 ∧ (dumpBlock 0x40).mem.read32 (0x1000 + 68) = 16 ∧
      1088 + 16 ≤ 0x1000) ∧ (dumpBlock 0x41).mem.read32 (0x1000 + 64) % 64 ≠ 0 := by decide

theorem witness_AcceptedBlocksTaken :
    let s := { State.reset with mem := startMemory }
    s.chain.wafer = none ∧ s.mem.read (0x1000 + 4) = 2 ∧ readWaferStart s.mem 0x1000 = .ok started :=
  ⟨rfl, by decide, readStart⟩

/-- A TOUCHDOWN of one SKIP at site 1. -/
def skipMemory : Memory := bytesAt 0x1004 [3] ++ bytesAt 0x1040 [1] ++ bytesAt 0x1050 [1, 4]

theorem witness_AcceptedBlocksTaken_kinds :
    ((kindOf 1 none).mem.read (0x1000 + 4) = 1 ∧ (kindOf 1 none).chain.wafer = none ∧
      0x1000 + 152 ≤ jobMemorySize) ∧
    ((kindOf 4 (some wafer7)).mem.read (0x1000 + 4) = 4 ∧ (kindOf 4 (some wafer7)).chain.wafer.isSome = true) ∧
    (∀ contact, let s := { kindOf 3 (some wafer7) with mem := touchMemory, contact := contact }
      s.mem.read (0x1000 + 4) = 3 ∧ s.chain.wafer.isSome = true ∧ readTouchdown s.mem 0x1000 = some [e0, e1] ∧
        s.contact = contact ∧ ∃ e ∈ [e0, e1], e.action ≠ .skip) ∧
    (let s := { kindOf 3 (some wafer7) with mem := skipMemory, contact := true }
     s.mem.read (0x1000 + 4) = 3 ∧ ∃ es, readTouchdown s.mem 0x1000 = some es ∧ (∀ e ∈ es, e.action = .skip) ∧
       0 < es.length ∧ s.mem.wf = true ∧ 0x1000 + 80 + 48 * 0 + 48 ≤ jobMemorySize) :=
  ⟨by decide, by decide, fun _ => ⟨by show Memory.read touchMemory (0x1000 + 4) = 3; decide, rfl,
      by show readTouchdown touchMemory 0x1000 = _; decide, rfl, e0, by simp, by decide⟩,
    by show Memory.read skipMemory (0x1000 + 4) = 3; decide,
    [{ site := 1, action := .skip, lanes := .normal, arb := 0, die := ⟨0, 0⟩, expected := 0 }], by decide⟩

/-- A touchdown with a SKIP that waits for CONTACT. -/
def landing : State :=
  { State.reset with
    chain := chainOf (.touchdown [e0, { e1 with action := .skip }] false false false) }

theorem witness_ContactRiseStartsTouchdown :
    (board (asking .hail .hello)).contact = true ∧ (State.reset.contact = false ∧ State.reset.chain.block = none) ∧
    (landing.contact = false ∧
      landing.chain.block = some (blk (.touchdown [e0, { e1 with action := .skip }] false false false)) ∧
      ([e0, { e1 with action := .skip }].map SiteEntry.site).Nodup ∧
      ∃ e ∈ [e0, { e1 with action := .skip }], e.action ≠ .skip) := by
  refine ⟨rfl, ⟨rfl, rfl⟩, rfl, rfl, by decide, e0, by simp, by decide⟩

/-- A touchdown of one SKIP that waits for CONTACT. -/
def skipping : State :=
  { State.reset with mem := linked, chain := chainOf (.touchdown [{ e1 with action := .skip }] false false false) }

theorem witness_ContactRiseStartsTouchdown_skips :
    (skipping.contact = false ∧ skipping.chain.state = .running ∧
      (∀ e ∈ [{ e1 with action := .skip }], e.action = .skip) ∧
      skipping.waitsAfter (blk (.touchdown [{ e1 with action := .skip }] false false false)) 65535 ∧
      apart (skipping.linkOf 0x1000) 2 (0x1000 + 80) (48 * 1)) ∧
    (∀ b es r h, ({ State.reset with chain := chainOf .dump } : State).chain.block = some b →
      b.work ≠ .touchdown es false r h) ∧
    (landing.mem.wf = true ∧ (0x1000 + 80 + 48 * 1 + 48 ≤ jobMemorySize)) := by
  refine ⟨⟨rfl, rfl, by decide, waits rfl rfl rfl rfl, Or.inr (by decide)⟩, fun b es r h hb => ?_, rfl, by decide⟩
  cases hb
  exact fun h => nomatch h

theorem not_driving {s : State} (h : ∀ d : Chan, s.chans[d].state = .settling 0) :
    ∀ (d : Chan) (n : Site) (w e : Nat), s.chans[d].state ≠ .driving n w e := by
  intro d n w e hd; rw [h d] at hd; cases hd

/-- A burn with pulses delivered. -/
def pulsed : BurnState := { burn0 with totalPulses := 3, bitPulses := 3, rowStress := 190, width := 90 }

theorem witness_ReleaseReachesTouchdown :
    State.reset.chain.state ≠ .running ∧ landing.contact = false ∧ (board (asking .hail .hello)).contact = true ∧
    (let c := burning .burnRow .armBit burn0
     (board c).reg.resetting = false ∧ (board c).chain.state = .running ∧ (board c).inTouchdown 0 ∧
       (board c).sites[(0 : Site)] = some c ∧ c.state = .burnRow ∧ c.totalPulses = 0 ∧
       (∀ (d : Chan) (w e : Nat), (board c).chans[d].state ≠ .driving 0 w e)) ∧
    (let c := burning .waitGrant .armBit pulsed
     (board c).sites[(0 : Site)] = some c ∧ c.state ≠ .closing ∧ c.state ≠ .parking ∧ c.totalPulses ≠ 0) ∧
    (burning .closing .armBit burn0).state = .closing ∧ (burning .parking .armBit pulsed).state = .parking := by
  refine ⟨by decide, rfl, rfl, ⟨rfl, rfl, touch rfl, by decide, rfl, rfl, fun d w e => ?_⟩,
    ⟨by decide, by decide, by decide, by decide⟩, rfl, rfl⟩
  exact not_driving (by decide) d 0 w e

/-- The board with site 1 still in CLOSING. -/
def closingBy (c : SiteCtx) : State :=
  { board c with sites := (board c).sites.set 1 (some { e1.context 1 with state := .closing }) }

theorem still_closing (c : SiteCtx) : (closingBy c).stillEnding 0 :=
  ⟨1, { e1.context 1 with state := .closing }, by decide, ⟨_, _, _, _, rfl, rfl, e1, by simp, rfl⟩, by simp [closingBy],
    .inl rfl⟩

theorem at_closing (c : SiteCtx) : (closingBy c).sites[(0 : Site)] = some c := by simp [closingBy, board]

/-- Channel 0 drives for site 0 and no other channel drives. -/
def cutting (c : SiteCtx) : State :=
  { board c with chans := #v[⟨.driving 0 90 90, true⟩, ⟨.ready, true⟩, ⟨.offline, false⟩, ⟨.settling 0, true⟩] }

theorem witness_ReleaseReachesTouchdown_states :
    (let c := { burning .pulsing .armBit pulsed with exch := none }
     (cutting c).reg.resetting = false ∧ (cutting c).chain.state = .running ∧ (cutting c).inTouchdown 0 ∧
       (cutting c).sites[(0 : Site)] = some c ∧ c.state = .pulsing ∧ c.burn = some pulsed ∧
       (cutting c).chans[(0 : Chan)].state = .driving 0 90 90 ∧ (cutting c).contact = true) ∧
    (∀ (i : Chan) (o : Site) (v f : Nat), i ≠ 0 → (cutting (resting .hail)).chans[i].state ≠ .driving o v f) ∧
    (∀ st, st = .hail ∨ st = .lookup ∨ st = .prep ∨ st = .issueWait ∨ st = .reading →
      (closingBy (resting st)).reg.resetting = false ∧ (closingBy (resting st)).chain.state = .running ∧
        (closingBy (resting st)).inTouchdown 0 ∧ (closingBy (resting st)).sites[(0 : Site)] = some (resting st) ∧
        (closingBy (resting st)).stillEnding 0 ∧ (resting st).state = st ∧ (closingBy (resting st)).mem.wf = true) ∧
    0x1000 + 80 + 48 * (resting .hail).index + 48 ≤ jobMemorySize ∧
    (∀ (m : Site) (x : SiteCtx), m ≠ 0 → (closingBy (resting .hail)).sites[m] = some x → x.index ≠ 0) ∧
    State.reset.chain.block = none := by
  refine ⟨⟨rfl, rfl, touch rfl, at0 _, rfl, rfl, rfl, rfl⟩, ?_, fun st _ => ⟨rfl, rfl, touch rfl, at_closing _,
    still_closing _, rfl, rfl⟩, by decide, ?_, rfl⟩
  · intro i o v f hi
    have h : ∀ i : Chan, i ≠ 0 → (cutting (resting .hail)).chans[i].state = .ready ∨
        (cutting (resting .hail)).chans[i].state = .offline ∨ (cutting (resting .hail)).chans[i].state = .settling 0 := by
      decide
    rcases h i hi with h | h | h <;> rw [h] <;> exact fun h => nomatch h
  · have h : ∀ m : Site, m ≠ 0 → ((closingBy (resting .hail)).sites[m].map SiteCtx.index).getD 1 ≠ 0 := by decide
    intro m x hm hx
    simpa [hx] using h m hm

/-! ### Witnesses: die port -/

theorem ok0 {c : SiteCtx} {cmd : DieCommand} {d : BitVec 64} (he : c.exch.map Exchange.cmd = some cmd)
    (hg : responseGood (good d) = true) : (board c).answers 0 c cmd (good d) := ok_to (at0 c) he hg

theorem no0 {c : SiteCtx} {cmd : DieCommand} (he : c.exch.map Exchange.cmd = some cmd) (hn : cmd ≠ .hello) :
    (board c).refuses 0 c cmd refusal := no_to (at0 c) he hn

theorem touch0 (c : SiteCtx) : (board c).inTouchdown 0 := touch rfl
theorem others0 (c : SiteCtx) : (board c).othersRun 0 := others rfl (by rfl)
theorem calm0 (c : SiteCtx) : (board c).noHalt := calm rfl

/-- HELLO data: 16 rows, unlocked; 512 rows, locked. -/
def hello16 : BitVec 64 := 0x0010000100000000
def hello512 : BitVec 64 := 0x0200010100000000

theorem witness_HelloAnswered :
    (let c := asking .hail .hello
     (board c).answers 0 c .hello (good hello16) ∧ 16 ≤ helloRows (good hello16).data ∧
       helloRows (good hello16).data ≤ 512 ∧ (board c).inTouchdown 0 ∧ c.haltPending = false ∧
       (good hello16).data.extractLsb' 40 8 = (if false then 1 else 0) ∧ c.action = .provision) ∧
    let c := { asking .hail .hello with action := .verify }
    (board c).answers 0 c .hello (good hello512) ∧ helloRows (good hello512).data = 512 ∧
      (good hello512).data.extractLsb' 40 8 = (if true then 1 else 0) ∧ c.action ≠ .provision ∧
      (board c).answers 0 c .hello (good hello16) ∧ (board c).othersRun 0 :=
  ⟨⟨ok0 rfl (by decide), by decide, by decide, touch0 _, rfl, by decide, rfl⟩, ok0 rfl (by decide), by decide, by decide,
    by decide, ok0 rfl (by decide), others0 _⟩

theorem witness_FailedAttempts :
    (let e : Exchange := { cmd := .rowCheck, row := 16, bit := 0, arg := 0, resends := 1 }
     let c := { asking .prep .rowCheck with exch := some e }
     (board c).sites[(0 : Site)] = some c ∧ c.exch = some e ∧ c.state ≠ .final ∧ (board c).inTouchdown 0 ∧
       e.resends < min 3 (board c).profile.frameRetries) ∧
    (let c := asking .hail .hello
     (board c).sites[(0 : Site)] = some c ∧ c.exch.map Exchange.resends = some (min 3 (board c).profile.frameRetries) ∧
       c.state = .hail ∧ c.lanesAsked = .auto ∧ c.lanesUsed = .normal) ∧
    responseGood { good 0 with check := 1 } = false ∧ badFrameAnswer.status = statusBadFrame ∧
      helloRows (good 0x000F000000000000).data = 15 ∧ helloRows (good 0x0201000000000000).data = 513 :=
  ⟨⟨at0 _, rfl, by decide, touch0 _, by decide⟩, ⟨at0 _, by decide, rfl, rfl, rfl⟩, by decide, rfl, by decide, by decide⟩

theorem witness_ContactFailureEndsEntry :
    (let c := { asking .hail .hello with lanesUsed := .reversed }
     (board c).sites[(0 : Site)] = some c ∧ c.exch.map Exchange.resends = some (min 3 (board c).profile.frameRetries) ∧
       ¬(c.state = .hail ∧ c.lanesAsked = .auto ∧ c.lanesUsed = .normal) ∧ c.state = .hail ∧ (board c).noHalt ∧
       (board c).othersRun 0) ∧
    (let c := burning .burnRow .armBit burn0
     c.state = .burnRow ∧ (board c).inTouchdown 0 ∧ c.totalPulses = 0 ∧ (board c).dryRun = false) ∧
    (burning .sensing .senseBit pulsed).totalPulses ≠ 0 :=
  ⟨⟨at0 _, by decide, by decide, rfl, calm0 _, others0 _⟩, ⟨rfl, touch0 _, rfl, rfl⟩, by decide⟩

theorem at_dry (c : SiteCtx) : (dryBoard c).sites[(0 : Site)] = some c := at0 c
theorem touch_dry (c : SiteCtx) : (dryBoard c).inTouchdown 0 := touch rfl
theorem ok_dry {c : SiteCtx} {cmd : DieCommand} {d : BitVec 64} (he : c.exch.map Exchange.cmd = some cmd)
    (hg : responseGood (good d) = true) : (dryBoard c).answers 0 c cmd (good d) := ok_to (at_dry c) he hg

theorem witness_ContactFailureEndsEntry_dry :
    let c := burning .burnRow .armBit burn0
    (dryBoard c).sites[(0 : Site)] = some c ∧ c.exch.map Exchange.resends = some (min 3 (dryBoard c).profile.frameRetries) ∧
      c.state = .burnRow ∧ (dryBoard c).inTouchdown 0 ∧ c.totalPulses = 0 ∧ (dryBoard c).dryRun = true :=
  ⟨at_dry _, by decide, rfl, touch_dry _, rfl, rfl⟩

theorem witness_ReadTagAnswered :
    (let c := asking .reading .readTag
     c.state = .reading ∧ c.exch.map Exchange.arg = some 0 ∧ (board c).answers 0 c .readTag (good 0) ∧
       (board c).inTouchdown 0 ∧ (board c).refuses 0 c .readTag refusal ∧ (board c).othersRun 0) ∧
    let c := { asking .reading .readTag 1 with action := .verify, expected := 225 }
    let d : BitVec 64 := 0x0288000900E10000
    c.exch.map Exchange.arg = some 1 ∧ (board c).answers 0 c .readTag (good d) ∧ (board c).othersRun 0 ∧
      (good d).data.extractLsb' 16 16 = c.expected ∧ (good 0).data.extractLsb' 16 16 ≠ c.expected ∧
      (let i := { asking .reading .readTag 1 with action := .identify }
       (board i).answers 0 i .readTag (good d) ∧ i.action = .identify ∧ (board i).mem.wf = true ∧
         (blk touching).offset + 80 + 48 * i.index + 48 ≤ jobMemorySize) :=
  ⟨⟨rfl, rfl, ok0 rfl (by decide), touch0 _, no0 rfl (by decide), others0 _⟩, rfl, ok0 rfl (by decide), others0 _,
    by decide, by decide, ok0 rfl (by decide), rfl, rfl, by decide⟩

/-- Section 6.5: an IDENTIFY decodes the three identity rows under the wafer's table. -/
theorem test_identify : decodeIdentity (some wafer7) 0x69D104040007841002880009 = ident7 := by decide

theorem witness_BlankCheckAnswered :
    (let c := { asking .prep .rowCheck with checkIndex := 12 }
     c.state = .prep ∧ (board c).inTouchdown 0 ∧ (board c).answers 0 c .rowCheck (good 0) ∧
       blownMask (good 0).data = 0 ∧ marginalMask (good 0).data = 0 ∧ c.haltPending = false ∧ c.checkIndex < 13) ∧
    (let c := { asking .prep .rowCheck with checkIndex := 13 }
     c.checkIndex = 13 ∧ (board c).chain.wafer = some wafer7 ∧ (board c).refuses 0 c .rowCheck refusal ∧
       (board c).answers 0 c .rowCheck (good 1) ∧ marginalMask (good 1).data ≠ 0) :=
  ⟨⟨rfl, touch0 _, ok0 rfl (by decide), by decide, by decide, rfl, by decide⟩, rfl, rfl, no0 rfl (by decide),
    ok0 rfl (by decide), by decide⟩

/-! ### Witnesses: burning -/

/-- ROW_CHECK data with bits 31 and 30 blown and nothing marginal. -/
def full : BitVec 64 := 0xC000000000000000

theorem top31 : topBit tgs[(0 : Fin 12)] 32 31 := ⟨by decide, by decide, fun j _ _ => by omega⟩
theorem top30 : topBit tgs[(0 : Fin 12)] 31 30 := ⟨by decide, by decide, fun j _ _ => by omega⟩

theorem witness_RecordRowPasses :
    (let c := burning .burnRow .rowCheck burn0
     (board c).answers 0 c .rowCheck (good 0) ∧ (board c).inTouchdown 0 ∧ c.state = .burnRow ∧ c.burn = some burn0 ∧
       burn0.cur = .logical 0 ∧ burn0.spareWanted = false ∧ c.targets = some tgs ∧ c.haltPending = false ∧
       1 ≤ (board c).profile.w0 ∧ 1 ≤ (board c).profile.pmax ∧ 1 ≤ (board c).profile.cmax ∧
       blownMask (good 0).data = 0 ∧ marginalMask (good 0).data = 0 ∧ topBit tgs[(0 : Fin 12)] 32 31 ∧
       (Vector.replicate 12 (0 : FuseRow))[(0 : Fin 12)] = 0) ∧
    (let b := { burn0 with step := .verify }
     let c := burning .rowVerify .rowCheck b
     (board c).answers 0 c .rowCheck (good full) ∧ c.state = .rowVerify ∧ b.unsensed = false ∧
       blownMask (good full).data = tgs[(0 : Fin 12)] ∧ marginalMask (good full).data = 0 ∧
       (1 : Fin 12).val = (0 : Fin 12).val + 1 ∧ b.rowStates[(1 : Fin 12)] = .notStarted) ∧
    (let b := { burn0 with cur := .logical 11, step := .verify }
     let c := burning .rowVerify .rowCheck b
     (board c).answers 0 c .rowCheck (good full) ∧ b.cur = .logical 11 ∧
       blownMask (good full).data = tgs[(11 : Fin 12)] ∧ b.remapStates[(0 : Fin 2)] = .notStarted) :=
  ⟨⟨ok0 rfl (by decide), touch0 _, rfl, rfl, rfl, rfl, rfl, rfl, by decide, by decide, by decide, by decide, by decide,
      top31, by decide⟩,
    ⟨ok0 rfl (by decide), rfl, rfl, by decide, by decide, by decide, by decide⟩, ok0 rfl (by decide), rfl, by decide,
    by decide⟩

/-- A burn whose four spares are rejected; and one with spares 0 and 1 gone. -/
def spent : BurnState := { burn0 with rejected := [0, 1, 2, 3] }
def halfSpent : BurnState := { burn0 with remaps := [(5, 1)], rejected := [0] }

theorem spent_noSpareLeft : spent.noSpareLeft prof := by
  show ∀ i, i < 4 → i ∈ ([] : List Nat) ∨ i ∈ [0, 1, 2, 3]
  decide

theorem halfSpent_next : halfSpent.nextSpare prof 2 := by
  show 2 < 4 ∧ 2 ∉ [1] ∧ 2 ∉ [0] ∧ ∀ j, j < 2 → j ∈ [1] ∨ j ∈ [0]
  decide

theorem witness_BadRecordRowTakesSpare :
    (let c := burning .burnRow .rowCheck spent
     (board c).inTouchdown 0 ∧ c.burn = some spent ∧ spent.cur = .logical 0 ∧ spent.unsensed = false ∧
       c.targets = some tgs ∧ c.state = .burnRow ∧ (board c).refuses 0 c .rowCheck refusal ∧
       (board c).answers 0 c .rowCheck (good 1) ∧ marginalMask (good 1).data ≠ 0 ∧
       spent.noSpareLeft (board c).profile ∧ (board c).dryRun = false) ∧
    (let c := burning .rowVerify .rowCheck halfSpent
     c.state = .rowVerify ∧ (board c).answers 0 c .rowCheck (good 0) ∧ blownMask (good 0).data ≠ tgs[(0 : Fin 12)] ∧
       halfSpent.nextSpare (board c).profile 2 ∧ (board c).profile.spareUsable 2 = true ∧ c.haltPending = false) ∧
    (let c := burning .burnRow .armBit halfSpent
     c.state = .burnRow ∧ (board c).refuses 0 c .armBit refusal) :=
  ⟨⟨touch0 _, rfl, rfl, rfl, rfl, rfl, no0 rfl (by decide), ok0 rfl (by decide), by decide, spent_noSpareLeft, rfl⟩,
    ⟨rfl, ok0 rfl (by decide), by decide, halfSpent_next, by decide, rfl⟩, rfl, no0 rfl (by decide)⟩

/-- The board over a profile whose rows from 42 on are no PROGRAM rows, and over one where only row 42 is none. -/
def windowed (ws : List Window) (c : SiteCtx) : State :=
  { board c with chain := { chainOf touching with wafer := some { wafer7 with profile := { prof with windows := ws } } } }

theorem halfSpent_unusable : halfSpent.unusableBelow { prof with windows := [⟨0, 42, .program⟩] } 4 [2, 3] ∧
    halfSpent.unusableBelow { prof with windows := [⟨42, 1, .none⟩, ⟨0, 64, .program⟩] } 3 [2] := by
  have h : ∀ i, halfSpent.spareLeft prof i ↔ i = 2 ∨ i = 3 := by
    intro i
    show i < 4 ∧ i ∉ [1] ∧ i ∉ [0] ↔ i = 2 ∨ i = 3
    simp only [List.mem_singleton]
    omega
  refine ⟨⟨by decide, fun i => ?_, by decide⟩, ⟨by decide, fun i => ?_, by decide⟩⟩
  · show _ ↔ i < 4 ∧ halfSpent.spareLeft prof i
    rw [h i]; simp only [List.mem_cons, List.not_mem_nil, or_false]; omega
  · show _ ↔ i < 3 ∧ halfSpent.spareLeft prof i
    rw [h i]; simp only [List.mem_cons, List.not_mem_nil, or_false]; omega

theorem witness_BadRecordRowTakesSpare_unusable :
    (let c := burning .burnRow .rowCheck halfSpent
     let s := windowed [⟨0, 42, .program⟩] c
     s.inTouchdown 0 ∧ s.refuses 0 c .rowCheck refusal ∧ c.haltPending = false ∧
       halfSpent.unusableBelow s.profile s.profile.spareCount [2, 3] ∧ s.dryRun = false ∧ s.countersBounded) ∧
    (let c := burning .burnRow .rowCheck halfSpent
     let s := windowed [⟨42, 1, .none⟩, ⟨0, 64, .program⟩] c
     s.inTouchdown 0 ∧ s.refuses 0 c .rowCheck refusal ∧ halfSpent.unusableBelow s.profile 3 [2] ∧
       halfSpent.spareLeft s.profile 3 ∧ s.profile.spareUsable 3 = true) ∧
    (let c := burning .burnRow .rowCheck spent
     (dryBoard c).inTouchdown 0 ∧ (dryBoard c).answers 0 c .rowCheck (good 1) ∧ spent.noSpareLeft (dryBoard c).profile ∧
       (dryBoard c).dryRun = true) := by
  refine ⟨⟨touch rfl, no_to (at0 _) rfl (by decide), rfl, halfSpent_unusable.1, rfl, ?_⟩,
    ⟨touch rfl, no_to (at0 _) rfl (by decide), halfSpent_unusable.2, ⟨by decide, by decide, by decide⟩, by decide⟩,
    touch_dry _, ok_dry rfl (by decide), spent_noSpareLeft, rfl⟩
  show ∀ i : Fin 16, (Vector.replicate 16 0)[i] ≤ counterMax
  decide

theorem witness_SpareCheckAnswered :
    (let b := { halfSpent with spareWanted := true }
     let c := burning .spareSelect .rowCheck b
     (board c).inTouchdown 0 ∧ c.state = .spareSelect ∧ c.burn = some b ∧ b.cur = .logical 0 ∧ b.spareWanted = true ∧
       b.unsensed = false ∧ c.targets = some tgs ∧ b.nextSpare (board c).profile 2 ∧
       (board c).answers 0 c .rowCheck (good 0) ∧ topBit tgs[(0 : Fin 12)] 32 31 ∧
       (board c).refuses 0 c .rowCheck refusal ∧ (board c).answers 0 c .rowCheck (good 0x400) ∧
       marginalMask (good 0x400).data ≠ 0 ∧ { b with rejected := b.rejected ++ [2] }.nextSpare (board c).profile 3 ∧
       (board c).profile.spareUsable 3 = true) ∧
    (let b := { halfSpent with spareWanted := true, rejected := [0, 2] }
     b.nextSpare prof 3 ∧ { b with rejected := b.rejected ++ [3] }.noSpareLeft prof) := by
  refine ⟨⟨touch0 _, rfl, rfl, rfl, rfl, rfl, rfl, halfSpent_next, ok0 rfl (by decide), top31, no0 rfl (by decide),
      ok0 rfl (by decide), by decide, ?_, by decide⟩, ?_, ?_⟩
  · show 3 < 4 ∧ 3 ∉ [1] ∧ 3 ∉ [0, 2] ∧ ∀ j, j < 3 → j ∈ [1] ∨ j ∈ [0, 2]
    decide
  · show 3 < 4 ∧ 3 ∉ [1] ∧ 3 ∉ [0, 2] ∧ ∀ j, j < 3 → j ∈ [1] ∨ j ∈ [0, 2]
    decide
  · show ∀ i, i < 4 → i ∈ [1] ∨ i ∈ [0, 2, 3]
    decide

/-- A burn at a remap row, and one at the lock row. -/
def remapping (j : Fin 2) : BurnState := { burn0 with stage := .remap, cur := .remap j }
def locking (bit : Nat) : BurnState := { pulsed with stage := .lock, cur := .lock, bit := bit }

theorem witness_RemapRowAnswered :
    (let c := burning .remapBurn .rowCheck (remapping 0)
     (board c).inTouchdown 0 ∧ c.burn = some (remapping 0) ∧ (remapping 0).spareWanted = false ∧
       (remapping 0).unsensed = false ∧ c.targets = some tgs ∧ (board c).answers 0 c .rowCheck (good 0) ∧
       c.state = .remapBurn ∧ remapTarget (remapping 0).remaps 0 = 0 ∧ c.haltPending = false ∧
       (remapping 0).remapStates[(1 : Fin 2)] = .notStarted ∧ (board c).dryRun = false ∧
       (board c).refuses 0 c .rowCheck refusal ∧ (board c).answers 0 c .rowCheck (good full) ∧
       blownMask (good full).data ≠ 0) ∧
    remapTarget (remapping 1).remaps 1 = 0 ∧
    (let c := burning .rowVerify .rowCheck (remapping 1)
     c.state = .rowVerify ∧ (board c).answers 0 c .rowCheck (good full) ∧
       blownMask (good full).data ≠ remapTarget (remapping 1).remaps 1) ∧
    (let c := burning .remapBurn .armBit (remapping 1)
     c.state = .remapBurn ∧ (board c).refuses 0 c .armBit refusal) :=
  ⟨⟨touch0 _, rfl, rfl, rfl, rfl, ok0 rfl (by decide), rfl, by decide, rfl, by decide, rfl, no0 rfl (by decide),
      ok0 rfl (by decide), by decide⟩, by decide, ⟨rfl, ok0 rfl (by decide), by decide⟩, rfl, no0 rfl (by decide)⟩

/-- Section 1.4: the remap entry (3, 0) alone, in remap row 0. -/
def remapped : BurnState := { remapping 0 with remaps := [(3, 0)] }

theorem witness_RemapRowAnswered_target :
    (let c := burning .remapBurn .rowCheck remapped
     (board c).answers 0 c .rowCheck (good 0) ∧ c.state = .remapBurn ∧ topBit (remapTarget remapped.remaps 0) 32 31) ∧
    (let c := burning .rowVerify .rowCheck remapped
     (board c).answers 0 c .rowCheck (good 0x9800000000000000) ∧ c.state = .rowVerify ∧
       blownMask (good 0x9800000000000000).data = remapTarget remapped.remaps 0 ∧
       marginalMask (good 0x9800000000000000).data = 0 ∧ remapped.remapStates[(1 : Fin 2)] = .notStarted) :=
  ⟨⟨ok0 rfl (by decide), rfl, by decide, by decide, fun j _ _ => by omega⟩, ok0 rfl (by decide), rfl, by decide,
    by decide, by decide⟩

/-- Lock check data: bits 2 and 0 blown; bit 2 alone. -/
def lock20 : BitVec 64 := 0x0000000500000002
def lock2 : BitVec 64 := 0x0000000400000003

theorem witness_LockStage :
    (let c := burning .lockBurn .rowCheck (locking 0)
     (board c).inTouchdown 0 ∧ (board c).dryRun = false ∧ c.state = .lockBurn ∧ c.burn = some (locking 0) ∧
       (locking 0).cur = .lock ∧ (board c).answers 0 c .rowCheck (good lock20) ∧
       ((blownMask (good lock20).data).getLsbD 2 && (blownMask (good lock20).data).getLsbD 0) = true ∧
       (board c).refuses 0 c .rowCheck refusal ∧ (board c).answers 0 c .rowCheck (good lock2) ∧
       ((blownMask (good lock2).data).getLsbD 1 = false ∧ (blownMask (good lock2).data).getLsbD 0 = false)) ∧
    (let b := { locking 2 with unsensed := true }
     let c := burning .sensing .senseBit b
     b.step = .bits ∧ b.spareWanted = false ∧ c.haltPending = false ∧ 1 ≤ (board c).profile.w0 ∧
       1 ≤ (board c).profile.pmax ∧ c.state = .sensing ∧ (board c).answers 0 c .senseBit (good 0x00C8000000000000) ∧
       senseCode (good 0x00C8000000000000).data ≤ (board c).profile.tb ∧ b.bit = 1 + 1 ∧
       b.rowStress < (board c).profile.cmax) ∧
    (let c := burning .lockBurn .armBit (locking 0)
     (locking 0).unsensed = false ∧ (board c).refuses 0 c .armBit refusal ∧ (locking 0).bit = 0) :=
  ⟨⟨touch0 _, rfl, rfl, rfl, rfl, ok0 rfl (by decide), by decide, no0 rfl (by decide), ok0 rfl (by decide), by decide⟩,
    ⟨rfl, rfl, rfl, by decide, by decide, rfl, ok0 rfl (by decide), by decide, rfl, by decide⟩, rfl, no0 rfl (by decide),
    rfl⟩

theorem witness_LockStage_grows :
    (let c := burning .lockBurn .rowCheck (locking 0)
     (dryBoard c).inTouchdown 0 ∧ (dryBoard c).dryRun = true ∧ (dryBoard c).answers 0 c .rowCheck (good 0x0000000700000000) ∧
       (blownMask (good 0x0000000700000000).data).extractLsb' 0 3 = 7 ∧ (dryBoard c).answers 0 c .rowCheck (good 0) ∧
       (blownMask (good 0).data).extractLsb' 0 3 = 0) ∧
    (let b := { locking 2 with unsensed := true }
     let c := burning .sensing .senseBit b
     (board c).refuses 0 c .senseBit refusal ∧ (board c).answers 0 c .senseBit (good 0x00C9000000000000) ∧
       (board c).profile.tb < senseCode (good 0x00C9000000000000).data ∧ 1 ≤ b.width ∧ 1 ≤ (board c).profile.wmax ∧
       (board c).profile.tb < 1023 ∧ b.bitPulses ≠ (board c).profile.pmax ∧ b.rowStress < (board c).profile.cmax ∧
       { b with bitPulses := 6 }.bitPulses = (board c).profile.pmax ∧
       (board c).profile.cmax ≤ { b with rowStress := 1000 }.rowStress) :=
  ⟨⟨touch_dry _, rfl, ok_dry rfl (by decide), by decide, ok_dry rfl (by decide), by decide⟩, no0 rfl (by decide),
    ok0 rfl (by decide), by decide, by decide, by decide, by decide, by decide, by decide, rfl, by decide⟩

/-- The board with channels and a waiting set. -/
def channelled (c : SiteCtx) (chans : Vector Channel 4) (w : List GrantRequest) : State :=
  { board c with chans := chans, waiting := w }

def req (n : Site) (arb : Nat) : GrantRequest := { site := n, arb := arb, width := 40, timer := 0 }

/-- Channel 0 drives for site 1, channel 1 settles, channels 2 and 3 are OFFLINE; and the same with 2 and 3 READY. -/
def busyChans : Vector Channel 4 := #v[⟨.driving 1 40 39, true⟩, ⟨.settling 500, true⟩, ⟨.offline, false⟩, ⟨.offline, false⟩]
def readyChans : Vector Channel 4 := #v[⟨.driving 1 40 39, true⟩, ⟨.settling 500, true⟩, ⟨.ready, true⟩, ⟨.ready, true⟩]

theorem witness_ArbiterGrants :
    (let c := burning .burnRow .armBit pulsed
     (channelled c busyChans []).answers 0 c .armBit (good 0) ∧ (channelled c busyChans []).inTouchdown 0 ∧
       c.burn = some pulsed ∧ c.haltPending = false ∧
       (∀ d : Chan, (channelled c busyChans []).chans[d].state ≠ .ready) ∧
       (channelled c readyChans []).answers 0 c .armBit (good 0) ∧ (channelled c readyChans []).waiting = [] ∧
       (channelled c readyChans []).chans[(2 : Chan)].state = .ready ∧
       ∀ e : Chan, e < 2 → (channelled c readyChans []).chans[e].state ≠ .ready) ∧
    (let c := { burning .waitGrant .armBit pulsed with exch := none }
     let s := channelled c busyChans [req 3 12, req 0 63]
     s.chans[(1 : Chan)].state = .settling 500 ∧ (∀ e : Chan, s.chans[e].state ≠ .ready) ∧ req 0 63 ∈ s.waiting ∧
       (∀ q ∈ s.waiting, q.site = (req 0 63).site → q = req 0 63) ∧
       (∀ q ∈ s.waiting, q ≠ req 0 63 → q.arb < (req 0 63).arb) ∧ s.sites[(0 : Site)] = some c) :=
  ⟨⟨ok_to (at0 _) rfl (by decide), touch rfl, rfl, rfl, by decide, ok_to (at0 _) rfl (by decide), rfl, by decide,
      by decide⟩, by decide, by decide, by decide, by decide, by decide, at0 _⟩

/-- A board whose channel 0 drives for site 0. -/
def drivenBy (c : SiteCtx) : State :=
  channelled c #v[⟨.driving 0 90 90, true⟩, ⟨.ready, true⟩, ⟨.offline, false⟩, ⟨.settling 0, true⟩] []

theorem witness_PulseCompletionCharges :
    (∀ n w e, State.reset.chans[(0 : Chan)].state ≠ .driving n w e) ∧
    (let c := { burning .pulsing .armBit pulsed with exch := none }
     (drivenBy c).chans[(0 : Chan)].state = .driving 0 90 90 ∧ (drivenBy c).sites[(0 : Site)] = some c ∧
       c.burn = some pulsed ∧ (drivenBy c).waiting = []) :=
  ⟨not_driving (by decide) 0, rfl, at0 _, rfl, rfl⟩

/-- Channel 0 drives for site 0 with no channel READY and two requests waiting, of which site 1's has the higher
number. -/
theorem witness_PulseCompletionCharges_waiting :
    let c := { burning .pulsing .armBit pulsed with exch := none }
    let s := channelled c #v[⟨.driving 0 90 90, true⟩, ⟨.offline, false⟩, ⟨.offline, false⟩, ⟨.settling 0, true⟩]
      [req 3 12, req 1 13]
    s.chans[(0 : Chan)].state = .driving 0 90 90 ∧ s.sites[(0 : Site)] = some c ∧ c.burn = some pulsed ∧
      (∀ i : Chan, s.chans[i].state ≠ .ready) ∧ req 1 13 ∈ s.waiting ∧ (req 1 13).site ≠ 0 ∧
      s.sites[(req 1 13).site].isSome ∧
      ∀ q ∈ s.waiting, q ≠ req 1 13 → q.arb < (req 1 13).arb ∧ q.site ≠ (req 1 13).site :=
  ⟨rfl, at0 _, rfl, by decide, by decide, by decide, by decide, by decide⟩

theorem witness_RegulationMovesChannel :
    (State.reset.chans[(0 : Chan)].state ≠ .offline ∧ ∀ n w e, State.reset.chans[(0 : Chan)].state ≠ .driving n w e) ∧
    (let c := { burning .pulsing .armBit pulsed with exch := none }
     (drivenBy c).chans[(0 : Chan)].state = .driving 0 90 90 ∧ (drivenBy c).sites[(0 : Site)] = some c ∧
       c.burn = some pulsed ∧ (drivenBy c).chans[(2 : Chan)].state = .offline) :=
  ⟨⟨by decide, not_driving (by decide) 0⟩, rfl, at0 _, rfl, rfl⟩

theorem witness_TimersEnd :
    (let c := { burning .settling .senseBit pulsed with exch := none }
     (board c).sites[(0 : Site)] = some c ∧ c.state = .settling ∧ c.burn = some pulsed) ∧
    (let c := { burning .waitGrant .armBit burn0 with exch := none }
     let s := channelled c busyChans [req 0 63]
     s.sites[(0 : Site)] = some c ∧ (∃ r ∈ s.waiting, r.site = 0) ∧ c.totalPulses = 0 ∧ s.dryRun = false) ∧
    (burning .waitGrant .armBit pulsed).totalPulses ≠ 0 ∧ (∀ r ∈ State.reset.waiting, r.site ≠ 0) ∧
    (State.reset.chans[(3 : Chan)].state = .settling 0 ∧ State.reset.waiting = []) :=
  ⟨⟨at0 _, rfl, rfl⟩, ⟨at0 _, by decide, rfl, rfl⟩, by decide, by decide, rfl, rfl⟩

theorem witness_TimersEnd_dry :
    let c := { burning .waitGrant .armBit burn0 with exch := none }
    let s := { dryBoard c with chans := busyChans, waiting := [req 0 63] }
    s.sites[(0 : Site)] = some c ∧ (∃ r ∈ s.waiting, r.site = 0) ∧ c.totalPulses = 0 ∧ s.dryRun = true :=
  ⟨at0 _, by decide, rfl, rfl⟩

/-- Sense codes 200 = Tb and 201. -/
def sense200 : BitVec 64 := 0x00C8000000000000
def sense201 : BitVec 64 := 0x00C9000000000000

/-- Row 0 in its bit loop at a bit. -/
def sensing (bit pulses : Nat) : BurnState :=
  { pulsed with rowStates := pulsed.rowStates.set 0 .inProgress, bit := bit, bitPulses := pulses, unsensed := true }

theorem witness_SenseCodeDecidesBit :
    (let c := burning .sensing .senseBit (sensing 31 3)
     (board c).inTouchdown 0 ∧ c.state = .sensing ∧ c.burn = some (sensing 31 3) ∧
       (sensing 31 3).onRow prof tgs .burnRow 16 tgs[(0 : Fin 12)] ∧ (sensing 31 3).step = .bits ∧
       (sensing 31 3).spareWanted = false ∧ c.targets = some tgs ∧ c.haltPending = false ∧
       (1 ≤ (board c).profile.w0 ∧ 1 ≤ (board c).profile.wmax ∧ 1 ≤ (board c).profile.pmax ∧
         (board c).profile.tb < 1023) ∧
       (board c).answers 0 c .senseBit (good sense200) ∧ senseCode (good sense200).data = (board c).profile.tb ∧
       topBit tgs[(0 : Fin 12)] (sensing 31 3).bit 30 ∧ (sensing 31 3).rowStress < (board c).profile.cmax ∧
       (board c).refuses 0 c .senseBit refusal ∧ (board c).answers 0 c .senseBit (good sense201) ∧
       (board c).profile.tb < senseCode (good sense201).data ∧ 1 ≤ (sensing 31 3).width ∧
       (sensing 31 3).bitPulses ≠ (board c).profile.pmax) ∧
    (∀ i, i < (sensing 30 3).bit → tgs[(0 : Fin 12)].getLsbD i = false) ∧
    (let b := { sensing 31 6 with rejected := [0, 1, 2, 3] }
     let c := burning .sensing .senseBit b
     b.bitPulses = (board c).profile.pmax ∧ b.noSpareLeft (board c).profile ∧ (board c).dryRun = false) ∧
    (board (burning .sensing .senseBit { sensing 31 3 with rowStress := 1000 })).profile.cmax ≤ 1000 := by
  refine ⟨⟨touch0 _, rfl, rfl, .inl ⟨0, rfl, by decide, rfl, by decide, rfl⟩, rfl, rfl, rfl, rfl, by decide,
      ok0 rfl (by decide), by decide, top30,
      by decide, no0 rfl (by decide), ok0 rfl (by decide), by decide, by decide, by decide⟩, ?_,
    ⟨rfl, spent_noSpareLeft, rfl⟩, by decide⟩
  show ∀ i, i < 30 → tgs[(0 : Fin 12)].getLsbD i = false
  decide

/-- A bit that is spent with spare 2 unusable and spare 3 left, and a bit of a remap row. -/
theorem witness_SenseCodeDecidesBit_rows :
    (let b := { sensing 31 6 with remaps := [(5, 1)], rejected := [0] }
     b.bitPulses = prof.pmax ∧ b.cur = .logical 0 ∧ b.spareLeft prof 3 ∧ b.spareLeft prof 2 ∧
       prof.spareUsable 2 = true ∧ b.unusableBelow prof 2 []) ∧
    (let b := { remapped with
                  remapStates := remapped.remapStates.set 0 .inProgress, unsensed := true, bitPulses := 6 }
     b.onRow prof tgs .remapBurn 30 (remapTarget remapped.remaps 0) ∧ b.cur = .remap 0 ∧ b.step = .bits ∧
       topBit (remapTarget remapped.remaps 0) b.bit 28 ∧ b.bitPulses = prof.pmax) := by
  refine ⟨⟨rfl, rfl, ⟨by decide, by decide, by decide⟩, ⟨by decide, by decide, by decide⟩, by decide,
      List.Pairwise.nil, fun i => ?_, by decide⟩,
    .inr ⟨0, rfl, by decide, rfl, rfl, rfl⟩, rfl, rfl, ⟨by decide, by decide, fun j h1 h2 => ?_⟩, rfl⟩
  · show i ∈ [] ↔ i < 2 ∧ i < 4 ∧ i ∉ [1] ∧ i ∉ [0]
    simp only [List.not_mem_nil, List.mem_singleton, false_iff]
    omega
  · have h : ∀ j : Fin 31, 28 < j.val → (remapTarget remapped.remaps 0).getLsbD j = false := by decide
    exact h ⟨j, h2⟩ h1

/-- In a dry run a spent bit of a record row without a spare left, and one of a remap row. -/
theorem witness_SenseCodeDecidesBit_dry :
    (let b := { sensing 31 6 with rejected := [0, 1, 2, 3] }
     let c := burning .sensing .senseBit b
     (dryBoard c).dryRun = true ∧ (dryBoard c).answers 0 c .senseBit (good sense201) ∧
       (dryBoard c).profile.tb < senseCode (good sense201).data ∧ b.bitPulses = (dryBoard c).profile.pmax ∧
       b.cur = .logical 0 ∧ b.noSpareLeft (dryBoard c).profile) ∧
    (let b := { remapped with remapStates := remapped.remapStates.set 0 .inProgress, bitPulses := 6 }
     (dryBoard (burning .sensing .senseBit b)).dryRun = true ∧ b.cur = .remap 0) :=
  ⟨⟨rfl, ok_dry rfl (by decide), by decide, rfl, rfl, spent_noSpareLeft⟩, rfl, rfl⟩

theorem witness_HaltStopsAtBoundary :
    (let c := { burning .burnRow .armBit burn0 with haltPending := true }
     (board c).answers 0 c .armBit (good 0) ∧ (board c).inTouchdown 0 ∧ c.burn = some burn0 ∧ c.haltPending = true ∧
       burn0.totalPulses = 0 ∧ (board c).dryRun = false ∧ pulsed.totalPulses ≠ 0) ∧
    (let c := { burning .waitGrant .armBit burn0 with exch := none }
     (board c).sites[(0 : Site)] = some c ∧ c.state = .waitGrant ∧ c.totalPulses = 0) ∧
    (burning .waitGrant .armBit pulsed).totalPulses ≠ 0 :=
  ⟨⟨ok0 rfl (by decide), touch0 _, rfl, rfl, rfl, rfl, by decide⟩, ⟨at0 _, rfl, rfl⟩, by decide⟩

/-- The board with HALT_ON_ERROR set and site 1 in CLOSING. -/
def haltable (c : SiteCtx) (u : DieTableUnit) : State :=
  { closingBy c with
    chain := { chainOf touching with block := some { blk touching with haltOnError := true } }, dies := u }

theorem haltable_still (c : SiteCtx) (u : DieTableUnit) : (haltable c u).stillEnding 0 :=
  ⟨1, { e1.context 1 with state := .closing }, by decide, ⟨_, _, _, _, rfl, rfl, e1, by simp, rfl⟩,
    by simp [haltable, closingBy], .inl rfl⟩

theorem witness_HaltStopsAtBoundary_start :
    (∀ c u, (haltable c u).chain.block = some { blk touching with haltOnError := true } ∧
      (blk touching).work = .touchdown [e0, e1] true false false ∧ (haltable c u).sites[(0 : Site)] = some c ∧
      (haltable c u).stillEnding 0) ∧
    (let c := { asking .hail .hello with lanesUsed := .reversed }
     c.state = .hail ∧ (∃ e, c.exch = some e ∧ min 3 (haltable c .reset).profile.frameRetries ≤ e.resends) ∧
       ¬(c.lanesAsked = .auto ∧ c.lanesUsed = .normal)) ∧
    (let u := { DieTableUnit.reset with entries := [(⟨102, 9⟩, ⟨.void, 0⟩)], queue := [.lookup 0 ⟨102, 9⟩] }
     u.queue = .lookup 0 ⟨102, 9⟩ :: [] ∧ tableFind u.entries ⟨102, 9⟩ = some ⟨.void, 0⟩) ∧
    (let u := { DieTableUnit.reset with queue := [.park 0] }
     u.queue = .park 0 :: [] ∧ u.parked.length < 64) :=
  ⟨fun c u => ⟨rfl, rfl, at_closing c, haltable_still c u⟩,
    ⟨rfl, ⟨_, rfl, by decide⟩, by decide⟩, ⟨rfl, rfl⟩, rfl, by decide⟩

/-- A third site whose lookup waits as the halt starts: the request is withdrawn and its site ends (log 9). -/
theorem witness_HaltStopsAtBoundary_withdraws :
    let u := { DieTableUnit.reset with queue := [.lookup 2 ⟨7, 7⟩] }
    let s := { haltable (asking .hail .hello) u with
                 sites := (haltable (asking .hail .hello) u).sites.set 2 (some (resting .lookup)) }
    (2 : Site) ≠ 0 ∧ s.sites[(2 : Site)] = some (resting .lookup) ∧ (resting .lookup).state ∈ [.lookup, .prep] ∧
      s.hasTableRequest 2 = true := by
  intro u s
  exact ⟨by decide, by simp [s], by decide, rfl⟩

theorem witness_HaltStopsAtBoundary_burn :
    (let b := sensing 31 3
     let c := { burning .sensing .senseBit b with haltPending := true }
     (board c).inTouchdown 0 ∧ c.burn = some b ∧ c.targets = some tgs ∧ c.haltPending = true ∧
       (board c).answers 0 c .senseBit (good sense200) ∧ senseCode (good sense200).data ≤ (board c).profile.tb ∧
       b.onRow prof tgs .burnRow 16 tgs[(0 : Fin 12)] ∧ topBit tgs[(0 : Fin 12)] b.bit 30 ∧
       (board c).answers 0 c .senseBit (good sense201) ∧ (board c).profile.tb < senseCode (good sense201).data) ∧
    (let c := { burning .rowVerify .rowCheck { burn0 with step := .verify } with haltPending := true }
     (board c).answers 0 c .rowCheck (good full) ∧ marginalMask (good full).data = 0 ∧
       blownMask (good full).data = tgs[(0 : Fin 12)] ∧ (1 : Fin 12).val = (0 : Fin 12).val + 1) ∧
    (let c := { burning .burnRow .rowCheck burn0 with haltPending := true }
     (board c).answers 0 c .rowCheck (good 0) ∧ blownMask (good 0).data = 0 ∧ marginalMask (good 0).data = 0 ∧
       topBit tgs[(0 : Fin 12)] 32 31 ∧ (board c).refuses 0 c .rowCheck refusal ∧ burn0.spareLeft prof 0) ∧
    (let c := { burning .resumeCheck .rowCheck burn0 with haltPending := true }
     (board c).answers 0 c .rowCheck (good full) ∧ c.state = .resumeCheck ∧
       burn0.rowAt prof tgs c.checkIndex 16 (blownMask (good full).data)) :=
  ⟨⟨touch0 _, rfl, rfl, rfl, ok0 rfl (by decide), by decide, .inl ⟨0, rfl, by decide, rfl, by decide, rfl⟩, top30,
      ok0 rfl (by decide), by decide⟩,
    ⟨ok0 rfl (by decide), by decide, by decide, by decide⟩,
    ⟨ok0 rfl (by decide), by decide, by decide, top31, no0 rfl (by decide), by decide, by decide, by decide⟩,
    ok0 rfl (by decide), rfl, .inl ⟨0, rfl, by decide, by decide⟩⟩

/-! ### Witnesses: key unit and composition -/

/-- Blobs whose eight tag bytes are the tags over their contents, the root blob's moved by `k`. -/
def blobs (k : BitVec 64) : ImportStore where
  rootBlob := List.replicate 36 0 ++
    leBytes 8 (Config.rootTag Config.importKey (Config.unwrapRoot Config.importKey (List.replicate 36 0)) + k).toNat
  transportBlob := List.replicate 32 0 ++
    leBytes 8 (Config.transportTag Config.importKey
      (Config.unwrapTransport Config.importKey (List.replicate 32 0))).toNat

theorem tag_bytes (v : BitVec 64) : BitVec.ofNat 64 (leNat (leBytes 8 v.toNat)) = v := by
  rw [leNat_leBytes]; apply BitVec.eq_of_toNat_eq; simp only [BitVec.toNat_ofNat]; have := v.isLt; omega

theorem blobs_root (k : BitVec 64) :
    BitVec.ofNat 64 (leNat ((blobs k).rootBlob.drop 36)) = Config.rootTag Config.importKey (blobs k).root + k := by
  have h1 : (blobs k).rootBlob.drop 36 = leBytes 8 (Config.rootTag Config.importKey
      (Config.unwrapRoot Config.importKey (List.replicate 36 0)) + k).toNat := List.drop_left' List.length_replicate
  have h2 : (blobs k).root = Config.unwrapRoot Config.importKey (List.replicate 36 0) :=
    congrArg _ (List.take_left' List.length_replicate)
  rw [h1, h2, tag_bytes]

theorem blobs_transport (k : BitVec 64) :
    BitVec.ofNat 64 (leNat ((blobs k).transportBlob.drop 32)) =
      Config.transportTag Config.importKey (blobs k).transport := by
  have h1 : (blobs k).transportBlob.drop 32 = leBytes 8 (Config.transportTag Config.importKey
      (Config.unwrapTransport Config.importKey (List.replicate 32 0))).toNat := List.drop_left' List.length_replicate
  have h2 : (blobs k).transport = Config.unwrapTransport Config.importKey (List.replicate 32 0) :=
    congrArg _ (List.take_left' List.length_replicate)
  rw [h1, h2, tag_bytes]

/-- A LOAD_KEYS in hand with the blobs. -/
def importing (k : BitVec 64) : State :=
  { State.reset with
    mem := linked, chain := { chainOf .loadKeys with wafer := none }
    keys := { KeyUnit.reset with importing := some (blobs k) } }

theorem witness_KeyImportDecided :
    State.reset.keys.importing = none ∧
    ((importing 0).keys.importing = some (blobs 0) ∧ (importing 0).chain.block = some (blk .loadKeys) ∧
      (blk .loadKeys).work = .loadKeys ∧ (importing 0).waitsAfter (blk .loadKeys) 65535 ∧
      Config.rootTag Config.importKey (blobs 0).root = BitVec.ofNat 64 (leNat ((blobs 0).rootBlob.drop 36)) ∧
      Config.transportTag Config.importKey (blobs 0).transport =
        BitVec.ofNat 64 (leNat ((blobs 0).transportBlob.drop 32))) ∧
    ((importing 1).waitsAfter (blk .loadKeys) 65535 ∧
      Config.rootTag Config.importKey (blobs 1).root ≠ BitVec.ofNat 64 (leNat ((blobs 1).rootBlob.drop 36))) := by
  refine ⟨rfl, ⟨rfl, rfl, rfl, waits rfl rfl rfl rfl, ?_, (blobs_transport 0).symm⟩, waits rfl rfl rfl rfl, ?_⟩
  · rw [blobs_root]; simp
  · rw [blobs_root]; simp

theorem witness_KeysChangeOnlyByImport :
    (∀ inp, Instr.derivationQueueServe ≠ .linkReset inp) ∧ Instr.derivationQueueServe ≠ .keyImportComplete ∧
      (∀ inp tookNew, Instr.derivationQueueServe ≠ .powerOnReset inp tookNew) ∧
      ∃ t, exec .derivationQueueServe State.reset = .next t :=
  ⟨fun _ => (nomatch ·), by decide, fun _ _ => (nomatch ·), _, rfl⟩

/-- Site 0 waits at the head of the derivation queue of a key unit. -/
def deriving0 (k : KeyUnit) : State :=
  { board { burning .issueWait .rowCheck burn0 with exch := none, placeHeld := true } with
    keys := { k with queue := [⟨0, ⟨102, 9⟩⟩] } }

/-- A key unit with keys, an allocator state, next, limit and H. -/
def unit (a : AllocState) (next limit h : Nat) : KeyUnit :=
  { KeyUnit.reset with loaded := true, alloc := a, next := next, limit := limit, h := h, reserve := h }

theorem witness_DerivationQueueServed :
    (∀ k : KeyUnit, k.derivation = none → (deriving0 k).keys.queue = ⟨0, ⟨102, 9⟩⟩ :: [] ∧
      (deriving0 k).keys.derivation = none ∧ (∃ c, (deriving0 k).sites[(0 : Site)] = some c ∧ c.state = .issueWait ∧
      c.placeHeld = true) ∧ (deriving0 k).inTouchdown 0 ∧ (deriving0 k).noHalt ∧ (deriving0 k).othersRun 0 ∧
      (deriving0 k).chain.wafer = some wafer7) ∧
    ((deriving0 .reset).keys.loaded = false ∧ (deriving0 .reset).keys.alloc ≠ .reserving) ∧
    (deriving0 (unit .fault 1 1 1)).keys.alloc = .fault ∧ (deriving0 (unit .exhausted 1 1 1)).keys.alloc = .exhausted ∧
    (deriving0 (unit .reserving 1 1 1)).keys.alloc = .reserving ∧
    (let k := (deriving0 (unit .ready 256 257 257)).keys
     k.loaded = true ∧ k.alloc = .ready ∧ k.next < k.limit) ∧
    (let k := (deriving0 (unit .ready 1 1 (2 ^ 40 - 256))).keys
     k.loaded = true ∧ k.alloc = .ready ∧ k.next = k.limit ∧ k.h + 256 ≤ 2 ^ 40) ∧
    (let k := (deriving0 (unit .ready 1 1 (2 ^ 40 - 255))).keys
     k.next = k.limit ∧ 2 ^ 40 < k.h + 256) := by
  refine ⟨fun k hk => ⟨rfl, hk, ⟨_, at0 _, rfl, rfl⟩, touch rfl, calm rfl, others rfl (by rfl), rfl⟩, ?_⟩
  decide

theorem witness_ReservationReports :
    (let s := { State.reset with keys := { unit .reserving 1 1 1 with writeInFlight := some 257 } }
     s.keys.writeInFlight = some 257 ∧ s.reg.resetting = false) ∧
    (let s := { inReset with keys := { unit .reserving 1 1 1 with writeInFlight := some 257 } }
     s.keys.writeInFlight = some 257 ∧ s.reg.resetting = true) ∧ State.reset.keys.writeInFlight = none :=
  ⟨⟨rfl, rfl⟩, ⟨rfl, rfl⟩, rfl⟩

theorem witness_DerivationCompletes :
    let d : Derivation := { serial := 256, key := dryRunKey }
    let s := deriving0 { unit .ready 256 257 257 with derivation := some d }
    s.keys.derivation = some d ∧ s.keys.queue = ⟨0, ⟨102, 9⟩⟩ :: [] ∧
      (∃ c, s.sites[(0 : Site)] = some c ∧ c.identity = some ident7) ∧ s.chain.wafer = some wafer7 :=
  ⟨rfl, rfl, ⟨_, at0 _, rfl⟩, rfl⟩

theorem compose7 : compose wafer7 req7 = .ok ident7 := by
  have h : (compose wafer7 req7).toOption = some ident7 := by decide
  revert h
  cases compose wafer7 req7 <;> simp [Except.toOption]

/-- Site 0 waits for the composition unit, whose wafer may be another one. -/
def composing (w : WaferContext) : State :=
  { board { asking .prep .rowCheck with exch := none } with
    chain := { chainOf touching with wafer := some w }
    comp := [{ site := 0, lot := w.lot, number := w.number, die := ⟨102, 9⟩ }] }

/-- A wafer whose list places 17 characters. -/
def overfull : WaferContext := { wafer7 with steps := [.lot 12, .lot 5] }

theorem composeOverfull : compose overfull req7 = .error .overflow := by
  have h : (answer overfull req7).2 = some .overflow := by decide
  revert h
  unfold answer
  cases compose overfull req7 <;> simp

theorem witness_CompositionAnswered :
    State.reset.comp = [] ∧
    ((composing wafer7).comp = req7 :: [] ∧ (composing wafer7).chain.wafer = some wafer7 ∧ wafer7.lot = req7.lot ∧
      (∃ c, (composing wafer7).sites[(0 : Site)] = some c ∧ c.state = .prep ∧ c.haltPending = false) ∧
      (composing wafer7).inTouchdown 0 ∧ compose wafer7 req7 = .ok ident7) ∧
    ((composing overfull).comp = req7 :: [] ∧ compose overfull req7 = .error .overflow ∧ (composing overfull).noHalt ∧
      (composing overfull).othersRun 0) :=
  ⟨rfl, ⟨rfl, rfl, rfl, ⟨_, at0 _, rfl, rfl⟩, touch rfl, compose7⟩, rfl, composeOverfull, calm rfl,
    others rfl (by rfl)⟩

theorem witness_ComposedIdentityReadsBack :
    wafer7.table.length = 64 ∧ wafer7.table.Nodup ∧ (∀ ch ∈ wafer7.lot, ch ∈ wafer7.table) ∧ wafer7.lot.length ≤ 12 ∧
      compose wafer7 req7 = .ok ident7 := ⟨by decide, by decide, by decide, by decide, compose7⟩

/-! ### Witnesses: die table -/

/-- Site 0 with a request at the head of the die table unit's queue, over a die table unit. -/
def tabled (c : SiteCtx) (r : TableRequest) (u : DieTableUnit) : State :=
  { board c with dies := { u with queue := [r] } }

/-- A die table unit that holds one entry for die (102, 9). -/
def oneEntry (st : EntryState) : DieTableUnit := { DieTableUnit.reset with entries := [(⟨102, 9⟩, ⟨st, 6671⟩)] }

theorem witness_LookupFindsSettledDie :
    (∀ u : DieTableUnit, let s := tabled (resting .lookup) (.lookup 0 ⟨102, 9⟩) u
      s.dies.queue = .lookup 0 ⟨102, 9⟩ :: [] ∧ s.sites[(0 : Site)] = some (resting .lookup) ∧
        (resting .lookup).state = .lookup ∧ s.noHalt ∧ s.othersRun 0 ∧ s.mem.wf = true) ∧
    (∀ st, tableFind (oneEntry st).entries ⟨102, 9⟩ = some ⟨st, 6671⟩) ∧ (6671 : Nat) < 2 ^ 40 ∧
    tableFind DieTableUnit.reset.entries ⟨102, 9⟩ = none ∧ { resting .lookup with locked := some true }.locked = some true :=
  ⟨fun _ => ⟨rfl, at0 _, rfl, calm rfl, others rfl (by rfl), rfl⟩, fun _ => rfl, by decide, rfl, rfl⟩

/-- The tabled board over another profile. -/
def profiled (p : Profile) : State :=
  { tabled (resting .lookup) (.lookup 0 ⟨102, 9⟩) .reset with
    chain := { chainOf touching with wafer := some { wafer7 with profile := p } } }

theorem witness_AbsentDieIsPrepared :
    (∀ p : Profile, (profiled p).dies.queue = .lookup 0 ⟨102, 9⟩ :: [] ∧ (profiled p).sites[(0 : Site)] =
      some (resting .lookup) ∧ (resting .lookup).locked = some false ∧ (resting .lookup).haltPending = false ∧
      (profiled p).inTouchdown 0 ∧ tableFind (profiled p).dies.entries ⟨102, 9⟩ = none ∧ (profiled p).noHalt ∧
      (profiled p).othersRun 0 ∧ (profiled p).profile = p) ∧
    (resting .lookup).rows = some 64 ∧
    (∃ r ∈ { prof with lockRow := 64 }.fixedRows, rowAccess prof.windows r ≠ .program) ∧
    ((∀ r ∈ { prof with lockRow := 63 }.fixedRows, rowAccess prof.windows r = .program) ∧
      ∃ r ∈ { prof with lockRow := 63 }.fixedRows, 63 ≤ r) ∧
    ((∀ r ∈ { prof with lockRow := 30 }.fixedRows, rowAccess prof.windows r = .program) ∧
      ¬{ prof with lockRow := 30 }.fixedRows.Nodup) ∧
    ((∀ r ∈ prof.fixedRows, rowAccess prof.windows r = .program ∧ r < 33) ∧ prof.fixedRows.Nodup) := by
  refine ⟨fun p => ⟨rfl, at0 _, rfl, rfl, touch rfl, rfl, calm rfl, others rfl (by rfl), rfl⟩, rfl, ?_⟩
  decide

/-- A parked context of die (102, 9) with row 0 DONE. -/
def parked0 (st : ParkStatus) : ParkedContext where
  status := st
  die := ⟨102, 9⟩
  serial := 6671
  key := dryRunKey
  check := 672
  identity := ident7
  burn := { pulsed with rowStates := (pulsed.rowStates.set 0 .done).set 2 .done }
  touchdowns := 255

theorem first_done : (parked0 .held).burn.firstDone 0 0 ∧ (parked0 .held).burn.firstDone 1 2 := by
  have h : ∀ j : Fin 12, (parked0 .held).burn.rowStates[j] = .done → j = 0 ∨ j = 2 := by decide
  refine ⟨⟨Nat.le_refl 0, .inl ⟨0, rfl, by decide⟩, fun j _ hj => by omega⟩,
    ⟨by decide, .inl ⟨2, rfl, by decide⟩, fun j h1 h2 hd => ?_⟩⟩
  rcases hd with ⟨k, hk, hd⟩ | ⟨k, hk, -⟩
  · rcases h k hd with rfl | rfl
    · exact absurd hk (by omega)
    · exact absurd hk (by omega)
  · omega

theorem none_done : ∀ i, ¬burn0.doneAt i := by
  rintro i (⟨k, -, h⟩ | ⟨k, -, h⟩)
  · revert h; revert k; decide
  · revert h; revert k; decide

/-- A parked context without a DONE row, whose last pulse is not sensed. -/
def parkedFresh : ParkedContext := { parked0 .held with burn := { burn0 with unsensed := true, totalPulses := 1 } }

theorem witness_ParkedDieResumes :
    (∀ p : ParkedContext, p.isHeld = true → p.die = ⟨102, 9⟩ →
      let s := tabled (resting .lookup) (.lookup 0 ⟨102, 9⟩) { oneEntry .parked with parked := [p] }
      s.dies.queue = .lookup 0 ⟨102, 9⟩ :: [] ∧ s.sites[(0 : Site)] = some (resting .lookup) ∧
        (resting .lookup).haltPending = false ∧ s.inTouchdown 0 ∧ s.profile = prof ∧
        tableFind s.dies.entries ⟨102, 9⟩ = some ⟨.parked, 6671⟩ ∧
        (s.dies.parked.filter fun q => q.isHeld && decide (q.die = ⟨102, 9⟩)) = [p]) ∧
    ((parked0 .held).burn.firstDone 0 0 ∧ ∀ tg : Vector FuseRow 12,
      (parked0 .held).burn.rowAt prof tg 0 16 tg[(0 : Fin 12)]) ∧
    ((∀ i, ¬parkedFresh.burn.doneAt i) ∧ parkedFresh.burn.firstStep prof .sensing .senseBit 16 31) := by
  refine ⟨fun p hh hd => ⟨rfl, at0 _, rfl, touch rfl, rfl, rfl, ?_⟩, ⟨first_done.1, fun tg => .inl ⟨0, rfl, by decide, rfl⟩⟩,
    none_done, .inl ⟨rfl, rfl, rfl, by decide, rfl⟩⟩
  show [p].filter (fun q => q.isHeld && decide (q.die = ⟨102, 9⟩)) = [p]
  simp [hh, hd]

theorem witness_ParkedDieResumes_checks :
    (let b := (parked0 .held).burn
     let c := burning .resumeCheck .rowCheck b
     (board c).inTouchdown 0 ∧ c.state = .resumeCheck ∧ c.burn = some b ∧ c.targets = some tgs ∧
       b.rowAt (board c).profile tgs c.checkIndex 16 tgs[(0 : Fin 12)] ∧ (board c).refuses 0 c .rowCheck refusal ∧
       (board c).answers 0 c .rowCheck (good 0) ∧ blownMask (good 0).data ≠ tgs[(0 : Fin 12)] ∧ (board c).dryRun = false ∧
       (dryBoard c).dryRun = true ∧ (board c).answers 0 c .rowCheck (good full) ∧
       blownMask (good full).data = tgs[(0 : Fin 12)] ∧ marginalMask (good full).data = 0 ∧ c.haltPending = false ∧
       b.firstDone (c.checkIndex + 1) 2 ∧ b.rowAt (board c).profile tgs 2 18 tgs[(2 : Fin 12)]) ∧
    (let b := { remapping 1 with remapStates := (remapping 1).remapStates.set 0 .done, step := .verify }
     let c := { burning .resumeCheck .rowCheck b with checkIndex := 12 }
     b.rowAt prof tgs c.checkIndex 30 (remapTarget b.remaps 0) ∧ b.firstDone 0 12 ∧
       (∀ i, c.checkIndex < i → ¬b.doneAt i) ∧ b.firstStep prof .remapBurn .rowCheck 31 0) := by
  refine ⟨⟨touch0 _, rfl, rfl, rfl, .inl ⟨0, rfl, by decide, rfl⟩, no0 rfl (by decide), ok0 rfl (by decide), by decide,
      rfl, rfl, ok0 rfl (by decide), by decide, by decide, rfl, first_done.2, .inl ⟨2, rfl, by decide, rfl⟩⟩,
    .inr ⟨0, rfl, rfl, rfl⟩, ⟨by decide, .inr ⟨0, rfl, by decide⟩, fun j _ hj hd => ?_⟩, fun i hi hd => ?_,
    .inr (.inr ⟨rfl, rfl, .inl ⟨by decide, by decide, rfl, rfl, rfl, rfl⟩⟩)⟩
  · rcases hd with ⟨k, -, h⟩ | ⟨k, hk, -⟩
    · revert h; revert k; decide
    · omega
  · have hi : 12 < i := hi
    rcases hd with ⟨k, hk, -⟩ | ⟨k, hk, h⟩
    · omega
    · have hk1 : k = 1 := Fin.ext (by omega)
      subst hk1
      revert h; decide

/-- A die table unit of `n` entries. -/
def sized (n : Nat) : DieTableUnit := { DieTableUnit.reset with entries := List.replicate n (⟨0, 0⟩, ⟨.void, 0⟩) }

theorem sized_length (n : Nat) : (sized n).entries.length = n := List.length_replicate

theorem witness_PlacesServed :
    (∀ n, let s := tabled (resting .prep) (.hold 0 ⟨102, 9⟩) (sized n)
      s.dies.queue = .hold 0 (resting .prep).die :: [] ∧ s.sites[(0 : Site)] = some (resting .prep) ∧
        (resting .prep).haltPending = false ∧ s.dryRun = false ∧ s.inTouchdown 0 ∧ s.noHalt ∧ s.othersRun 0 ∧
        s.dies.entries.length + s.dies.places.length = n) ∧
    (8191 < 8192 ∧ 8192 ≤ 8192) ∧
    (tabled (resting .prep) (.giveBack 0) .reset).dies.queue = .giveBack 0 :: [] ∧
    (tabled (resting .prep) (.toEntry 0 ⟨102, 9⟩ 6671) .reset).dies.queue = .toEntry 0 ⟨102, 9⟩ 6671 :: [] ∧
    ∀ n, let c := { resting .prep with identity := some ident7 }
      let s := { dryBoard c with dies := { sized n with queue := [.hold 0 ⟨102, 9⟩] } }
      s.dies.queue = .hold 0 c.die :: [] ∧ s.sites[(0 : Site)] = some c ∧ c.identity = some ident7 ∧ s.dryRun = true ∧
        s.dies.entries.length + s.dies.places.length = n ∧ s.inTouchdown 0 :=
  ⟨fun n => ⟨rfl, at0 _, rfl, rfl, touch rfl, calm rfl, others rfl (by rfl), sized_length n⟩, by decide, rfl, rfl,
    fun n => ⟨rfl, at0 _, rfl, rfl, sized_length n, touch rfl⟩⟩

theorem witness_VoidEntryServed :
    (∀ n, let s := tabled (resting .prep) (.voidEntry 0 ⟨102, 9⟩) (sized n)
      s.dies.queue = .voidEntry 0 ⟨102, 9⟩ :: [] ∧ s.sites[(0 : Site)] = some (resting .prep) ∧ s.noHalt ∧
        s.othersRun 0 ∧ s.dies.entries.length + s.dies.places.length = n) ∧ 8191 < 8192 ∧ 8192 ≤ 8192 :=
  ⟨fun n => ⟨rfl, at0 _, calm rfl, others rfl (by rfl), sized_length n⟩, by decide, by decide⟩

theorem witness_SettlementEndsEntry :
    ∀ (o : CloseOutcome) (k : StopCause),
      let c := { resting .closing with stop := k }
      let s := tabled c (.settle 0 ⟨102, 9⟩ o) (oneEntry .issued)
      s.dies.queue = .settle 0 ⟨102, 9⟩ o :: [] ∧ s.sites[(0 : Site)] = some c ∧
        tableFind s.dies.entries ⟨102, 9⟩ = some ⟨.issued, 6671⟩ ∧ s.noHalt ∧ s.othersRun 0 ∧ c.stop = k :=
  fun _ _ => ⟨rfl, at0 _, rfl, calm rfl, others rfl (by rfl), rfl⟩

/-- A site that parks for a cause. -/
def parking (k : StopCause) : SiteCtx := { burning .parking .armBit pulsed with exch := none, stop := k }

/-- The die (3, 31) parked, then `n` more. -/
def fullPark (n : Nat) : DieTableUnit :=
  { DieTableUnit.reset with
    entries := [(⟨102, 9⟩, ⟨.issued, 6671⟩), (⟨3, 31⟩, ⟨.parked, 6690⟩)]
    parked := { parked0 .held with die := ⟨3, 31⟩ } :: List.replicate n { parked0 .held with die := ⟨4, 31⟩ } }

theorem witness_ParksServed :
    (∀ (k : StopCause) (n : Nat), let s := tabled (parking k) (.park 0) (fullPark n)
      s.dies.queue = .park 0 :: [] ∧ s.sites[(0 : Site)] = some (parking k) ∧ (parking k).burn = some pulsed ∧
        (parking k).identity = some ident7 ∧ (parking k).key = some dryRunKey ∧ (parking k).check = some 672 ∧
        (parking k).serial = some 1 ∧ (parking k).touchdowns = some 1 ∧ s.dies.parked.length = n + 1 ∧
        tableFind s.dies.entries (parking k).die = some ⟨.issued, 6671⟩ ∧ s.noHalt ∧ s.othersRun 0 ∧
        (parking k).stop = k ∧ tableFind s.dies.entries ⟨3, 31⟩ = some ⟨.parked, 6690⟩ ∧ s.dryRun = false) ∧
    (List.replicate 63 { parked0 .held with die := ⟨4, 31⟩ }).length = 63 ∧ (62 + 1 < 64 ∧ 63 + 1 = 64) ∧
    (let s := { dryBoard (parking .release) with dies := { fullPark 63 with queue := [.park 0] } }
     s.sites[(0 : Site)] = some (parking .release) ∧ s.dryRun = true ∧ (parking .release).die ≠ ⟨3, 31⟩ ∧ s.noHalt ∧
       s.othersRun 0) := by
  refine ⟨fun k n => ⟨rfl, at0 _, rfl, rfl, rfl, rfl, rfl, rfl, ?_, rfl, calm rfl, others rfl (by rfl), rfl, rfl, rfl⟩,
    List.length_replicate, by decide, at0 _, rfl, by decide, calm rfl, others rfl (by rfl)⟩
  show (List.replicate n _).length + 1 = n + 1
  rw [List.length_replicate]

/-- Section 7.4: the first contexts of a full list are closing already. -/
theorem witness_ParksServed_closing :
    let pre := [{ parked0 (.closing none) with die := ⟨5, 31⟩ }]
    let l := List.replicate 62 { parked0 .held with die := ⟨4, 31⟩ }
    let s := tabled (parking .release) (.park 0) { fullPark 0 with parked := pre ++ (fullPark 0).parked ++ l }
    s.dies.queue = .park 0 :: [] ∧ s.dies.parked = pre ++ { parked0 .held with die := ⟨3, 31⟩ } :: l ∧
      pre.length + l.length = 63 ∧ (∀ q ∈ pre, q.status ≠ .held) ∧
      tableFind s.dies.entries ⟨3, 31⟩ = some ⟨.parked, 6690⟩ ∧ s.dryRun = false :=
  ⟨rfl, rfl, by decide, by decide, rfl, rfl⟩

/-- A block in hand that waits for the die table unit. -/
def served (w : Work) (r : TableRequest) (u : DieTableUnit) : State :=
  { State.reset with mem := linked, chain := chainOf w, dies := { u with queue := [r] } }

theorem witness_ClearAndVoidAllServed :
    (served .dump .clear (oneEntry .void)).dies.queue = .clear :: [] ∧
    (let u := { fullPark 0 with parked := [parked0 (.closing none), { parked0 .held with die := ⟨3, 31⟩ }] }
     let s := served .waferEnd .voidAll u
     s.dies.queue = .voidAll :: [] ∧ s.chain.block = some (blk .waferEnd) ∧ (blk .waferEnd).work = .waferEnd ∧
       s.dryRun = false) ∧
    (let s := { served .waferEnd .voidAll (fullPark 1) with chain := { chainOf .waferEnd with
                  wafer := some { wafer7 with dry := true } } }
     s.dryRun = true ∧ (∀ p ∈ s.dies.parked, p.isHeld = true) ∧ s.countersBounded) := by
  refine ⟨rfl, ⟨rfl, rfl, rfl, rfl⟩, rfl, by decide, ?_⟩
  show ∀ i : Fin 16, (Vector.replicate 16 0)[i] ≤ counterMax
  decide

/-- The die table of the worked example of section 7.8 with its two parked contexts. -/
def dumped : DieTableUnit :=
  { DieTableUnit.reset with
    entries := tableSet (tableSet (tableSet (tableSet (tableSet [] ⟨12, 30⟩ ⟨.burned, 6661⟩) ⟨3, 31⟩ ⟨.parked, 6690⟩)
      ⟨102, 9⟩ ⟨.failed, 6671⟩) ⟨3, 3⟩ ⟨.void, 0⟩) ⟨40, 9⟩ ⟨.parked, 6675⟩
    parked := [{ parked0 .held with die := ⟨3, 31⟩ }, { parked0 .held with die := ⟨40, 9⟩ }] }

/-- Section 7.8: the order of a dump. -/
theorem test_dump_order : dumped.entries.map Prod.fst = [⟨3, 3⟩, ⟨40, 9⟩, ⟨102, 9⟩, ⟨12, 30⟩, ⟨3, 31⟩] := by decide

theorem witness_DumpServed :
    let s := served .dump (.dump 0x10000 96) dumped
    s.dies.queue = .dump 0x10000 96 :: [] ∧ s.chain.block = some (blk .dump) ∧ s.waitsAfter (blk .dump) 65535 ∧
      dumpAccepted (blk .dump).offset 0x10000 96 = true ∧ s.linkOf (blk .dump).offset + 2 ≤ 0x10000 ∧
      s.dies.entries.length ≤ 8192 ∧ s.dies.parked.length ≤ 64 :=
  ⟨rfl, rfl, waits rfl rfl rfl rfl, by decide, by decide, by decide, by decide⟩

/-- Site 0 with halt pending. -/
def haltedAt (c : SiteCtx) : SiteCtx := { c with haltPending := true }

theorem witness_HaltStopsAtBoundary_entry :
    (∀ c : SiteCtx, (board (haltedAt c)).sites[(0 : Site)] = some (haltedAt c) ∧ (haltedAt c).haltPending = true ∧
      (board (haltedAt c)).othersRun 0) ∧ (∀ st, (haltedAt (resting st)).placeHeld = false) ∧
    ((board (haltedAt (asking .hail .hello))).answers 0 (haltedAt (asking .hail .hello)) .hello (good hello16) ∧
      (haltedAt (asking .hail .hello)).action = .provision) ∧
    (let s := tabled (haltedAt (resting .lookup)) (.lookup 0 ⟨102, 9⟩) .reset
     s.dies.queue = .lookup 0 ⟨102, 9⟩ :: [] ∧ tableFind s.dies.entries ⟨102, 9⟩ = none ∧
       (haltedAt (resting .lookup)).locked = some false ∧ s.othersRun 0) ∧
    ((board (haltedAt (asking .prep .rowCheck))).answers 0 (haltedAt (asking .prep .rowCheck)) .rowCheck (good 0) ∧
      blownMask (good 0).data = 0 ∧ marginalMask (good 0).data = 0) ∧
    (let s := { board (haltedAt (resting .prep)) with comp := [req7] }
     s.comp = req7 :: [] ∧ req7.site = 0 ∧ s.chain.wafer = some wafer7 ∧ wafer7.lot = req7.lot ∧
       compose wafer7 req7 = .ok ident7 ∧ s.othersRun 0) ∧
    (∀ k, let s := tabled (haltedAt (resting .prep)) (.hold 0 ⟨102, 9⟩) (sized k)
     s.dies.queue = .hold 0 ⟨102, 9⟩ :: [] ∧ s.dies.entries.length + s.dies.places.length = k ∧ s.othersRun 0) ∧
    (let s := tabled (haltedAt (resting .lookup)) (.lookup 0 ⟨102, 9⟩) { oneEntry .parked with parked := [parked0 .held] }
     s.sites[(0 : Site)] = some (haltedAt (resting .lookup)) ∧ s.inTouchdown 0 ∧
       tableFind s.dies.entries ⟨102, 9⟩ = some ⟨.parked, 6671⟩ ∧
       (s.dies.parked.filter fun q => q.isHeld && decide (q.die = ⟨102, 9⟩)) = [parked0 .held] ∧
       (parked0 .held).burn.totalPulses ≠ 0) :=
  ⟨fun c => ⟨at0 _, rfl, others0 _⟩, fun _ => rfl, ⟨ok0 rfl (by decide), rfl⟩, ⟨rfl, rfl, rfl, others rfl (by rfl)⟩,
    ⟨ok0 rfl (by decide), by decide, by decide⟩, ⟨rfl, rfl, rfl, rfl, compose7, others rfl (by rfl)⟩,
    fun k => ⟨rfl, sized_length k, others rfl (by rfl)⟩, at0 _, touch rfl, rfl, by decide, by decide⟩

/-! ### Witnesses: escrow writer and the end of a block -/

/-- A page open with a record at the head of the queue. -/
def writing (s : State) (page slot records : Nat) (r : RecordRequest) : State :=
  { s with escrow := { EscrowWriter.reset with writer := .opened page slot records, queue := [r] } }

def close (o : CloseOutcome) (d : Die) : CloseRecord :=
  { serial := 6671, die := d, outcome := o, pulses := 3, touchdowns := 1, stress := 190, remaps := [] }

theorem witness_EscrowRecordWritten :
    State.reset.escrow.queue = [] ∧
    (let r : RecordRequest := { record := .waferOpen, report := .nobody }
     (writing State.reset 4193216 14 14 r).writesRecord 4193216 14 14 r [] ∧ r.report = .nobody) :=
  ⟨rfl, ⟨rfl, rfl, rfl, by decide, by decide, by decide, rfl⟩, rfl⟩

/-- A page at 0x3000 about to be full, whose next page field is as given; page 0x2000 is ENGINE. -/
def filling (next : Byte) : State :=
  writing (stalled next) 0x3000 15 9 { record := .waferOpen, report := .nobody }

theorem witness_FullPageHandedOver :
    (let s := filling 0x20
     s.escrow.writer = .opened 0x3000 15 9 ∧ s.escrow.queue = { record := .waferOpen, report := .nobody } :: [] ∧
       s.mem.wf = true ∧ 0x3000 + 1088 ≤ jobMemorySize ∧ 9 < counterMax ∧ s.escrow.seq = 1 ∧
       15 + EscrowRecord.waferOpen.slots = 16 ∧ validPage (s.mem.read32 (0x3000 + 12)) = true ∧
       s.mem.read32 (s.mem.read32 (0x3000 + 12)) = ownerEngine ∧
       0x2000 + 1088 ≤ 0x3000 ∧ s.mem.read32 (0x3000 + 12) = 0x2000) ∧
    validPage ((filling 0).mem.read32 (0x3000 + 12)) = false ∧
    ((filling 0x40).mem.read32 ((filling 0x40).mem.read32 (0x3000 + 12)) ≠ ownerEngine ∧
      apart 0x3000 1088 ((filling 0x40).mem.read32 (0x3000 + 12)) 1088) ∧
    (let s := writing State.reset 0x3000 14 9 { record := .waferOpen, report := .nobody }
     14 + EscrowRecord.waferOpen.slots < 16 ∧
       ({ s with escrow := { s.escrow with flushPending := true } } : State).escrow.flushPending = true) := by
  refine ⟨by decide, by decide, ⟨by decide, ?_⟩, by decide, rfl⟩
  show 0x3000 + 1088 ≤ (filling 0x40).mem.read32 (0x3000 + 12) ∨ (filling 0x40).mem.read32 (0x3000 + 12) + 1088 ≤ 0x3000
  decide

/-- A page at 0x3000 linked to itself. -/
def ring : State := { filling 0x20 with mem := [(0x3000, 1), (0x300D, 0x30)] }

theorem witness_FullPageHandedOver_ring :
    ring.mem.wf = true ∧ ring.escrow.writer = .opened 0x3000 15 9 ∧ ring.mem.read32 (0x3000 + 12) = 0x3000 := by decide

/-- An ISSUE of die (102, 9). -/
def issue0 : IssueRecord where
  serial := 6671
  waferSeq := 1
  rootId := 0
  lot := wafer7.lot
  number := 7
  die := ⟨102, 9⟩
  identity := ident7.chars
  check := 672
  wrapped := { cipher := 0, tag := 0 }

/-- A page whose last slot is too small for the ISSUE of site 0. -/
def narrow (next : Byte) : State :=
  writing { board { burning .escrowWait .hello burn0 with exch := none } with mem := (stalled next).mem } 0x3000 15 9
    { record := .issue issue0, report := .site 0 }

theorem witness_FullPageHandedOver_narrow :
    (let s := narrow 0x20
     s.escrow.writer = .opened 0x3000 15 9 ∧ s.escrow.queue = { record := .issue issue0, report := .site 0 } :: [] ∧
       (EscrowRecord.issue issue0).slots = 2 ∧ s.mem.wf = true ∧ s.escrow.seq = 1 ∧ s.escrow.flushPending = false ∧
       (∃ c, s.sites[(0 : Site)] = some c ∧ c.state = .escrowWait) ∧ s.inTouchdown 0 ∧
       validPage (s.mem.read32 (0x3000 + 12)) = true ∧ s.mem.read32 (s.mem.read32 (0x3000 + 12)) = ownerEngine ∧
       s.mem.read32 (0x3000 + 12) = 0x2000 ∧ apart 0x3000 1088 0x2000 1088) ∧
    validPage ((narrow 0).mem.read32 (0x3000 + 12)) = false :=
  ⟨⟨rfl, rfl, rfl, by decide, rfl, rfl, ⟨_, at0 _, rfl⟩, touch rfl, by decide, by decide, by decide, .inr (by decide)⟩,
    by decide⟩

/-- Section 9.4: the ISSUE leaves slot 15 unused and goes into slots 0 and 1 of the next page; without an ENGINE page to
follow it waits. -/
theorem test_narrow :
    let t := after .escrowRecordWrite (narrow 0x20)
    t.escrow.writer = .opened 0x2000 2 1 ∧ t.escrow.seq = 2 ∧ (t.sites[(0 : Site)].map SiteCtx.state) = some .burnRow := by
  decide
theorem test_narrow_waits :
    let t := after .escrowRecordWrite (narrow 0)
    t.escrow.writer = .stalled (.link 0x3000) ∧ t.escrow.queue.length = 1 := by decide

theorem witness_WrittenRecordReported :
    (∀ st, let c := { burning st .armBit burn0 with exch := none }
      let r : RecordRequest := { record := .issue issue0, report := .site 0 }
      let s := writing (board c) 4193216 13 10 r
      s.writesRecord 4193216 13 10 r [] ∧ s.sites[(0 : Site)] = some c ∧ s.inTouchdown 0 ∧ c.state = st) ∧
    (∀ o, let c := { resting .closing with outcome := some o }
      let r : RecordRequest := { record := .close (close o ⟨102, 9⟩), report := .site 0 }
      let s := writing (board c) 4193216 14 10 r
      s.writesRecord 4193216 14 10 r [] ∧ s.sites[(0 : Site)] = some c ∧ s.inTouchdown 0 ∧ c.state = .closing ∧
        c.closeWritten = false ∧ (close o ⟨102, 9⟩).outcome = o) ∧
    (∀ b : Option Site, let r : RecordRequest := { record := .close (close .voidEvicted ⟨3, 31⟩), report := .dieTable }
      let p := { parked0 (.closing b) with die := ⟨3, 31⟩ }
      let s := writing { board (parking .release) with dies := { oneEntry .issued with parked := [p] } } 4193216 14 10 r
      s.writesRecord 4193216 14 10 r [] ∧
        (s.dies.parked.filter fun q => !q.isHeld && decide (q.die = (close .voidEvicted ⟨3, 31⟩).die)) = [p] ∧
        p.status = .closing b ∧ s.sites[(0 : Site)] = some (parking .release) ∧
        tableFind s.dies.entries (parking .release).die = some ⟨.issued, 6671⟩ ∧ s.noHalt ∧ s.othersRun 0) ∧
    (let r : RecordRequest := { record := .close (close .voidWaferEnd ⟨3, 31⟩), report := .dieTable }
     let summary : RecordRequest := { record := .summary, report := .chain }
     let p := { parked0 (.closing none) with die := ⟨3, 31⟩ }
     let s := { State.reset with
                  chain := chainOf .waferEnd, dies := { DieTableUnit.reset with parked := [p] }
                  escrow := { EscrowWriter.reset with writer := .opened 4193216 14 10, queue := [r, summary] } }
     s.writesRecord 4193216 14 10 r [summary] ∧
       (s.dies.parked.filter fun q => !q.isHeld && decide (q.die = (close .voidWaferEnd ⟨3, 31⟩).die)) = [p] ∧
       p.status = .closing none ∧
       ∀ b es released halted, s.chain.block = some b → b.work ≠ .touchdown es true released halted) := by
  refine ⟨fun st => ⟨⟨rfl, rfl, rfl, by decide, by decide, by show 13 + 2 ≤ 15; decide, rfl⟩, at0 _, touch rfl, rfl⟩,
    fun o => ⟨⟨rfl, rfl, rfl, by decide, by decide, by show 14 + 1 ≤ 15; decide, rfl⟩, at0 _, touch rfl, rfl, rfl, rfl⟩,
    fun b => ⟨⟨rfl, rfl, rfl, by decide, by decide, by show 14 + 1 ≤ 15; decide, rfl⟩, rfl, rfl, at0 _, rfl, calm rfl,
      others rfl (by rfl)⟩, ⟨rfl, rfl, rfl, by decide, by decide, by show 14 + 1 ≤ 15; decide, rfl⟩, rfl, rfl,
    fun b es r h hb => ?_⟩
  cases hb
  exact fun h => nomatch h

/-- The CLOSE of an evicted context being written into the last slot of the last page, the eviction bound to the park of
site 0 or, with no site named, to none. -/
def cutClose (b : Option Site) : State :=
  writing { board (parking .release) with
              mem := [(4193216, 1)]
              dies := { oneEntry .issued with parked := [{ parked0 (.closing b) with die := ⟨3, 31⟩ }] } } 4193216 15 10
    { record := .close (close .voidEvicted ⟨3, 31⟩), report := .dieTable }

theorem witness_ResetHandsOverAndEnds_close :
    (∀ b, (cutClose b).mem.wf = true ∧ (cutClose b).escrow.writer = .opened 4193216 15 10 ∧
      (cutClose b).escrow.queue = { record := .close (close .voidEvicted ⟨3, 31⟩), report := .dieTable } :: [] ∧
      (cutClose b).reg.resetting = false ∧ (cutClose b).escrow.seq ≤ counterMax ∧
      (cutClose b).sites[(0 : Site)] = some (parking .release) ∧ (cutClose b).chain.block = some (blk touching)) ∧
    (15 + 1 ≤ 16 ∧ 10 < counterMax ∧ 4193216 + 1088 ≤ jobMemorySize) ∧
    ((cutClose (some 0)).dies.parked.filter fun q => !q.isHeld && decide (q.die = (close .voidEvicted ⟨3, 31⟩).die)) =
      [{ parked0 (.closing (some 0)) with die := ⟨3, 31⟩ }] ∧
    (∀ q ∈ (cutClose none).dies.parked, ∀ n, q.status ≠ .closing (some n)) := by
  refine ⟨fun b => ⟨by show Memory.wf [(4193216, 1)] = true; decide, rfl, rfl, rfl, by show 1 ≤ counterMax; decide,
    at0 _, rfl⟩, by decide, rfl, ?_⟩
  intro q hq n
  rw [List.mem_singleton.mp hq]
  exact fun h => nomatch h

/-- R133, R175: the report of a counted CLOSE takes the park bound to its context: site 0's entry reports
PARKED_RELEASED (0x40). The link reset then empties the site and both tables. -/
theorem test_cut_close :
    ((cutClose (some 0)).requesterReport
      { record := .close (close .voidEvicted ⟨3, 31⟩), report := .dieTable }).1.mem.read (0x1000 + 80 + 12) = 0x40 := by
  decide
theorem test_cut_close_parks :
    let t := after (.linkReset { quiet with record := .counted }) (cutClose (some 0))
    t.sites[(0 : Site)] = none ∧ t.dies = .reset ∧ t.counter .diesVoided = 0 := by decide

/-- R139, R174: an abandoned CLOSE leaves that park untaken and the page's count as it was. -/
theorem test_cut_close_abandoned :
    let t := after (.linkReset { quiet with record := .abandoned 1 }) (cutClose (some 0))
    t.mem.read (0x1000 + 80 + 12) = 0 ∧ t.mem.read32 (4193216 + 8) = 0 ∧ t.mem.read (4193216 + 1024) = 4 := by decide

/-- A touchdown whose two entries are final. -/
def allDone (released halted : Bool) : State :=
  { board { resting .final with result := some .burned } with
    mem := linked, chain := chainOf (.touchdown [e0] true released halted) }

/-- A WAFER_END in hand whose summary is next, on page 0x3000 with page 0x2000 to follow. -/
def ending : State :=
  writing { State.reset with mem := [(0x1009, 0x14), (0x2000, 1), (0x300D, 0x20)], chain := chainOf .waferEnd } 0x3000 13
    10 { record := .summary, report := .chain }

theorem witness_BlockWorkEnds :
    (∀ r h, (allDone r h).chain.block = some (blk (.touchdown [e0] true r h)) ∧ (allDone r h).chain.state = .running ∧
      (allDone r h).waitsAfter (blk (.touchdown [e0] true r h)) 65535 ∧
      ∀ e ∈ [e0], (allDone r h).isFinal e.site = true) ∧
    (ending.writesRecord 0x3000 13 10 { record := .summary, report := .chain } [] ∧
      ending.chain.block = some (blk .waferEnd) ∧ ending.linkWaits (blk .waferEnd) 65535 ∧
      validPage (ending.mem.read32 (0x3000 + 12)) = true ∧
      ending.mem.read32 (ending.mem.read32 (0x3000 + 12)) = ownerEngine ∧
      ending.mem.read32 (0x3000 + 12) = 0x2000 ∧ ending.linkOf 0x1000 = 0x1400 ∧
      apart 0x3000 1088 0x2000 1088 ∧ apart 0x1000 64 0x3000 1088 ∧ apart 0x1000 64 0x2000 1088 ∧
      apart 0x1400 2 0x3000 1088 ∧ apart 0x1400 2 0x2000 1088) := by
  refine ⟨fun r h => ⟨rfl, rfl, waits rfl rfl rfl rfl, fun e he => ?_⟩,
    ⟨rfl, rfl, by decide, by decide, by decide, by decide, rfl⟩, rfl,
    ⟨⟨by decide, by decide, by decide, rfl, by decide⟩, by decide, by decide⟩, by decide, by decide, by decide, by decide,
    Or.inr (by decide), Or.inl (by decide), Or.inl (by decide), Or.inl (by decide), Or.inl (by decide)⟩
  rw [List.mem_singleton.mp he]; rfl

/-- The same with no flush due and a linked block that is ready, or no link. -/
theorem witness_BlockWorkEnds_links :
    let s := fun m => { allDone false false with mem := m }
    let b := blk (.touchdown [e0] true false false)
    (∀ m, (s m).chain.block = some b ∧ (s m).chain.state = .running ∧ ∀ e ∈ [e0], (s m).isFinal e.site = true) ∧
      (s [(0x1009, 0x14), (0x1400, 1)]).linkReady b 65535 ∧ (s []).linkFails b 65535 := by
  refine ⟨fun m => ⟨rfl, rfl, fun e he => by rw [List.mem_singleton.mp he]; rfl⟩,
    ⟨⟨by decide, by decide, by decide, rfl, by decide⟩, ?_, ?_⟩,
    ⟨by decide, by decide, by decide, rfl, by decide⟩, ?_, fun p l r h => (nomatch h)⟩ <;>
    simp only [State.linkOf, blk] <;> decide

/-- A parked site's entry lies apart from the page that its eviction is written to. -/
theorem witness_WrittenRecordReported_apart :
    apart ((blk touching).offset + 80 + 48 * (parking .release).index + 10) 38 4193216 1088 ∧
      (blk touching).offset + 80 + 48 * (parking .release).index + 48 ≤ jobMemorySize :=
  ⟨.inl (by decide), by decide⟩

/-- The last entry of a touchdown about to be settled. -/
def lastEntry (released halted hoe : Bool) (o : CloseOutcome) : State :=
  { tabled { resting .closing with outcome := some o } (.settle 0 ⟨102, 9⟩ o) (oneEntry .issued) with
    mem := linked
    sites := (Vector.replicate 24 none).set 0 (some { resting .closing with outcome := some o })
    chain := { chainOf .dump with
                 block := some { blk (.touchdown [e0] true released halted) with haltOnError := hoe } } }

theorem witness_BlockWorkEnds_last :
    ∀ r h hoe o, let s := lastEntry r h hoe o
      let b := { blk (.touchdown [e0] true r h) with haltOnError := hoe }
      s.chain.block = some b ∧ b.work = .touchdown [e0] true r h ∧ s.chain.state = .running ∧ s.waitsAfter b 65535 ∧
        s.dies.queue = .settle 0 ⟨102, 9⟩ o :: [] ∧ (∃ c, s.sites[(0 : Site)] = some c ∧ c.index = 0 ∧ c.outcome = some o) ∧
        (∀ (m : Site) (x : SiteCtx), m ≠ 0 → s.sites[m] = some x → x.state = .final) ∧
        (∀ e ∈ [e0], e.site ≠ 0 → s.isFinal e.site = true) ∧
        apart (s.linkOf b.offset) 2 (b.offset + 80 + 48 * 0 + 10) 38 ∧ b.offset + 80 + 48 * 0 + 48 ≤ jobMemorySize := by
  intro r h hoe o s b
  refine ⟨rfl, rfl, rfl, ?_, rfl, ⟨{ resting .closing with outcome := some o }, by simp [s, lastEntry], rfl, rfl⟩,
    fun m x hm hx => ?_, fun e he hn => ?_,
    .inr ?_, by show 0x1000 + 80 + 48 * 0 + 48 ≤ jobMemorySize; decide⟩
  · refine ⟨⟨⟨rfl, (by decide : 0x1000 % 64 = 0), (by decide : 0x1000 + 64 ≤ jobMemorySize), rfl, by decide⟩, ?_, ?_⟩,
      fun p l q hw => nomatch hw⟩
    · show validBlockOffset (linked.read32 (0x1000 + 8)) = true
      decide
    · show linked.read16 (linked.read32 (0x1000 + 8)) ≠ nextTag 65535
      decide
  · have hne : ¬(0 : Site).val = m.val := fun h => hm (Fin.ext h.symm)
    simp [s, lastEntry, Vector.getElem_set] at hx
    simp_all
  · rw [List.mem_singleton.mp he] at hn
    exact absurd rfl hn
  · show 0x1000 + 80 + 48 * 0 + 10 + 38 ≤ linked.read32 (0x1000 + 8)
    decide

/-- R152, R154: a burned last entry ends its block with OK; a failed one with HALT_ON_ERROR holds it with HALTED. -/
theorem test_last_entry :
    (let t := after .entrySettle (lastEntry false false true .burned)
     t.chain.state = .waiting ∧ t.chain.offset = some 0x1400 ∧ t.mem.read 0x1010 = 1 ∧ t.mem.read16 0x100C = 65535 ∧
       t.mem.read 0x105C = 0x10) ∧
    (let t := after .entrySettle (lastEntry false false true .failedFuse)
     t.chain.state = .held .halt ∧ t.mem.read 0x1010 = 3 ∧ t.mem.read16 0x100C = 0 ∧ t.mem.read 0x105C = 0x20) ∧
    (let t := after .entrySettle (lastEntry true false false .failedFuse)
     t.chain.state = .held .release ∧ t.mem.read 0x1010 = 2) := by decide

/-! ### Witnesses: whole-machine rules -/

theorem witness_BurnStaysInBounds :
    prof.w0 ≤ prof.wmax ∧ burn0.inRange prof ∧ burn0.bitSpent prof = false ∧ burn0.nextSpare prof 0 := by
  refine ⟨by decide, ⟨by decide, by decide, by decide, by decide, List.nodup_nil, fun i h => (nomatch h)⟩, by decide, ?_⟩
  show 0 < 4 ∧ 0 ∉ ([] : List Nat) ∧ 0 ∉ ([] : List Nat) ∧ ∀ j, j < 0 → j ∈ ([] : List Nat) ∨ j ∈ ([] : List Nat)
  decide

/-- Site 0 in PULSING with channel 0 driving its first pulse, whose end is next. -/
def burningBoard : State :=
  { board { burning .pulsing .armBit burn0 with exch := none } with
    chans := #v[⟨.driving 0 40 0, true⟩, ⟨.offline, false⟩, ⟨.offline, false⟩, ⟨.offline, false⟩]
    pending := [.pulseComplete 0] }

theorem witness_BurnStaysInBounds_step :
    burningBoard.orderly ∧ burningBoard.burnsKept burningBoard.profile ∧ ∃ t, step burningBoard = .next t := by
  have h1 : ∀ n : Site, n ≠ 0 → n ≠ 1 → burningBoard.sites[n] = none := by decide
  have h0 : burningBoard.tasks 0 = [.pulse] := by decide
  have hn : ∀ n : Site, n ≠ 0 → burningBoard.tasks n = [] := by decide
  have hs : ∀ (n : Site) (c : SiteCtx) (b : BurnState), burningBoard.sites[n] = some c → c.burn = some b →
      n = 0 ∧ c = { burning .pulsing .armBit burn0 with exch := none } ∧ b = burn0 := by
    intro n c b hc hb
    by_cases e0 : n = 0
    · subst e0
      cases (at0 _).symm.trans hc
      exact ⟨rfl, rfl, (Option.some.inj hb).symm⟩
    · by_cases e1 : n = 1
      · subst e1
        have : burningBoard.sites[(1 : Site)] = some { e1.context 1 with state := .reading } := by decide
        cases this.symm.trans hc
        exact nomatch hb
      · rw [h1 n e0 e1] at hc
        exact nomatch hc
  refine ⟨⟨fun b es r h hb hw => ?_, fun h => (nomatch h), fun n hsome => ?_, fun n => ?_, fun n k hk => ?_⟩,
    ⟨by decide, fun n c b hc hb => ?_, fun q hq => (nomatch hq), fun n c b e hc hb he => ?_, fun r hr => (nomatch hr),
      fun i n w e hd c b hc hb => ?_⟩, _, rfl⟩
  · cases hb
    exact nomatch hw
  · refine ⟨rfl, ?_⟩
    by_cases he0 : n = 0
    · exact he0 ▸ touch rfl
    · by_cases he1 : n = 1
      · exact he1 ▸ ⟨_, _, _, _, rfl, rfl, e1, by simp, rfl⟩
      · rw [h1 n he0 he1] at hsome
        exact nomatch hsome
  · by_cases e : n = 0
    · rw [e, h0]; decide
    · rw [hn n e]; decide
  · by_cases e : n = 0
    · subst e
      rw [h0, List.mem_singleton] at hk
      exact ⟨_, at0 _, hk ▸ by decide⟩
    · rw [hn n e] at hk
      exact nomatch hk
  · rw [(hs n c b hc hb).2.2]
    exact begin_kept (by decide)
  · rw [(hs n c b hc hb).2.1] at he
    exact nomatch he
  · obtain ⟨rfl, -, rfl⟩ := hs n c b hc hb
    have hi : ∀ i : Chan, burningBoard.chans[i].state = .driving 0 40 0 ∨ burningBoard.chans[i].state = .offline := by
      decide
    rcases hi i with h | h <;> rw [h] at hd <;> cases hd
    decide

/-- The sense codes of a row that holds a value: 0 where a bit is blown. -/
def rowOf (v : FuseRow) : Vector Nat 32 := Vector.ofFn fun i : Fin 32 => if v.getLsbD i then 0 else 1023

/-- A die of 64 rows whose remap rows 30 and 31 hold the entries of section 1.4. -/
def die34 : FuseDie where
  design := { recordBase := 16, spareBase := 40, spareCount := 4, remapBase := 30, lockRow := 32, readThreshold := 400,
              revision := 1 }
  rows := List.replicate 30 cleanRow ++ [rowOf 0x9899D200] ++ List.replicate 33 cleanRow
  armed := none

theorem witness_RemapsReadBack :
    let l : List (Fin 12 × Nat) := [(3, 0), (3, 1), (10, 2)]
    l.length ≤ 8 ∧ die34.design.spareCount ≤ 8 ∧ (∀ e ∈ l, e.2 < die34.design.spareCount) ∧
      die34.value die34.design.remapBase = remapTarget l 0 ∧ die34.value (die34.design.remapBase + 1) = remapTarget l 1 := by
  decide

/-- Section 1.4: the die locates row 3 on row 41, row 10 on row 42 and row 4 on row 20. -/
theorem test_locate : [3, 10, 4].map die34.locate = [41, 42, 20] := by decide

/-- State.reset meets the invariants, and a step from it gives a next state. -/
theorem witness_invariants_step :
    State.reset.mem.wf = true ∧ State.reset.parkedBounded ∧ State.reset.tableOrdered ∧ State.reset.poolUsed ∧
      State.reset.keys.sound ∧ ∃ t, step State.reset = .next t := by
  refine ⟨rfl, Nat.zero_le _, List.Pairwise.nil, Or.inl rfl, ⟨by decide, by decide, by decide, fun _ => rfl, ?_, ?_⟩, _, rfl⟩
  · intro v h; cases h
  · intro d h; cases h

theorem witness_SerialsNeverRepeat :
    let d : Derivation := { serial := 256, key := dryRunKey }
    let s := { deriving0 { unit .ready 256 257 257 with derivation := some d } with pending := [.derivationComplete] }
    s.keys.sound ∧ s.keys.derivation = some d ∧ s.pending = .derivationComplete :: [] ∧ s.keys.queue ≠ [] ∧
      ∃ t, step s = .next t := by
  refine ⟨⟨by decide, by decide, by decide, fun _ => rfl, fun v h => (nomatch h), fun d h => ?_⟩, rfl, rfl, by decide, _,
    rfl⟩
  cases h; exact ⟨rfl, by decide, rfl⟩

theorem witness_EventsStaySet :
    let s := { State.reset with reg := State.reset.reg.setEvent .chainFault }
    s.reg.events.getLsbD 8 = true ∧ (∀ v, Instr.contactFall ≠ .eventsWrite v) ∧
      (∀ inp, Instr.contactFall ≠ .engineReset inp) ∧ (∀ inp, Instr.contactFall ≠ .linkReset inp) ∧
      (∀ inp tookNew, Instr.contactFall ≠ .powerOnReset inp tookNew) ∧ ∃ t, exec .contactFall s = .next t :=
  ⟨by decide, fun _ => (nomatch ·), fun _ => (nomatch ·), fun _ => (nomatch ·), fun _ _ => (nomatch ·), _, rfl⟩

/-! ### One-step tests from the worked examples -/

/-- Sections 8.4 and 9.7: a NUDGE after reset takes the start tag, opens the anchor page and waits at a block whose ready
tag is another. -/
theorem test_nudge :
    let t := after (.nudge true) headed
    t.chain.state = .waiting ∧ t.chain.expected = some 65534 ∧ t.escrow.writer = .opened 0x2000 0 0 ∧
      t.mem.read32 0x2004 = 1 := by decide

/-- Section 8.4: the tag after 65535 is 1. -/
theorem test_tag_wrap : [1, 65534, 65535].map nextTag = [2, 65535, 1] := by decide

/-- R11: what lanes 0 to 3 carry in the two orders, of which REVERSED swaps lane 0 with 3 and 1 with 2. -/
theorem test_lanes :
    LaneOrder.normal.lanes = #v[.clock, .select, .dataToDie, .dataFromDie] ∧
      (∀ l : Fin 4, LaneOrder.reversed.lanes[l] = LaneOrder.normal.lanes[3 - l.val]) ∧
      (SiteCtx.lane { asking .hail .hello with lanesUsed := .reversed } 3) = some .clock ∧
      (SiteCtx.lane (resting .hail) 3) = none := by decide

/-- R13: the frame of the worked example is read as its request; with another check byte, or command 7 and a right one, it
is answered with BAD_FRAME. -/
theorem test_receive :
    (readRequest #v[0x02, 0x01, 0x05, 0x00, 0x02, 0x58, 0x00, 0xC8, 0xD6]).map (fun e => (e.cmd, e.row, e.arg)) =
        some (.rowCheck, 261, prof.thresholds) ∧
      (die34.receive #v[0x02, 0x01, 0x05, 0x00, 0x02, 0x58, 0x00, 0xC8, 0xD7]).2 = badFrameAnswer ∧
      (die34.receive #v[0x07, 0, 0, 0, 0, 0, 0, 0, 0xF9]).2 = badFrameAnswer ∧ badFrameAnswer.data = 0 := by decide

/-- R19: a bit is armed until the next SENSE_BIT the die receives, one that it refuses too. -/
theorem test_sense_disarms :
    let d := { die34 with armed := some (16, 31) }
    let e : Exchange := { cmd := .senseBit, row := 64, bit := 31, arg := 0, resends := 0 }
    (d.respond e).1.armed = none ∧ (d.respond e).2.status = statusRefused := by decide

/-- R140: a dump cut after five words leaves its first record, (3, 3) VOID with serial 0, and the first word of the next,
(40, 9). -/
theorem test_cut_dump :
    let t := after (.linkReset { quiet with dumpWords := 5 }) cutDump
    t.mem.readBytes 0x10000 24 = [3, 0, 3, 0, 5, 0, 0, 0, 0, 0, 0, 0, 0, 0, 0, 0, 40, 0, 9, 0, 0, 0, 0, 0] := by decide

/-- R175: a hardware reset leaves a page that its last record has just filled ENGINE, its count complete. -/
theorem test_cut_page :
    let t := after (.linkReset { quiet with record := .counted }) cutPage
    t.mem.read32 4193216 = ownerEngine ∧ t.mem.read32 (4193216 + 8) = 10 ∧ t.mem.read (4193216 + 1024) = 2 := by decide

/-- Section 3.8: BC1 completes SE7's pulse and is granted to SE14, number 63. -/
def grants : State :=
  { State.reset with
    chans := #v[⟨.driving 3 40 0, true⟩, ⟨.driving 7 40 40, true⟩, ⟨.offline, false⟩, ⟨.driving 11 40 0, true⟩]
    waiting := [req 5 40, req 2 10, req 14 63] }

theorem test_grant :
    let t := after (.pulseComplete 1) grants
    t.chans[(1 : Chan)].state = .driving 14 40 0 ∧ t.waiting = [req 5 40, req 2 10] := by decide

/-- Section 3.8: BC3 loses regulation in SE11's pulse; the channel is OFFLINE and CHANNEL_UNLOCKS counts. -/
theorem test_unlock :
    let t := after (.regulationLost 3) grants
    t.chans[(3 : Chan)].state = .offline ∧ t.counter .channelUnlocks = 1 := by decide

/-- Section 5.4: a reservation that reports success moves H from 1 to 257, next to 1 and limit to 257. -/
theorem test_reservation :
    let t := after .reservationSuccess
      { State.reset with keys := { unit .reserving 1 1 1 with writeInFlight := some 257 } }
    t.keys.next = 1 ∧ t.keys.limit = 257 ∧ t.keys.h = 257 ∧ t.keys.alloc = .ready := by decide

/-- Section 9.8: the last record of page C in slot 15; its next page is not ENGINE, so the writer stalls on the link. -/
theorem test_stall :
    let t := after .escrowRecordWrite (filling 0x40)
    t.escrow.writer = .stalled (.link 0x3000) ∧ t.reg.events = 0x18 ∧ t.mem.read32 0x3000 = ownerHostRead := by decide

/-- Section 2.3: a third pulse of 90 at S_row 100 leaves S_row 190 and p 3. -/
theorem test_charge :
    let b := ({ burn0 with rowStress := 100, bitPulses := 2, width := 90 }).charge 90
    b.rowStress = 190 ∧ b.bitPulses = 3 ∧ b.unsensed = true := by decide

end Sys2Proof.Tests
end

/-! The STATS block (R159, R182, R183): what a run of four-byte fields reads back as, and what taking the block does to
job memory, the counters and the rest of the board. -/

namespace Sys2Proof.Machine

/-! ### Runs of four-byte fields in job memory -/

/-- Bytes written in two parts are written one part after the other. -/
theorem Memory.writeBytes_append (m : Memory) (a : Nat) (xs ys : List Byte) :
    m.writeBytes a (xs ++ ys) = (m.writeBytes a xs).writeBytes (a + xs.length) ys := by
  induction xs generalizing m a with
  | nil => rfl
  | cons x xs ih => simp [Memory.writeBytes, ih, Nat.add_assoc, Nat.add_comm 1]

/-- Each field of a run of four-byte fields reads back as the low part of its number. -/
theorem Memory.read32_writeBytes_fields {m : Memory} {a i : Nat} {l : List Nat} (hw : m.wf = true)
    (hfit : a + 4 * l.length ≤ jobMemorySize) (hi : i < l.length) :
    (m.writeBytes a (l.flatMap (leBytes 4))).read32 (a + 4 * i) = l[i] % 256 ^ 4 := by
  induction l generalizing m a i with
  | nil => exact absurd hi (Nat.not_lt_zero i)
  | cons v l ih =>
    simp only [List.length_cons] at hfit hi
    rw [List.flatMap_cons, Memory.writeBytes_append, leBytes_length]
    cases i with
    | zero =>
      have hfirst : leNat ((m.writeField a 4 v).readBytes a 4) = v % 256 ^ 4 := Memory.read_writeField hw (by omega)
      rw [Memory.read32, Memory.readBytes_writeBytes_out (by omega)]
      exact hfirst
    | succ i =>
      have hrest := ih (Memory.wf_writeBytes hw a (leBytes 4 v)) (a := a + 4) (i := i) (by omega) (by omega)
      rwa [show a + 4 * (i + 1) = a + 4 + 4 * i by omega]

/-! ### The counters in a STATS body (section 11.2) -/

theorem counterBytes_length (c : Vector Nat 16) : (counterBytes c).length = 64 := by
  simp [counterBytes]

/-- A counter within its 32 bits is read whole from the place that section 11.2 gives it. -/
theorem read32_writeBytes_counterBytes {m : Memory} {a : Nat} {s : State} (hw : m.wf = true) (hs : s.countersBounded)
    (hfit : a + 64 ≤ jobMemorySize) (k : Counter) :
    (m.writeBytes a (counterBytes s.counters)).read32 (a + 4 * k.index.val) = s.counter k := by
  have hbound : s.counter k < 256 ^ 4 := Nat.lt_succ_of_le (hs k.index)
  have hread := Memory.read32_writeBytes_fields (a := a) (i := k.index) (l := s.counters.toList) hw (by simpa) (by simp)
  rw [counterBytes, hread]
  exact Nat.mod_eq_of_lt hbound

@[simp] theorem State.clearCounters_counter (s : State) (k : Counter) : s.clearCounters.counter k = 0 := by
  simp [State.counter]

/-! ### Taking a STATS block (R159) -/

/-- A block of kind 5 is taken as STATS. -/
theorem State.takeBlock_stats {s : State} {offset : Nat} (hkind : s.mem.read (offset + 4) = 5) :
    s.takeBlock offset =
      (s.setChain { s.chain with state := .running, offset := some offset }).takeStats (readBlock s.mem offset) := by
  simp [State.takeBlock, hkind]

/-- STATS reaches no part of the board but job memory and the counters. -/
theorem State.takeStats_sameBut (s : State) (b : Block) : sameBut [.mem, .counters] s (s.takeStats b).1 := by
  have hframe := State.takeStats_frame s b
  intro p hp
  cases p <;> simp_all [Part.same]

/-- A STATS block whose body lies in job memory is done at once: the counters are written, and cleared exactly when the
flag is not 0. -/
theorem State.takeStats_fits {s : State} {b : Block} (hfit : b.offset + 132 ≤ jobMemorySize) :
    ∃ t, s.takeStats b = (t, some .ok) ∧ t.mem = s.mem.writeBytes (b.offset + 68) (counterBytes s.counters) ∧
      (∀ k, t.counter k = if s.mem.read (b.offset + 64) = 0 then s.counter k else 0) ∧
      sameBut [.mem, .counters] s t := by
  have hsame := State.takeStats_sameBut s b
  revert hsame
  simp only [State.takeStats, if_neg (Nat.not_lt.mpr hfit)]
  split
  · exact fun hsame => ⟨_, rfl, rfl, fun _ => rfl, hsame⟩
  · exact fun hsame => ⟨_, rfl, rfl, State.clearCounters_counter _, hsame⟩

/-- Settles O12: taking the block is `takeStats` on the unit in RUNNING, whose write reads back counter by counter. -/
theorem statsBlockWritesCounters : Obligations.StatsBlockWritesCounters := by
  intro offset s hwf hbounded hkind hfit
  obtain ⟨t, htake, hmem, hcounter, hsame⟩ :=
    State.takeStats_fits (s := s.setChain { s.chain with state := .running, offset := some offset })
      (b := readBlock s.mem offset) hfit
  simp only [State.setChain_mem, State.setChain_counters, readBlock] at hmem
  refine ⟨t, (State.takeBlock_stats hkind).trans htake, fun k => ?written, hcounter, hsame .chain (by simp),
    fun a ha => ?outside, ?rest⟩
  case written => rw [hmem]; exact read32_writeBytes_counterBytes hwf hbounded (by omega) k
  case outside => rw [hmem]; exact Memory.read_writeBytes_out (by rwa [counterBytes_length])
  case rest => exact ((setChain_same s _).mono (by simp)).trans (hsame.mono (by simp))

end Sys2Proof.Machine

/-! The event bits and the MSI message (R179 to R181): what `notify` adds to a register block, the bits that a source
sets and a write clears, and when a raised event makes the enabled pending set non-empty. -/

namespace Sys2Proof.Machine

/-! ### The bits of an event -/

theorem Event.bit_lt (e : Event) : e.bit < 9 := by
  cases e <;> decide

theorem Event.getLsbD_mask {i : Nat} (e : Event) (hi : i < 9) : e.mask.getLsbD i = decide (i = e.bit) := by
  rw [Event.mask, BitVec.getLsbD_ofNat, Nat.testBit_two_pow]
  simp [hi, eq_comm]

theorem RegisterBlock.pendingSet_eq_zero_iff (r : RegisterBlock) :
    r.pendingSet = 0 ↔ ∀ i : Fin 9, (r.events.getLsbD i && r.enable.getLsbD i) = false := by
  refine ⟨fun h i => ?_, fun h => BitVec.eq_of_getLsbD_eq fun i hi => ?_⟩
  · simpa [RegisterBlock.pendingSet] using congrArg (BitVec.getLsbD · i) h
  · simpa [RegisterBlock.pendingSet] using h ⟨i, hi⟩

/-! ### The message (R181) -/

/-- A change of the register block is kept whole; only the count of messages may go up by one. -/
theorem RegisterBlock.notify_eq (old new : RegisterBlock) :
    old.notify new =
      { new with
        msiSent := new.msiSent +
          if old.pendingSet = 0 ∧ new.pendingSet ≠ 0 ∧ new.msiEnabled = true then 1 else 0 } := by
  unfold RegisterBlock.notify
  split <;> rfl

/-! ### A source sets its bit (R179) -/

theorem RegisterBlock.getLsbD_setEvent_events (r : RegisterBlock) (e : Event) {i : Nat} (hi : i < 9) :
    (r.setEvent e).events.getLsbD i = (r.events.getLsbD i || decide (i = e.bit)) := by
  simp [RegisterBlock.setEvent, RegisterBlock.notify_eq, Event.getLsbD_mask e hi]

@[simp] theorem RegisterBlock.setEvent_enable (r : RegisterBlock) (e : Event) : (r.setEvent e).enable = r.enable := by
  simp [RegisterBlock.setEvent, RegisterBlock.notify_eq]

/-- From an empty enabled pending set, a bit set makes it non-empty exactly when that bit is enabled. -/
theorem RegisterBlock.pendingSet_or_mask_ne_zero_iff {r : RegisterBlock} (h : r.pendingSet = 0) (e : Event) :
    { r with events := r.events ||| e.mask }.pendingSet ≠ 0 ↔ r.enable.getLsbD e.bit = true := by
  have hempty := r.pendingSet_eq_zero_iff.mp h
  have hbit (i : Fin 9) :
      ((r.events ||| e.mask).getLsbD i && r.enable.getLsbD i) = (decide (i.val = e.bit) && r.enable.getLsbD i) := by
    rw [BitVec.getLsbD_or, Event.getLsbD_mask e i.isLt, Bool.and_or_distrib_right, hempty i, Bool.false_or]
  rw [Ne, RegisterBlock.pendingSet_eq_zero_iff]
  simp only [hbit]
  constructor
  · intro hsome
    by_contra hoff
    refine hsome fun i => ?_
    by_cases hi : i.val = e.bit
    · simpa [hi] using hoff
    · simp [hi]
  · intro hon hnone
    simpa [hon] using hnone ⟨e.bit, e.bit_lt⟩

theorem RegisterBlock.setEvent_msiSent (r : RegisterBlock) (e : Event) :
    (r.setEvent e).msiSent =
      r.msiSent + if r.pendingSet = 0 ∧ r.enable.getLsbD e.bit = true ∧ r.msiEnabled = true then 1 else 0 := by
  rw [RegisterBlock.setEvent, RegisterBlock.notify_eq]
  exact congrArg (r.msiSent + ·) <| if_congr
    (and_congr_right fun h => and_congr_left' (RegisterBlock.pendingSet_or_mask_ne_zero_iff h e)) rfl rfl

/-! ### The writes (R180) -/

theorem RegisterBlock.getLsbD_clearEvents_events (r : RegisterBlock) (v : BitVec 32) {i : Nat} (hi : i < 9) :
    (r.clearEvents v).events.getLsbD i = (r.events.getLsbD i && !v.getLsbD i) := by
  simp [RegisterBlock.clearEvents, hi]

theorem RegisterBlock.getLsbD_writeEnable_enable (r : RegisterBlock) (v : BitVec 32) {i : Nat} (hi : i < 9) :
    (r.writeEnable v).enable.getLsbD i = v.getLsbD i := by
  simp [RegisterBlock.writeEnable, RegisterBlock.notify_eq, hi]

theorem RegisterBlock.writeEnable_eq (r : RegisterBlock) (v : BitVec 32) :
    r.writeEnable v = { r with enable := (r.writeEnable v).enable, msiSent := (r.writeEnable v).msiSent } := by
  simp [RegisterBlock.writeEnable, RegisterBlock.notify_eq]

theorem RegisterBlock.writeEnable_msiSent (r : RegisterBlock) (v : BitVec 32) :
    (r.writeEnable v).msiSent =
      r.msiSent +
        if r.events &&& r.enable = 0 ∧ r.events &&& (r.writeEnable v).enable ≠ 0 ∧ r.msiEnabled = true then 1
        else 0 := by
  rw [RegisterBlock.writeEnable, RegisterBlock.notify_eq]
  rfl

theorem State.setReg_sameBut (s : State) (r : RegisterBlock) : sameBut [.reg] s (s.setReg r) := by
  intro p hp
  cases p <;> simp_all [Part.same]

/-- Settles O3: each of the two writes and a raised event put one new register block, whose bits and messages the rules
above give. -/
theorem eventBitsAndMessages : Obligations.EventBitsAndMessages := by
  refine ⟨⟨fun v s => ?eventsWrite, fun v s => ?enableWrite⟩, fun e s => ?source⟩
  case eventsWrite =>
    exact ⟨s.setReg (s.reg.clearEvents v), rfl, fun _ hi => s.reg.getLsbD_clearEvents_events v hi, rfl,
      s.setReg_sameBut _⟩
  case enableWrite =>
    exact ⟨s.setReg (s.reg.writeEnable v), rfl, fun _ hi => s.reg.getLsbD_writeEnable_enable v hi,
      s.reg.writeEnable_eq v, s.reg.writeEnable_msiSent v, s.setReg_sameBut _⟩
  case source =>
    refine ⟨fun _ hi => s.reg.getLsbD_setEvent_events e hi, s.reg.setEvent_enable e, ?sent, s.setReg_sameBut _⟩
    simp only [State.raise_reg, RegisterBlock.setEvent_msiSent, RegisterBlock.pendingSet_eq_zero_iff]

end Sys2Proof.Machine

/-! Burns stay within their profile (R24 to R37) and the site engines in order: what each event of a burn does to the
ranges of its state, and the walk over the commands, each by what it keeps of the board. -/

namespace Sys2Proof.Machine

/-! ### The ranges of a burn state on its own -/

theorem charge_inRange {p : Profile} {b : BurnState} (h : b.inRange p) (hs : b.bitSpent p = false) :
    (b.charge (b.pulseWidth p)).inRange p := by
  have hne : b.bitPulses ≠ p.pmax := by
    simp only [BurnState.bitSpent, Bool.or_eq_false_iff, decide_eq_false_iff_not] at hs
    exact hs.1
  refine BurnState.inRange_of_fields h h.width ?_ ?_ h.maxStress rfl rfl
  · have := h.rowStress
    simp only [BurnState.charge, BurnState.pulseWidth]
    omega
  · have := h.bitPulses
    simp only [BurnState.charge]
    omega

theorem grow_inRange {p : Profile} {b : BurnState} (h : b.inRange p) : (b.grow p).inRange p :=
  BurnState.inRange_of_fields h (Nat.min_le_left _ _) h.rowStress h.bitPulses h.maxStress rfl rfl

theorem bitDone_inRange {p : Profile} {b : BurnState} (hr : p.w0 ≤ p.wmax) (h : b.inRange p) (target : FuseRow) :
    (b.bitDone p target).inRange p := by
  unfold BurnState.bitDone
  split
  case h_1 => exact lockBitJudged_inRange hr h
  case h_2 =>
    split
    case h_1 => exact enterBit_inRange hr h _
    case h_2 => exact BurnState.inRange_of_fields h h.width h.rowStress h.bitPulses h.maxStress rfl rfl

theorem lockSettle_inRange {p : Profile} (hr : p.w0 ≤ p.wmax) (n : Nat) :
    ∀ {b : BurnState}, b.inRange p → (BurnState.lockSettle p n b).inRange p := by
  induction n with
  | zero =>
    intro b h
    unfold BurnState.lockSettle
    split
    · exact lockBitJudged_inRange hr h
    · exact h
  | succ n ih =>
    intro b h
    unfold BurnState.lockSettle
    split
    · exact ih (lockBitJudged_inRange hr h)
    · exact h

theorem BurnState.nextSpare.left {p : Profile} {b : BurnState} {i : Nat} (h : b.nextSpare p i) : b.spareLeft p i :=
  have ⟨hlt, hremaps, hrejected, _⟩ := h
  ⟨hlt, hremaps, hrejected⟩

/-! ### Every command keeps the order -/

theorem releaseCommands_keep {p : Profile} {s : State} (h : Kept p s) (hp : s.profile = p) :
    (∀ t, execRelease s = .next t → Kept p t) ∧ (∀ t, execContactRise s = .next t → Kept p t) ∧
      ∀ t, execContactFall s = .next t → Kept p t := by
  have hcontact : ∀ v, Kept p (s.setContact v) := fun v => h.same rfl rfl rfl rfl rfl rfl rfl rfl
  refine ⟨fun t ht => ?_, fun t ht => ?_, fun t ht => ?_⟩ <;> obtain rfl := Host.Outcome.next.inj ht <;> split
  · exact h
  · exact releaseIfRunning_keeps h hp
  · exact h
  · exact startWaiting_keeps (hcontact true)
  · exact releaseIfRunning_keeps (hcontact false) hp
  · exact h

theorem nudge_keeps {p : Profile} {s : State} (h : Kept p s) (writerFirst : Bool) :
    ∀ t, execNudge writerFirst s = .next t → Kept p t := by
  intro t ht
  obtain rfl := Host.Outcome.next.inj ht
  split
  · exact h
  · split
    · exact nudgeChain_keeps h.nudgeWriter
    · exact (nudgeChain_keeps h).nudgeWriter

theorem continue_keeps {p : Profile} {s : State} (h : Kept p s) : ∀ t, execContinue s = .next t → Kept p t := by
  intro t ht
  obtain rfl := Host.Outcome.next.inj ht
  split
  · exact h
  · exact continueChain_keeps h

theorem siteSettleDelayEnd_keeps {p : Profile} {s : State} (h : Kept p s) (hp : s.profile = p) (n : Site) :
    ∀ t, execSiteSettleDelayEnd n s = .next t → Kept p t := by
  intro t ht
  obtain rfl := Host.Outcome.next.inj ht
  split
  case h_1 c hc =>
    split
    case isTrue hs =>
      have hat := h.at' hp hc fun k hk => by rw [hs] at hk; cases k <;> simp [Task.states] at hk ⊢
      exact hat.send (by simp [Task.states]) (h.bk hc) (by simp)
    case isFalse => exact h
  case h_2 => exact h

theorem settleTimerExpiry_keeps {p : Profile} {s : State} (h : Kept p s) (hp : s.profile = p) (i : Chan) :
    ∀ t, execSettleTimerExpiry i s = .next t → Kept p t := by
  intro t ht
  obtain rfl := Host.Outcome.next.inj ht
  split
  case h_1 => exact arbitrate_keeps (setChan_keeps h i _ (.inr (by simp))) hp
  case h_2 => exact h

theorem regulationRestored_keeps {p : Profile} {s : State} (h : Kept p s) (i : Chan) :
    ∀ t, execRegulationRestored i s = .next t → Kept p t := by
  intro t ht
  obtain rfl := Host.Outcome.next.inj ht
  split
  case h_1 => exact setChan_keeps h i _ (.inr (by simp))
  case h_2 => exact setChan_keeps h i _ (.inl rfl)

/-- An event that ends with the touchdown settled. -/
theorem of_settled {p : Profile} {t u : State} (h : Kept p t) (hu : Host.Outcome.next t.settleTouchdown =
    (.next u : Host.Outcome State Fault Refusal)) : Kept p u := by
  obtain rfl := Host.Outcome.next.inj hu
  exact settleTouchdown_keeps h

theorem makeRoom_keeps {p : Profile} {s : State} (h : Kept p s) : Kept p s.makeRoom :=
  h.same (by simp) (by simp) (by simp) (by simp) (by simp) (by simp) (by simp) (by simp)

theorem losePower_queue (k : KeyUnit) (tookNew : Bool) : (k.losePower tookNew).queue = k.queue := by
  unfold KeyUnit.losePower
  split <;> rfl

theorem resets_keep {p : Profile} {s : State} (h : Kept p s) (inp : ResetInputs) :
    (∀ t, execEngineReset inp s = .next t → Kept p t) ∧ (∀ t, execLinkReset inp s = .next t → Kept p t) ∧
      ∀ tookNew t, execPowerOnReset inp tookNew s = .next t → Kept p t := by
  refine ⟨fun t ht => ?_, fun t ht => ?_, fun tookNew t ht => ?_⟩ <;> obtain rfl := Host.Outcome.next.inj ht
  · split
    · exact h
    · exact resetBoard_keeps h.range _ _ _ _
  · exact resetBoard_keeps h.range _ _ _ _
  · have hreset : Kept p (s.resetBoard .power true inp) := resetBoard_keeps h.range _ _ _ _
    exact (hreset.keys _ (losePower_queue _ _)).same rfl rfl rfl rfl rfl rfl rfl rfl

theorem resetComplete_keeps {p : Profile} {s : State} (h : Kept p s) :
    ∀ t, execResetComplete s = .next t → Kept p t := by
  intro t ht
  obtain rfl := Host.Outcome.next.inj ht
  split
  · exact (h.keys s.keys.readMark rfl).same rfl rfl rfl rfl rfl rfl rfl rfl
  · exact h

/-- Each command keeps the order of the board and the ranges of its burns. -/
theorem exec_keeps {p : Profile} {s t : State} (h : Kept p s) (hp : s.profile = p) (cmd : Instr)
    (ht : exec cmd s = .next t) : Kept p t := by
  obtain ⟨hlookup, hhold, hgiveBack, htoEntry, hvoid, hsettle, hpark, hclear, hvoidAll, hdump⟩ := dieTable_keeps h hp
  obtain ⟨himport, hserve, hsuccess, hfailure, hderived⟩ := keyUnit_keeps h hp
  obtain ⟨hrelease, hrise, hfall⟩ := releaseCommands_keep h hp
  cases cmd with
  | nudge writerFirst => exact nudge_keeps h writerFirst t ht
  | continueCmd => exact continue_keeps h t ht
  | release => exact hrelease t ht
  | engineReset inp =>
    obtain ⟨hengine, -, -⟩ := resets_keep h inp
    exact hengine t ht
  | linkReset inp =>
    obtain ⟨-, hlink, -⟩ := resets_keep h inp
    exact hlink t ht
  | powerOnReset inp tookNew =>
    obtain ⟨-, -, hpower⟩ := resets_keep h inp
    exact hpower tookNew t ht
  | resetComplete => exact resetComplete_keeps h t ht
  | eventsWrite value => obtain rfl := Host.Outcome.next.inj ht; exact h.same rfl rfl rfl rfl rfl rfl rfl rfl
  | eventEnableWrite value => obtain rfl := Host.Outcome.next.inj ht; exact h.same rfl rfl rfl rfl rfl rfl rfl rfl
  | otherRegisterWrite offset size value => obtain rfl := Host.Outcome.next.inj ht; exact h
  | contactRise => exact hrise t ht
  | contactFall => exact hfall t ht
  | helloResponse n f =>
    obtain ⟨hhello, -⟩ := diePort_keeps h hp n f
    exact of_settled hhello ht
  | rowCheckResponse n f =>
    obtain ⟨-, hcheck, -⟩ := diePort_keeps h hp n f
    exact of_settled hcheck ht
  | armBitResponse n f =>
    obtain ⟨-, -, harm, -⟩ := diePort_keeps h hp n f
    exact of_settled harm ht
  | senseBitResponse n f =>
    obtain ⟨-, -, -, hsense, -⟩ := diePort_keeps h hp n f
    exact of_settled hsense ht
  | readTagResponse n f =>
    obtain ⟨-, -, -, -, htag, -⟩ := diePort_keeps h hp n f
    exact of_settled htag ht
  | frameTimeout n =>
    obtain ⟨-, -, -, -, -, htimeout⟩ := diePort_keeps h hp n ⟨0, 0, 0⟩
    exact of_settled htimeout ht
  | pulseComplete i => exact pulseComplete_keeps h hp i t ht
  | regulationLost i => exact regulationLost_keeps h hp i t ht
  | regulationRestored i => exact regulationRestored_keeps h i t ht
  | settleTimerExpiry i => exact settleTimerExpiry_keeps h hp i t ht
  | siteSettleDelayEnd n => exact siteSettleDelayEnd_keeps h hp n t ht
  | grantLimitExpiry n => obtain rfl := Host.Outcome.next.inj ht; exact grantLimit_keeps h hp n
  | dieLookup => exact hlookup t ht
  | placeHold => exact hhold t ht
  | placeGiveBack => exact hgiveBack t ht
  | placeToEntry => exact htoEntry t ht
  | voidEntry => exact hvoid t ht
  | entrySettle => exact hsettle t ht
  | contextPark => exact hpark t ht
  | tableClear => exact hclear t ht
  | voidAllParked => exact hvoidAll t ht
  | tableDump => exact hdump t ht
  | compositionComplete => exact compositionComplete_keeps h hp t ht
  | keyImportComplete => exact himport t ht
  | derivationQueueServe => exact hserve t ht
  | reservationSuccess => exact hsuccess t ht
  | reservationFailure tookNew => exact hfailure tookNew t ht
  | derivationComplete => exact hderived t ht
  | escrowRecordWrite =>
    obtain rfl := Host.Outcome.next.inj ht
    exact writeRecord_keeps (makeRoom_keeps h) (by simpa [State.profile] using hp)

/-! ### A step -/

/-- A step runs the command at the front of the queue on the board without it; with none waiting it is idle. -/
theorem step_cases {s t : State} (h : step s = .next t) :
    (∃ cmd rest, s.pending = cmd :: rest ∧ exec cmd (s.setPending rest) = .next t) ∨
      (s.pending = [] ∧ t = s.tick) := by
  unfold step at h
  split at h
  case h_1 cmd rest hp => exact .inl ⟨cmd, rest, hp, h⟩
  case h_2 hp => exact .inr ⟨hp, (Host.Outcome.next.inj h).symm⟩

/-- Settles O53: the ranges of a burn state event by event, and the order of the board command by command, the idle step
beside them. -/
theorem burnStaysInBounds : Obligations.BurnStaysInBounds := by
  refine ⟨fun p hr => ⟨(begin_kept hr).toinRange, fun b h => ⟨fun bit => enterBit_inRange hr h bit,
    fun hs => ⟨charge_inRange h hs, pulseWidth_pos h hs⟩, grow_inRange h, fun tg => preCheckPassed_inRange hr h tg,
    fun tg => bitDone_inRange hr h tg, rowBad_inRange h, rowDone_inRange hr h, fun n => lockSettle_inRange hr n h,
    fun i hi => ⟨reject_inRange h hi.left, fun k tg => accept_inRange hr h hi.left k tg⟩⟩⟩, ?_⟩
  intro s t ho hb ht
  have h : Kept s.profile s := kept_iff.1 ⟨ho, hb⟩
  refine kept_iff.2 ?_
  rcases step_cases ht with ⟨cmd, rest, _, he⟩ | ⟨_, rfl⟩
  · have hrest : Kept s.profile (s.setPending rest) := h.same rfl rfl rfl rfl rfl rfl rfl rfl
    exact exec_keeps hrest rfl cmd he
  · exact tick_keeps h

end Sys2Proof.Machine

/-! What the rules of the whole machine guard: eight properties of the board, and a walk over the operations of the model
that says of each which of them it may break. Almost every operation breaks none. -/

namespace Sys2Proof.Machine

/-! ### The guarded properties -/

/-- The key material is the same (R87, R90). -/
def KeyUnit.sameMaterial (k k' : KeyUnit) : Prop :=
  k'.rootKey = k.rootKey ∧ k'.rootId = k.rootId ∧ k'.transportKey = k.transportKey ∧ k'.loaded = k.loaded

/-- The serial allocator and the reserve memory are the same; a derivation goes on or is abandoned (R91 to R96, R104). -/
def KeyUnit.sameAllocator (k k' : KeyUnit) : Prop :=
  k'.next = k.next ∧ k'.limit = k.limit ∧ k'.h = k.h ∧ k'.alloc = k.alloc ∧ k'.reserve = k.reserve ∧
    k'.writeInFlight = k.writeInFlight ∧ (k'.derivation = k.derivation ∨ k'.derivation = none)

/-- One of the properties that the whole-machine rules speak of. -/
inductive Guard where
  | events
  | memory
  | counters
  | table
  | parked
  | pool
  | material
  | allocator

/-- From `s` to `t` a guarded property is kept. -/
def Guard.kept (s t : State) : Guard → Prop
  | .events => ∀ i, s.reg.events.getLsbD i = true → t.reg.events.getLsbD i = true
  | .memory => s.mem.wf = true → t.mem.wf = true
  | .counters => s.countersBounded → t.countersBounded
  | .table => s.tableOrdered → t.tableOrdered
  | .parked => s.parkedBounded → t.parkedBounded
  | .pool => s.poolUsed → t.poolUsed
  | .material => s.keys.sameMaterial t.keys
  | .allocator => s.keys.sameAllocator t.keys

/-- From `s` to `t` every guarded property is kept but perhaps those named. -/
def State.guardedBut (xs : List Guard) (s t : State) : Prop := ∀ g, g ∉ xs → g.kept s t

variable {xs : List Guard} {s t u : State} {n : Site} {c : SiteCtx} {b : BurnState}

theorem KeyUnit.sameMaterial.refl (k : KeyUnit) : k.sameMaterial k := ⟨rfl, rfl, rfl, rfl⟩

theorem KeyUnit.sameMaterial.trans {k k' k'' : KeyUnit} (h : k.sameMaterial k') (h' : k'.sameMaterial k'') :
    k.sameMaterial k'' := by
  unfold KeyUnit.sameMaterial at *
  simp_all

theorem KeyUnit.sameAllocator.refl (k : KeyUnit) : k.sameAllocator k := by simp [KeyUnit.sameAllocator]

theorem KeyUnit.sameAllocator.trans {k k' k'' : KeyUnit} (h : k.sameAllocator k') (h' : k'.sameAllocator k'') :
    k.sameAllocator k'' := by
  unfold KeyUnit.sameAllocator at *
  grind

theorem Guard.kept.refl (g : Guard) (s : State) : g.kept s s := by
  cases g with
  | material => exact KeyUnit.sameMaterial.refl _
  | allocator => exact KeyUnit.sameAllocator.refl _
  | events => exact fun _ h => h
  | _ => exact fun h => h

theorem Guard.kept.trans {g : Guard} (h : g.kept s t) (h' : g.kept t u) : g.kept s u := by
  cases g with
  | material => exact KeyUnit.sameMaterial.trans h h'
  | allocator => exact KeyUnit.sameAllocator.trans h h'
  | events => exact fun i hi => h' i (h i hi)
  | _ => exact fun hs => h' (h hs)

theorem State.guardedBut.refl (xs : List Guard) (s : State) : s.guardedBut xs s := fun g _ => .refl g s

theorem State.guardedBut.trans (h : s.guardedBut xs t) (h' : t.guardedBut xs u) : s.guardedBut xs u :=
  fun g hg => (h g hg).trans (h' g hg)

theorem State.guardedBut.mono {ys : List Guard} (h : s.guardedBut xs t) (hsub : xs ⊆ ys) : s.guardedBut ys t :=
  fun g hg => h g fun hx => hg (hsub hx)

/-- A property left out that is kept after all. -/
theorem State.guardedBut.with {g : Guard} (h : s.guardedBut (g :: xs) t) (hg : g.kept s t) : s.guardedBut xs t := by
  intro g' hg'
  by_cases he : g' = g
  · exact he ▸ hg
  · exact h g' fun hm => (List.mem_cons.1 hm).elim he hg'

theorem State.guardedBut.fold {α : Type} {f : State → α → State} (hf : ∀ (t : State) a, t.guardedBut xs (f t a)) (l : List α)
    (h : s.guardedBut xs t) : s.guardedBut xs (l.foldl f t) := by
  induction l generalizing t with
  | nil => exact h
  | cons a l ih => exact ih (h.trans (hf t a))

/-! ### The parts of the board -/

/-- The guarded properties one by one. -/
theorem guardedBut_intro (xs : List Guard) (events : Guard.events.kept s t) (memory : Guard.memory.kept s t)
    (counters : Guard.counters.kept s t) (table : Guard.table.kept s t) (parked : Guard.parked.kept s t)
    (pool : Guard.pool.kept s t) (material : Guard.material.kept s t) (allocator : Guard.allocator.kept s t) :
    s.guardedBut xs t := by
  intro g _
  cases g <;> assumption

/-- A change of none of the parts which the guarded properties read. -/
theorem guardedBut_of_same (xs : List Guard) (hreg : t.reg = s.reg) (hmem : t.mem = s.mem)
    (hcounters : t.counters = s.counters) (hentries : t.dies.entries = s.dies.entries)
    (hparked : t.dies.parked = s.dies.parked) (hwaiting : t.waiting = s.waiting) (hchans : t.chans = s.chans)
    (hkeys : t.keys = s.keys) : s.guardedBut xs t :=
  guardedBut_intro xs (fun i hi => by rwa [hreg]) (fun h => by rwa [hmem])
    (fun h => by simpa only [State.countersBounded, hcounters] using h)
    (fun h => by simpa only [State.tableOrdered, hentries] using h)
    (fun h => by simpa only [State.parkedBounded, hparked] using h)
    (fun h => by simpa only [State.poolUsed, hwaiting, hchans] using h)
    (by rw [Guard.kept, hkeys]; exact .refl _) (by rw [Guard.kept, hkeys]; exact .refl _)

namespace State.guardedBut

theorem setPending (h : s.guardedBut xs t) {q : List Instr} : s.guardedBut xs (t.setPending q) :=
  h.trans (guardedBut_of_same xs rfl rfl rfl rfl rfl rfl rfl rfl)

theorem setChain (h : s.guardedBut xs t) {c : ChainUnit} : s.guardedBut xs (t.setChain c) :=
  h.trans (guardedBut_of_same xs rfl rfl rfl rfl rfl rfl rfl rfl)

theorem setSites (h : s.guardedBut xs t) {v : Vector (Option SiteCtx) 24} : s.guardedBut xs (t.setSites v) :=
  h.trans (guardedBut_of_same xs rfl rfl rfl rfl rfl rfl rfl rfl)

theorem setSite (h : s.guardedBut xs t) : s.guardedBut xs (t.setSite n c) := h.setSites

theorem setEscrow (h : s.guardedBut xs t) {e : EscrowWriter} : s.guardedBut xs (t.setEscrow e) :=
  h.trans (guardedBut_of_same xs rfl rfl rfl rfl rfl rfl rfl rfl)

theorem setWriter (h : s.guardedBut xs t) {w : WriterState} : s.guardedBut xs (t.setWriter w) := h.setEscrow

theorem setComp (h : s.guardedBut xs t) {q : List CompRequest} : s.guardedBut xs (t.setComp q) :=
  h.trans (guardedBut_of_same xs rfl rfl rfl rfl rfl rfl rfl rfl)

theorem setContact (h : s.guardedBut xs t) {v : Bool} : s.guardedBut xs (t.setContact v) :=
  h.trans (guardedBut_of_same xs rfl rfl rfl rfl rfl rfl rfl rfl)

theorem freshOrder (h : s.guardedBut xs t) : s.guardedBut xs t.freshOrder :=
  h.trans (guardedBut_of_same xs rfl rfl rfl rfl rfl rfl rfl rfl)

theorem queueTable (h : s.guardedBut xs t) {r : TableRequest} : s.guardedBut xs (t.queueTable r) :=
  h.trans (guardedBut_of_same xs rfl rfl rfl rfl rfl rfl rfl rfl)

theorem withdrawTable (h : s.guardedBut xs t) : s.guardedBut xs (t.withdrawTable n) :=
  h.trans (guardedBut_of_same xs rfl rfl rfl rfl rfl rfl rfl rfl)

theorem popTable (h : s.guardedBut xs t) : s.guardedBut xs t.popTable :=
  h.trans (guardedBut_of_same xs rfl rfl rfl rfl rfl rfl rfl rfl)

theorem withdrawComp (h : s.guardedBut xs t) : s.guardedBut xs (t.withdrawComp n) := h.setComp

theorem queueRecord (h : s.guardedBut xs t) {r : EscrowRecord} {rep : ReportTo} :
    s.guardedBut xs (t.queueRecord r rep) := h.setEscrow

theorem leaveSites (h : s.guardedBut xs t) : s.guardedBut xs t.leaveSites := h.setSites

/-- A register change that clears no event. -/
theorem setReg (h : s.guardedBut xs t) {r : RegisterBlock}
    (hr : ∀ i, t.reg.events.getLsbD i = true → r.events.getLsbD i = true) : s.guardedBut xs (t.setReg r) :=
  h.trans (guardedBut_intro xs hr id id id id id (KeyUnit.sameMaterial.refl _) (KeyUnit.sameAllocator.refl _))

theorem raise (h : s.guardedBut xs t) {e : Event} : s.guardedBut xs (t.raise e) :=
  h.setReg fun i hi => by
    simp only [RegisterBlock.setEvent, RegisterBlock.notify_eq] at *
    simp [hi]

theorem setMem (h : s.guardedBut xs t) {m : Memory} (hm : t.mem.wf = true → m.wf = true) :
    s.guardedBut xs (t.setMem m) :=
  h.trans (guardedBut_intro xs (fun _ => id) hm id id id id (KeyUnit.sameMaterial.refl _) (KeyUnit.sameAllocator.refl _))

theorem store (h : s.guardedBut xs t) {a : Nat} {bs : List Byte} : s.guardedBut xs (t.store a bs) :=
  h.setMem fun hm => Memory.wf_writeBytes hm a bs

theorem storeField (h : s.guardedBut xs t) {a k v : Nat} : s.guardedBut xs (t.storeField a k v) :=
  h.setMem fun hm => Memory.wf_writeField hm a k v

theorem setCounters (h : s.guardedBut xs t) {v : Vector Nat 16}
    (hv : t.countersBounded → ∀ i : Fin 16, v[i] ≤ counterMax) : s.guardedBut xs (t.setCounters v) :=
  h.trans (guardedBut_intro xs (fun _ => id) id hv id id id (KeyUnit.sameMaterial.refl _) (KeyUnit.sameAllocator.refl _))

theorem bump (h : s.guardedBut xs t) {k : Counter} : s.guardedBut xs (t.bump k) :=
  h.setCounters fun hb i => by
    have hi := hb i
    have hk : t.counter k ≤ counterMax := hb k.index
    have hsat : satInc (t.counter k) ≤ counterMax := by unfold satInc; split <;> omega
    simp only [Fin.getElem_fin, Vector.getElem_set] at *
    split <;> assumption

theorem clearCounters (h : s.guardedBut xs t) : s.guardedBut xs t.clearCounters :=
  h.setCounters fun _ i => by simp

theorem setDies (h : s.guardedBut xs t) {d : DieTableUnit}
    (ht : t.tableOrdered → d.entries.Pairwise fun a b => a.1.before b.1 = true)
    (hp : t.parkedBounded → d.parked.length ≤ parkedCapacity) : s.guardedBut xs (t.setDies d) :=
  h.trans (guardedBut_intro xs (fun _ => id) id id ht hp id (KeyUnit.sameMaterial.refl _) (KeyUnit.sameAllocator.refl _))

theorem setWaiting (h : s.guardedBut xs t) {w : List GrantRequest} (hw : t.waiting = [] → w = []) :
    s.guardedBut xs (t.setWaiting w) :=
  h.trans (guardedBut_intro xs (fun _ => id) id id id id (Or.imp_left hw) (KeyUnit.sameMaterial.refl _)
    (KeyUnit.sameAllocator.refl _))

theorem leaveWaiting (h : s.guardedBut xs t) : s.guardedBut xs (t.leaveWaiting n) :=
  h.setWaiting fun hw => by rw [hw]; rfl

theorem setKeys (h : s.guardedBut xs t) {k : KeyUnit} (hm : t.keys.sameMaterial k) (ha : t.keys.sameAllocator k) :
    s.guardedBut xs (t.setKeys k) :=
  h.trans (guardedBut_intro xs (fun _ => id) id id id id id hm ha)

theorem withdrawDerivation (h : s.guardedBut xs t) : s.guardedBut xs (t.withdrawDerivation n) :=
  h.setKeys ⟨rfl, rfl, rfl, rfl⟩ ⟨rfl, rfl, rfl, rfl, rfl, rfl, (ite_eq_or_eq _ _ _).symm⟩

theorem modSite (h : s.guardedBut xs t) {f : SiteCtx → SiteCtx} : s.guardedBut xs (t.modSite n f) := by
  unfold State.modSite
  split
  · exact h.setSite
  · exact h

end State.guardedBut

/-- A change of the key unit breaks nothing but what it says of the keys. -/
theorem guardedBut_setKeys {k : KeyUnit} (hm : .material ∉ xs → s.keys.sameMaterial k)
    (ha : .allocator ∉ xs → s.keys.sameAllocator k) : s.guardedBut xs (s.setKeys k) := by
  intro g hg
  cases g with
  | material => exact hm hg
  | allocator => exact ha hg
  | events => exact fun _ hs => hs
  | _ => exact fun hs => hs

/-- A change of the registers breaks nothing but the events. -/
theorem guardedBut_setReg (s : State) (r : RegisterBlock) : s.guardedBut (.events :: xs) (s.setReg r) := by
  intro g hg
  cases g with
  | events => exact absurd List.mem_cons_self hg
  | material => exact KeyUnit.sameMaterial.refl _
  | allocator => exact KeyUnit.sameAllocator.refl _
  | _ => exact fun hs => hs

end Sys2Proof.Machine

/-! The walk over the operations of the model, in the order of their definitions: of each, that it breaks no guarded
property. -/

namespace Sys2Proof.Machine

variable {xs : List Guard} {s t : State} {n : Site} {c : SiteCtx} {b : BurnState}

namespace State.guardedBut

/-! ### The escrow writer -/

theorem stallWriter (h : s.guardedBut xs t) {src : StallSource} {entry : Bool} :
    s.guardedBut xs (t.stallWriter src entry) := by
  unfold State.stallWriter
  dsimp only
  split
  · exact h.setWriter.raise
  · exact h.setWriter

theorem openPage (h : s.guardedBut xs t) {o : Nat} {src : StallSource} {entry : Bool} :
    s.guardedBut xs (t.openPage o src entry) := by
  unfold State.openPage
  split
  · exact h.storeField.storeField.setWriter
  · exact h.stallWriter

theorem releasePage (h : s.guardedBut xs t) {page records : Nat} : s.guardedBut xs (t.releasePage page records) :=
  h.storeField.storeField.storeField

theorem handOver (h : s.guardedBut xs t) : s.guardedBut xs t.handOver := by
  unfold State.handOver
  split
  · exact h.releasePage.raise.setEscrow.openPage
  · exact h

theorem handOverRecords (h : s.guardedBut xs t) : s.guardedBut xs t.handOverRecords := by
  unfold State.handOverRecords
  split
  · split
    · exact h
    · exact h.handOver
  · exact h

theorem flush (h : s.guardedBut xs t) : s.guardedBut xs t.flush := by
  unfold State.flush
  split
  · exact h.setEscrow
  · exact h.handOverRecords

theorem takeAnchor (h : s.guardedBut xs t) {a : Nat} : s.guardedBut xs (t.takeAnchor a) := h.queueRecord.openPage

theorem nudgeWriter (h : s.guardedBut xs t) : s.guardedBut xs t.nudgeWriter := by
  unfold State.nudgeWriter
  split
  · exact h.openPage
  · exact h.openPage
  · exact h

theorem makeRoom (h : s.guardedBut xs t) : s.guardedBut xs t.makeRoom := by
  unfold State.makeRoom
  split
  · split
    · exact h
    · exact h.handOver
  · exact h

theorem handOverFull (h : s.guardedBut xs t) : s.guardedBut xs t.handOverFull := by
  unfold State.handOverFull
  split
  · exact h.handOver
  · exact h

theorem writeHead {u : State} {r : RecordRequest} (h : s.guardedBut xs t) (hu : t.writeHead = some (u, r)) :
    s.guardedBut xs u := by
  obtain ⟨_, _, _, _, _, _, _, rfl⟩ := t.writeHead_some hu
  exact h.store.storeField.setEscrow

theorem abandonRecord (h : s.guardedBut xs t) {words : Nat} : s.guardedBut xs (t.abandonRecord words) := by
  unfold State.abandonRecord
  split
  · split
    · exact h.store
    · exact h
  · exact h

theorem resetHandOver (h : s.guardedBut xs t) : s.guardedBut xs t.resetHandOver := by
  unfold State.resetHandOver
  split
  · split
    · exact h
    · exact h.releasePage
  · exact h

/-! ### Channels and pulses -/

theorem chargePulse (h : s.guardedBut xs t) {w : Nat} : s.guardedBut xs (t.chargePulse n w) := by
  unfold State.chargePulse
  split
  · split
    · exact h.setSite.bump
    · exact h
  · exact h

theorem beginSettle (h : s.guardedBut xs t) : s.guardedBut xs (t.beginSettle n) := h.modSite

/-- A channel changes, and does not become READY beside a waiting request. -/
theorem setChan (h : s.guardedBut xs t) {i : Chan} {ch : Channel}
    (hready : t.waiting ≠ [] → ch.state = .ready → t.chans[i].state = .ready) : s.guardedBut xs (t.setChan i ch) := by
  have hpool : Guard.pool.kept t (t.setChan i ch) := by
    rintro (hw | hc)
    · exact .inl hw
    · by_cases hw : t.waiting = []
      · exact .inl hw
      · refine .inr fun j => ?_
        rw [setChan_get]
        split
        · exact fun hj => hc i (hready hw hj)
        · exact hc j
  exact h.trans (guardedBut_intro xs (fun _ => id) id id id id hpool (KeyUnit.sameMaterial.refl _)
    (KeyUnit.sameAllocator.refl _))

theorem goOffline (h : s.guardedBut xs t) {i : Chan} : s.guardedBut xs (t.goOffline i) :=
  State.guardedBut.bump (h.setChan fun _ hr => by cases hr).raise

theorem cutPulse (h : s.guardedBut xs t) {i : Chan} (hw : t.waiting = []) : s.guardedBut xs (t.cutPulse i) := by
  unfold State.cutPulse
  split
  · exact (h.setChan fun hne => absurd hw hne).chargePulse
  · exact h

theorem cutPulses (l : List Chan) (h : s.guardedBut xs t) (hw : t.waiting = []) :
    s.guardedBut xs (l.foldl State.cutPulse t) := by
  induction l generalizing t with
  | nil => exact h
  | cons i l ih => exact ih (h.cutPulse hw) (by simpa using hw)

theorem releaseChannels (h : s.guardedBut xs t) : s.guardedBut xs t.releaseChannels :=
  cutPulses allChans (h.setWaiting fun _ => rfl) rfl

/-! ### Sites -/

theorem send (h : s.guardedBut xs t) {st : SiteState} {cmd : DieCommand} {row bit : Nat} {arg : BitVec 32} :
    s.guardedBut xs (t.send n c st cmd row bit arg) := h.setSite

theorem sendRowCheck (h : s.guardedBut xs t) {st : SiteState} {row : Nat} :
    s.guardedBut xs (t.sendRowCheck n c st row) := h.send

theorem enterFinal (h : s.guardedBut xs t) {r : SiteResult} {ts : Option Nat} :
    s.guardedBut xs (t.enterFinal n c r ts) := by
  unfold State.enterFinal
  dsimp only
  split
  · exact h.store.setSite
  · exact h.setSite

theorem beginClosing (h : s.guardedBut xs t) {o : CloseOutcome} : s.guardedBut xs (t.beginClosing n c o) := by
  unfold State.beginClosing
  dsimp only
  split
  · split
    · exact h.setSite.bump.queueTable
    · exact h.setSite.queueTable
  · exact h.setSite.queueRecord

theorem beginParking (h : s.guardedBut xs t) : s.guardedBut xs (t.beginParking n c) := h.setSite.queueTable

theorem stopBurn (h : s.guardedBut xs t) {k : StopCause} : s.guardedBut xs (t.stopBurn n c k) := by
  unfold State.stopBurn
  dsimp only
  split
  · exact h.beginClosing
  · exact h.beginParking

theorem giveBack (h : s.guardedBut xs t) : s.guardedBut xs (t.giveBack n c) := by
  unfold State.giveBack
  split
  · exact h.queueTable
  · exact h

theorem endEarly (h : s.guardedBut xs t) {k : StopCause} : s.guardedBut xs (t.endEarly n c k) :=
  h.giveBack.enterFinal

theorem releaseSite (h : s.guardedBut xs t) : s.guardedBut xs (t.releaseSite n) := by
  unfold State.releaseSite
  split
  case h_1 => exact h
  case h_2 c _ =>
    cases c.state with
    | hail | reading => exact h.endEarly
    | lookup => exact h.withdrawTable.endEarly
    | prep => exact h.withdrawComp.withdrawTable.endEarly
    | issueWait => exact h.withdrawDerivation.endEarly
    | closing | parking | final => exact h
    | _ => exact h.stopBurn

theorem haltSite (h : s.guardedBut xs t) : s.guardedBut xs (t.haltSite n) := by
  unfold State.haltSite
  split
  case h_1 => exact h
  case h_2 c _ =>
    cases c.state with
    | lookup | prep =>
      dsimp only
      split
      · exact h.withdrawTable.endEarly
      · exact h.setSite
    | issueWait => exact h.withdrawDerivation.endEarly
    | escrowWait => exact h.stopBurn
    | waitGrant => exact h.leaveWaiting.stopBurn
    | final => exact h
    | _ => exact h.setSite

theorem startHalt (h : s.guardedBut xs t) {b : Block} : s.guardedBut xs (t.startHalt b) :=
  State.guardedBut.freshOrder (.fold (fun _ _ => State.guardedBut.haltSite (.refl _ _)) _ h.setChain)

theorem reportResult (h : s.guardedBut xs t) {r : SiteResult} : s.guardedBut xs (t.reportResult r) := by
  unfold State.reportResult
  split
  · split
    · exact h.startHalt
    · exact h
  · exact h

theorem finish (h : s.guardedBut xs t) {r : SiteResult} {ts : Option Nat} : s.guardedBut xs (t.finish n c r ts) :=
  h.enterFinal.reportResult

/-! ### Burns -/

theorem selectSpare (l : List Nat) (h : s.guardedBut xs t) : s.guardedBut xs (t.selectSpare n c b l) := by
  induction l generalizing t b with
  | nil => exact h.beginClosing
  | cons i l ih =>
    unfold State.selectSpare
    split
    · exact h.sendRowCheck
    · exact ih h.bump

theorem armBit (h : s.guardedBut xs t) : s.guardedBut xs (t.armBit n c b) := h.send

theorem trySpares (h : s.guardedBut xs t) : s.guardedBut xs (t.trySpares n c b) := h.selectSpare _

theorem rowFailed (h : s.guardedBut xs t) {next : State → Site → SiteCtx → BurnState → State}
    (hnext : ∀ b', s.guardedBut xs (next t n c b')) : s.guardedBut xs (t.rowFailed n c b next) := by
  unfold State.rowFailed
  split
  · exact hnext _
  · exact h.beginClosing

theorem burnStep (h : s.guardedBut xs t) : s.guardedBut xs (t.burnStep n c b) := by
  unfold State.burnStep
  dsimp only
  split
  · exact h.send
  · split
    · exact h.trySpares
    · split
      · split
        · exact h.sendRowCheck
        · exact h.armBit
      · split
        · exact h.sendRowCheck
        · split
          · split
            · exact h.rowFailed fun _ => h.trySpares
            · exact h.armBit
          · exact h.sendRowCheck

theorem burnOn (h : s.guardedBut xs t) : s.guardedBut xs (t.burnOn n c b) := by
  unfold State.burnOn
  split
  · exact h.stopBurn
  · exact h.burnStep

theorem afterBadRow (h : s.guardedBut xs t) : s.guardedBut xs (t.afterBadRow n c b) := by
  unfold State.afterBadRow
  split
  · exact h.beginClosing
  · exact h.burnOn

theorem beginBurn (h : s.guardedBut xs t) : s.guardedBut xs (t.beginBurn n c) := h.burnStep

theorem resumeFrom (h : s.guardedBut xs t) {i : Nat} : s.guardedBut xs (t.resumeFrom n c b i) := by
  unfold State.resumeFrom
  split
  · exact h.sendRowCheck
  · exact h.burnStep

/-! ### What an exchange ends in -/

theorem helloOk (h : s.guardedBut xs t) {d : BitVec 64} : s.guardedBut xs (t.helloOk n c d) := by
  unfold State.helloOk
  dsimp only
  split
  · split
    · exact h.endEarly
    · exact h.setSite.queueTable
  · split
    · exact h.finish
    · split
      · exact h.endEarly
      · exact h.send

theorem blankPassed (h : s.guardedBut xs t) : s.guardedBut xs (t.blankPassed n c) := by
  unfold State.blankPassed
  dsimp only
  split
  · exact h.endEarly
  · split
    · exact h.sendRowCheck
    · split
      · exact h.setSite.setComp
      · exact h.setSite

theorem blankFailed (h : s.guardedBut xs t) : s.guardedBut xs (t.blankFailed n c) := h.setSite.queueTable

theorem rowChecked (h : s.guardedBut xs t) {clean : Bool} {blown : FuseRow} :
    s.guardedBut xs (t.rowChecked n c clean blown) := by
  unfold State.rowChecked
  dsimp only
  split
  · split
    · exact h.burnOn
    · exact h.afterBadRow
  · split
    · exact h.burnOn
    · exact h.rowFailed fun _ => h.afterBadRow
  · exact h.beginClosing

theorem rowVerified (h : s.guardedBut xs t) {pass : Bool} : s.guardedBut xs (t.rowVerified n c pass) := by
  unfold State.rowVerified
  dsimp only
  split
  · exact h.burnOn
  · exact h.rowFailed fun _ => h.afterBadRow

theorem spareChecked (h : s.guardedBut xs t) {clean : Bool} : s.guardedBut xs (t.spareChecked n c clean) := by
  unfold State.spareChecked
  dsimp only
  split
  · split
    · exact h.bump.burnOn
    · exact h.bump.afterBadRow
  · exact h

theorem resumeChecked (h : s.guardedBut xs t) {pass : Bool} : s.guardedBut xs (t.resumeChecked n c pass) := by
  unfold State.resumeChecked
  dsimp only
  split
  · exact h.beginClosing
  · split
    · exact h.stopBurn
    · exact h.resumeFrom

theorem rowCheckEnded (h : s.guardedBut xs t) {d : Option (BitVec 64)} :
    s.guardedBut xs (t.rowCheckEnded n c d) := by
  unfold State.rowCheckEnded
  dsimp only
  split
  · split
    · exact h.blankPassed
    · exact h.blankFailed
  · exact h.resumeChecked
  · exact h.rowVerified
  · exact h.spareChecked
  · exact h.rowChecked
  · exact h.rowChecked
  · exact h.rowChecked
  · exact h

theorem armRefused (h : s.guardedBut xs t) : s.guardedBut xs (t.armRefused n c) := by
  unfold State.armRefused
  dsimp only
  split
  · exact h.burnOn
  · exact h.rowFailed fun _ => h.afterBadRow

theorem sensed (h : s.guardedBut xs t) {code : Nat} : s.guardedBut xs (t.sensed n c code) := by
  unfold State.sensed
  dsimp only
  split
  · exact h.burnOn
  · exact h.burnOn

theorem tagRead (h : s.guardedBut xs t) {part : BitVec 32} {d : BitVec 64} :
    s.guardedBut xs (t.tagRead n c part d) := by
  unfold State.tagRead
  split
  · exact h.send
  · split
    · split
      · exact h.bump.finish
      · exact h.bump.finish
    · exact h.finish

theorem contactLost (h : s.guardedBut xs t) : s.guardedBut xs (t.contactLost n c) := by
  unfold State.contactLost
  split
  · exact h.finish
  · exact h.giveBack.finish
  · exact h.finish
  · exact h.stopBurn

theorem attemptFailed (h : s.guardedBut xs t) {e : Exchange} : s.guardedBut xs (t.attemptFailed n c e) := by
  unfold State.attemptFailed
  split
  · exact State.guardedBut.bump h.setSite
  · unfold State.exchangeFailed
    split
    · exact h.send
    · exact h.bump.contactLost

theorem respond (h : s.guardedBut xs t) {cmd : DieCommand} {f : ResponseFrame}
    {ended : State → Site → SiteCtx → Exchange → Option (BitVec 64) → State}
    (hended : ∀ c e d, s.guardedBut xs (ended t n c e d)) : s.guardedBut xs (t.respond n cmd f ended) := by
  unfold State.respond
  split
  case h_1 => exact h
  case h_2 =>
    split
    case h_1 => exact h
    case h_2 =>
      split
      case isFalse => exact h
      case isTrue =>
        split
        · exact h.attemptFailed
        · exact hended _ _ _
        · exact hended _ _ _

/-! ### The chain unit -/

theorem enterHeld (h : s.guardedBut xs t) {r : HoldReason} : s.guardedBut xs (t.enterHeld r) := h.setChain.raise.flush

theorem enterWaiting (h : s.guardedBut xs t) {o : Nat} : s.guardedBut xs (t.enterWaiting o) := h.setChain.raise.flush

theorem chainFault (h : s.guardedBut xs t) {r : HoldReason} : s.guardedBut xs (t.chainFault r) :=
  h.setChain.raise.enterHeld

theorem writeResult (h : s.guardedBut xs t) {o : Nat} {r : BlockResult} : s.guardedBut xs (t.writeResult o r) :=
  h.storeField

theorem closeBlock (h : s.guardedBut xs t) {o : Nat} {notify : Bool} : s.guardedBut xs (t.closeBlock o notify) := by
  unfold State.closeBlock
  dsimp only
  split
  · exact h.storeField.raise.setChain
  · exact h.storeField.setChain

theorem takeEntry (h : s.guardedBut xs t) {e : SiteEntry × Nat} : s.guardedBut xs (t.takeEntry e) := by
  unfold State.takeEntry
  dsimp only
  split
  · exact h.enterFinal
  · exact h.send

theorem startEntries (h : s.guardedBut xs t) {b : Block} {es : List SiteEntry} :
    s.guardedBut xs (t.startEntries b es) :=
  .fold (fun _ _ => State.guardedBut.takeEntry (.refl _ _)) _ h.setChain

theorem openWafer (h : s.guardedBut xs t) {w : WaferContext} : s.guardedBut xs (t.openWafer w) :=
  State.guardedBut.queueRecord h.setChain.queueTable.clearCounters.setChain

theorem takeBlock (h : s.guardedBut xs t) {o : Nat} : s.guardedBut xs (t.takeBlock o).1 := by
  unfold State.takeBlock
  dsimp only
  split
  case h_1 =>
    unfold State.takeLoadKeys
    split
    · exact h.setChain
    · split
      · exact h.setChain
      · exact h.setChain.setChain.setKeys (.refl _) (.refl _)
  case h_2 =>
    unfold State.takeWaferStart
    split
    · exact h.setChain
    · split
      · exact h.setChain
      · exact h.setChain.openWafer
  case h_3 =>
    unfold State.takeTouchdown
    split
    · exact h.setChain
    · split
      · exact h.setChain
      · split
        · dsimp only
          split
          · exact h.setChain.startEntries.leaveSites
          · exact h.setChain.startEntries
        · exact h.setChain.setChain
  case h_4 =>
    unfold State.takeWaferEnd
    split
    · exact h.setChain
    · exact h.setChain.setChain.queueTable
  case h_5 =>
    unfold State.takeStats
    split
    · exact h.setChain
    · dsimp only
      split
      · exact h.setChain.store
      · exact h.setChain.store.clearCounters
  case h_6 =>
    unfold State.takeDump
    dsimp only
    split
    · exact h.setChain.setChain.queueTable
    · exact h.setChain
  case h_7 => exact h.setChain

theorem arrive (fuel : Nat) (h : s.guardedBut xs t) {o : Nat} : s.guardedBut xs (State.arrive fuel t o) := by
  induction fuel generalizing t o with
  | zero => exact h.setChain
  | succ fuel ih =>
    unfold State.arrive
    split
    case isFalse => exact h.enterWaiting
    case isTrue =>
      have htaken := h.takeBlock (o := o)
      split
      case h_1 u hu => rwa [hu] at htaken
      case h_2 u r hu =>
        rw [hu] at htaken
        dsimp only
        split
        · exact ih htaken.writeResult.closeBlock
        · exact htaken.writeResult.closeBlock.chainFault

theorem arriveAt (h : s.guardedBut xs t) {o : Nat} : s.guardedBut xs (t.arriveAt o) := h.arrive chainFuel

theorem followLink (h : s.guardedBut xs t) {o : Nat} : s.guardedBut xs (t.followLink o) := by
  unfold State.followLink
  split
  · exact h.arriveAt
  · exact h.chainFault

theorem endBlock (h : s.guardedBut xs t) {b : Block} : s.guardedBut xs (t.endBlock b) := h.closeBlock.followLink

theorem blockDone (h : s.guardedBut xs t) {b : Block} {r : BlockResult} : s.guardedBut xs (t.blockDone b r) :=
  h.writeResult.endBlock

theorem readHeaderStep (h : s.guardedBut xs t) : s.guardedBut xs t.readHeaderStep := by
  unfold State.readHeaderStep
  dsimp only
  split
  · exact h.setChain.takeAnchor.arriveAt
  · exact h.chainFault

theorem settleTouchdown (h : s.guardedBut xs t) : s.guardedBut xs t.settleTouchdown := by
  unfold State.settleTouchdown
  split
  case h_2 => exact h
  case h_1 =>
    split
    case h_2 => exact h
    case h_1 =>
      split
      case isFalse => exact h
      case isTrue =>
        split
        · exact h.writeResult.leaveSites.enterHeld
        · split
          · exact h.writeResult.leaveSites.enterHeld
          · exact h.leaveSites.blockDone

theorem releaseIfRunning (h : s.guardedBut xs t) : s.guardedBut xs t.releaseIfRunning := by
  unfold State.releaseIfRunning
  split
  · have hreleased := h.raise (e := .contactLost)
    exact State.guardedBut.settleTouchdown (State.guardedBut.freshOrder
      (.fold (fun _ _ => State.guardedBut.releaseSite (.refl _ _)) _ hreleased.bump.setChain.releaseChannels))
  · exact h

theorem nudgeChain (h : s.guardedBut xs t) : s.guardedBut xs t.nudgeChain := by
  unfold State.nudgeChain
  split
  · exact h.readHeaderStep
  · split
    · exact h.arriveAt
    · exact h
  · exact h

theorem continueChain (h : s.guardedBut xs t) : s.guardedBut xs t.continueChain := by
  unfold State.continueChain
  split
  · exact h.readHeaderStep
  · split
    · exact h.followLink
    · exact h
  · split
    · split
      · exact h.endBlock
      · exact h.raise.enterHeld
    · exact h
  · split
    · exact h.endBlock
    · exact h
  · exact h

theorem startWaiting (h : s.guardedBut xs t) : s.guardedBut xs t.startWaiting := by
  unfold State.startWaiting
  split
  · split
    · exact h.startEntries.settleTouchdown
    · exact h
  · exact h

end State.guardedBut

end Sys2Proof.Machine

/-! The walk goes on with the operations that guard a property only under a condition: the arbiter and the pool (R56), the
die table and its order (R121), the parked list and its bound (R130), the resets. -/

namespace Sys2Proof.Machine

variable {xs : List Guard} {s t : State} {n : Site} {c : SiteCtx}

/-! ### The arbiter uses the pool (R56) -/

theorem topRequest_eq_none {l : List GrantRequest} (h : topRequest l = none) : l = [] := by
  cases l with
  | nil => rfl
  | cons r l =>
    unfold topRequest at h
    split at h
    · split at h <;> cases h
    · cases h

@[simp] theorem modSite_waiting_chans (s : State) (n : Site) (f : SiteCtx → SiteCtx) :
    (s.modSite n f).waiting = s.waiting ∧ (s.modSite n f).chans = s.chans := by simp

/-- A channel that was offered to the arbiter is not READY, or nothing waits. -/
theorem grantTo_offered (s : State) (i : Chan) :
    (s.grantTo i).waiting = [] ∨ (s.grantTo i).chans[i].state ≠ .ready := by
  unfold State.grantTo
  split
  case isFalse hi => exact .inr hi
  case isTrue hi =>
    split
    case h_1 r hr =>
      refine .inr ?_
      unfold State.grant
      simp only [modSite_waiting_chans]
      rw [setChan_get, if_pos rfl]
      nofun
    case h_2 hr => exact .inl (topRequest_eq_none hr)

/-- A grant makes no channel READY and no request wait. -/
theorem grantTo_less (s : State) (i j : Chan) (h : s.waiting = [] ∨ s.chans[j].state ≠ .ready) :
    (s.grantTo i).waiting = [] ∨ (s.grantTo i).chans[j].state ≠ .ready := by
  unfold State.grantTo
  split
  case isFalse => exact h
  case isTrue =>
    split
    case h_2 => exact h
    case h_1 r _ =>
      unfold State.grant
      simp only [modSite_waiting_chans]
      rcases h with hw | hj
      · exact .inl (by simp [State.leaveWaiting, hw])
      · refine .inr ?_
        rw [setChan_get]
        split
        · nofun
        · exact hj

theorem grants_offer (l : List Chan) (h : ∀ j, j ∉ l → s.waiting = [] ∨ s.chans[j].state ≠ .ready) (j : Chan) :
    (l.foldl State.grantTo s).waiting = [] ∨ (l.foldl State.grantTo s).chans[j].state ≠ .ready := by
  induction l generalizing s with
  | nil => exact h j List.not_mem_nil
  | cons i l ih =>
    refine ih fun k hk => ?_
    by_cases hki : k = i
    · exact hki ▸ grantTo_offered s i
    · exact grantTo_less s i k (h k fun hm => (List.mem_cons.1 hm).elim hki hk)

/-- Once the arbiter has run no READY channel stands beside a waiting request. -/
theorem arbitrate_poolUsed (s : State) : s.arbitrate.poolUsed := by
  by_cases hw : s.arbitrate.waiting = []
  · exact .inl hw
  · exact .inr fun j => (grants_offer allChans (fun k hk => absurd (allChans_mem k) hk) j).resolve_left hw

/-- A change of channels and waiting set alone may break the use of the pool, and nothing else. -/
theorem guardedBut_pool (hreg : t.reg = s.reg) (hmem : t.mem = s.mem) (hcounters : t.counters = s.counters)
    (hdies : t.dies = s.dies) (hkeys : t.keys = s.keys) : s.guardedBut (.pool :: xs) t := by
  have hsame : s.guardedBut xs ((t.setWaiting s.waiting).setChans s.chans) :=
    guardedBut_of_same xs hreg hmem hcounters (congrArg _ hdies) (congrArg _ hdies) rfl rfl hkeys
  intro g hg
  have hkept := hsame g fun hx => hg (List.mem_cons_of_mem _ hx)
  cases g with
  | pool => exact absurd List.mem_cons_self hg
  | _ => exact hkept

/-- A change of the channels or the waiting set that the arbiter then sees. -/
theorem State.guardedBut.arbitrate (h : s.guardedBut (.pool :: xs) t) : s.guardedBut xs t.arbitrate :=
  (h.trans (guardedBut_pool (by simp) (by simp) (by simp) (by simp) (by simp))).with fun _ => arbitrate_poolUsed t

theorem State.guardedBut.armed (h : s.guardedBut xs t) : s.guardedBut xs (t.armed n c) := by
  unfold State.armed
  split
  · exact h.stopBurn
  · have hany := h.mono (List.subset_cons_self .pool xs)
    exact State.guardedBut.arbitrate (hany.trans (guardedBut_pool rfl rfl rfl rfl rfl))

/-! ### The order of the die table (R121) -/

theorem Die.before_iff {a b : Die} : a.before b = true ↔ a.y < b.y ∨ a.y = b.y ∧ a.x < b.x := by
  simp [Die.before]

/-- Two different dies stand in one order or the other. -/
theorem Die.before_of_not {a b : Die} (hne : a ≠ b) (h : ¬a.before b = true) : b.before a = true := by
  rw [Die.before_iff] at *
  have : a.x ≠ b.x ∨ a.y ≠ b.y := by
    by_contra hc
    simp only [ne_eq, not_or, not_not] at hc
    obtain ⟨hx, hy⟩ := hc
    cases a
    cases b
    simp_all
  omega

theorem Die.before_trans {a b d : Die} (hab : a.before b = true) (hbd : b.before d = true) : a.before d = true := by
  rw [Die.before_iff] at *
  omega

/-- An entry made or replaced stands behind every entry that its die and all the others stand behind. -/
theorem tableSet_behind {l : List (Die × DieEntry)} {a d : Die} {e : DieEntry}
    (hl : ∀ x ∈ l, a.before x.1 = true) (hd : a.before d = true) : ∀ x ∈ tableSet l d e, a.before x.1 = true := by
  induction l with
  | nil => simpa [tableSet] using hd
  | cons y l ih =>
    obtain ⟨d', e'⟩ := y
    rw [List.forall_mem_cons] at hl
    obtain ⟨hy, hl⟩ := hl
    unfold tableSet
    split
    · simp [hd]; simpa using hl
    · split
      · simp [hd, hy]; simpa using hl
      · simp only [List.forall_mem_cons]
        exact ⟨hy, ih hl⟩

theorem tableSet_ordered {l : List (Die × DieEntry)} (d : Die) (e : DieEntry)
    (h : l.Pairwise fun a b => a.1.before b.1 = true) : (tableSet l d e).Pairwise fun a b => a.1.before b.1 = true := by
  induction l with
  | nil => simp [tableSet]
  | cons y l ih =>
    obtain ⟨d', e'⟩ := y
    obtain ⟨hy, hl⟩ := List.pairwise_cons.1 h
    unfold tableSet
    split
    case isTrue hd => exact List.pairwise_cons.2 ⟨by simpa [← hd] using hy, hl⟩
    case isFalse hne =>
      split
      case isTrue hbefore =>
        refine List.pairwise_cons.2 ⟨?_, h⟩
        rw [List.forall_mem_cons]
        exact ⟨hbefore, fun x hx => Die.before_trans hbefore (hy x hx)⟩
      case isFalse hnot =>
        exact List.pairwise_cons.2 ⟨tableSet_behind hy (Die.before_of_not (Ne.symm hne) hnot), ih hl⟩

theorem tableMark_ordered {l : List (Die × DieEntry)} (d : Die) (st : EntryState)
    (h : l.Pairwise fun a b => a.1.before b.1 = true) :
    (tableMark l d st).Pairwise fun a b => a.1.before b.1 = true := by
  unfold tableMark
  split
  · exact tableSet_ordered _ _ h
  · exact h

/-! ### The parked list (R130) -/

theorem closeFirstHeld_length (bound : Option Site) (l : List ParkedContext) :
    (closeFirstHeld bound l).length = l.length := by
  induction l with
  | nil => rfl
  | cons q l ih =>
    unfold closeFirstHeld
    split <;> simp [ih]

theorem removeContext_length_le (l : List ParkedContext) (q : ParkedContext) :
    (removeContext l q).length ≤ l.length := List.length_erase_le

namespace State.guardedBut

/-- The state of a die's entry changes, and the parked list becomes no longer. -/
theorem mark (h : s.guardedBut xs t) {die : Die} {st : EntryState} {l : List ParkedContext}
    (hl : l.length ≤ t.dies.parked.length) : s.guardedBut xs (t.setDies { t.dies.mark die st with parked := l }) :=
  h.setDies (tableMark_ordered die st) fun hp => hl.trans hp

theorem settleEntry (h : s.guardedBut xs t) {die : Die} {o : CloseOutcome} :
    s.guardedBut xs (t.setDies (t.dies.settle die o)) := by
  cases o with
  | voidUnused => exact h.setDies (fun ht => ht.filter _) id
  | voidEvicted | voidWaferEnd => exact h.setDies id id
  | _ => exact h.setDies (tableMark_ordered die _) id

theorem absentDie (h : s.guardedBut xs t) : s.guardedBut xs (t.absentDie n c) := by
  unfold State.absentDie
  split
  · exact h.finish
  · split
    · exact h.endEarly
    · split
      · exact h.finish
      · split
        · exact h.finish
        · exact h.sendRowCheck

theorem resumeDie (h : s.guardedBut xs t) {q : ParkedContext} : s.guardedBut xs (t.resumeDie n c q) := by
  have htaken := (h.mark (die := q.die) (st := .issued) (removeContext_length_le _ q)).bump (k := .diesResumed)
  unfold State.resumeDie
  dsimp only
  split
  · exact htaken.stopBurn
  · exact htaken.resumeFrom

theorem lookedUp (h : s.guardedBut xs t) {die : Die} : s.guardedBut xs (t.lookedUp n c die) := by
  unfold State.lookedUp
  split
  · exact h.absentDie
  · split
    · exact h.finish
    · exact h.finish
    · exact h.finish
    · split
      · exact h.resumeDie
      · exact h
    · exact h

theorem placeGranted (h : s.guardedBut xs t) : s.guardedBut xs (t.placeGranted n c) := by
  unfold State.placeGranted
  dsimp only
  split
  · exact h.endEarly
  · split
    · exact h.queueTable.beginBurn
    · exact h.setSite.setKeys (.refl _) (.refl _)

/-- A new table and parked list, whose bound follows from that of the board at the start. -/
theorem setDies_from (h : s.guardedBut xs t) {d : DieTableUnit}
    (ht : t.tableOrdered → d.entries.Pairwise fun a b => a.1.before b.1 = true)
    (hp : s.parkedBounded → d.parked.length ≤ parkedCapacity) : s.guardedBut xs (t.setDies d) := by
  have hothers : t.guardedBut [.parked] (t.setDies d) := by
    intro g hg
    cases g with
    | parked => simp at hg
    | table => exact ht
    | material => exact KeyUnit.sameMaterial.refl _
    | allocator => exact KeyUnit.sameAllocator.refl _
    | events => exact fun _ hs => hs
    | _ => exact fun hs => hs
  intro g hg
  by_cases hgp : g = .parked
  · subst hgp
    exact hp
  · exact (h g hg).trans (hothers g (by simpa using hgp))

/-- A park joins the list where there is room. -/
theorem joinPark (h : s.guardedBut xs t) (hroom : s.parkedBounded → t.dies.parked.length < parkedCapacity) :
    s.guardedBut xs (t.joinPark n c) := by
  have hjoined : s.guardedBut xs (t.setDies
      { t.dies.mark c.die .parked with parked := (t.dies.mark c.die .parked).parked ++ [c.parked t.profile] }) :=
    h.setDies_from (tableMark_ordered _ _) fun hs => by simpa [DieTableUnit.mark] using hroom hs
  exact hjoined.enterFinal.modSite

theorem takePark (h : s.guardedBut xs t) (hroom : s.parkedBounded → t.dies.parked.length < parkedCapacity) :
    s.guardedBut xs (t.takePark n c) := (h.joinPark hroom).reportResult

theorem evictFor (h : s.guardedBut xs t) : s.guardedBut xs (t.evictFor n) := by
  unfold State.evictFor
  split
  · exact (h.mark (closeFirstHeld_length _ _).le).bump.queueRecord
  · exact h

theorem evictDry (h : s.guardedBut xs t) : s.guardedBut xs t.evictDry := by
  unfold State.evictDry
  split
  · exact (h.mark (removeContext_length_le _ _)).bump.bump
  · exact h

theorem parkDry (h : s.guardedBut xs t) : s.guardedBut xs (t.parkDry n c) := by
  unfold State.parkDry
  dsimp only
  split
  case isTrue hroom => exact h.evictDry.takePark fun _ => hroom
  case isFalse => exact h.evictDry

theorem voidHeld (h : s.guardedBut xs t) : s.guardedBut xs t.voidHeld := by
  have hlive : ∀ (u : State) (q : ParkedContext), u.guardedBut xs (u.voidLive q) := fun u q =>
    ((refl xs u).mark (closeFirstHeld_length _ _).le).queueRecord
  have hdry : ∀ (u : State) (q : ParkedContext), u.guardedBut xs (u.voidDry q) := fun u q =>
    ((refl xs u).mark (removeContext_length_le _ _)).bump
  unfold State.voidHeld
  split
  · exact fold hdry _ h
  · exact fold hlive _ h

theorem voidAllAnswered (h : s.guardedBut xs t) : s.guardedBut xs t.voidAllAnswered := by
  unfold State.voidAllAnswered
  split
  · split
    · exact h.queueRecord
    · exact h
  · exact h

/-! ### Written records -/

theorem issueWritten (h : s.guardedBut xs t) : s.guardedBut xs (t.issueWritten n) := by
  unfold State.issueWritten
  split
  · split
    · exact h.beginBurn
    · exact h.setSite
  · exact h

theorem closeWritten (h : s.guardedBut xs t) {o : CloseOutcome} : s.guardedBut xs (t.closeWritten n o) := by
  unfold State.closeWritten
  split
  · split
    · dsimp only
      split
      · exact h.setSite.bump.queueTable
      · exact h.setSite.queueTable
    · exact h
  · exact h

theorem siteReport (h : s.guardedBut xs t) {r : EscrowRecord} : s.guardedBut xs (t.siteReport n r) := by
  cases r with
  | issue _ => exact h.issueWritten
  | close _ => exact h.closeWritten
  | _ => exact h

theorem takeBound (h : s.guardedBut xs t) {status : ParkStatus}
    (hroom : s.parkedBounded → t.dies.parked.length < parkedCapacity) : s.guardedBut xs (t.takeBound status).1 := by
  unfold State.takeBound
  split
  · split
    · exact h.joinPark hroom
    · exact h
  · exact h

/-- The park bound to a closing context takes the place that it leaves (R133). -/
theorem closingWritten (h : s.guardedBut xs t) {r : CloseRecord} : s.guardedBut xs (t.closingWritten r).1 := by
  refine h.trans ?_
  unfold State.closingWritten
  split
  case h_2 => exact .refl _ _
  case h_1 q hq =>
    obtain ⟨hmem, _⟩ := closingContext_mem hq
    have hshorter : (removeContext t.dies.parked q).length < t.dies.parked.length := by
      rw [removeContext, List.length_erase_of_mem hmem]
      have := List.length_pos_of_mem hmem
      omega
    have hleft : t.guardedBut xs (t.setDies { t.dies with parked := removeContext t.dies.parked q }) :=
      (refl xs t).setDies id fun hp => hshorter.le.trans hp
    exact hleft.bump.takeBound fun hp => hshorter.trans_le hp

theorem requesterReport (h : s.guardedBut xs t) {r : RecordRequest} : s.guardedBut xs (t.requesterReport r).1 := by
  unfold State.requesterReport
  split
  · exact h.siteReport
  · unfold State.tableReport
    split
    · exact h.closingWritten
    · exact h
  · exact h
  · exact h

theorem settleReport (h : s.guardedBut xs t) {r : Option SiteResult} : s.guardedBut xs (t.settleReport r) := by
  cases r with
  | none => exact h.settleTouchdown
  | some r => exact h.reportResult.settleTouchdown

theorem reportWritten (h : s.guardedBut xs t) {r : RecordRequest} : s.guardedBut xs (t.reportWritten r) := by
  unfold State.reportWritten
  split
  · exact h
  · unfold State.summaryWritten
    split
    · split
      · exact h.flush.setChain.blockDone
      · exact h
    · exact h
  · exact h.requesterReport.settleReport
  · exact h.requesterReport.settleReport

theorem flushAfter (h : s.guardedBut xs t) {pending : Bool} : s.guardedBut xs (t.flushAfter pending) := by
  unfold State.flushAfter
  split
  · exact h.handOverRecords
  · exact h

theorem writeRecord (h : s.guardedBut xs t) : s.guardedBut xs t.writeRecord := by
  unfold State.writeRecord
  split
  · next hwritten => exact State.guardedBut.flushAfter (h.writeHead hwritten).setEscrow.reportWritten.handOverFull
  · exact h

/-! ### Resets and the idle step -/

theorem resetEscrow (h : s.guardedBut xs t) {hardware : Bool} {cut : RecordCut} :
    s.guardedBut xs (t.resetEscrow hardware cut) := by
  have hcut : s.guardedBut xs (t.cutRecord cut) := by
    unfold State.cutRecord
    split
    · exact h.abandonRecord
    · split
      · next hwritten => exact (h.writeHead hwritten).requesterReport
      · exact h
  unfold State.resetEscrow
  dsimp only
  split
  · exact hcut.setEscrow
  · exact hcut.resetHandOver.setEscrow

theorem stopDump (h : s.guardedBut xs t) {words : Nat} : s.guardedBut xs (t.stopDump words) := by
  unfold State.stopDump
  split
  · exact h.store
  · exact h

theorem resetChannels (h : s.guardedBut xs t) {regulation : BitVec 4} :
    s.guardedBut xs (t.resetChannels regulation) := by
  refine fold (fun u i => ?_) _ (h.setWaiting fun _ => rfl)
  have hsettling := (refl xs u).setChan (i := i) (ch := { state := .settling 0, good := regulation.getLsbD i.val })
    fun _ hr => by cases hr
  unfold State.resetChannel
  dsimp only
  split
  · exact hsettling
  · exact hsettling.goOffline

/-- A reset clears the events, and a hardware reset the key material. -/
theorem resetBoard (s : State) (cause : ResetCause) (hardware : Bool) (inp : ResetInputs) :
    s.guardedBut (.events :: if hardware then [.material] else []) (s.resetBoard cause hardware inp) := by
  generalize hxs : (if hardware then [Guard.material] else []) = xs
  have hescrow : s.guardedBut (.events :: xs) ((s.stopDump inp.dumpWords).resetEscrow hardware inp.record) :=
    State.guardedBut.resetEscrow (State.guardedBut.stopDump (refl _ s))
  have hreg := (hescrow.trans (guardedBut_setReg _ (((s.stopDump inp.dumpWords).resetEscrow hardware
    inp.record).reg.atReset cause hardware))).clearCounters
  have hkeys : ∀ u : State, u.guardedBut (.events :: xs) (u.setKeys (u.keys.atReset hardware)) := fun u =>
    guardedBut_setKeys
      (fun hm => by
        subst hxs
        cases hardware with
        | false => exact ⟨rfl, rfl, rfl, rfl⟩
        | true => simp at hm)
      (fun _ => by cases hardware <;> simp [KeyUnit.sameAllocator, KeyUnit.atReset])
  unfold State.resetBoard
  dsimp only
  exact State.guardedBut.resetChannels (State.guardedBut.setContact (State.guardedBut.setDies
    ((hreg.setChain.trans (hkeys _)).leaveSites.setComp) (fun _ => List.Pairwise.nil) fun _ => Nat.zero_le _))

theorem runTimers (s : State) : s.guardedBut xs s.runTimers := by
  have hpool : Guard.pool.kept s s.runTimers := by
    rintro (hw | hc)
    · exact .inl (by simp [State.runTimers, hw])
    · refine .inr fun i => ?_
      have hi := hc i
      simp only [State.runTimers, State.setSites_chans, State.setWaiting_chans, State.setChans_chans, Fin.getElem_fin,
        Vector.getElem_ofFn, Channel.tick] at hi ⊢
      split
      · nofun
      · nofun
      · next hready => exact absurd hready hi
      · next hoffline => rw [hoffline]; nofun
  exact (guardedBut_pool (by simp) (by simp) (by simp) (by simp) (by simp)).with hpool

theorem tick (s : State) : s.guardedBut xs s.tick := by
  have htimers : s.guardedBut xs s.runTimers := .runTimers s
  unfold State.tick State.resumeArrival
  split
  · exact htimers.setChain.arriveAt
  · exact htimers

end State.guardedBut

end Sys2Proof.Machine

/-! The rules of the whole machine, from the walk: which guarded properties each command may break, and what the key unit's
own events do to the serial allocator (R91 to R98). -/

namespace Sys2Proof.Machine

variable {s t : State}

/-- The guarded properties that a command may break: a write to EVENTS and a reset clear events, a LOAD_KEYS and a
hardware reset change the key material, the key unit's events move the allocator. -/
def brokenBy : Instr → List Guard
  | .eventsWrite _ => [.events]
  | .engineReset _ => [.events]
  | .linkReset _ => [.events, .material]
  | .powerOnReset _ _ => [.events, .material, .allocator]
  | .keyImportComplete => [.material]
  | .resetComplete => [.allocator]
  | .derivationQueueServe => [.allocator]
  | .reservationSuccess => [.allocator]
  | .reservationFailure _ => [.allocator]
  | .derivationComplete => [.allocator]
  | _ => []

/-- The properties that some command may break. -/
theorem brokenBy_subset (cmd : Instr) : brokenBy cmd ⊆ [.events, .material, .allocator] := by
  cases cmd with
  | eventsWrite | engineReset => exact show [Guard.events] ⊆ _ by simp
  | linkReset => exact show [Guard.events, .material] ⊆ _ by simp
  | powerOnReset => exact List.Subset.refl _
  | keyImportComplete => exact show [Guard.material] ⊆ _ by simp
  | resetComplete | derivationQueueServe | reservationSuccess | reservationFailure | derivationComplete =>
    exact show [Guard.allocator] ⊆ _ by simp
  | _ => exact List.nil_subset _

theorem not_brokenBy {g : Guard} (hg : g ∉ [Guard.events, .material, .allocator]) (cmd : Instr) : g ∉ brokenBy cmd :=
  fun hm => hg (brokenBy_subset cmd hm)

/-! ### Commands in groups -/

theorem diePort_guarded (s : State) (n : Site) (f : ResponseFrame) :
    s.guardedBut [] (s.respond n .hello f State.helloEnded) ∧
      s.guardedBut [] (s.respond n .rowCheck f fun t m c _ d => t.rowCheckEnded m c d) ∧
      s.guardedBut [] (s.respond n .armBit f State.armEnded) ∧
      s.guardedBut [] (s.respond n .senseBit f State.senseEnded) ∧
      s.guardedBut [] (s.respond n .readTag f State.tagEnded) ∧ s.guardedBut [] (s.timeoutAt n) := by
  have h : s.guardedBut [] s := .refl _ _
  refine ⟨h.respond fun c e d => ?_, h.respond fun c e d => h.rowCheckEnded, h.respond fun c e d => ?_,
    h.respond fun c e d => ?_, h.respond fun c e d => ?_, ?_⟩
  · cases d with
    | none => exact h
    | some v => exact h.helloOk
  · cases d with
    | none => exact h.armRefused
    | some v => exact h.armed
  · cases d with
    | none => exact h.sensed
    | some v => exact h.sensed
  · cases d with
    | none => exact h.finish
    | some v => exact h.tagRead
  · unfold State.timeoutAt
    split
    · split
      · exact h.attemptFailed
      · exact h
    · exact h

theorem channelEvents_guarded (s : State) (i : Chan) (n : Site) :
    (∀ t, execPulseComplete i s = .next t → s.guardedBut [] t) ∧
      (∀ t, execRegulationLost i s = .next t → s.guardedBut [] t) ∧
      (∀ t, execRegulationRestored i s = .next t → s.guardedBut [] t) ∧
      (∀ t, execSettleTimerExpiry i s = .next t → s.guardedBut [] t) ∧
      (∀ t, execSiteSettleDelayEnd n s = .next t → s.guardedBut [] t) ∧
      ∀ t, execGrantLimitExpiry n s = .next t → s.guardedBut [] t := by
  have h : s.guardedBut [] s := .refl _ _
  have hchan : ∀ ch, s.guardedBut [.pool] (s.setChan i ch) := fun ch => guardedBut_pool rfl rfl rfl rfl rfl
  have hsame : s.guardedBut [] (s.setChan i { s.chans[i] with good := false }) := h.setChan fun _ hr => hr
  refine ⟨?_, ?_, ?_, ?_, ?_, ?_⟩ <;> intro t ht <;> obtain rfl := Host.Outcome.next.inj ht
  case refine_1 =>
    split
    · exact (hchan _).chargePulse.beginSettle.arbitrate
    · exact h
  case refine_2 =>
    dsimp only
    split
    · exact hsame.chargePulse.beginSettle.goOffline
    · exact hsame
    · exact hsame.goOffline
  case refine_3 =>
    split
    · exact h.setChan fun _ hr => by cases hr
    · exact h.setChan fun _ hr => hr
  case refine_4 =>
    split
    · exact (hchan _).arbitrate
    · exact h
  case refine_5 =>
    split
    · split
      · exact h.send
      · exact h
    · exact h
  case refine_6 =>
    split
    · dsimp only
      split
      · exact h.leaveWaiting.bump.stopBurn
      · exact h.leaveWaiting.bump
    · exact h

theorem tableEvents_guarded (s : State) :
    (∀ t, execDieLookup s = .next t → s.guardedBut [] t) ∧ (∀ t, execPlaceHold s = .next t → s.guardedBut [] t) ∧
      (∀ t, execPlaceGiveBack s = .next t → s.guardedBut [] t) ∧
      (∀ t, execPlaceToEntry s = .next t → s.guardedBut [] t) ∧
      (∀ t, execVoidEntry s = .next t → s.guardedBut [] t) ∧
      (∀ t, execEntrySettle s = .next t → s.guardedBut [] t) ∧
      (∀ t, execContextPark s = .next t → s.guardedBut [] t) ∧
      (∀ t, execTableClear s = .next t → s.guardedBut [] t) ∧
      (∀ t, execVoidAllParked s = .next t → s.guardedBut [] t) ∧
      ∀ t, execTableDump s = .next t → s.guardedBut [] t := by
  have h : s.guardedBut [] s := .refl _ _
  have hpop : s.guardedBut [] s.popTable := h.popTable
  have hheld : ∀ n die, s.guardedBut [] (s.popTable.setDies (s.popTable.dies.holdPlace n die)) := fun _ _ =>
    hpop.setDies id id
  have hentered : ∀ die e, s.guardedBut [] (s.popTable.setDies (s.popTable.dies.setEntry die e)) := fun _ _ =>
    hpop.setDies (tableSet_ordered _ _) id
  refine ⟨?_, ?_, ?_, ?_, ?_, ?_, ?_, ?_, ?_, ?_⟩ <;> intro t ht <;> obtain rfl := Host.Outcome.next.inj ht
  case refine_1 =>
    split
    case h_1 =>
      dsimp only
      split
      · exact hpop.lookedUp.settleTouchdown
      · exact hpop
    case h_2 => exact h
  case refine_2 =>
    split
    case h_1 =>
      dsimp only
      split
      · split
        · exact (hheld _ _).placeGranted.settleTouchdown
        · exact hpop.finish.settleTouchdown
      · exact hpop
    case h_2 => exact h
  case refine_3 =>
    split
    case h_1 =>
      exact hpop.setDies id id
    case h_2 => exact h
  case refine_4 =>
    split
    case h_1 =>
      exact hpop.setDies (tableSet_ordered _ _) id
    case h_2 => exact h
  case refine_5 =>
    split
    case h_1 =>
      dsimp only
      have hvoid : ∀ die, s.guardedBut [] (if s.popTable.dies.hasRoom = true then
          (s.popTable.setDies (s.popTable.dies.setEntry die { state := .void, serial := 0 })).bump .diesVoided
          else s.popTable) := fun die => by
        split
        · exact (hentered _ _).bump
        · exact hpop
      split
      · exact (hvoid _).finish.settleTouchdown
      · exact hvoid _
    case h_2 => exact h
  case refine_6 =>
    split
    case h_1 =>
      dsimp only
      split
      · exact hpop.settleEntry.finish.settleTouchdown
      · exact hpop.settleEntry
    case h_2 => exact h
  case refine_7 =>
    split
    case h_1 =>
      dsimp only
      split
      · split
        case isTrue hroom => exact (hpop.takePark fun _ => hroom).settleTouchdown
        case isFalse =>
          split
          · exact hpop.parkDry.settleTouchdown
          · exact hpop.evictFor
      · exact hpop
    case h_2 => exact h
  case refine_8 =>
    split
    case h_1 =>
      exact hpop.setDies (fun _ => List.Pairwise.nil) id
    case h_2 => exact h
  case refine_9 =>
    split
    case h_1 =>
      exact hpop.voidHeld.voidAllAnswered
    case h_2 => exact h
  case refine_10 =>
    split
    case h_1 =>
      dsimp only
      split
      · split
        · exact State.guardedBut.blockDone hpop.store.storeField.storeField.storeField.storeField
        · exact hpop.store
      · exact hpop.store
    case h_2 => exact h

theorem compositionComplete_guarded (s : State) : ∀ t, execCompositionComplete s = .next t → s.guardedBut [] t := by
  intro t ht
  obtain rfl := Host.Outcome.next.inj ht
  have h : s.guardedBut [] s := .refl _ _
  split
  case h_2 => exact h
  case h_1 r rest _ =>
    refine State.guardedBut.settleTouchdown ?_
    unfold State.composed
    split
    · split
      · unfold State.identityReturned
        dsimp only
        split
        · exact h.setComp.endEarly
        · exact h.setComp.setSite.queueTable
      · exact h.setComp.finish
    · exact h.setComp

theorem State.guardedBut.refuseHead {xs : List Guard} (h : s.guardedBut xs t) {r : DerivRequest} {res : SiteResult} :
    s.guardedBut xs (t.refuseHead r res) := by
  have hpop : s.guardedBut xs (t.setKeys { t.keys with queue := t.keys.queue.tail }) := h.setKeys (.refl _) (.refl _)
  unfold State.refuseHead
  dsimp only
  split
  · exact hpop.giveBack.finish
  · exact hpop

/-- A change of the key unit that leaves the key material. -/
theorem guardedBut_allocator {k : KeyUnit} (hk : s.keys.sameMaterial k) : s.guardedBut [.allocator] (s.setKeys k) :=
  guardedBut_setKeys (fun _ => hk) fun ha => absurd List.mem_cons_self ha

theorem keyImportComplete_guarded (s : State) : ∀ t, execKeyImportComplete s = .next t → s.guardedBut [.material] t := by
  intro t ht
  obtain rfl := Host.Outcome.next.inj ht
  split
  case h_2 => exact .refl _ _
  case h_1 st _ =>
    have himport : s.guardedBut [.material] (s.setKeys (s.keys.import st)) :=
      guardedBut_setKeys (fun hm => absurd List.mem_cons_self hm) fun _ => by
        unfold KeyUnit.import
        dsimp only
        split <;> exact .refl _
    unfold State.loadKeysDone
    split
    · split
      · exact himport.blockDone
      · exact himport
    · exact himport

theorem serveHead_guarded (s : State) (r : DerivRequest) : s.guardedBut [.allocator] (s.serveHead r) := by
  have h : s.guardedBut [.allocator] s := .refl _ _
  unfold State.serveHead
  split
  · exact h.refuseHead
  · split
    · exact h.refuseHead
    · exact h.refuseHead
    · exact h
    · split
      · exact guardedBut_allocator (.refl _)
      · unfold State.reserveFor
        split
        · exact guardedBut_allocator (.refl _)
        · have hexhausted : s.guardedBut [.allocator] (s.setKeys { s.keys with alloc := .exhausted }) :=
            guardedBut_allocator (.refl _)
          exact hexhausted.refuseHead

theorem derivationQueueServe_guarded (s : State) :
    ∀ t, execDerivationQueueServe s = .next t → s.guardedBut [.allocator] t := by
  intro t ht
  obtain rfl := Host.Outcome.next.inj ht
  refine State.guardedBut.settleTouchdown ?_
  unfold State.serveQueue
  split
  · split
    · exact .refl _ _
    · exact serveHead_guarded s _
  · exact .refl _ _

theorem reservations_guarded (s : State) :
    (∀ t, execReservationSuccess s = .next t → s.guardedBut [.allocator] t) ∧
      ∀ b t, execReservationFailure b s = .next t → s.guardedBut [.allocator] t := by
  refine ⟨?_, fun b => ?_⟩ <;> intro t ht <;> obtain rfl := Host.Outcome.next.inj ht
  case refine_1 =>
    split
    · dsimp only
      split
      · exact guardedBut_allocator (.refl _)
      · exact guardedBut_allocator (.refl _)
    · exact .refl _ _
  case refine_2 =>
    split
    · dsimp only
      split
      · exact guardedBut_allocator (.refl _)
      · have hfault : ∀ v, s.guardedBut [.allocator] (s.setKeys
            { s.keys with
              reserve := if b = true then v else s.keys.reserve, writeInFlight := none, alloc := .fault }) :=
          fun _ => guardedBut_allocator (.refl _)
        exact (hfault _).raise
    · exact .refl _ _

theorem derivationComplete_guarded (s : State) :
    ∀ t, execDerivationComplete s = .next t → s.guardedBut [.allocator] t := by
  intro t ht
  obtain rfl := Host.Outcome.next.inj ht
  have hderived : s.guardedBut [.allocator] (s.setKeys s.keys.derived) := guardedBut_allocator (.refl _)
  split
  · dsimp only
    split
    · exact hderived.bump.setSite.queueTable.queueRecord
    · exact hderived.bump
  · exact .refl _ _

theorem resets_guarded (s : State) (inp : ResetInputs) :
    (∀ t, execEngineReset inp s = .next t → s.guardedBut [.events] t) ∧
      (∀ t, execLinkReset inp s = .next t → s.guardedBut [.events, .material] t) ∧
      (∀ b t, execPowerOnReset inp b s = .next t → s.guardedBut [.events, .material, .allocator] t) ∧
      ∀ t, execResetComplete s = .next t → s.guardedBut [.allocator] t := by
  have hreset := State.guardedBut.resetBoard s
  refine ⟨?_, ?_, fun b => ?_, ?_⟩ <;> intro t ht <;> obtain rfl := Host.Outcome.next.inj ht
  case refine_1 =>
    split
    · exact .refl _ _
    · exact hreset .engine false inp
  case refine_2 => exact hreset .link true inp
  case refine_3 =>
    have hpower : s.guardedBut [.events, .material, .allocator] (s.resetBoard .power true inp) :=
      (hreset .power true inp).mono (by simp)
    have hkeys := hpower.trans (guardedBut_setKeys (k := (s.resetBoard .power true inp).keys.losePower b)
      (fun hm => by simp at hm) fun ha => by simp at ha)
    exact (hkeys.setMem fun _ => Memory.wf_ofCells _).trans (guardedBut_of_same _ rfl rfl rfl rfl rfl rfl rfl rfl)
  case refine_4 =>
    split
    · have hkeys : s.guardedBut [.allocator] (s.setKeys s.keys.readMark) :=
        guardedBut_setKeys (fun _ => ⟨rfl, rfl, rfl, rfl⟩) fun ha => absurd List.mem_cons_self ha
      exact hkeys.setReg fun _ hi => hi
    · exact .refl _ _

theorem registerEvents_guarded (s : State) :
    (∀ b t, execNudge b s = .next t → s.guardedBut [] t) ∧ (∀ t, execContinue s = .next t → s.guardedBut [] t) ∧
      (∀ t, execRelease s = .next t → s.guardedBut [] t) ∧ (∀ t, execContactRise s = .next t → s.guardedBut [] t) ∧
      (∀ t, execContactFall s = .next t → s.guardedBut [] t) ∧
      (∀ v t, execEventsWrite v s = .next t → s.guardedBut [.events] t) ∧
      ∀ v t, execEventEnableWrite v s = .next t → s.guardedBut [] t := by
  have h : s.guardedBut [] s := .refl _ _
  refine ⟨fun b => ?_, ?_, ?_, ?_, ?_, fun v => ?_, fun v => ?_⟩ <;> intro t ht <;>
    obtain rfl := Host.Outcome.next.inj ht
  case refine_1 =>
    split
    · exact h
    · split
      · exact h.nudgeWriter.nudgeChain
      · exact h.nudgeChain.nudgeWriter
  case refine_2 =>
    split
    · exact h
    · exact h.continueChain
  case refine_3 =>
    split
    · exact h
    · exact h.releaseIfRunning
  case refine_4 =>
    split
    · exact h
    · exact h.setContact.startWaiting
  case refine_5 =>
    split
    · exact h.setContact.releaseIfRunning
    · exact h
  case refine_6 => exact guardedBut_setReg _ _
  case refine_7 => exact h.setReg fun i hi => by simpa [RegisterBlock.writeEnable, RegisterBlock.notify_eq] using hi

/-! ### Every command and every step -/

/-- A command breaks no guarded property but those that `brokenBy` names. -/
theorem exec_guarded (cmd : Instr) (ht : exec cmd s = .next t) : s.guardedBut (brokenBy cmd) t := by
  obtain ⟨hnudge, hcontinue, hrelease, hrise, hfall, hevents, henable⟩ := registerEvents_guarded s
  obtain ⟨hlookup, hhold, hgiveBack, htoEntry, hvoid, hsettle, hpark, hclear, hvoidAll, hdump⟩ := tableEvents_guarded s
  cases cmd with
  | nudge writerFirst => exact hnudge writerFirst t ht
  | continueCmd => exact hcontinue t ht
  | release => exact hrelease t ht
  | engineReset inp =>
    obtain ⟨hengine, -, -, -⟩ := resets_guarded s inp
    exact hengine t ht
  | linkReset inp =>
    obtain ⟨-, hlink, -, -⟩ := resets_guarded s inp
    exact hlink t ht
  | powerOnReset inp tookNew =>
    obtain ⟨-, -, hpower, -⟩ := resets_guarded s inp
    exact hpower tookNew t ht
  | resetComplete =>
    obtain ⟨-, -, -, hcomplete⟩ := resets_guarded s ⟨false, 0, .counted, 0⟩
    exact hcomplete t ht
  | eventsWrite value => exact hevents value t ht
  | eventEnableWrite value => exact henable value t ht
  | otherRegisterWrite offset size value =>
    obtain rfl := Host.Outcome.next.inj ht
    exact .refl _ _
  | contactRise => exact hrise t ht
  | contactFall => exact hfall t ht
  | helloResponse n f =>
    obtain rfl := Host.Outcome.next.inj ht
    obtain ⟨hhello, -⟩ := diePort_guarded s n f
    exact hhello.settleTouchdown
  | rowCheckResponse n f =>
    obtain rfl := Host.Outcome.next.inj ht
    obtain ⟨-, hcheck, -⟩ := diePort_guarded s n f
    exact hcheck.settleTouchdown
  | armBitResponse n f =>
    obtain rfl := Host.Outcome.next.inj ht
    obtain ⟨-, -, harm, -⟩ := diePort_guarded s n f
    exact harm.settleTouchdown
  | senseBitResponse n f =>
    obtain rfl := Host.Outcome.next.inj ht
    obtain ⟨-, -, -, hsense, -⟩ := diePort_guarded s n f
    exact hsense.settleTouchdown
  | readTagResponse n f =>
    obtain rfl := Host.Outcome.next.inj ht
    obtain ⟨-, -, -, -, htag, -⟩ := diePort_guarded s n f
    exact htag.settleTouchdown
  | frameTimeout n =>
    obtain rfl := Host.Outcome.next.inj ht
    obtain ⟨-, -, -, -, -, htimeout⟩ := diePort_guarded s n ⟨0, 0, 0⟩
    exact htimeout.settleTouchdown
  | pulseComplete i =>
    obtain ⟨hpulse, -⟩ := channelEvents_guarded s i 0
    exact hpulse t ht
  | regulationLost i =>
    obtain ⟨-, hlost, -⟩ := channelEvents_guarded s i 0
    exact hlost t ht
  | regulationRestored i =>
    obtain ⟨-, -, hrestored, -⟩ := channelEvents_guarded s i 0
    exact hrestored t ht
  | settleTimerExpiry i =>
    obtain ⟨-, -, -, hsettled, -⟩ := channelEvents_guarded s i 0
    exact hsettled t ht
  | siteSettleDelayEnd n =>
    obtain ⟨-, -, -, -, hdelay, -⟩ := channelEvents_guarded s 0 n
    exact hdelay t ht
  | grantLimitExpiry n =>
    obtain ⟨-, -, -, -, -, hlimit⟩ := channelEvents_guarded s 0 n
    exact hlimit t ht
  | dieLookup => exact hlookup t ht
  | placeHold => exact hhold t ht
  | placeGiveBack => exact hgiveBack t ht
  | placeToEntry => exact htoEntry t ht
  | voidEntry => exact hvoid t ht
  | entrySettle => exact hsettle t ht
  | contextPark => exact hpark t ht
  | tableClear => exact hclear t ht
  | voidAllParked => exact hvoidAll t ht
  | tableDump => exact hdump t ht
  | compositionComplete => exact compositionComplete_guarded s t ht
  | keyImportComplete => exact keyImportComplete_guarded s t ht
  | derivationQueueServe => exact derivationQueueServe_guarded s t ht
  | reservationSuccess =>
    obtain ⟨hsuccess, -⟩ := reservations_guarded s
    exact hsuccess t ht
  | reservationFailure tookNew =>
    obtain ⟨-, hfailure⟩ := reservations_guarded s
    exact hfailure tookNew t ht
  | derivationComplete => exact derivationComplete_guarded s t ht
  | escrowRecordWrite =>
    obtain rfl := Host.Outcome.next.inj ht
    have h : s.guardedBut [] s := .refl _ _
    exact h.makeRoom.writeRecord

/-- A step keeps a guarded property that no command breaks. -/
theorem step_keeps {g : Guard} (hg : ∀ cmd : Instr, g ∉ brokenBy cmd) (ht : step s = .next t) : g.kept s t := by
  rcases step_cases ht with ⟨cmd, rest, _, he⟩ | ⟨_, rfl⟩
  · have hrest : s.guardedBut (brokenBy cmd) (s.setPending rest) := State.guardedBut.setPending (.refl _ _)
    exact hrest.trans (exec_guarded cmd he) g (hg cmd)
  · exact State.guardedBut.tick (xs := []) s g List.not_mem_nil

/-- Settles O56: no command and no idle step breaks the canonical form of job memory. -/
theorem memoryCanonicalKept : Obligations.MemoryCanonicalKept := by
  intro s t hwf ht
  exact step_keeps (g := .memory) (not_brokenBy (by simp)) ht hwf

/-- Settles O57: no command and no idle step breaks the bounds of the counters and the parked list, or the order of the
die table. -/
theorem boundsKept : Obligations.BoundsKept := by
  intro s t hcounters hparked htable ht
  exact ⟨step_keeps (g := .counters) (not_brokenBy (by simp)) ht hcounters,
    step_keeps (g := .parked) (not_brokenBy (by simp)) ht hparked,
    step_keeps (g := .table) (not_brokenBy (by simp)) ht htable⟩

/-- Settles O58: what makes a channel READY or a request wait ends with the arbiter. -/
theorem poolNeverIdle : Obligations.PoolNeverIdle := by
  intro s t hpool ht
  exact step_keeps (g := .pool) (not_brokenBy (by simp)) ht hpool

/-- Settles O60: only a write to EVENTS and the resets are named as breaking the events. -/
theorem eventsStaySet : Obligations.EventsStaySet := by
  intro cmd s t i hwrite hengine hlink hpower ht hi
  have hkept : Guard.events ∉ brokenBy cmd := by
    cases cmd with
    | eventsWrite v => exact absurd rfl (hwrite v)
    | engineReset inp => exact absurd rfl (hengine inp)
    | linkReset inp => exact absurd rfl (hlink inp)
    | powerOnReset inp tookNew => exact absurd rfl (hpower inp tookNew)
    | keyImportComplete => exact show Guard.events ∉ [Guard.material] by simp
    | resetComplete | derivationQueueServe | reservationSuccess | reservationFailure | derivationComplete =>
      exact show Guard.events ∉ [Guard.allocator] by simp
    | _ => exact List.not_mem_nil
  exact exec_guarded cmd ht .events hkept i hi

/-- Settles O34: only a LOAD_KEYS and the hardware resets are named as breaking the key material. -/
theorem keysChangeOnlyByImport : Obligations.KeysChangeOnlyByImport := by
  intro cmd s t himport hlink hpower ht
  have hkept : Guard.material ∉ brokenBy cmd := by
    cases cmd with
    | keyImportComplete => exact absurd rfl himport
    | linkReset inp => exact absurd rfl (hlink inp)
    | powerOnReset inp tookNew => exact absurd rfl (hpower inp tookNew)
    | eventsWrite | engineReset => exact show Guard.material ∉ [Guard.events] by simp
    | resetComplete | derivationQueueServe | reservationSuccess | reservationFailure | derivationComplete =>
      exact show Guard.material ∉ [Guard.allocator] by simp
    | _ => exact List.not_mem_nil
  exact exec_guarded cmd ht .material hkept

end Sys2Proof.Machine

/-! The serial allocator (R91 to R98): what each of the key unit's events does to it, and that no event takes next or the
mark back. -/

namespace Sys2Proof.Machine

variable {s t : State} {k k' : KeyUnit}

/-- From one key unit to the next the allocator is sound, and neither next nor the mark falls. -/
structure KeyUnit.advances (k k' : KeyUnit) : Prop where
  sound : k'.sound
  next : k.next ≤ k'.next
  mark : k.reserve ≤ k'.reserve

theorem KeyUnit.sound.advances_same (h : k.sound) (hs : k.sameAllocator k') : k.advances k' := by
  obtain ⟨hnext, hlimit, hh, halloc, hreserve, hflight, hderivation⟩ := hs
  refine ⟨⟨?_, ?_, ?_, ?_, ?_, ?_⟩, hnext.ge, hreserve.ge⟩
  · rw [hnext, hlimit]; exact h.next_le
  · rw [hlimit, hh]; exact h.limit_le
  · rw [hh, hreserve]; exact h.h_le
  · rw [halloc, hreserve, hh]; exact h.held
  · rw [hflight, halloc, hh, hreserve]; exact h.inFlight
  · rintro d hd
    rcases hderivation with hsame | hnone
    · rw [hnext, hlimit, halloc]
      exact h.deriving_next d (hsame ▸ hd)
    · rw [hnone] at hd
      cases hd

theorem KeyUnit.advances.then_same {k'' : KeyUnit} (h : k.advances k') (hs : k'.sameAllocator k'') : k.advances k'' :=
  have h' := h.sound.advances_same hs
  ⟨h'.sound, h.next.trans h'.next, h.mark.trans h'.mark⟩

/-- What guards the allocator keeps it sound. -/
theorem KeyUnit.advances.guarded (h : k.advances s.keys) (hg : s.guardedBut [] t) : k.advances t.keys :=
  h.then_same (hg .allocator List.not_mem_nil)

/-! ### The key unit's events -/

/-- While a write is in flight no derivation is in progress. -/
theorem KeyUnit.sound.no_derivation (h : k.sound) {v : Nat} (hv : k.writeInFlight = some v) : k.derivation = none := by
  cases hd : k.derivation with
  | none => rfl
  | some d =>
    obtain ⟨hreserving, -, -⟩ := h.inFlight v hv
    obtain ⟨-, -, hready⟩ := h.deriving_next d hd
    rw [hreserving] at hready
    cases hready

/-- Outside RESERVING no write is in flight. -/
theorem KeyUnit.sound.no_write (h : k.sound) (ha : k.alloc ≠ .reserving) : k.writeInFlight = none := by
  cases hv : k.writeInFlight with
  | none => rfl
  | some v =>
    obtain ⟨hreserving, -, -⟩ := h.inFlight v hv
    exact absurd hreserving ha

theorem readMark_advances (h : k.sound) (hv : k.writeInFlight = none) : k.advances k.readMark where
  sound := {
    next_le := le_refl _
    limit_le := le_refl _
    h_le := le_refl _
    held := fun _ => rfl
    inFlight := fun v hw => by simp [KeyUnit.readMark, hv] at hw
    deriving_next := fun d hd => by simp [KeyUnit.readMark] at hd }
  next := h.next_le.trans (h.limit_le.trans h.h_le)
  mark := le_refl _

theorem reserved_advances (h : k.sound) {v : Nat} (hv : k.writeInFlight = some v) :
    k.advances ({ k with reserve := v, writeInFlight := none } : KeyUnit).reserved := by
  obtain ⟨-, rfl, hmark⟩ := h.inFlight v hv
  have hnext := h.next_le
  have hlimit := h.limit_le
  refine ⟨⟨?_, ?_, ?_, ?_, ?_, ?_⟩, ?_, ?_⟩ <;> simp [KeyUnit.reserved, h.no_derivation hv] <;> omega

/-- The end of a write that the key unit does not take as a success. -/
theorem writeEnded_advances (h : k.sound) {v r : Nat} {a : AllocState} (hv : k.writeInFlight = some v)
    (hr : r = v ∨ r = k.reserve) (ha : a = .fault ∨ a = k.alloc) :
    k.advances { k with reserve := r, writeInFlight := none, alloc := a } := by
  obtain ⟨hreserving, hmark, hheld⟩ := h.inFlight v hv
  have hle : k.reserve ≤ r := by omega
  have halloc : ¬(a = .ready ∨ a = .exhausted) := by
    rcases ha with rfl | rfl
    · simp
    · simp [hreserving]
  exact ⟨⟨h.next_le, h.limit_le, h.h_le.trans hle, fun hb => absurd hb halloc, fun _ hw => by simp at hw,
    fun d hd => by simp [h.no_derivation hv] at hd⟩, le_refl _, hle⟩

theorem derived_advances (h : k.sound) {d : Derivation} (hd : k.derivation = some d) : k.advances k.derived := by
  obtain ⟨-, hlt, -⟩ := h.deriving_next d hd
  exact ⟨⟨hlt, h.limit_le, h.h_le, h.held, h.inFlight, fun _ hn => by simp [KeyUnit.derived] at hn⟩,
    Nat.le_succ _, le_refl _⟩

theorem beginDerivation_advances (h : s.keys.sound) (r : DerivRequest) (hready : s.keys.alloc = .ready)
    (hlt : s.keys.next < s.keys.limit) : s.keys.advances (s.beginDerivation r).keys := by
  refine ⟨⟨h.next_le, h.limit_le, h.h_le, h.held, h.inFlight, ?_⟩, le_refl _, le_refl _⟩
  rintro d hd
  obtain rfl := Option.some.inj hd
  exact ⟨rfl, hlt, hready⟩

theorem reserveFor_advances (h : s.keys.sound) (r : DerivRequest) (hready : s.keys.alloc = .ready)
    (hnone : s.keys.derivation = none) : s.keys.advances (s.reserveFor r).keys := by
  have hheld := h.held (.inl hready)
  unfold State.reserveFor
  split
  · refine ⟨⟨h.next_le, h.limit_le, h.h_le, ?_, ?_, ?_⟩, le_refl _, le_refl _⟩
    · simp
    · rintro v hv
      exact ⟨rfl, (Option.some.inj hv).symm, hheld⟩
    · simp [hnone]
  · have hexhausted : s.keys.advances (s.setKeys { s.keys with alloc := .exhausted }).keys := by
      refine ⟨⟨h.next_le, h.limit_le, h.h_le, fun _ => hheld, ?_, ?_⟩, le_refl _, le_refl _⟩
      · simp [h.no_write (by simp [hready])]
      · simp [hnone]
    exact hexhausted.guarded (State.guardedBut.refuseHead (.refl _ _))

theorem serveQueue_advances (h : s.keys.sound) : s.keys.advances s.serveQueue.keys := by
  have hsame : s.keys.advances s.keys := h.advances_same (.refl _)
  unfold State.serveQueue
  split
  case h_2 => exact hsame
  case h_1 r rest hnone _ =>
    split
    · exact hsame
    · unfold State.serveHead
      have hrefused : ∀ res, s.keys.advances (s.refuseHead r res).keys := fun _ =>
        hsame.guarded (State.guardedBut.refuseHead (.refl _ _))
      split
      · exact hrefused _
      · split
        · exact hrefused _
        · exact hrefused _
        · exact hsame
        · next hready =>
          split
          · next hlt => exact beginDerivation_advances h r hready hlt
          · exact reserveFor_advances h r hready hnone

theorem losePower_advances (h : k.sound) (tookNew : Bool) : k.advances (k.losePower tookNew) := by
  unfold KeyUnit.losePower
  split
  · next v hv => exact writeEnded_advances h hv (by cases tookNew <;> simp) (.inr rfl)
  · exact h.advances_same (.refl _)

theorem derivationComplete_keys {d : Derivation} (hd : s.keys.derivation = some d) (hq : s.keys.queue ≠ [])
    (ht : execDerivationComplete s = .next t) : t.keys = s.keys.derived := by
  obtain ⟨r, rest, hr⟩ := List.exists_cons_of_ne_nil hq
  obtain rfl := Host.Outcome.next.inj ht
  simp only [hd, hr]
  split
  · simp [State.takeDerivation]
  · simp

/-! ### Every command -/

theorem exec_advances (h : s.keys.sound) (cmd : Instr) (ht : exec cmd s = .next t) : s.keys.advances t.keys := by
  have hguarded := exec_guarded cmd ht .allocator
  have hsame : s.keys.advances s.keys := h.advances_same (.refl _)
  cases cmd with
  | resetComplete =>
    obtain rfl := Host.Outcome.next.inj ht
    split
    · next hends => exact readMark_advances h hends.2
    · exact hsame
  | derivationQueueServe =>
    obtain rfl := Host.Outcome.next.inj ht
    exact (serveQueue_advances h).guarded (State.guardedBut.settleTouchdown (.refl _ _))
  | reservationSuccess =>
    obtain rfl := Host.Outcome.next.inj ht
    split
    · next v hv =>
      dsimp only
      split
      · exact writeEnded_advances h hv (.inl rfl) (.inr rfl)
      · exact reserved_advances h hv
    · exact hsame
  | reservationFailure tookNew =>
    obtain rfl := Host.Outcome.next.inj ht
    split
    · next v hv =>
      have hreserve : (if tookNew = true then v else s.keys.reserve) = v ∨
          (if tookNew = true then v else s.keys.reserve) = s.keys.reserve := ite_eq_or_eq _ _ _
      dsimp only
      split
      · exact writeEnded_advances h hv hreserve (.inr rfl)
      · exact writeEnded_advances h hv hreserve (.inl rfl)
    · exact hsame
  | derivationComplete =>
    cases hd : s.keys.derivation with
    | none =>
      obtain rfl := Host.Outcome.next.inj ht
      simpa [hd] using hsame
    | some d =>
      cases hq : s.keys.queue with
      | nil =>
        obtain rfl := Host.Outcome.next.inj ht
        simpa [hd, hq] using hsame
      | cons r rest =>
        rw [derivationComplete_keys hd (by simp [hq]) ht]
        exact derived_advances h hd
  | powerOnReset inp tookNew =>
    obtain rfl := Host.Outcome.next.inj ht
    have hreset : s.keys.advances (s.resetBoard .power true inp).keys :=
      h.advances_same (State.guardedBut.resetBoard s .power true inp .allocator (by simp))
    have hpower := losePower_advances hreset.sound tookNew
    exact ⟨hpower.sound, hreset.next.trans hpower.next, hreset.mark.trans hpower.mark⟩
  | eventsWrite | engineReset => exact h.advances_same (hguarded (show Guard.allocator ∉ [Guard.events] by simp))
  | linkReset => exact h.advances_same (hguarded (show Guard.allocator ∉ [Guard.events, .material] by simp))
  | keyImportComplete => exact h.advances_same (hguarded (show Guard.allocator ∉ [Guard.material] by simp))
  | _ => exact h.advances_same (hguarded List.not_mem_nil)

/-- Settles O59: each command advances the allocator, and a completed derivation takes next past its serial. -/
theorem serialsNeverRepeat : Obligations.SerialsNeverRepeat := by
  intro s t h ht
  have hadvances : s.keys.advances t.keys := by
    rcases step_cases ht with ⟨cmd, rest, _, he⟩ | ⟨_, rfl⟩
    · exact exec_advances (s := s.setPending rest) h cmd he
    · exact h.advances_same (State.guardedBut.tick (xs := []) s .allocator List.not_mem_nil)
  refine ⟨hadvances.sound, hadvances.next, hadvances.mark, fun d rest hd hp hq => ?_⟩
  obtain ⟨hserial, hlt, -⟩ := h.deriving_next d hd
  have htaken : t.keys = s.keys.derived := by
    rcases step_cases ht with ⟨cmd, rest', hp', he⟩ | ⟨hidle, -⟩
    · obtain ⟨rfl, rfl⟩ := List.cons.inj (hp.symm.trans hp')
      exact derivationComplete_keys (s := s.setPending rest) hd hq he
    · rw [hidle] at hp
      cases hp
  have hnext : t.keys.next = s.keys.next + 1 := by rw [htaken]; rfl
  have hlimit := h.limit_le
  have hmark := h.h_le
  exact ⟨hserial, by omega, by omega⟩

end Sys2Proof.Machine

/-! The step itself, the board after reset, and the idle step (R14, R28, R47, R57). -/

namespace Sys2Proof.Machine

/-- Settles O1: that is how `step` is defined. -/
theorem stepTakesFrontCommand : Obligations.StepTakesFrontCommand := by
  intro c rest s h
  simp only [step, h]

/-- Settles O55: no site, no request and no pulse is there to be out of order. -/
theorem invariantsAtReset : Obligations.InvariantsAtReset := by
  have hkeys : State.reset.keys.sound :=
    ⟨le_refl _, le_refl _, le_refl _, fun _ => rfl, fun _ h => (nomatch h), fun _ h => (nomatch h)⟩
  have hkept : Kept State.reset.profile State.reset := by
    refine reset_kept (by decide) (fun n => ?_) rfl rfl rfl rfl (fun i n w e => ?_) rfl rfl rfl
    · simp [State.reset]
    · simp [State.reset]
  exact ⟨rfl, fun i => by simp [State.reset], .inl rfl, Nat.zero_le _, List.Pairwise.nil, hkeys, kept_iff.2 hkept⟩

/-! ### The idle step -/

theorem runTimers_chans (s : State) (i : Chan) : s.runTimers.chans[i] = s.chans[i].tick := by
  simp [State.runTimers]

theorem runTimers_sites (s : State) (n : Site) : s.runTimers.sites[n] = s.sites[n].map (SiteCtx.tick s.profile) := by
  simp [State.runTimers]

theorem step_idle {s : State} (hp : s.pending = []) (ha : s.chain.arrival = none) : step s = .next s.runTimers := by
  simp [step, hp, State.tick, State.resumeArrival, ha]

/-- A context's timer counts, and nothing else of it. -/
theorem SiteCtx.tick_eq (p : Profile) (x : SiteCtx) : ∃ k, x.tick p = { x with timer := k } ∧
    (x.state = .settling → k = min (10 * p.settleUs) (x.timer + 1)) ∧
    (x.state ≠ .settling → x.exch.isSome → k = min (10 * p.timeoutUs) (x.timer + 1)) ∧
    (x.state ≠ .settling → x.exch = none → k = x.timer) := by
  unfold SiteCtx.tick countTo
  split
  · exact ⟨_, rfl, by simp_all⟩
  · split
    · next hexch => exact ⟨_, rfl, by simp_all, by simp_all, fun _ hn => by simp [hn] at hexch⟩
    · exact ⟨x.timer, rfl, by simp_all⟩

/-- Settles O2: each timer counts by its own clause of the tick. -/
theorem idleStepCountsTimers : Obligations.IdleStepCountsTimers := by
  intro s hp ha
  refine ⟨_, step_idle hp ha, fun c => ?_, rfl, fun n hn => ?_, fun n x hx => ?_, ?_⟩
  · rw [runTimers_chans]
    generalize s.chans[c] = ch
    unfold Channel.tick
    split <;> simp_all [countTo]
  · rw [runTimers_sites, hn, Option.map_none]
  · obtain ⟨k, hk, hcount⟩ := SiteCtx.tick_eq s.profile x
    exact ⟨k, by rw [runTimers_sites, hx, Option.map_some, hk], hcount⟩
  · exact fun p hp => by cases p <;> simp_all [Part.same]

end Sys2Proof.Machine

/-! The register window (R99, R176 to R178): which writes are commands, and where the fields of STATUS stand. -/

namespace Sys2Proof.Machine

/-! ### Writes -/

theorem writeHasEffect_iff (offset size : Nat) (v : BitVec 32) : writeHasEffect offset size v = true ↔
    size = 4 ∧ ((offset = 4194304 ∧ 1 ≤ v.toNat ∧ v.toNat ≤ 4) ∨ offset = 4194312 ∨ offset = 4194316) := by
  simp [writeHasEffect, and_assoc, or_assoc]

/-- A write without effect spells no command of the other rows. -/
theorem commandOfWrite_discarded {offset size : Nat} {v : BitVec 32} (h : writeHasEffect offset size v = false)
    (inp : ResetInputs) (first : Bool) :
    commandOfWrite offset size v inp first = .otherRegisterWrite offset size v := by
  have hno := mt (writeHasEffect_iff offset size v).2 (by simp [h])
  unfold commandOfWrite
  split
  case isTrue hcontrol =>
    obtain ⟨hsize, hoffset⟩ := hcontrol
    have hcode : ¬(1 ≤ v.toNat ∧ v.toNat ≤ 4) := fun hc => hno ⟨hsize, .inl ⟨hoffset, hc⟩⟩
    split
    · omega
    · omega
    · omega
    · omega
    · rfl
  case isFalse =>
    rw [if_neg fun hc => hno ⟨hc.1, .inr (.inl hc.2)⟩, if_neg fun hc => hno ⟨hc.1, .inr (.inr hc.2)⟩]

theorem commandOfWrite_control (v : BitVec 32) (inp : ResetInputs) (first : Bool) (h1 : 1 ≤ v.toNat) (h4 : v.toNat ≤ 4) :
    (v = 1 ∧ commandOfWrite 0x400000 4 v inp first = .nudge first) ∨
      (v = 2 ∧ commandOfWrite 0x400000 4 v inp first = .continueCmd) ∨
      (v = 3 ∧ commandOfWrite 0x400000 4 v inp first = .release) ∨
      (v = 4 ∧ commandOfWrite 0x400000 4 v inp first = .engineReset inp) := by
  have hcodes : v = 1 ∨ v = 2 ∨ v = 3 ∨ v = 4 := by bv_omega
  rcases hcodes with rfl | rfl | rfl | rfl
  · exact .inl ⟨rfl, rfl⟩
  · exact .inr (.inl ⟨rfl, rfl⟩)
  · exact .inr (.inr (.inl ⟨rfl, rfl⟩))
  · exact .inr (.inr (.inr ⟨rfl, rfl⟩))

/-! ### STATUS -/

/-- A word of ten fields at the places of R178. -/
theorem fields_of_word {n tag unit cause loaded wafer alloc ready contact stalled resetting : Nat}
    (hn : n = tag + unit * 2 ^ 16 + cause * 2 ^ 18 + loaded * 2 ^ 20 + wafer * 2 ^ 21 + alloc * 2 ^ 22 + ready * 2 ^ 24 +
      contact * 2 ^ 27 + stalled * 2 ^ 28 + resetting * 2 ^ 29)
    (htag : tag < 65536) (hunit : unit < 4) (hcause : cause < 4) (hloaded : loaded < 2) (hwafer : wafer < 2)
    (halloc : alloc < 4) (hready : ready < 8) (hcontact : contact < 2) (hstalled : stalled < 2)
    (hresetting : resetting < 2) :
    n < 2 ^ 30 ∧ n % 2 ^ 16 = tag ∧ n / 2 ^ 16 % 2 ^ 2 = unit ∧ n / 2 ^ 18 % 2 ^ 2 = cause ∧ n / 2 ^ 20 % 2 = loaded ∧
      n / 2 ^ 21 % 2 = wafer ∧ n / 2 ^ 22 % 2 ^ 2 = alloc ∧ n / 2 ^ 24 % 2 ^ 3 = ready ∧ n / 2 ^ 27 % 2 = contact ∧
      n / 2 ^ 28 % 2 = stalled ∧ n / 2 ^ 29 % 2 = resetting := by
  omega

theorem extract_ofNat {n : Nat} (hn : n < 2 ^ 32) (start len : Nat) :
    ((BitVec.ofNat 32 n).extractLsb' start len).toNat = n / 2 ^ start % 2 ^ len := by
  rw [BitVec.extractLsb'_toNat, BitVec.toNat_ofNat, Nat.mod_eq_of_lt hn, Nat.shiftRight_eq_div_pow]

theorem getLsbD_ofNat_eq {n i : Nat} {b : Bool} (hi : i < 32) (h : n / 2 ^ i % 2 = b.toNat) :
    (BitVec.ofNat 32 n).getLsbD i = b := by
  rw [BitVec.getLsbD_ofNat, Nat.testBit_eq_decide_div_mod_eq, h]
  cases b <;> simp [hi]

theorem UnitState.code_lt (u : UnitState) : u.code < 4 := by cases u <;> simp [UnitState.code]
theorem ResetCause.code_lt (c : ResetCause) : c.code < 4 := by cases c <;> decide
theorem AllocState.code_lt (a : AllocState) : a.code < 4 := by cases a <;> decide

theorem chans_toList (s : State) : s.chans.toList = allChans.map fun c => s.chans[c] := by
  apply List.ext_getElem
  · simp [allChans]
  · intro i hi _
    have hlt : i < 4 := by simpa using hi
    interval_cases i <;> simp [allChans]

theorem readyChannels_eq (s : State) :
    s.readyChannels = (allChans.filter fun c => s.chans[c].state == .ready).length := by
  rw [State.readyChannels, chans_toList, List.filter_map, List.length_map]
  rfl

theorem readyChannels_lt (s : State) : s.readyChannels < 8 := by
  rw [readyChannels_eq]
  exact (List.length_filter_le _ _).trans_lt (by decide)

theorem status_fields (s : State) (htag : ∀ tag, s.chain.expected = some tag → tag ≤ 65535) :
    (s.status.extractLsb' 0 16).toNat = s.chain.expected.getD 0 ∧
      (s.status.extractLsb' 16 2).toNat = s.chain.state.code ∧
      (s.status.extractLsb' 18 2).toNat = s.reg.lastReset.code ∧
      s.status.getLsbD 20 = s.keys.loaded ∧ s.status.getLsbD 21 = s.chain.wafer.isSome ∧
      (s.status.extractLsb' 22 2).toNat = s.keys.alloc.code ∧
      (s.status.extractLsb' 24 3).toNat = (allChans.filter fun c => s.chans[c].state == .ready).length ∧
      s.status.getLsbD 27 = s.contact ∧ s.status.getLsbD 28 = s.escrow.writer.isStalled ∧
      s.status.getLsbD 29 = s.reg.resetting ∧ s.status.getLsbD 30 = false ∧ s.status.getLsbD 31 = false := by
  have hexpected : s.chain.expected.getD 0 < 65536 := by
    cases he : s.chain.expected with
    | none => simp
    | some tag => simpa using Nat.lt_succ_of_le (htag tag he)
  obtain ⟨hlt, htag', hunit, hcause, hloaded, hwafer, halloc, hready, hcontact, hstalled, hresetting⟩ :=
    fields_of_word rfl (Nat.mod_lt (s.chain.expected.getD 0) (by omega : 65536 > 0)) s.chain.state.code_lt
      s.reg.lastReset.code_lt s.keys.loaded.toNat_lt s.chain.wafer.isSome.toNat_lt s.keys.alloc.code_lt
      (readyChannels_lt s) s.contact.toNat_lt s.escrow.writer.isStalled.toNat_lt s.reg.resetting.toNat_lt
  rw [← readyChannels_eq, ← Nat.mod_eq_of_lt hexpected]
  unfold State.status
  generalize (s.chain.expected.getD 0) % 65536 + s.chain.state.code * 2 ^ 16 + s.reg.lastReset.code * 2 ^ 18 +
      s.keys.loaded.toNat * 2 ^ 20 + s.chain.wafer.isSome.toNat * 2 ^ 21 + s.keys.alloc.code * 2 ^ 22 +
      s.readyChannels * 2 ^ 24 + s.contact.toNat * 2 ^ 27 + s.escrow.writer.isStalled.toNat * 2 ^ 28 +
      s.reg.resetting.toNat * 2 ^ 29 = n at *
  have hn : n < 2 ^ 32 := by omega
  simp only [extract_ofNat hn]
  refine ⟨by omega, hunit, hcause, getLsbD_ofNat_eq (by omega) hloaded, getLsbD_ofNat_eq (by omega) hwafer, halloc, hready,
    getLsbD_ofNat_eq (by omega) hcontact, getLsbD_ofNat_eq (by omega) hstalled, getLsbD_ofNat_eq (by omega) hresetting,
    getLsbD_ofNat_eq (by omega) ?_, getLsbD_ofNat_eq (by omega) ?_⟩ <;> simp <;> omega

/-! ### Reads -/

theorem getLsbD_zeroExtend {v : BitVec 9} {i : Nat} (hi : i < 32) :
    (v.zeroExtend 32).getLsbD i = (decide (i < 9) && v.getLsbD i) := by
  by_cases h9 : i < 9
  · simp [h9, hi]
  · simp [h9, BitVec.getLsbD_of_ge v i (by omega)]

/-- Settles O4: a command while a reset lasts does nothing, a write is a command by its table, and the words read as their
fields. -/
theorem registerWindow : Obligations.RegisterWindow := by
  refine ⟨⟨fun s hr => ?discarded, fun offset size v inp first => ⟨fun h s => ?noEffect, fun h => ?effect⟩⟩,
    fun s htag hh => ?reads⟩
  case discarded =>
    refine ⟨fun first => ?_, ?_, ?_, fun inp => ?_⟩ <;>
      simp [exec, execNudge, execContinue, execRelease, execEngineReset, hr]
  case noEffect => exact ⟨commandOfWrite_discarded h inp first, rfl⟩
  case effect =>
    obtain ⟨rfl, hwhere⟩ := (writeHasEffect_iff offset size v).1 h
    rcases hwhere with ⟨rfl, h1, h4⟩ | rfl | rfl
    · exact .inl ⟨rfl, commandOfWrite_control v inp first h1 h4⟩
    · exact .inr (.inl ⟨rfl, rfl⟩)
    · exact .inr (.inr ⟨rfl, rfl⟩)
  case reads =>
    have hmark : s.keys.h / 256 < 2 ^ 32 := by
      simp only [serialTop] at hh
      omega
    refine ⟨status_fields s htag, rfl, fun i hi => getLsbD_zeroExtend hi, fun i hi => getLsbD_zeroExtend hi, ?_,
      fun o ho => ?_, fun a ha => if_pos ha⟩
    · exact (BitVec.toNat_ofNat _ _).trans (Nat.mod_eq_of_lt hmark)
    · unfold State.registerRead
      rw [if_neg (by omega), if_neg (by omega), if_neg (by omega), if_neg (by omega)]

end Sys2Proof.Machine

/-! What the three resets leave (R62, R86, R98, R107, R139, R145, R174, R177, R181, R183, R184): the channels and the
registers, then the board. -/

namespace Sys2Proof.Machine

variable {s : State} {regulation : BitVec 4}

/-! ### The channels at a reset -/

/-- A channel as its regulator reports it at a reset (R62). -/
def channelAtReset (regulation : BitVec 4) (c : Chan) : Channel :=
  if regulation.getLsbD c.val then { state := .settling 0, good := true } else { state := .offline, good := false }

/-- The channels that enter OFFLINE at a reset, of a list. -/
def lostAtReset (regulation : BitVec 4) (l : List Chan) : List Chan := l.filter fun c => !regulation.getLsbD c.val

theorem resetChannel_good {c : Chan} (h : regulation.getLsbD c.val = true) :
    State.resetChannel regulation s c = s.setChan c { state := .settling 0, good := true } := by
  simp only [State.resetChannel, h, if_true]

theorem resetChannel_lost {c : Chan} (h : regulation.getLsbD c.val = false) :
    State.resetChannel regulation s c = (s.setChan c { state := .settling 0, good := false }).goOffline c := by
  simp only [State.resetChannel, h]
  rfl

theorem lostAtReset_cons (c : Chan) (l : List Chan) : lostAtReset regulation (c :: l) =
    if regulation.getLsbD c.val = true then lostAtReset regulation l else c :: lostAtReset regulation l := by
  cases h : regulation.getLsbD c.val
  · exact List.filter_cons_of_pos (by simpa using h)
  · exact List.filter_cons_of_neg (by simpa using h)

theorem resetChannel_chans (s : State) (c j : Chan) :
    (State.resetChannel regulation s c).chans[j] = if j = c then channelAtReset regulation c else s.chans[j] := by
  cases h : regulation.getLsbD c.val with
  | true => rw [resetChannel_good h, setChan_get, channelAtReset, if_pos h]
  | false =>
    rw [resetChannel_lost h, goOffline_chan, channelAtReset, h]
    simp only [setChan_get, if_true]
    split <;> rfl

/-- A second setting of an event changes nothing more. -/
theorem RegisterBlock.setEvent_setEvent (r : RegisterBlock) (e : Event) :
    (r.setEvent e).setEvent e = r.setEvent e := by
  have hevents : ∀ r' : RegisterBlock, (r'.setEvent e).events = r'.events ||| e.mask := fun r' => by
    simp [RegisterBlock.setEvent, RegisterBlock.notify_eq]
  have hor : ∀ v : BitVec 9, v ||| e.mask ||| e.mask = v ||| e.mask := fun v => by
    rw [BitVec.or_assoc, BitVec.or_self]
  have hnew : { r.setEvent e with events := (r.setEvent e).events ||| e.mask } = r.setEvent e := by
    rw [hevents, hor, ← hevents]
  have hset : ∀ r' : RegisterBlock, r'.setEvent e = r'.notify { r' with events := r'.events ||| e.mask } := fun _ => rfl
  rw [hset (r.setEvent e), hnew, RegisterBlock.notify]
  exact if_neg fun h => h.2.1 h.1

/-- A channel's reset at the registers. -/
theorem resetChannel_reg (s : State) (c : Chan) : (State.resetChannel regulation s c).reg =
    if regulation.getLsbD c.val = true then s.reg else s.reg.setEvent .channelUnlock := by
  cases h : regulation.getLsbD c.val with
  | true => simp [resetChannel_good h]
  | false => simp [resetChannel_lost h, State.goOffline, State.raise]

theorem resetChannel_counter (s : State) (c : Chan) (k : Counter) (hk : s.counter k < counterMax) :
    (State.resetChannel regulation s c).counter k =
      s.counter k + (if k = .channelUnlocks ∧ regulation.getLsbD c.val = false then 1 else 0) := by
  cases h : regulation.getLsbD c.val with
  | true => simp [resetChannel_good h, State.counter]
  | false =>
    have hindex : k = .channelUnlocks ↔ Counter.channelUnlocks.index = k.index := by cases k <;> decide
    rw [resetChannel_lost h]
    simp only [State.goOffline, State.counter, State.bump, State.setCounters_counters, State.raise, State.setReg_counters,
      State.setChan_counters, Fin.getElem_fin, Vector.getElem_set] at hk ⊢
    by_cases hu : k = .channelUnlocks
    · subst hu
      simp [satInc, hk]
    · have hne : (Counter.channelUnlocks.index : Nat) ≠ k.index := fun he => hu (hindex.2 (Fin.ext he))
      simp [hu, hne]

theorem resetChannels_fold_chans (l : List Chan) (s : State) (j : Chan) :
    (l.foldl (State.resetChannel regulation) s).chans[j] =
      if j ∈ l then channelAtReset regulation j else s.chans[j] := by
  induction l generalizing s with
  | nil => simp
  | cons c l ih =>
    rw [List.foldl_cons, ih, resetChannel_chans]
    by_cases hc : j = c
    · simp [hc]
    · simp [hc]

theorem resetChannels_fold_reg (l : List Chan) (s : State) :
    (l.foldl (State.resetChannel regulation) s).reg =
      if lostAtReset regulation l = [] then s.reg else s.reg.setEvent .channelUnlock := by
  induction l generalizing s with
  | nil => simp [lostAtReset]
  | cons c l ih =>
    rw [List.foldl_cons, ih, resetChannel_reg, lostAtReset_cons]
    cases regulation.getLsbD c.val
    · simp [RegisterBlock.setEvent_setEvent]
    · simp

theorem resetChannels_fold_counter (l : List Chan) (s : State) (k : Counter) (hk : s.counter k + l.length ≤ counterMax) :
    (l.foldl (State.resetChannel regulation) s).counter k =
      s.counter k + (if k = .channelUnlocks then (lostAtReset regulation l).length else 0) := by
  induction l generalizing s with
  | nil => simp [lostAtReset]
  | cons c l ih =>
    rw [List.length_cons] at hk
    have hc := resetChannel_counter (regulation := regulation) s c k (by omega)
    rw [List.foldl_cons, ih _ (by rw [hc]; split <;> omega), hc, lostAtReset_cons]
    by_cases hu : k = .channelUnlocks
    · cases regulation.getLsbD c.val <;> simp [hu]
      omega
    · simp [hu]

theorem resetChannels_fold_waiting (l : List Chan) (s : State) :
    (l.foldl (State.resetChannel regulation) s).waiting = s.waiting :=
  foldl_keeps _ State.waiting (by simp) l s

theorem lostAtReset_eq_nil (regulation : BitVec 4) : lostAtReset regulation allChans = [] ↔ regulation = 15 := by
  revert regulation
  decide

/-! ### The board at a reset -/

theorem resetBoard_reg (s : State) (cause : ResetCause) (hardware : Bool) (inp : ResetInputs) :
    (s.resetBoard cause hardware inp).reg =
      if inp.regulation = 15 then s.reg.atReset cause hardware
      else (s.reg.atReset cause hardware).setEvent .channelUnlock := by
  simp only [State.resetBoard, State.resetChannels, resetChannels_fold_reg, lostAtReset_eq_nil]
  simp [State.leaveSites]

theorem resetBoard_keys (s : State) (cause : ResetCause) (hardware : Bool) (inp : ResetInputs) :
    (s.resetBoard cause hardware inp).keys = s.keys.atReset hardware := by
  simp [State.resetBoard, State.leaveSites]

theorem resetBoard_chain (s : State) (cause : ResetCause) (hardware : Bool) (inp : ResetInputs) :
    (s.resetBoard cause hardware inp).chain = s.chain.atReset hardware := by
  simp [State.resetBoard, State.leaveSites]

theorem resetBoard_rest (s : State) (cause : ResetCause) (hardware : Bool) (inp : ResetInputs) :
    (s.resetBoard cause hardware inp).tieOrder = s.tieOrder ∧
      (s.resetBoard cause hardware inp).freeCount = s.freeCount ∧
      (s.resetBoard cause hardware inp).pending = s.pending := by
  simp [State.resetBoard, State.leaveSites]

theorem resetBoard_mem (s : State) (cause : ResetCause) (hardware : Bool) (inp : ResetInputs) :
    (s.resetBoard cause hardware inp).mem = ((s.stopDump inp.dumpWords).resetEscrow hardware inp.record).mem := by
  simp [State.resetBoard, State.leaveSites]

theorem KeyUnit.atReset_fields (k : KeyUnit) (hardware : Bool) :
    (k.atReset hardware).queue = [] ∧ (k.atReset hardware).importing = none ∧ (k.atReset hardware).derivation = none ∧
      (k.atReset hardware).reserve = k.reserve ∧ (k.atReset hardware).writeInFlight = k.writeInFlight := by
  cases hardware <;> simp [KeyUnit.atReset]

theorem RegisterBlock.setEvent_fields (r : RegisterBlock) (e : Event) :
    (r.setEvent e).events = r.events ||| e.mask ∧ (r.setEvent e).enable = r.enable ∧
      (r.setEvent e).lastReset = r.lastReset ∧ (r.setEvent e).resetting = r.resetting ∧
      (r.setEvent e).msiEnabled = r.msiEnabled := by
  simp [RegisterBlock.setEvent, RegisterBlock.notify_eq]

theorem resetBoard_registers (s : State) (cause : ResetCause) (hardware : Bool) (inp : ResetInputs) :
    (s.resetBoard cause hardware inp).reg.lastReset = cause ∧ (s.resetBoard cause hardware inp).reg.resetting = true ∧
      (s.resetBoard cause hardware inp).reg.enable = (if hardware then 0 else s.reg.enable) ∧
      (s.resetBoard cause hardware inp).reg.msiEnabled = s.reg.msiEnabled ∧
      (s.resetBoard cause hardware inp).reg.events =
        (if inp.regulation = 15 then 0 else Event.channelUnlock.mask) := by
  rw [resetBoard_reg]
  split
  · exact ⟨rfl, rfl, rfl, rfl, rfl⟩
  · obtain ⟨hevents, henable, hlast, hresetting, hmsi⟩ :=
      (s.reg.atReset cause hardware).setEvent_fields .channelUnlock
    rw [hevents, henable, hlast, hresetting, hmsi]
    exact ⟨rfl, rfl, rfl, rfl, BitVec.zero_or⟩

/-- Every reset leaves sites, queues, tables, writer, counters, channels and events as R184 says. -/
theorem resetBoard_leaves (s : State) (cause : ResetCause) (hardware : Bool) (inp : ResetInputs) :
    resetLeaves inp (s.resetBoard cause hardware inp) := by
  obtain ⟨-, hresetting, -, -, hevents⟩ := resetBoard_registers s cause hardware inp
  obtain ⟨hqueue, himport, hderivation, -⟩ := s.keys.atReset_fields hardware
  have hkeys := resetBoard_keys s cause hardware inp
  constructor
  case sites => simp [State.resetBoard, State.leaveSites]
  case comp => simp [State.resetBoard]
  case dies => simp [State.resetBoard]
  case escrow => simp [State.resetBoard, State.leaveSites, State.resetEscrow]
  case waiting => simp only [State.resetBoard, State.resetChannels, resetChannels_fold_waiting, State.setWaiting_waiting]
  case contact => simp [State.resetBoard]
  case resetting => exact hresetting
  case queue => rw [hkeys, hqueue]
  case store => rw [hkeys]; exact ⟨himport, hderivation⟩
  case chans =>
    intro c
    simp only [State.resetBoard, State.resetChannels, resetChannels_fold_chans, allChans_mem, if_true]
    rfl
  case counters =>
    intro k
    simp only [State.resetBoard, State.resetChannels]
    rw [resetChannels_fold_counter]
    · simp [State.leaveSites, State.counter, State.clearCounters, lostAtReset]
    · simp [State.leaveSites, State.counter, State.clearCounters, allChans, counterMax]
  case events => exact hevents

/-! ### The reset commands -/

/-- A message is sent at a reset exactly for an enabled CHANNEL_UNLOCK (R181). -/
theorem resetBoard_msiSent (s : State) (cause : ResetCause) (hardware : Bool) (inp : ResetInputs) :
    (s.resetBoard cause hardware inp).reg.msiSent =
      s.reg.msiSent +
        (if inp.regulation ≠ 15 ∧ (s.reg.atReset cause hardware).enable.getLsbD 5 = true ∧ s.reg.msiEnabled = true then 1
          else 0) := by
  rw [resetBoard_reg]
  by_cases hall : inp.regulation = 15
  · simp [hall, RegisterBlock.atReset]
  · have hnone : (s.reg.atReset cause hardware).pendingSet = 0 := by
      simp [RegisterBlock.pendingSet, RegisterBlock.atReset]
    have hold : (s.reg.atReset cause hardware).msiSent = s.reg.msiSent := rfl
    have hcard : (s.reg.atReset cause hardware).msiEnabled = s.reg.msiEnabled := rfl
    rw [if_neg hall, RegisterBlock.setEvent_msiSent, hold, hcard]
    exact congrArg (s.reg.msiSent + ·) (if_congr (by simp only [hnone, hall, Event.bit, ne_eq, not_false_eq_true]) rfl rfl)

/-- Settles O5: what the reset leaves at the board, the registers and the key unit, for the reset that keeps the keys. -/
theorem engineResetResult : Obligations.EngineResetResult := by
  intro inp s hr
  have hexec : exec (.engineReset inp) s = .next (s.resetBoard .engine false inp) := by
    simp [exec, execEngineReset, hr]
  obtain ⟨hlast, -, henable, hmsi, -⟩ := resetBoard_registers s .engine false inp
  obtain ⟨htie, hfree, hpending⟩ := resetBoard_rest s .engine false inp
  exact ⟨_, hexec, resetBoard_leaves s _ _ inp, resetBoard_chain s _ _ inp, resetBoard_keys s _ _ inp, hlast, henable, hmsi,
    resetBoard_msiSent s .engine false inp, htie, hfree, hpending⟩

theorem losePower_fields (k : KeyUnit) (tookNew : Bool) :
    (k.losePower tookNew).writeInFlight = none ∧
      ((k.losePower tookNew).reserve = k.reserve ∨ k.writeInFlight = some (k.losePower tookNew).reserve) ∧
      (k.writeInFlight = none → (k.losePower tookNew).reserve = k.reserve) := by
  unfold KeyUnit.losePower
  cases hv : k.writeInFlight with
  | none => simp [hv]
  | some v => cases tookNew <;> simp

theorem losePower_material (k : KeyUnit) (tookNew : Bool) :
    k.sameMaterial (k.losePower tookNew) ∧ (k.losePower tookNew).importing = k.importing ∧
      (k.losePower tookNew).derivation = k.derivation := by
  unfold KeyUnit.losePower
  split <;> exact ⟨⟨rfl, rfl, rfl, rfl⟩, rfl, rfl⟩

/-- A hardware reset clears the key material and the wafer sequence, and sends no message. -/
theorem hardwareReset_clears (s : State) (cause : ResetCause) (inp : ResetInputs) :
    (s.resetBoard cause true inp).chain = .reset ∧ (s.resetBoard cause true inp).keys.loaded = false ∧
      (s.resetBoard cause true inp).keys.rootKey = 0 ∧ (s.resetBoard cause true inp).keys.rootId = 0 ∧
      (s.resetBoard cause true inp).keys.transportKey = 0 ∧ (s.resetBoard cause true inp).reg.enable = 0 ∧
      (s.resetBoard cause true inp).reg.msiSent = s.reg.msiSent := by
  obtain ⟨-, -, henable, -⟩ := resetBoard_registers s cause true inp
  rw [resetBoard_chain, resetBoard_keys, resetBoard_msiSent]
  exact ⟨rfl, rfl, rfl, rfl, rfl, henable, by simp [RegisterBlock.atReset]⟩

/-- Settles O6: the clears of a hardware reset, and the reservation write that goes on or ends with the power. -/
theorem hardwareResetResult : Obligations.HardwareResetResult := by
  refine ⟨fun inp s => ?link, fun inp tookNew s => ?power⟩
  case link =>
    obtain ⟨hchain, hloaded, hroot, hid, htransport, henable, hmsi⟩ := hardwareReset_clears s .link inp
    obtain ⟨hlast, -⟩ := resetBoard_registers s .link true inp
    obtain ⟨-, -, hpending⟩ := resetBoard_rest s .link true inp
    obtain ⟨-, -, -, hreserve, hflight⟩ := s.keys.atReset_fields true
    rw [← resetBoard_keys s .link true inp] at hreserve hflight
    exact ⟨_, rfl, resetBoard_leaves s _ _ inp, hchain, hloaded, hroot, hid, htransport, hreserve, hflight, hlast, henable,
      hmsi, hpending⟩
  case power =>
    obtain ⟨hchain, hloaded, hroot, hid, htransport, henable, hmsi⟩ := hardwareReset_clears s .power inp
    obtain ⟨hlast, -⟩ := resetBoard_registers s .power true inp
    obtain ⟨-, -, hpending⟩ := resetBoard_rest s .power true inp
    obtain ⟨-, -, -, hreserve, hflight⟩ := s.keys.atReset_fields true
    rw [← resetBoard_keys s .power true inp] at hreserve hflight
    have hleaves := resetBoard_leaves s .power true inp
    generalize hu : s.resetBoard .power true inp = u at *
    obtain ⟨hended, hmark, hsame⟩ := losePower_fields u.keys tookNew
    obtain ⟨⟨hroot', hid', htransport', hloaded'⟩, himport, hderivation⟩ := losePower_material u.keys tookNew
    rw [hreserve, hflight] at hmark
    rw [hreserve, hflight] at hsame
    have hexec : exec (.powerOnReset inp tookNew) s = .next (u.setKeys (u.keys.losePower tookNew)).scrambleMemory := by
      rw [← hu]; rfl
    refine ⟨_, hexec, { hleaves with queue := ?_, store := ?_ }, hchain, hloaded'.trans hloaded, hroot'.trans hroot,
      hid'.trans hid, htransport'.trans htransport, hended, hmark, hsame, hlast, henable, hmsi, Memory.wf_ofCells _,
      hpending⟩
    · exact (losePower_queue _ _).trans hleaves.queue
    · obtain ⟨himport', hderivation'⟩ := hleaves.store
      exact ⟨himport.trans himport', hderivation.trans hderivation'⟩

end Sys2Proof.Machine

/-! Job memory at a reset (R133, R139, R140, R174, R175) and the end of a reset (R98, R177). -/

namespace Sys2Proof.Machine

variable {s t : State}

/-! ### Four-byte fields and pages -/

theorem Memory.read32_writeField {m : Memory} {a v : Nat} (hw : m.wf = true) (ha : a + 4 ≤ jobMemorySize)
    (hv : v ≤ counterMax) : (m.writeField a 4 v).read32 a = v :=
  (Memory.read_writeField (n := 4) hw ha).trans (Nat.mod_eq_of_lt (by simp only [counterMax] at hv; omega))

theorem Memory.read32_writeField_out {m : Memory} {a n v x : Nat} (h : x + 4 ≤ a ∨ a + n ≤ x) :
    (m.writeField a n v).read32 x = m.read32 x :=
  Memory.read32_congr fun y _ _ => Memory.read_writeField_out (by omega)

theorem Memory.readBytes_written {m : Memory} {a n : Nat} {bs : List Byte} (hw : m.wf = true) (hn : bs.length = n)
    (h : a + n ≤ jobMemorySize) : (m.writeBytes a bs).readBytes a n = bs := by
  subst hn
  exact Memory.readBytes_writeBytes hw h

/-- Steps 1 and 2 of R167: the three fields of the page, and no other byte. -/
theorem releasePage_fields {page records : Nat} (hw : s.mem.wf = true) (hin : page + 12 ≤ jobMemorySize)
    (hrec : records ≤ counterMax) :
    (s.releasePage page records).mem.read32 page = ownerHostRead ∧
      (s.escrow.seq ≤ counterMax → (s.releasePage page records).mem.read32 (page + 4) = s.escrow.seq) ∧
      (s.releasePage page records).mem.read32 (page + 8) = records ∧ bytesBut page 12 s (s.releasePage page records) := by
  have hcount : (s.mem.writeField (page + 8) 4 records).wf = true := Memory.wf_writeField hw _ _ _
  have hboth : ((s.mem.writeField (page + 8) 4 records).writeField (page + 4) 4 s.escrow.seq).wf = true :=
    Memory.wf_writeField hcount _ _ _
  simp only [State.releasePage, State.storeField, State.setMem_mem, bytesBut]
  refine ⟨Memory.read32_writeField hboth (by omega) (by decide), fun hseq => ?_, ?_, fun a ha => ?_⟩
  · rw [Memory.read32_writeField_out (by omega)]
    exact Memory.read32_writeField hcount (by omega) hseq
  · rw [Memory.read32_writeField_out (by omega), Memory.read32_writeField_out (by omega),
      Memory.read32_writeField hw (by omega) hrec]
  · rw [Memory.read_writeField_out (by omega), Memory.read_writeField_out (by omega),
      Memory.read_writeField_out (by omega)]

/-! ### The writes that a reset cuts -/

theorem stopDump_zero (s : State) : s.stopDump 0 = s := by
  unfold State.stopDump
  split <;> rfl

theorem cutRecord_zero (s : State) : s.cutRecord (.abandoned 0) = s := by
  show s.abandonRecord 0 = s
  unfold State.abandonRecord
  split
  · split <;> rfl
  · rfl

/-- What the record in progress leaves at a link reset, and at an engine reset with the page's hand-over. -/
theorem linkReset_mem (s : State) (inp : ResetInputs) :
    ∃ t, exec (.linkReset inp) s = .next t ∧ t.mem = ((s.stopDump inp.dumpWords).cutRecord inp.record).mem :=
  ⟨_, rfl, (resetBoard_mem s .link true inp).trans rfl⟩

theorem engineReset_mem (inp : ResetInputs) (hr : s.reg.resetting = false) :
    ∃ t, exec (.engineReset inp) s = .next t ∧
      t.mem = ((s.stopDump inp.dumpWords).cutRecord inp.record).resetHandOver.mem :=
  ⟨s.resetBoard .engine false inp, by simp [exec, execEngineReset, hr],
    (resetBoard_mem s .engine false inp).trans rfl⟩

theorem resetHandOver_opened {page slot records : Nat} (hw : s.escrow.writer = .opened page slot records)
    (hpos : records ≠ 0) : s.resetHandOver = s.releasePage page records := by
  simp [State.resetHandOver, hw, hpos]

theorem resetHandOver_quiet (h : ∀ page slot records, s.escrow.writer = .opened page slot records → records = 0) :
    s.resetHandOver = s := by
  unfold State.resetHandOver
  split
  case h_1 page slot records hw => rw [if_pos (h page slot records hw)]
  case h_2 => rfl

/-- The head of the write queue stands whole in the open page's next slots (R166 steps 1 to 4). -/
theorem writeHead_stands {page slot records : Nat} {r : RecordRequest} {rest : List RecordRequest}
    (hwf : s.mem.wf = true) (hw : s.escrow.writer = .opened page slot records) (hq : s.escrow.queue = r :: rest)
    (hroom : slot + r.record.slots ≤ 16) (hcount : records < counterMax) (hin : page + 1088 ≤ jobMemorySize) :
    ∃ u, s.writeHead = some (u, r) ∧ recordStands s u page slot records r rest ∧ sameBut [.mem, .escrow] s u ∧
      u.mem.wf = true := by
  have hlen := EscrowRecord.bytes_length r.record s.counters
  have hwhole : (s.mem.writeBytes (slotOffset page slot) (r.record.bytes s.counters)).wf = true :=
    Memory.wf_writeBytes hwf _ _
  have hwritten : s.writeHead =
      some (((s.store (slotOffset page slot) (r.record.bytes s.counters)).storeField (page + 8) 4 (records + 1)).setEscrow
        { s.escrow with writer := .opened page (slot + r.record.slots) (records + 1), queue := rest }, r) := by
    simp only [State.writeHead, hw, hq, if_pos hroom]
    rfl
  refine ⟨_, hwritten, ⟨?bytes, ?count, fun a hcnt hslot => ?others, ?writer⟩,
    fun p hp => ?frame, ?wf⟩
  case bytes =>
    simp only [State.storeField, State.store, State.setEscrow_mem, State.setMem_mem]
    rw [Memory.readBytes_congr fun x h1 h2 => Memory.read_writeField_out (by omega)]
    exact Memory.readBytes_written hwf hlen (by simp only [slotOffset]; omega)
  case count =>
    simp only [State.storeField, State.store, State.setEscrow_mem, State.setMem_mem]
    exact Memory.read32_writeField hwhole (by omega) hcount
  case others =>
    simp only [State.storeField, State.store, State.setEscrow_mem, State.setMem_mem]
    rw [Memory.read_writeField_out (by omega), Memory.read_writeBytes_out (by rw [hlen]; simp only [slotOffset]; omega)]
  case writer => simp [State.storeField, State.store]
  case frame => cases p <;> simp_all [Part.same, State.storeField, State.store]
  case wf => exact Memory.wf_writeField hwhole _ _ _

/-! ### Part by part -/

/-- With nothing of a dump or a record written. -/
theorem resets_untouched (inp : ResetInputs) (s : State) (hwf : s.mem.wf = true) (hdump : inp.dumpWords = 0)
    (hrecord : inp.record = .abandoned 0) :
    (∀ t, exec (.linkReset inp) s = .next t → t.mem = s.mem) ∧
     (s.reg.resetting = false → ∀ t, exec (.engineReset inp) s = .next t →
       (∀ page slot records, s.escrow.writer = .opened page slot records → 0 < records → records ≤ 16 →
         s.escrow.seq ≤ counterMax → page + 1088 ≤ jobMemorySize →
         t.mem.read32 page = ownerHostRead ∧ t.mem.read32 (page + 4) = s.escrow.seq ∧
           t.mem.read32 (page + 8) = records ∧ bytesBut page 12 s t) ∧
       ((∀ page slot records, s.escrow.writer = .opened page slot records → records = 0) → t.mem = s.mem)) := by
  have hcut : (s.stopDump inp.dumpWords).cutRecord inp.record = s := by
    rw [hdump, hrecord, stopDump_zero, cutRecord_zero]
  refine ⟨fun t ht => ?_, fun hr t ht => ?_⟩
  · obtain ⟨u, hu, hmem⟩ := linkReset_mem s inp
    obtain rfl := Host.Outcome.next.inj (ht.symm.trans hu)
    rw [hmem, hcut]
  · obtain ⟨u, hu, hmem⟩ := engineReset_mem inp hr
    obtain rfl := Host.Outcome.next.inj (ht.symm.trans hu)
    rw [hcut] at hmem
    refine ⟨fun page slot records hw hpos hmax hseq hin => ?_, fun hnone => ?_⟩
    · rw [resetHandOver_opened hw (by omega)] at hmem
      obtain ⟨howner, hseq', hcount, hbytes⟩ := releasePage_fields (s := s) (page := page) (records := records) hwf
        (by omega) (by simp only [counterMax]; omega)
      rw [hmem]
      exact ⟨howner, hseq' hseq, hcount, fun a ha => by rw [hmem]; exact hbytes a ha⟩
    · rw [hmem, resetHandOver_quiet hnone]

/-- A dump cut after some words leaves those words (R139). -/
theorem cut_dump (inp : ResetInputs) (buffer capacity : Nat) (rest : List TableRequest) (s : State)
    (hwf : s.mem.wf = true) (hq : s.dies.queue = .dump buffer capacity :: rest) (hrecord : inp.record = .abandoned 0)
    (hin : buffer + capacity ≤ jobMemorySize) (hwords : 4 * inp.dumpWords ≤ (s.dies.dumpBytes capacity).length) :
    ∃ t, exec (.linkReset inp) s = .next t ∧
      t.mem.readBytes buffer (4 * inp.dumpWords) = (s.dies.dumpBytes capacity).take (4 * inp.dumpWords) ∧
      bytesBut buffer (4 * inp.dumpWords) s t := by
  obtain ⟨t, ht, hmem⟩ := linkReset_mem s inp
  have hfit := DieTableUnit.dumpBytes_length_le s.dies capacity
  have hlen : ((s.dies.dumpBytes capacity).take (4 * inp.dumpWords)).length = 4 * inp.dumpWords := by
    rw [List.length_take]; omega
  have hwritten : t.mem = s.mem.writeBytes buffer ((s.dies.dumpBytes capacity).take (4 * inp.dumpWords)) := by
    rw [hmem, hrecord, cutRecord_zero]
    simp only [State.stopDump, hq, State.store, State.setMem_mem]
  refine ⟨t, ht, ?_, fun a ha => ?_⟩
  · rw [hwritten]
    exact Memory.readBytes_written hwf hlen (by omega)
  · rw [hwritten, Memory.read_writeBytes_out (by rw [hlen]; exact ha)]

/-- A record cut after some words leaves those words (R174 step 1). -/
theorem cut_abandoned (inp : ResetInputs) (page slot records : Nat) (r : RecordRequest) (rest : List RecordRequest)
    (s : State) (hwf : s.mem.wf = true) (hdump : inp.dumpWords = 0) (hw : s.escrow.writer = .opened page slot records)
    (hq : s.escrow.queue = r :: rest) (hroom : slot + r.record.slots ≤ 16) (hin : page + 1088 ≤ jobMemorySize) (n : Nat)
    (hrecord : inp.record = .abandoned n) (hn : n ≤ 16 * r.record.slots) :
    ∃ t, exec (.linkReset inp) s = .next t ∧
       t.mem.readBytes (page + 64 + 64 * slot) (4 * n) = (r.record.bytes s.counters).take (4 * n) ∧
       bytesBut (page + 64 + 64 * slot) (4 * n) s t := by
  obtain ⟨t, ht, hmem⟩ := linkReset_mem s inp
  have hall := EscrowRecord.bytes_length r.record s.counters
  have hlen : ((r.record.bytes s.counters).take (4 * n)).length = 4 * n := by
    rw [List.length_take]; omega
  have hwritten : t.mem = s.mem.writeBytes (page + 64 + 64 * slot) ((r.record.bytes s.counters).take (4 * n)) := by
    rw [hmem, hrecord, hdump, stopDump_zero]
    simp only [State.cutRecord, State.abandonRecord, hw, hq, if_pos hroom, State.store, State.setMem_mem]
    rfl
  refine ⟨t, ht, ?_, fun a ha => ?_⟩
  · rw [hwritten]
    exact Memory.readBytes_written hwf hlen (by omega)
  · rw [hwritten, Memory.read_writeBytes_out (by rw [hlen]; exact ha)]

/-- A record that was counted stands whole at either reset, and an engine reset hands its page over (R174, R175). -/
theorem cut_counted (inp : ResetInputs) (page slot records : Nat) (r : RecordRequest) (rest : List RecordRequest)
    (s : State) (hwf : s.mem.wf = true) (hdump : inp.dumpWords = 0) (hw : s.escrow.writer = .opened page slot records)
    (hq : s.escrow.queue = r :: rest) (hroom : slot + r.record.slots ≤ 16) (hcount : records < counterMax)
    (hin : page + 1088 ≤ jobMemorySize) (hrecord : inp.record = .counted)
    (hunbound : r.report = .dieTable → ∀ x, r.record = .close x → ∀ q ∈ s.dies.parked, q.die = x.die →
      ∀ n, q.status ≠ .closing (some n)) :
    (∃ t, exec (.linkReset inp) s = .next t ∧
      t.mem.readBytes (page + 64 + 64 * slot) (64 * r.record.slots) = r.record.bytes s.counters ∧
      t.mem.read32 (page + 8) = records + 1 ∧ t.mem.read32 page = s.mem.read32 page ∧
      ∀ a, ¬(page + 8 ≤ a ∧ a < page + 12) →
        ¬(page + 64 + 64 * slot ≤ a ∧ a < page + 64 + 64 * (slot + r.record.slots)) → t.mem.read a = s.mem.read a) ∧
    (s.reg.resetting = false → s.escrow.seq ≤ counterMax → ∃ t, exec (.engineReset inp) s = .next t ∧
      t.mem.readBytes (page + 64 + 64 * slot) (64 * r.record.slots) = r.record.bytes s.counters ∧
      t.mem.read32 page = ownerHostRead ∧ t.mem.read32 (page + 4) = s.escrow.seq ∧
      t.mem.read32 (page + 8) = records + 1 ∧
      ∀ a, ¬(page ≤ a ∧ a < page + 12) →
        ¬(page + 64 + 64 * slot ≤ a ∧ a < page + 64 + 64 * (slot + r.record.slots)) → t.mem.read a = s.mem.read a) := by
  obtain ⟨u, hu, hstands, hsame, hwfu⟩ := writeHead_stands hwf hw hq hroom hcount hin
  have hdies : u.dies = s.dies := hsame .dies (by simp)
  have hreport : (u.requesterReport r).1.mem = u.mem := requesterReport_mem (by rw [hdies]; exact hunbound)
  obtain ⟨hwriter, hseq⟩ := requesterReport_writer u r
  have hcut : (s.stopDump inp.dumpWords).cutRecord inp.record = (u.requesterReport r).1 := by
    rw [hdump, hrecord, stopDump_zero]
    simp only [State.cutRecord, hu]
  have howner : u.mem.read32 page = s.mem.read32 page :=
    Memory.read32_congr fun x h1 h2 => hstands.memory x (by omega) (by omega)
  refine ⟨?_, fun hr hmax => ?_⟩
  · obtain ⟨t, ht, hmem⟩ := linkReset_mem s inp
    rw [hcut, hreport] at hmem
    exact ⟨t, ht, by rw [hmem]; exact hstands.bytes, by rw [hmem]; exact hstands.count, by rw [hmem]; exact howner,
      by rw [hmem]; exact hstands.memory⟩
  · obtain ⟨t, ht, hmem⟩ := engineReset_mem inp hr
    generalize (u.requesterReport r).1 = v at *
    rw [hstands.escrow] at hwriter hseq
    rw [hcut, resetHandOver_opened hwriter (Nat.succ_ne_zero _)] at hmem
    obtain ⟨howner', hseq', hcount', hbytes⟩ := releasePage_fields (s := v) (page := page) (records := records + 1)
      (by rw [hreport]; exact hwfu) (by omega) hcount
    refine ⟨t, ht, ?_, by rw [hmem]; exact howner', by rw [hmem, hseq' (by rw [hseq]; exact hmax), hseq], by rw [hmem]; exact hcount',
      fun a hpage hslot => ?_⟩
    · rw [hmem, Memory.readBytes_congr fun x h1 h2 => hbytes x (by omega), hreport]
      exact hstands.bytes
    · rw [hmem, hbytes a (by omega), hreport]
      exact hstands.memory a (by omega) hslot

/-- A counted CLOSE of a context bound to a park writes that park's entry too (R133, R175). -/
theorem cut_bound (inp : ResetInputs) (page slot records : Nat) (r : CloseRecord) (rest : List RecordRequest)
    (p : ParkedContext) (n : Site) (c : SiteCtx) (b : Block) (s : State) (hwf : s.mem.wf = true)
    (hdump : inp.dumpWords = 0) (hrecord : inp.record = .counted) (hw : s.escrow.writer = .opened page slot records)
    (hq : s.escrow.queue = { record := .close r, report := .dieTable } :: rest) (hroom : slot + 1 ≤ 16)
    (hcount : records < counterMax) (hin : page + 1088 ≤ jobMemorySize)
    (hp : (s.dies.parked.filter fun q => !q.isHeld && decide (q.die = r.die)) = [p]) (hst : p.status = .closing (some n))
    (hc : s.sites[n] = some c) (hb : s.chain.block = some b) :
    ∃ t, exec (.linkReset inp) s = .next t ∧ let a := b.offset + 80 + 48 * c.index + 10
      (apart a 38 page 1088 →
        t.mem.readBytes (page + 64 + 64 * slot) 64 = (EscrowRecord.close r).bytes s.counters ∧
          t.mem.read32 (page + 8) = records + 1 ∧ t.mem.read32 page = s.mem.read32 page) ∧
      (a + 38 ≤ jobMemorySize → (t.mem.read (a + 2)).toNat = c.stop.parkResult.code) ∧
      ∀ x, ¬(page + 8 ≤ x ∧ x < page + 12) → ¬(page + 64 + 64 * slot ≤ x ∧ x < page + 64 + 64 * (slot + 1)) →
        ¬(a ≤ x ∧ x < a + 38) → t.mem.read x = s.mem.read x := by
  obtain ⟨u, hu, hstands, hsame, hwfu⟩ := writeHead_stands hwf hw hq hroom hcount hin
  have hdies : u.dies = s.dies := hsame .dies (by simp)
  have hsites : u.sites = s.sites := hsame .sites (by simp)
  have hchain : u.chain = s.chain := hsame .chain (by simp)
  have hentry := requesterReport_bound (s := u) (b := b) (by rw [hdies]; exact hp) hst (by rw [hsites]; exact hc)
    (by rw [hchain]; exact hb)
  have hlen := entryBytes_length c c.stop.parkResult none
  obtain ⟨t, ht, hmem⟩ := linkReset_mem s inp
  have hcut : (s.stopDump inp.dumpWords).cutRecord inp.record =
      (u.requesterReport { record := .close r, report := .dieTable }).1 := by
    rw [hdump, hrecord, stopDump_zero]
    simp only [State.cutRecord, hu]
  rw [hcut, hentry] at hmem
  have hout : ∀ x, ¬(b.offset + 80 + 48 * c.index + 10 ≤ x ∧ x < b.offset + 80 + 48 * c.index + 10 + 38) →
      t.mem.read x = u.mem.read x := fun x hx => by
    rw [hmem]
    exact Memory.read_writeBytes_out (by rw [hlen]; exact hx)
  refine ⟨t, ht, fun hapart => ?_, fun hfit => ?_, fun x hcnt hslot hx => ?_⟩
  · unfold apart at hapart
    refine ⟨?_, ?_, ?_⟩
    · exact (Memory.readBytes_congr fun x h1 h2 => hout x (by omega)).trans hstands.bytes
    · exact (Memory.read32_congr fun x h1 h2 => hout x (by omega)).trans hstands.count
    · exact Memory.read32_congr fun x h1 h2 => (hout x (by omega)).trans (hstands.memory x (by omega) (by omega))
  · rw [hmem, Memory.read_writeBytes_in hwfu (by omega) (by rw [hlen]; omega) (by omega)]
    simp [entryBytes, Nat.mod_eq_of_lt (SiteResult.code_lt _)]
  · rw [hout x hx]
    exact hstands.memory x hcnt hslot

/-- RESET_COMPLETE (R98, R177). -/
theorem resetComplete_ends (s : State) :
    (s.reg.resetting = true → s.keys.writeInFlight = none → ∃ t, exec .resetComplete s = .next t ∧
      t.keys =
        { s.keys with
          h := s.keys.reserve, next := s.keys.reserve, limit := s.keys.reserve, alloc := .ready, derivation := none } ∧
      t.reg = { s.reg with resetting := false } ∧ sameBut [.keys, .reg] s t) ∧
    (s.reg.resetting = false ∨ s.keys.writeInFlight ≠ none → exec .resetComplete s = .next s) := by
  refine ⟨fun hr hv => ⟨(s.setKeys s.keys.readMark).setReg { s.reg with resetting := false }, ?_, rfl, rfl, fun p hp => ?_⟩,
    fun h => ?_⟩
  · simp [exec, execResetComplete, hr, hv]
  · cases p <;> simp_all [Part.same]
  · have hnot : ¬(s.reg.resetting = true ∧ s.keys.writeInFlight = none) := by
      rintro ⟨hr, hv⟩
      rcases h with hr' | hv'
      · simp [hr] at hr'
      · exact hv' hv
    simp only [exec, execResetComplete, if_neg hnot]

/-- Settles O7: the cases of what a reset finds in progress, and the end of the reset. -/
theorem resetHandsOverAndEnds : Obligations.ResetHandsOverAndEnds :=
  ⟨resets_untouched, cut_dump, fun inp page slot records r rest s hwf hdump hw hq hroom hcount hin =>
    ⟨cut_abandoned inp page slot records r rest s hwf hdump hw hq hroom hin,
      cut_counted inp page slot records r rest s hwf hdump hw hq hroom hcount hin⟩, cut_bound, resetComplete_ends⟩

end Sys2Proof.Machine

/-! The header and the waits (R146 to R149, R163, R164, R168): a NUDGE or CONTINUE that reads the header, and a NUDGE that
finds the unit waiting, running or held. -/

namespace Sys2Proof.Machine

variable {s t u : State} {cmd : Instr}

/-! ### Reading the header -/

/-- The commands that make the unit read the header (R146, R149). -/
def State.readsHeader (s : State) (cmd : Instr) : Prop :=
  ((∃ first, cmd = .nudge first) ∧ s.chain.state = .idle) ∨ (cmd = .continueCmd ∧ s.chain.state = .held .headerFault)

/-- The header is read, and of a NUDGE the writer may take its part afterwards (log 11). -/
theorem exec_readsHeader (hr : s.reg.resetting = false) (hw : s.escrow.writer = .idle) (h : s.readsHeader cmd) :
    exec cmd s = .next s.readHeaderStep ∨
      (cmd = .nudge false ∧ exec cmd s = .next s.readHeaderStep.nudgeWriter) := by
  rcases h with ⟨⟨first, rfl⟩, hidle⟩ | ⟨rfl, hheld⟩
  · have hchain : s.nudgeChain = s.readHeaderStep := by simp [State.nudgeChain, hidle]
    cases first with
    | true => exact .inl (by simp [exec, execNudge, hr, nudgeWriter_id (.inl hw), hchain])
    | false => exact .inr ⟨rfl, by simp [exec, execNudge, hr, hchain]⟩
  · exact .inl (by simp [exec, execContinue, hr, State.continueChain, hheld])

/-- The same where the writer's part changes nothing. -/
theorem exec_readsHeader_quiet (hr : s.reg.resetting = false) (hw : s.escrow.writer = .idle) (h : s.readsHeader cmd)
    (hid : s.readHeaderStep.nudgeWriter = s.readHeaderStep) : exec cmd s = .next s.readHeaderStep := by
  rcases exec_readsHeader hr hw h with he | ⟨-, he⟩
  · exact he
  · rw [he, hid]

/-- The board once a good header is read and RESTART is queued. -/
def State.headerRead (s : State) : State :=
  (s.setChain { s.chain with state := .running, expected := some (readHeader s.mem).startTag }).queueRecord
    (.restart s.reg.lastReset s.keys.h) .nobody

/-- The board once a good header is read and its anchor handed over, before the arrival. -/
def State.withHeader (s : State) : State := s.headerRead.openPage (readHeader s.mem).escrowAnchor .anchor true

theorem readHeaderStep_good (h : (readHeader s.mem).passes = true) :
    s.readHeaderStep = s.withHeader.arriveAt (readHeader s.mem).anchor := by
  simp [State.readHeaderStep, h, State.withHeader, State.headerRead, State.takeAnchor]

/-- The RESTART that the anchor's hand-over queues (R171). -/
def State.restartRequest (s : State) : RecordRequest :=
  { record := .restart s.reg.lastReset s.keys.h, report := .nobody }

theorem withHeader_chain (s : State) : s.withHeader.chain =
    { s.chain with state := .running, expected := some (readHeader s.mem).startTag } := by
  simp [State.withHeader, State.headerRead]

theorem withHeader_frame (s : State) : sameBut [.reg, .mem, .chain, .escrow] s s.withHeader := fun p hp => by
  cases p <;> simp_all [Part.same, State.withHeader, State.headerRead]

theorem openPage_of_stall {offset : Nat} {source : StallSource} {entry : Bool}
    (h : validPage offset = false ∨ s.mem.read32 offset ≠ ownerEngine) :
    s.openPage offset source entry = s.stallWriter source entry := by
  refine if_neg fun ⟨hv, ho⟩ => ?_
  rcases h with h | h
  · simp [h] at hv
  · exact h ho

/-- The anchor page is opened (R163). -/
theorem withHeader_opens (hv : validPage (readHeader s.mem).escrowAnchor = true)
    (ho : s.mem.read32 (readHeader s.mem).escrowAnchor = ownerEngine) :
    s.withHeader.escrow =
        { s.escrow with
          writer := .opened (readHeader s.mem).escrowAnchor 0 0, queue := s.escrow.queue ++ [s.restartRequest] } ∧
      bytesBut ((readHeader s.mem).escrowAnchor + 4) 8 s s.withHeader ∧ s.withHeader.reg = s.reg := by
  obtain ⟨hescrow, hbytes, hsame⟩ := openPage_open (s := s.headerRead) (source := .anchor) (e := true) hv ho
  exact ⟨hescrow, hbytes, hsame .reg (by simp)⟩

/-- The header of the opened page (R163). -/
theorem withHeader_opens_mem (hv : validPage (readHeader s.mem).escrowAnchor = true)
    (ho : s.mem.read32 (readHeader s.mem).escrowAnchor = ownerEngine) :
    s.withHeader.mem = (s.mem.writeField ((readHeader s.mem).escrowAnchor + 4) 4 s.escrow.seq).writeField
      ((readHeader s.mem).escrowAnchor + 8) 4 0 := by
  have h : s.withHeader = _ := if_pos ⟨hv, ho⟩
  rw [h]
  rfl

/-- The writer stalls on the anchor (R163). -/
theorem withHeader_stalls
    (h : validPage (readHeader s.mem).escrowAnchor = false ∨ s.mem.read32 (readHeader s.mem).escrowAnchor ≠ ownerEngine) :
    s.withHeader.escrow =
        { s.escrow with writer := .stalled .anchor, queue := s.escrow.queue ++ [s.restartRequest] } ∧
      s.withHeader.mem = s.mem ∧ s.withHeader.reg = s.reg.setEvent .escrowStall := by
  have hstall : s.withHeader = s.headerRead.stallWriter .anchor true := openPage_of_stall h
  rw [hstall]
  exact ⟨rfl, rfl, rfl⟩

theorem withHeader_taken (hwf : s.mem.wf = true) (hseq : s.escrow.seq ≤ counterMax) : headerTaken s s.withHeader where
  chain := withHeader_chain s
  opens hv ho := by
    obtain ⟨hescrow, hbytes, hreg⟩ := withHeader_opens hv ho
    have hin : (readHeader s.mem).escrowAnchor + 12 ≤ jobMemorySize := by
      simp only [validPage, validOffset, Bool.and_eq_true, decide_eq_true_eq] at hv
      omega
    refine ⟨hescrow, ?_, ?_, hbytes, hreg⟩ <;> rw [withHeader_opens_mem hv ho]
    · rw [Memory.read32_writeField_out (by omega), Memory.read32_writeField hwf (by omega) hseq]
    · rw [Memory.read32_writeField (Memory.wf_writeField hwf _ _ _) (by omega) (Nat.zero_le _)]
  stalls := withHeader_stalls
  frame := withHeader_frame s

/-- The ready tag is read past the anchor page's header fields. -/
theorem withHeader_ready {anchor : Nat} (h : ∀ x, anchor ≤ x → x < anchor + 2 → s.withHeader.mem.read x = s.mem.read x) :
    s.withHeader.blockReady anchor = decide (s.mem.read16 anchor = (readHeader s.mem).startTag) := by
  simp only [State.blockReady, withHeader_chain, Option.some.injEq, Memory.read16_congr h]
  exact decide_eq_decide.2 eq_comm

theorem arriveAt_waits {offset : Nat} (h : u.blockReady offset = false) : u.arriveAt offset = u.enterWaiting offset :=
  arrive_notReady h 65535

/-- A good header whose anchor block is not ready, with the anchor page open. -/
theorem readsHeader_waits_open (hr : s.reg.resetting = false) (hidle : s.escrow.writer = .idle)
    (hq : s.escrow.queue = []) (hpass : (readHeader s.mem).passes = true) (h : s.readsHeader cmd)
    (hnot : s.mem.read16 (readHeader s.mem).anchor ≠ (readHeader s.mem).startTag)
    (hv : validPage (readHeader s.mem).escrowAnchor = true)
    (ho : s.mem.read32 (readHeader s.mem).escrowAnchor = ownerEngine)
    (hap : apart (readHeader s.mem).anchor 2 ((readHeader s.mem).escrowAnchor + 4) 8) :
    ∃ t, exec cmd s = .next t ∧
      t.chain =
        { s.chain with
          state := .waiting, expected := some (readHeader s.mem).startTag, offset := some (readHeader s.mem).anchor } ∧
      t.escrow =
        { s.escrow with
          writer := .opened (readHeader s.mem).escrowAnchor 0 0
          queue := [{ record := .restart s.reg.lastReset s.keys.h, report := .nobody }], flushPending := true } ∧
      t.reg = s.reg.setEvent .chainWait ∧ bytesBut ((readHeader s.mem).escrowAnchor + 4) 8 s t ∧
      sameBut [.reg, .mem, .chain, .escrow] s t := by
  obtain ⟨hescrow, hbytes, hreg⟩ := withHeader_opens hv ho
  have hframe := withHeader_frame s
  have hchain := withHeader_chain s
  have hready : s.withHeader.blockReady (readHeader s.mem).anchor = false := by
    rw [withHeader_ready fun x h1 h2 => hbytes x (by unfold apart at hap; omega)]
    exact decide_eq_false hnot
  have hwriting : s.withHeader.recordInProgress = true := by
    simp [State.recordInProgress, hescrow, hq, State.restartRequest, EscrowRecord.slots]
  have hstep := readHeaderStep_good hpass
  rw [arriveAt_waits hready, enterWaiting_writing hwriting] at hstep
  have hexec := exec_readsHeader_quiet hr hidle h (nudgeWriter_id
    (.inr ⟨(readHeader s.mem).escrowAnchor, 0, 0, by rw [hstep]; simp [hescrow]⟩))
  rw [hstep] at hexec
  generalize s.withHeader = u at *
  refine ⟨_, hexec, ?_, ?_, ?_, fun a ha => ?_, fun p hp => ?_⟩
  · simp [hchain]
  · simp [hescrow, hq, State.restartRequest]
  · simp [State.raise, hreg]
  · simpa using hbytes a ha
  · have hpart := hframe p hp
    cases p <;> simp_all [Part.same]

/-- A good header whose anchor block is not ready, with the writer stalled on the anchor. -/
theorem readsHeader_waits_stalled (hr : s.reg.resetting = false) (hidle : s.escrow.writer = .idle)
    (hq : s.escrow.queue = []) (hpass : (readHeader s.mem).passes = true) (h : s.readsHeader cmd)
    (hnot : s.mem.read16 (readHeader s.mem).anchor ≠ (readHeader s.mem).startTag)
    (hbad : validPage (readHeader s.mem).escrowAnchor = false ∨
      s.mem.read32 (readHeader s.mem).escrowAnchor ≠ ownerEngine) :
    ∃ t, exec cmd s = .next t ∧
      t.chain =
        { s.chain with
          state := .waiting, expected := some (readHeader s.mem).startTag, offset := some (readHeader s.mem).anchor } ∧
      t.escrow =
        { s.escrow with
          writer := .stalled .anchor
          queue := [{ record := .restart s.reg.lastReset s.keys.h, report := .nobody }] } ∧
      t.reg = (s.reg.setEvent .escrowStall).setEvent .chainWait ∧ sameBut [.reg, .chain, .escrow] s t := by
  obtain ⟨hescrow, hmem, hreg⟩ := withHeader_stalls hbad
  have hframe := withHeader_frame s
  have hchain := withHeader_chain s
  have hready : s.withHeader.blockReady (readHeader s.mem).anchor = false := by
    rw [withHeader_ready fun x _ _ => by rw [hmem]]
    exact decide_eq_false hnot
  have hquiet : s.withHeader.nothingToFlush := fun p l r hw => by rw [hescrow] at hw; cases hw
  have hstep := readHeaderStep_good hpass
  rw [arriveAt_waits hready, enterWaiting_quiet hquiet] at hstep
  have hnudge : s.readHeaderStep.nudgeWriter = s.readHeaderStep := by
    have hw : s.readHeaderStep.escrow.writer = .stalled .anchor := by rw [hstep]; simp [hescrow]
    have hm : s.readHeaderStep.mem = s.mem := by rw [hstep]; simp [hmem]
    rw [nudgeWriter_stalled hw (.inl ⟨rfl, rfl⟩), openPage_stall_id hw]
    rw [hm]
    exact hbad
  have hexec := exec_readsHeader_quiet hr hidle h hnudge
  rw [hstep] at hexec
  generalize s.withHeader = u at *
  refine ⟨_, hexec, ?_, ?_, ?_, fun p hp => ?_⟩
  · simp [hchain]
  · simp [hescrow, hq, State.restartRequest]
  · simp [State.raise, hreg]
  · by_cases hpm : p = .mem
    · subst hpm
      simpa [Part.same] using hmem
    · have hpart := hframe p (by simp_all)
      cases p <;> simp_all [Part.same]

/-- A good header whose anchor block is ready. -/
theorem readsHeader_takes (hr : s.reg.resetting = false) (hidle : s.escrow.writer = .idle)
    (hpass : (readHeader s.mem).passes = true) (h : s.readsHeader cmd)
    (hready : s.mem.read16 (readHeader s.mem).anchor = (readHeader s.mem).startTag) :
    ((validPage (readHeader s.mem).escrowAnchor = true ∧ s.mem.read32 (readHeader s.mem).escrowAnchor = ownerEngine ∧
        apart (readHeader s.mem).anchor 2 ((readHeader s.mem).escrowAnchor + 4) 8) →
      takesReady s.withHeader (readHeader s.mem).anchor (exec cmd s)) ∧
    (validPage (readHeader s.mem).escrowAnchor = false ∨
        s.mem.read32 (readHeader s.mem).escrowAnchor ≠ ownerEngine →
      (cmd ≠ .nudge false → takesReady s.withHeader (readHeader s.mem).anchor (exec cmd s)) ∧
      ∀ t, s.withHeader.takeBlock (readHeader s.mem).anchor = (t, none) → t.mem = s.withHeader.mem →
        exec cmd s = .next t) := by
  have hstep := readHeaderStep_good hpass
  refine ⟨fun ⟨hv, ho, hap⟩ => ?_, fun hbad => ?_⟩
  · obtain ⟨hescrow, hbytes, -⟩ := withHeader_opens hv ho
    have hr' : s.withHeader.blockReady (readHeader s.mem).anchor = true := by
      rw [withHeader_ready fun x h1 h2 => hbytes x (by unfold apart at hap; omega)]
      exact decide_eq_true hready
    have htakes : takesReady s.withHeader (readHeader s.mem).anchor (.next s.readHeaderStep) :=
      hstep ▸ arrive_takesReady hr' 65534
    rcases exec_readsHeader hr hidle h with he | ⟨-, he⟩
    · rwa [he]
    · rw [he]
      refine takesReady_nudge htakes fun x hx => nudgeWriter_id (.inr ?_)
      exact ⟨_, _, _, hx.trans (by rw [hescrow])⟩
  · obtain ⟨hescrow, hmem, -⟩ := withHeader_stalls hbad
    have hr' : s.withHeader.blockReady (readHeader s.mem).anchor = true := by
      rw [withHeader_ready fun x _ _ => by rw [hmem]]
      exact decide_eq_true hready
    have htakes : takesReady s.withHeader (readHeader s.mem).anchor (.next s.readHeaderStep) :=
      hstep ▸ arrive_takesReady hr' 65534
    refine ⟨fun hcmd => ?_, fun t ht hsame => ?_⟩
    · rcases exec_readsHeader hr hidle h with he | ⟨hfalse, -⟩
      · rwa [he]
      · exact absurd hfalse hcmd
    · have hinHand : s.readHeaderStep = t := Host.Outcome.next.inj (htakes.inHand t ht)
      have hw : t.escrow.writer = .stalled .anchor := by
        have := takeBlock_writer s.withHeader (readHeader s.mem).anchor
        rw [ht, hescrow] at this
        exact this
      have hnudge : t.nudgeWriter = t := by
        rw [nudgeWriter_stalled hw (.inl ⟨rfl, rfl⟩), openPage_stall_id hw]
        rw [hsame, hmem]
        exact hbad
      rcases exec_readsHeader hr hidle h with he | ⟨-, he⟩
      · rw [he, hinHand]
      · rw [he, hinHand, hnudge]

/-- Settles O8: the header read and handed over, then the wait or the taking of the anchor block. -/
theorem nudgeReadsGoodHeader : Obligations.NudgeReadsGoodHeader := by
  intro cmd s hr hidle hq hpass h
  refine ⟨fun hnot => ⟨fun ⟨hv, ho, hap⟩ => ?_, fun hbad => ?_⟩, fun hready hwf hseq => ?_⟩
  · exact readsHeader_waits_open hr hidle hq hpass h hnot hv ho hap
  · exact readsHeader_waits_stalled hr hidle hq hpass h hnot hbad
  · obtain ⟨hopens, hstalls⟩ := readsHeader_takes hr hidle hpass h hready
    exact ⟨fun ho => ⟨_, withHeader_taken hwf hseq, hopens ho⟩,
      fun hbad => ⟨_, withHeader_taken hwf hseq, hstalls hbad⟩⟩

end Sys2Proof.Machine

/-! A NUDGE that finds a bad header, a block that waits, or a unit at work, and a CONTINUE at the end of a hold (R146 to
R150, R164). -/

namespace Sys2Proof.Machine

variable {s t u : State}

/-! ### A header fault and a link fault (R146, R148, R149) -/

/-- A fault with nothing to flush: the events and the hold. -/
theorem chainFault_holds (h : s.nothingToFlush) (reason : HoldReason) :
    (s.chainFault reason).chain = { s.chain with state := .held reason, offset := none } ∧
      (s.chainFault reason).reg = (s.reg.setEvent .chainFault).setEvent .held ∧
      sameBut [.reg, .chain] s (s.chainFault reason) := by
  rw [chainFault_quiet h]
  refine ⟨by simp, by simp [State.raise], fun p hp => ?_⟩
  cases p <;> simp_all [Part.same]

theorem readHeaderStep_bad (h : (readHeader s.mem).passes = false) : s.readHeaderStep = s.chainFault .headerFault := by
  simp [State.readHeaderStep, h]

theorem nothingToFlush_idle (h : s.escrow.writer = .idle) : s.nothingToFlush := fun page slot records hw => by
  rw [h] at hw
  cases hw

/-- A header that is still bad, read by a NUDGE in IDLE or by a CONTINUE. -/
theorem readsHeader_bad {cmd : Instr} (hr : s.reg.resetting = false) (hbad : (readHeader s.mem).passes = false)
    (hw : s.escrow.writer = .idle) (h : s.readsHeader cmd) :
    ∃ t, exec cmd s = .next t ∧ t.chain = { s.chain with state := .held .headerFault, offset := none } ∧
      t.reg = (s.reg.setEvent .chainFault).setEvent .held ∧ sameBut [.reg, .chain] s t := by
  have hholds := chainFault_holds (nothingToFlush_idle hw) .headerFault
  rw [← readHeaderStep_bad hbad] at hholds
  have hwriter : s.readHeaderStep.escrow = s.escrow := hholds.2.2 .escrow (by simp)
  exact ⟨_, exec_readsHeader_quiet hr hw h (nudgeWriter_id (.inl (by rw [hwriter, hw]))), hholds⟩

/-! ### The two takers of a NUDGE (R150, R164, log 11) -/

theorem exec_nudge_writerFirst (hr : s.reg.resetting = false) :
    exec (.nudge true) s = .next s.nudgeWriter.nudgeChain := by
  simp [exec, execNudge, hr]

theorem exec_nudge_chainFirst (hr : s.reg.resetting = false) :
    exec (.nudge false) s = .next s.nudgeChain.nudgeWriter := by
  simp [exec, execNudge, hr]

/-- A NUDGE in WAITING whose block is ready is an arrival there (R147). -/
theorem nudgeChain_takes {offset : Nat} (hs : s.chain.state = .waiting) (ho : s.chain.offset = some offset)
    (h : s.blockReady offset = true) : s.nudgeChain = s.arriveAt offset := by
  simp [State.nudgeChain, hs, ho, h]

/-- The chain unit does nothing with a NUDGE: it waits for a block that is not ready, runs, or is held (R147, R150). -/
def State.nudgeIdles (s : State) : Prop :=
  (∃ offset, s.chain.state = .waiting ∧ s.chain.offset = some offset ∧ s.blockReady offset = false) ∨
    s.chain.state = .running ∨ ∃ r, s.chain.state = .held r

theorem nudgeChain_idles (h : s.nudgeIdles) : s.nudgeChain = s := by
  rcases h with ⟨offset, hs, ho, hready⟩ | hs | ⟨r, hs⟩
  · simp [State.nudgeChain, hs, ho, hready]
  · simp [State.nudgeChain, hs]
  · simp [State.nudgeChain, hs]

/-- The page that a stalled writer looks at again (R164). -/
def State.stalledAt (s : State) (next : Nat) (source : StallSource) : Prop :=
  (source = .anchor ∧ next = s.mem.read32 12) ∨ ∃ page, source = .link page ∧ next = s.mem.read32 (page + 12)

/-- A stalled writer whose page is still no page of the engine leaves all as it is (R164). -/
theorem nudgeWriter_still {next : Nat} {source : StallSource} (hw : s.escrow.writer = .stalled source)
    (hat : s.stalledAt next source) (hbad : validPage next = false ∨ s.mem.read32 next ≠ ownerEngine) :
    s.nudgeWriter = s := by
  rw [nudgeWriter_stalled hw hat, openPage_stall_id hw hbad]

/-- A stalled writer opens its page (R163, R164). -/
theorem nudgeWriter_opens {next : Nat} {source : StallSource} (hw : s.escrow.writer = .stalled source)
    (hat : s.stalledAt next source) (hv : validPage next = true) (ho : s.mem.read32 next = ownerEngine) :
    s.nudgeWriter.escrow = { s.escrow with writer := .opened next 0 0 } ∧ bytesBut (next + 4) 8 s s.nudgeWriter ∧
      sameBut [.mem, .escrow] s s.nudgeWriter := by
  rw [nudgeWriter_stalled hw hat]
  exact openPage_open hv ho

/-- A change of job memory apart from a block's ready tag leaves its readiness. -/
theorem blockReady_apart {offset a n : Nat} (hchain : u.chain = s.chain) (hbytes : bytesBut a n s u)
    (h : apart offset 2 a n) : u.blockReady offset = s.blockReady offset := by
  unfold State.blockReady
  rw [hchain, Memory.read16_congr fun x h1 h2 => hbytes x (by unfold apart at h; omega)]

/-- The writer, idle or with a page open, takes no part in a NUDGE (R164). -/
theorem nudgeWriter_resting (hw : s.escrow.writer = .idle ∨ ∃ page slot records, s.escrow.writer = .opened page slot records)
    (x : State) (hx : x.escrow.writer = s.escrow.writer) : x.nudgeWriter = x :=
  nudgeWriter_id (by rwa [hx])

/-- A NUDGE in WAITING takes a block that is ready, the writer idle or with a page open. -/
theorem nudge_takes_resting {offset : Nat} (first : Bool) (hr : s.reg.resetting = false) (hs : s.chain.state = .waiting)
    (ho : s.chain.offset = some offset) (h : s.blockReady offset = true)
    (hw : s.escrow.writer = .idle ∨ ∃ page slot records, s.escrow.writer = .opened page slot records) :
    takesReady s offset (exec (.nudge first) s) := by
  have htakes := arrive_takesReady h 65534
  cases first with
  | true =>
    rw [exec_nudge_writerFirst hr, nudgeWriter_resting hw s rfl, nudgeChain_takes hs ho h]
    exact htakes
  | false =>
    rw [exec_nudge_chainFirst hr, nudgeChain_takes hs ho h]
    exact takesReady_nudge htakes (nudgeWriter_resting hw)

/-- The writer, stalled on a page of the engine, takes the NUDGE first and opens it; the chain unit then takes its block. -/
theorem nudge_takes_opened {offset next : Nat} {source : StallSource} (hr : s.reg.resetting = false)
    (hs : s.chain.state = .waiting) (ho : s.chain.offset = some offset) (h : s.blockReady offset = true)
    (hw : s.escrow.writer = .stalled source) (hat : s.stalledAt next source) (hv : validPage next = true)
    (howner : s.mem.read32 next = ownerEngine) (hap : apart offset 2 (next + 4) 8) :
    ∃ u, u.escrow = { s.escrow with writer := .opened next 0 0 } ∧ bytesBut (next + 4) 8 s u ∧
      sameBut [.mem, .escrow] s u ∧ takesReady u offset (exec (.nudge true) s) := by
  obtain ⟨hescrow, hbytes, hframe⟩ := nudgeWriter_opens hw hat hv howner
  have hchain : s.nudgeWriter.chain = s.chain := hframe .chain (by simp)
  have hready : s.nudgeWriter.blockReady offset = true := by rw [blockReady_apart hchain hbytes hap, h]
  refine ⟨_, hescrow, hbytes, hframe, ?_⟩
  rw [exec_nudge_writerFirst hr, nudgeChain_takes (by rw [hchain, hs]) (by rw [hchain, ho]) hready]
  exact arrive_takesReady hready 65534

/-- A NUDGE that neither unit acts on. -/
theorem exec_nudge_quiet (first : Bool) (hr : s.reg.resetting = false) (hidle : s.nudgeIdles) (hw : s.nudgeWriter = s) :
    exec (.nudge first) s = .next s := by
  cases first
  · rw [exec_nudge_chainFirst hr, nudgeChain_idles hidle, hw]
  · rw [exec_nudge_writerFirst hr, hw, nudgeChain_idles hidle]

/-- A NUDGE that only the stalled writer acts on, in either order. -/
theorem exec_nudge_opens {next : Nat} {source : StallSource} (first : Bool) (hr : s.reg.resetting = false)
    (hidle : s.nudgeIdles) (hw : s.escrow.writer = .stalled source) (hat : s.stalledAt next source)
    (hv : validPage next = true) (ho : s.mem.read32 next = ownerEngine)
    (hap : ∀ offset, s.chain.state = .waiting → s.chain.offset = some offset → apart offset 2 (next + 4) 8) :
    exec (.nudge first) s = .next s.nudgeWriter := by
  cases first with
  | false => rw [exec_nudge_chainFirst hr, nudgeChain_idles hidle]
  | true =>
    obtain ⟨-, hbytes, hframe⟩ := nudgeWriter_opens hw hat hv ho
    have hchain : s.nudgeWriter.chain = s.chain := hframe .chain (by simp)
    have hidle' : s.nudgeWriter.nudgeIdles := by
      unfold State.nudgeIdles at hidle ⊢
      rw [hchain]
      refine hidle.imp_left fun ⟨offset, hs, hoff, hready⟩ => ⟨offset, hs, hoff, ?_⟩
      rw [blockReady_apart hchain hbytes (hap offset hs hoff), hready]
    rw [exec_nudge_writerFirst hr, nudgeChain_idles hidle']

/-- Settles O9: the bad header, the NUDGE in WAITING that takes its block, and the NUDGE that the chain unit ignores. -/
theorem nudgeWithoutProgress : Obligations.NudgeWithoutProgress := by
  refine ⟨fun s hr hbad hw => ⟨fun hidle first => ?_, fun hheld => ?_⟩, fun first offset s hr hs ho hready =>
    ⟨nudge_takes_resting first hr hs ho hready, ?_, fun next source hw hat => ⟨fun hbad => ?_, fun hv howner hap => ?_⟩⟩,
    fun first s hr hidle => ⟨fun hw => ?_, fun next source hw hat => ⟨fun hv howner hap => ?_, fun hbad => ?_⟩⟩⟩
  · exact readsHeader_bad hr hbad hw (.inl ⟨⟨first, rfl⟩, hidle⟩)
  · exact readsHeader_bad hr hbad hw (.inr ⟨rfl, hheld⟩)
  · exact ⟨_, arrive_takesReady hready 65534, by rw [exec_nudge_chainFirst hr, nudgeChain_takes hs ho hready]; rfl⟩
  · rw [exec_nudge_writerFirst hr, nudgeWriter_still hw hat hbad, nudgeChain_takes hs ho hready]
    exact arrive_takesReady hready 65534
  · exact nudge_takes_opened hr hs ho hready hw hat hv howner hap
  · exact exec_nudge_quiet first hr hidle (nudgeWriter_resting hw s rfl)
  · exact ⟨_, exec_nudge_opens first hr hidle hw hat hv howner hap, nudgeWriter_opens hw hat hv howner⟩
  · exact exec_nudge_quiet first hr hidle (nudgeWriter_still hw hat hbad)

/-! ### CONTINUE (R149) -/

theorem exec_continue (hr : s.reg.resetting = false) : exec .continueCmd s = .next s.continueChain := by
  simp [exec, execContinue, hr]

/-- A hold whose CONTINUE ends the block in hand: one for a halt, or one for a release with CONTACT asserted. -/
def State.holdEnds (s : State) : Prop :=
  s.chain.state = .held .halt ∨ (s.chain.state = .held .release ∧ s.contact = true)

theorem continueChain_ends {b : Block} (hb : s.chain.block = some b) (h : s.holdEnds) : s.continueChain = s.endBlock b := by
  rcases h with h | ⟨h, hc⟩
  · simp [State.continueChain, h, hb]
  · simp [State.continueChain, h, hb, hc]

theorem blockCloses.doneBytes {b : Block} {tag : Nat} (h : blockCloses s u b tag) : doneBytes s u b :=
  fun a ha _ => h.bytes a (by omega)

theorem blockCloses.link {b : Block} {tag : Nat} (h : blockCloses s u b tag) : u.linkOf b.offset = s.linkOf b.offset :=
  linkOf_of_doneBytes h.doneBytes

theorem blockCloses.ready {b : Block} {tag : Nat} (h : blockCloses s u b tag) (hb : b.offset % 64 = 0)
    (hl : validBlockOffset (s.linkOf b.offset) = true) :
    u.blockReady (s.linkOf b.offset) = decide (nextTag tag = s.mem.read16 (s.linkOf b.offset)) := by
  simp only [State.blockReady, h.chain, ready_of_doneBytes h.doneBytes hb (validBlockOffset_mod hl), Option.some.injEq]

theorem followLink_arrives {offset : Nat} (hl : validBlockOffset (u.linkOf offset) = true) :
    u.followLink offset = u.arriveAt (u.linkOf offset) := if_pos hl

theorem followLink_fails {offset : Nat} (hl : validBlockOffset (u.linkOf offset) = false) :
    u.followLink offset = u.chainFault .linkFault := if_neg (by simp [hl])

/-- The hold's block ends and the unit waits at the linked one. -/
theorem continue_waits {b : Block} {tag : Nat} (hr : s.reg.resetting = false) (hb : s.chain.block = some b)
    (h : s.holdEnds) (hw : s.waitsAfter b tag) : ∃ t, exec .continueCmd s = .next t ∧
      t.chain =
        { s.chain with
          state := .waiting, expected := some (nextTag tag), offset := some (s.linkOf b.offset), block := none
          lastDone := some b.offset } ∧
      t.mem.read16 (b.offset + 12) = tag ∧ bytesBut (b.offset + 12) 2 s t ∧
      t.reg = (if b.notify then s.reg.setEvent .blockDone else s.reg).setEvent .chainWait ∧
      sameBut [.reg, .mem, .chain] s t := by
  have c := closeBlock_closes hw.toendsBlock
  have hescrow : (s.closeBlock b.offset b.notify).escrow = s.escrow := c.frame .escrow (by simp)
  have hready := (c.ready hw.aligned hw.link).trans (decide_eq_false (Ne.symm hw.notReady))
  rw [exec_continue hr, continueChain_ends hb h]
  unfold State.endBlock
  rw [followLink_arrives (by rw [c.link]; exact hw.link), c.link, arriveAt_waits hready,
    enterWaiting_quiet (nothingToFlush_congr hescrow hw.quiet)]
  generalize s.closeBlock b.offset b.notify = u at *
  refine ⟨_, rfl, by simp [c.chain], by simpa using c.doneTag, fun a ha => by simpa using c.bytes a ha,
    by simp [State.raise, c.events], fun p hp => ?_⟩
  have hpart := c.frame p hp
  cases p <;> simp_all [Part.same]

/-- The hold's block ends and its link is no block offset. -/
theorem continue_fails {b : Block} {tag : Nat} (hr : s.reg.resetting = false) (hb : s.chain.block = some b)
    (h : s.holdEnds) (hl : s.linkFails b tag) : ∃ t, exec .continueCmd s = .next t ∧
      t.chain =
        { s.chain with
          state := .held .linkFault, expected := some (nextTag tag), offset := none, block := none
          lastDone := some b.offset } ∧
      t.mem.read16 (b.offset + 12) = tag ∧ bytesBut (b.offset + 12) 2 s t ∧
      t.reg = ((if b.notify then s.reg.setEvent .blockDone else s.reg).setEvent .chainFault).setEvent .held ∧
      sameBut [.reg, .mem, .chain] s t := by
  have c := closeBlock_closes hl.toendsBlock
  have hescrow : (s.closeBlock b.offset b.notify).escrow = s.escrow := c.frame .escrow (by simp)
  rw [exec_continue hr, continueChain_ends hb h]
  unfold State.endBlock
  rw [followLink_fails (by rw [c.link]; exact hl.link)]
  obtain ⟨hchain, hreg, hframe⟩ := chainFault_holds (nothingToFlush_congr hescrow hl.quiet) .linkFault
  have hmem : (State.chainFault _ .linkFault).mem = (s.closeBlock b.offset b.notify).mem := hframe .mem (by simp)
  refine ⟨_, rfl, by rw [hchain, c.chain], by rw [hmem, c.doneTag], fun a ha => by rw [hmem, c.bytes a ha],
    by rw [hreg, c.events], ?_⟩
  exact c.frame.trans (hframe.mono (by simp))

/-- The hold's block ends and the linked one is ready. -/
theorem continue_takes {b : Block} {tag : Nat} (hr : s.reg.resetting = false) (hb : s.chain.block = some b)
    (h : s.holdEnds) (hl : s.linkReady b tag) :
    ∃ u, blockCloses s u b tag ∧ takesReady u (s.linkOf b.offset) (exec .continueCmd s) := by
  have c := closeBlock_closes hl.toendsBlock
  have hready := (c.ready hl.aligned hl.link).trans (decide_eq_true hl.ready.symm)
  refine ⟨_, c, ?_⟩
  rw [exec_continue hr, continueChain_ends hb h, ← c.link]
  exact followLink_takesReady (by rw [c.link]; exact hl.link) (by rw [c.link]; exact hready)

/-- A hold for a release goes on while CONTACT is low (R149). -/
theorem continue_contactLow {b : Block} (hr : s.reg.resetting = false) (hs : s.chain.state = .held .release)
    (hb : s.chain.block = some b) (hc : s.contact = false) (hq : s.nothingToFlush) :
    ∃ t, exec .continueCmd s = .next t ∧ t.reg = (s.reg.setEvent .contactLost).setEvent .held ∧ sameBut [.reg] s t := by
  have hstep : s.continueChain = (s.raise .contactLost).enterHeld .release := by
    simp [State.continueChain, hs, hb, hc]
  rw [exec_continue hr, hstep]
  unfold State.enterHeld
  rw [flush_quiet (nothingToFlush_congr (by simp) hq)]
  have hchain : { s.chain with state := .held .release } = s.chain := by rw [← hs]
  simp only [State.raise_chain, hchain]
  refine ⟨_, rfl, by simp [State.raise], fun p hp => ?_⟩
  cases p <;> simp_all [Part.same]

/-- A CONTINUE outside HELD (R150). -/
theorem continue_outsideHeld (h : ∀ r, s.chain.state ≠ .held r) : exec .continueCmd s = .next s := by
  have hstep : s.continueChain = s := by
    unfold State.continueChain
    split
    case h_1 hs => exact absurd hs (h _)
    case h_2 hs => exact absurd hs (h _)
    case h_3 hs => exact absurd hs (h _)
    case h_4 hs => exact absurd hs (h _)
    case h_5 => rfl
  simp [exec, execContinue, hstep]

/-- A CONTINUE of a hold for a link fault judges the link again (R149). -/
theorem exec_continue_link {offset : Nat} (hr : s.reg.resetting = false) (hs : s.chain.state = .held .linkFault)
    (hd : s.chain.lastDone = some offset) : exec .continueCmd s = .next (s.followLink offset) := by
  rw [exec_continue hr]
  simp [State.continueChain, hs, hd]

/-- Settles O10: the ends of each kind of hold, through the block's end and the judging of its link. -/
theorem continueEndsHold : Obligations.ContinueEndsHold := by
  refine ⟨⟨fun s h => continue_outsideHeld h, fun b s hr hs hb hc hq => continue_contactLow hr hs hb hc hq⟩,
    fun b tag s hr hb h => ⟨continue_waits hr hb h, continue_fails hr hb h, continue_takes hr hb h⟩,
    fun offset s hr hs hd => ⟨fun hl hq => ?_, fun hl hnot hq => ?_, fun hl hready => ?_⟩⟩
  · exact ⟨_, exec_continue_link hr hs hd, followLink_fails hl ▸ chainFault_holds hq .linkFault⟩
  · rw [exec_continue_link hr hs hd, followLink_arrives hl, arriveAt_waits hnot, enterWaiting_quiet hq]
    refine ⟨_, rfl, by simp, by simp [State.raise], fun p hp => ?_⟩
    cases p <;> simp_all [Part.same]
  · rw [exec_continue_link hr hs hd]
    exact followLink_takesReady hl hready

end Sys2Proof.Machine

/-! Taking a block by its kind, what a refusal leaves, what an acceptance starts, and a TOUCHDOWN that starts with a rise
of CONTACT (R147, R151, R152, R156 to R160). -/

namespace Sys2Proof.Machine

variable {s t u : State} {b : Block} {es : List SiteEntry} {offset tag : Nat}

/-! ### The kinds (section 11.2) -/

/-- The board once a block is taken into RUNNING, before its kind's work (R147). -/
def State.taking (s : State) (offset : Nat) : State :=
  s.setChain { s.chain with state := .running, offset := some offset }

theorem takeBlock_loadKeys (h : s.mem.read (offset + 4) = 1) :
    s.takeBlock offset = (s.taking offset).takeLoadKeys (readBlock s.mem offset) := by
  simp [State.takeBlock, h, State.taking]

theorem takeBlock_waferStart (h : s.mem.read (offset + 4) = 2) :
    s.takeBlock offset = (s.taking offset).takeWaferStart (readBlock s.mem offset) := by
  simp [State.takeBlock, h, State.taking]

theorem takeBlock_touchdown (h : s.mem.read (offset + 4) = 3) :
    s.takeBlock offset = (s.taking offset).takeTouchdown (readBlock s.mem offset) := by
  simp [State.takeBlock, h, State.taking]

theorem takeBlock_waferEnd (h : s.mem.read (offset + 4) = 4) :
    s.takeBlock offset = (s.taking offset).takeWaferEnd (readBlock s.mem offset) := by
  simp [State.takeBlock, h, State.taking]

theorem takeBlock_dump (h : s.mem.read (offset + 4) = 6) :
    s.takeBlock offset = (s.taking offset).takeDump (readBlock s.mem offset) := by
  simp [State.takeBlock, h, State.taking]

theorem takeBlock_unknown (h : (s.mem.read (offset + 4)).toNat = 0 ∨ 6 < (s.mem.read (offset + 4)).toNat) :
    s.takeBlock offset = (s.taking offset, some .blockInvalid) := by
  unfold State.takeBlock
  dsimp only
  split
  case h_7 => rfl
  all_goals omega

/-! ### Refusals (R144) -/

/-- A taking that answers with a result other than OK changed nothing. -/
def refusesCleanly (s : State) (taken : State × Option BlockResult) : Prop :=
  ∀ t r, taken = (t, some r) → r ≠ .ok → t = s

theorem refusesCleanly_refused (s : State) (r : BlockResult) : refusesCleanly s (s, some r) := fun t r' h _ => by
  simp_all

theorem refusesCleanly_inHand (s t : State) : refusesCleanly s (t, none) := fun t' r' h _ => by simp at h

theorem refusesCleanly_ok (s t : State) : refusesCleanly s (t, some .ok) := fun t' r' h hne => by
  simp_all

theorem takeLoadKeys_refuses (s : State) (b : Block) : refusesCleanly s (s.takeLoadKeys b) := by
  unfold State.takeLoadKeys
  split
  · exact refusesCleanly_refused s _
  · split
    · exact refusesCleanly_refused s _
    · exact refusesCleanly_inHand s _

theorem takeWaferStart_refuses (s : State) (b : Block) : refusesCleanly s (s.takeWaferStart b) := by
  unfold State.takeWaferStart
  split
  · exact refusesCleanly_refused s _
  · split
    · exact refusesCleanly_refused s _
    · exact refusesCleanly_ok s _

theorem takeTouchdown_refuses (s : State) (b : Block) : refusesCleanly s (s.takeTouchdown b) := by
  unfold State.takeTouchdown
  split
  · exact refusesCleanly_refused s _
  · split
    · exact refusesCleanly_refused s _
    · split
      · dsimp only
        split
        · exact refusesCleanly_ok s _
        · exact refusesCleanly_inHand s _
      · exact refusesCleanly_inHand s _

theorem takeWaferEnd_refuses (s : State) (b : Block) : refusesCleanly s (s.takeWaferEnd b) := by
  unfold State.takeWaferEnd
  split
  · exact refusesCleanly_refused s _
  · exact refusesCleanly_inHand s _

theorem takeStats_refuses (s : State) (b : Block) : refusesCleanly s (s.takeStats b) := by
  unfold State.takeStats
  split
  · exact refusesCleanly_refused s _
  · exact refusesCleanly_ok s _

theorem takeDump_refuses (s : State) (b : Block) : refusesCleanly s (s.takeDump b) := by
  unfold State.takeDump
  dsimp only
  split
  · exact refusesCleanly_inHand s _
  · exact refusesCleanly_refused s _

theorem takeBlock_refuses (s : State) (offset : Nat) : refusesCleanly (s.taking offset) (s.takeBlock offset) := by
  unfold State.takeBlock
  dsimp only
  split
  · exact takeLoadKeys_refuses _ _
  · exact takeWaferStart_refuses _ _
  · exact takeTouchdown_refuses _ _
  · exact takeWaferEnd_refuses _ _
  · exact takeStats_refuses _ _
  · exact takeDump_refuses _ _
  · exact refusesCleanly_refused _ _

@[simp] theorem taking_chain (s : State) (offset : Nat) :
    (s.taking offset).chain = { s.chain with state := .running, offset := some offset } := rfl

@[simp] theorem taking_mem (s : State) (offset : Nat) : (s.taking offset).mem = s.mem := rfl

@[simp] theorem taking_contact (s : State) (offset : Nat) : (s.taking offset).contact = s.contact := rfl

@[simp] theorem readBlock_offset (m : Memory) (offset : Nat) : (readBlock m offset).offset = offset := rfl

theorem taking_same (s : State) (offset : Nat) : sameBut [.chain] s (s.taking offset) := setChain_same s _

/-- Settles O11: every kind's work keeps the board when it refuses, and the wafer test comes first. -/
theorem refusedBlockHasNoEffect : Obligations.RefusedBlockHasNoEffect := by
  intro offset s
  refine ⟨takeBlock_refuses s offset, fun h => ?_, fun hw h => ?_, fun hw h => ?_⟩
  · rw [takeBlock_unknown h]
  · rcases h with h | h
    · simp [takeBlock_loadKeys h, State.takeLoadKeys, hw]
    · simp [takeBlock_waferStart h, State.takeWaferStart, hw]
  · rcases h with h | h
    · simp [takeBlock_touchdown h, State.takeTouchdown, hw]
    · simp [takeBlock_waferEnd h, State.takeWaferEnd, hw]

/-! ### Entries that start (R64, R152) -/

/-- A taken entry is final exactly when it is a SKIP (R64). -/
theorem entryTaken.isFinal {e : SiteEntry} {k : Nat} (h : entryTaken s t b e k) :
    t.isFinal e.site = decide (e.action = .skip) := by
  obtain ⟨x, hx, -, -, -, -, -, -, -, -, -, hskip, hother⟩ := h
  unfold State.isFinal
  rw [hx]
  by_cases ha : e.action = .skip
  · simp [(hskip ha).1, ha]
  · simp [(hother ha).1, ha]

theorem entriesStart.allFinal (h : entriesStart s t b es) : t.allFinal es = es.all fun e => decide (e.action = .skip) := by
  unfold State.allFinal
  rw [Bool.eq_iff_iff]
  simp only [List.all_eq_true, List.forall_mem_iff_forall_getElem]
  exact forall₂_congr fun k hk => by rw [(h.taken k hk).isFinal]

theorem entriesStart.allFinal_of_skips (h : entriesStart s t b es) (hs : ∀ e ∈ es, e.action = .skip) :
    t.allFinal es = true := by
  rw [h.allFinal]
  simpa using hs

theorem entriesStart.allFinal_of_other (h : entriesStart s t b es) (hs : ∃ e ∈ es, e.action ≠ .skip) :
    t.allFinal es = false := by
  rw [h.allFinal]
  simpa using hs

theorem leaveSites_same (s : State) : sameBut [.sites] s s.leaveSites := fun p hp => by
  cases p <;> simp_all [Part.same, State.leaveSites]

theorem leaveSites_none (s : State) (n : Site) : s.leaveSites.sites[n] = none := by
  simp [State.leaveSites]

/-- A start is one from every board that agrees on the job memory and on the sites that no entry names. -/
theorem entriesStart.of_agree (h : entriesStart u t b es) (hm : u.mem = s.mem) (hs : u.sites = s.sites) :
    entriesStart s t b es where
  taken k hk := by
    obtain ⟨x, hx, h1, h2, h3, h4, h5, h6, h7, h8, h9, hskip, hother⟩ := h.taken k hk
    exact ⟨x, hx, h1, h2, h3, h4, h5, h6, h7, h8, h9, by rwa [← hm], hother⟩
  others n hn := by rw [h.others n hn, hs]
  bytes a ha := by rw [h.bytes a ha, hm]
  block := h.block

/-! ### Acceptances (R151, R152, R156 to R158) -/

theorem takeTouchdown_accepted (hw : s.chain.wafer.isSome = true) (h : readTouchdown s.mem b.offset = some es) :
    s.takeTouchdown b =
      if s.contact then
        if (s.startEntries b es).allFinal es then ((s.startEntries b es).leaveSites, some .ok)
        else (s.startEntries b es, none)
      else (s.holdBlock { b with work := .touchdown es false false false }, none) := by
  have hsome : s.chain.wafer.isNone = false := by simpa using hw
  simp [State.takeTouchdown, hsome, h]

/-- No two entries that pass validation name the same site (R151). -/
theorem readTouchdown_sites {m : Memory} (h : readTouchdown m offset = some es) : (es.map SiteEntry.site).Nodup := by
  unfold readTouchdown at h
  dsimp only at h
  split at h
  · split at h
    · split at h
      · cases h
        rename_i hd
        simp only [entriesDistinct, Bool.and_eq_true, decide_eq_true_eq] at hd
        exact hd.1.1
      · cases h
    · cases h
  · cases h

theorem openWafer_opens (w : WaferContext) (s : State) :
    (s.openWafer w).chain = { s.chain with wafer := some w, waferSeq := satInc s.chain.waferSeq } ∧
      (s.openWafer w).dies = { s.dies with queue := s.dies.queue ++ [.clear] } ∧
      (∀ k, (s.openWafer w).counter k = 0) ∧
      (s.openWafer w).escrow =
        { s.escrow with queue := s.escrow.queue ++ [{ record := .waferOpen, report := .nobody }] } ∧
      sameBut [.chain, .dies, .counters, .escrow] s (s.openWafer w) := by
  refine ⟨rfl, rfl, fun k => ?_, rfl, fun p hp => ?_⟩
  · simp [State.counter, State.openWafer]
  · cases p <;> simp_all [Part.same]

/-- Settles O14: each kind's work on the board in RUNNING, and of a TOUCHDOWN the entries that start. -/
theorem acceptedBlocksTaken : Obligations.AcceptedBlocksTaken := by
  refine ⟨fun offset w s hnone hkind hread => ?_, fun offset s => ⟨fun hkind hnone hfit => ?_, fun hkind hsome => ?_,
    fun es hkind hsome hread => ?_⟩⟩
  · obtain ⟨hchain, hdies, hcount, hescrow, hframe⟩ := openWafer_opens w (s.taking offset)
    have htake : s.takeBlock offset = ((s.taking offset).openWafer w, some .ok) := by
      rw [takeBlock_waferStart hkind]
      simp [State.takeWaferStart, hnone, hread]
    refine ⟨_, htake, ?_, hdies, hcount, hescrow, ((taking_same s offset).mono (by simp)).trans hframe⟩
    rw [hchain]
    rfl
  · have htake : s.takeBlock offset = (((s.taking offset).holdBlock
        { readBlock s.mem offset with work := .loadKeys }).setKeys
          { (s.taking offset).keys with
            importing := some
              { rootBlob := s.mem.readBytes (offset + 64) 44, transportBlob := s.mem.readBytes (offset + 112) 40 } },
        none) := by
      rw [takeBlock_loadKeys hkind]
      simp [State.takeLoadKeys, hnone, Nat.not_lt.2 hfit]
    refine ⟨_, htake, rfl, rfl, fun p hp => ?_⟩
    cases p <;> simp_all [Part.same, State.holdBlock, State.taking]
  · have hwafer : (s.taking offset).chain.wafer.isNone = false := by simpa using hsome
    have htake : s.takeBlock offset = (((s.taking offset).holdBlock
        { readBlock s.mem offset with work := .waferEnd }).queueTable .voidAll, none) := by
      rw [takeBlock_waferEnd hkind]
      simp [State.takeWaferEnd, Option.isSome_iff_ne_none.1 hsome]
    refine ⟨_, htake, rfl, rfl, fun p hp => ?_⟩
    cases p <;> simp_all [Part.same, State.holdBlock, State.taking]
  · have htake := takeBlock_touchdown hkind
    rw [takeTouchdown_accepted (s := s.taking offset) (b := readBlock s.mem offset) hsome hread, taking_contact] at htake
    obtain ⟨hstart, hframe, hchain⟩ :=
      startEntries_start (s.taking offset) (readBlock s.mem offset) es (readTouchdown_sites hread)
    have hsame : sameBut [.chain, .sites, .mem] s ((s.taking offset).startEntries (readBlock s.mem offset) es) :=
      ((taking_same s offset).mono (by simp)).trans (hframe.mono (by simp))
    refine ⟨fun hc => ?_, fun hc hother => ?_, fun hc hskips => ?_⟩
    · rw [hc] at htake
      refine ⟨_, htake, rfl, fun p hp => ?_⟩
      cases p <;> simp_all [Part.same, State.holdBlock, State.taking]
    · rw [hc, hstart.allFinal_of_other hother] at htake
      exact ⟨_, htake, hstart.of_agree rfl rfl, hchain, hsame⟩
    · rw [hc, hstart.allFinal_of_skips hskips] at htake
      have hleave := leaveSites_same ((s.taking offset).startEntries (readBlock s.mem offset) es)
      refine ⟨_, htake, leaveSites_none _, hchain, fun k hk hwf hin => ?_, fun a ha => ?_,
        hsame.trans (hleave.mono (by simp))⟩
      · obtain ⟨x, -, -, -, -, -, -, -, -, -, -, hskip, -⟩ := hstart.taken k hk
        exact (hskip (hskips _ (List.getElem_mem hk))).2.2.2 hwf hin
      · exact hstart.bytes a fun k hk _ => ha k hk

/-! ### The end of a block that is done (R148) -/

theorem blockDone_eq (s : State) (b : Block) (r : BlockResult) :
    s.blockDone b r = ((s.writeResult b.offset r).closeBlock b.offset b.notify).followLink b.offset := rfl

theorem blockEnds.link {r : BlockResult} (h : blockEnds s u b tag r) : u.linkOf b.offset = s.linkOf b.offset :=
  linkOf_of_doneBytes h.bytes

/-- A done block whose link is valid: its end, and the arrival at the linked block. -/
theorem blockDone_arrives {r : BlockResult} (h : s.endsBlock b tag) (hl : validBlockOffset (s.linkOf b.offset) = true) :
    ∃ u, blockEnds s u b tag r ∧ s.blockDone b r = u.arriveAt (s.linkOf b.offset) := by
  have e : blockEnds s _ b tag r := writeResult_closeBlock_ends h
  refine ⟨_, e, ?_⟩
  rw [blockDone_eq, followLink_arrives (by rw [e.link]; exact hl), e.link]

theorem linkWaits_notReady {r : BlockResult} (h : s.linkWaits b tag) (e : blockEnds s u b tag r) :
    u.blockReady (s.linkOf b.offset) = false :=
  (e.ready h.aligned h.link).trans (decide_eq_false (Ne.symm h.notReady))

/-- A done block whose linked block is not ready. -/
theorem blockDone_waits (r : BlockResult) (h : s.waitsAfter b tag) :
    blockDoneWaiting s (s.blockDone b r) b tag r ∧ doneBytes s (s.blockDone b r) b ∧
      sameBut [.reg, .mem, .chain] s (s.blockDone b r) := by
  obtain ⟨u, e, hu⟩ := blockDone_arrives (r := r) h.toendsBlock h.link
  rw [hu, arriveAt_waits (linkWaits_notReady h.tolinkWaits e)]
  exact e.waiting h.quiet _ rfl

/-- A done block whose link is no block offset. -/
theorem blockDone_fails (r : BlockResult) (h : s.linkFails b tag) : blockEndsFaulty s (s.blockDone b r) b tag r := by
  have e : blockEnds s _ b tag r := writeResult_closeBlock_ends h.toendsBlock
  rw [blockDone_eq, followLink_fails (by rw [e.link]; exact h.link)]
  exact e.faulty h.quiet

/-- A done block whose linked block is ready. -/
theorem blockDone_takes (r : BlockResult) (h : s.linkReady b tag) :
    ∃ u, blockEnds s u b tag r ∧ takesReady u (s.linkOf b.offset) (.next (s.blockDone b r)) := by
  obtain ⟨u, e, hu⟩ := blockDone_arrives (r := r) h.toendsBlock h.link
  refine ⟨u, e, ?_⟩
  rw [hu]
  exact arrive_takesReady ((e.ready h.aligned h.link).trans (decide_eq_true h.ready.symm)) 65534

/-- A started TOUCHDOWN whose entries are all final is done with OK (R152). -/
theorem settleTouchdown_done (hs : s.chain.state = .running) (hb : s.chain.block = some b)
    (hw : b.work = .touchdown es true false false) (hf : s.allFinal es = true) :
    s.settleTouchdown = s.leaveSites.blockDone b .ok := by
  simp [State.settleTouchdown, hb, hw, hs, hf]

theorem settleTouchdown_notFinal {released halted : Bool} (hb : s.chain.block = some b)
    (hw : b.work = .touchdown es true released halted) (hf : s.allFinal es = false) : s.settleTouchdown = s := by
  simp [State.settleTouchdown, hb, hw, hf]

/-! ### A rise of CONTACT (R152, R186) -/

theorem exec_contactRise (hc : s.contact = false) : exec .contactRise s = .next (s.setContact true).startWaiting := by
  simp [exec, execContactRise, hc]

theorem setContact_same (s : State) (level : Bool) : sameBut [.contact] s (s.setContact level) := fun p hp => by
  cases p <;> simp_all [Part.same]

theorem startWaiting_none (h : ∀ b es released halted, s.chain.block = some b →
    b.work ≠ .touchdown es false released halted) : s.startWaiting = s := by
  unfold State.startWaiting
  split
  · rename_i b hb
    split
    · rename_i es released halted hw
      exact absurd hw (h b es released halted hb)
    · rfl
  · rfl

theorem startWaiting_starts {released halted : Bool} (hb : s.chain.block = some b)
    (hw : b.work = .touchdown es false released halted) :
    s.startWaiting = (s.startEntries b es).settleTouchdown := by
  simp [State.startWaiting, hb, hw]

/-- A board that differs in no register, chain or escrow state, nor in the link or the linked block's tag, ends the
block as well. -/
theorem waitsAfter_of_agree (h : s.waitsAfter b tag) (hwf : u.mem.wf = true)
    (hexp : u.chain.expected = s.chain.expected) (hescrow : u.escrow = s.escrow)
    (hlink : u.linkOf b.offset = s.linkOf b.offset)
    (htag : u.mem.read16 (s.linkOf b.offset) = s.mem.read16 (s.linkOf b.offset)) : u.waitsAfter b tag where
  memory := hwf
  aligned := h.aligned
  inside := h.inside
  expected := hexp.trans h.expected
  tagRange := h.tagRange
  link := hlink ▸ h.link
  notReady := by rw [hlink, htag]; exact h.notReady
  quiet := nothingToFlush_congr hescrow h.quiet

theorem startEntries_wf (hwf : s.mem.wf = true) (b : Block) (es : List SiteEntry) :
    (s.startEntries b es).mem.wf = true := by
  unfold State.startEntries
  refine List.foldlRecOn (motive := fun u : State => u.mem.wf = true) _ _ hwf fun u hu e _ => ?_
  unfold State.takeEntry
  dsimp only
  split
  · simp only [State.enterFinal, State.setSite_mem]
    split
    · simpa [State.store] using Memory.wf_writeBytes hu _ _
    · exact hu
  · simpa using hu

/-- A site that is final stays so while SKIP entries are taken, and each of them makes its own site final. -/
theorem takeEntries_skips (b : Block) : ∀ (l : List (SiteEntry × Nat)) (s : State), s.chain.block = some b →
    (∀ e ∈ l, e.1.action = .skip) →
    (∀ n : Site, s.isFinal n = true ∨ (∃ e ∈ l, e.1.site = n) → (l.foldl State.takeEntry s).isFinal n = true) ∧
      (∀ a, (∀ e ∈ l, outsideEntry b e.2 a) → (l.foldl State.takeEntry s).mem.read a = s.mem.read a) ∧
      sameBut [.sites, .mem] s (l.foldl State.takeEntry s)
  | [], s, _, _ => ⟨fun n h => by simpa using h, fun _ _ => rfl, fun p _ => by cases p <;> simp [Part.same]⟩
  | (e, k) :: l, s, hb, hskip => by
    have hhere : e.action = .skip := hskip (e, k) List.mem_cons_self
    obtain ⟨htaken, hothers, hbytes, hframe, -⟩ := takeEntry_moves s e k b hb
    have hchain : (s.takeEntry (e, k)).chain = s.chain := hframe .chain (by simp)
    obtain ⟨hfinal, hrest, hsame⟩ := takeEntries_skips b l (s.takeEntry (e, k)) (by rw [hchain, hb])
      fun f hf => hskip f (List.mem_cons_of_mem _ hf)
    have hown : (s.takeEntry (e, k)).isFinal e.site = true := by simpa [hhere] using htaken.isFinal
    refine ⟨fun n hn => hfinal n ?_, fun a ha => ?_, hframe.trans hsame⟩
    · by_cases hne : n = e.site
      · exact .inl (hne ▸ hown)
      · rcases hn with hn | ⟨f, hf, hfn⟩
        · refine .inl ?_
          unfold State.isFinal at hn ⊢
          rwa [hothers n hne]
        · rcases List.mem_cons.1 hf with rfl | hf
          · exact absurd hfn.symm hne
          · exact .inr ⟨f, hf, hfn⟩
    · rw [List.foldl_cons, hrest a fun f hf => ha f (List.mem_cons_of_mem _ hf),
        hbytes a fun _ => ha (e, k) List.mem_cons_self]

/-- The start of a TOUCHDOWN whose every entry is SKIP: every entry is final at once. -/
theorem startEntries_skips (s : State) (b : Block) (hskip : ∀ e ∈ es, e.action = .skip) :
    (s.startEntries b es).allFinal es = true ∧
      (∀ a, (∀ k, k < es.length → outsideEntry b k a) → (s.startEntries b es).mem.read a = s.mem.read a) ∧
      sameBut [.sites, .mem, .chain] s (s.startEntries b es) ∧
      (s.startEntries b es).chain =
        { s.chain with block := some { b with work := .touchdown es true false false } } := by
  obtain ⟨hfinal, hbytes, hsame⟩ := takeEntries_skips { b with work := .touchdown es true false false } es.zipIdx
    (s.setChain { s.chain with block := some { b with work := .touchdown es true false false } }) rfl
    fun e he => hskip e.1 (List.fst_mem_of_mem_zipIdx he)
  refine ⟨?_, fun a ha => hbytes a fun e he => ?_, ((setChain_same s _).mono (by simp)).trans (hsame.mono (by simp)),
    hsame .chain (by simp)⟩
  · simp only [State.allFinal, List.all_eq_true]
    intro e he
    obtain ⟨k, hk, rfl⟩ := List.getElem_of_mem he
    exact hfinal _ (.inr ⟨(es[k], k), by simp [List.mem_zipIdx_iff_getElem?, hk], rfl⟩)
  · obtain ⟨hlt, -⟩ := List.getElem?_eq_some_iff.1 (List.mem_zipIdx_iff_getElem?.1 he)
    exact ha e.2 hlt

/-- A rise starts a TOUCHDOWN with an entry that is no SKIP. -/
theorem contactRise_starts {released halted : Bool} (hc : s.contact = false) (hb : s.chain.block = some b)
    (hw : b.work = .touchdown es false released halted) (hn : (es.map SiteEntry.site).Nodup)
    (hother : ∃ e ∈ es, e.action ≠ .skip) : ∃ t, exec .contactRise s = .next t ∧ t.contact = true ∧
      entriesStart s t b es ∧
      t.chain = { s.chain with block := some { b with work := .touchdown es true false false } } ∧
      sameBut [.contact, .sites, .mem, .chain] s t := by
  obtain ⟨hstart, hframe, hchain⟩ := startEntries_start (s.setContact true) b es hn
  have hblock : ((s.setContact true).startEntries b es).chain.block =
      some { b with work := .touchdown es true false false } := by rw [hchain]
  have hstep : (s.setContact true).startWaiting = (s.setContact true).startEntries b es := by
    rw [startWaiting_starts (s := s.setContact true) hb hw, settleTouchdown_notFinal hblock rfl (hstart.allFinal_of_other hother)]
  rw [exec_contactRise hc, hstep]
  exact ⟨_, rfl, hframe .contact (by simp), hstart.of_agree rfl rfl, hchain,
    ((setContact_same s true).mono (by simp)).trans (hframe.mono (by simp))⟩

/-- A rise ends a TOUCHDOWN whose every entry is SKIP, and the unit waits at the linked block. -/
theorem contactRise_ends {released halted : Bool} (hc : s.contact = false) (hs : s.chain.state = .running)
    (hb : s.chain.block = some b) (hw : b.work = .touchdown es false released halted)
    (hskips : ∀ e ∈ es, e.action = .skip) (hwait : s.waitsAfter b tag)
    (hap : apart (s.linkOf b.offset) 2 (b.offset + 80) (48 * es.length)) : ∃ t, exec .contactRise s = .next t ∧
      t.contact = true ∧ (∀ n : Site, t.sites[n] = none) ∧ blockDoneWaiting s t b tag .ok ∧
      (∀ a, ¬(b.offset + 12 ≤ a ∧ a < b.offset + 14) → a ≠ b.offset + 16 →
        (∀ k, k < es.length → ¬(b.offset + 80 + 48 * k + 10 ≤ a ∧ a < b.offset + 80 + 48 * k + 48)) →
        t.mem.read a = s.mem.read a) ∧
      sameBut [.contact, .sites, .mem, .chain, .reg] s t := by
  obtain ⟨hfinal, hwritten, hframe, hchain⟩ := startEntries_skips (s.setContact true) b hskips
  have hwf := startEntries_wf (s := s.setContact true) hwait.memory b es
  have hescrow : ((s.setContact true).startEntries b es).escrow = s.escrow := hframe .escrow (by simp)
  have hreg : ((s.setContact true).startEntries b es).reg = s.reg := hframe .reg (by simp)
  have hbefore : sameBut [.contact, .sites, .mem, .chain, .reg] s ((s.setContact true).startEntries b es) :=
    ((setContact_same s true).mono (by simp)).trans (hframe.mono (by simp))
  have hcontact : ((s.setContact true).startEntries b es).contact = true := hframe .contact (by simp)
  have hdone := settleTouchdown_done (s := (s.setContact true).startEntries b es)
    (b := { b with work := .touchdown es true false false }) (by rw [hchain]; exact hs) (by rw [hchain]) rfl
    hfinal
  rw [exec_contactRise hc, startWaiting_starts (s := s.setContact true) hb hw, hdone]
  generalize (s.setContact true).startEntries b es = u at *
  have hout : ∀ a, a < b.offset + 80 ∨ b.offset + 80 + 48 * es.length ≤ a → u.mem.read a = s.mem.read a :=
    fun a ha => hwritten a fun k hk => by unfold outsideEntry; omega
  have hlink : u.linkOf b.offset = s.linkOf b.offset :=
    Memory.read32_congr fun x h1 h2 => hout x (by omega)
  have hwait' : u.leaveSites.waitsAfter { b with work := .touchdown es true false false } tag :=
    waitsAfter_of_agree (u := u.leaveSites) ⟨⟨⟨hwait.memory, hwait.aligned, hwait.inside, hwait.expected, hwait.tagRange⟩,
      hwait.link, hwait.notReady⟩, hwait.quiet⟩ hwf (by rw [show u.leaveSites.chain = u.chain from rfl, hchain]; rfl)
      hescrow hlink (Memory.read16_congr fun x h1 h2 => hout x (by unfold apart at hap; dsimp only at h1 h2; omega))
  obtain ⟨hends, hbytes, hsame⟩ := blockDone_waits .ok hwait'
  refine ⟨_, rfl, ?_, fun n => ?_, ⟨?_, hends.result, hends.doneTag, ?_⟩, fun a h1 h2 h3 => ?_, ?_⟩
  · exact Eq.trans (hsame .contact (by simp)) hcontact
  · have hsites : (State.blockDone _ _ _).sites = u.leaveSites.sites := hsame .sites (by simp)
    rw [hsites, leaveSites_none]
  · rw [hends.chain, show u.leaveSites.chain = u.chain from rfl, hchain]
    simp [show u.leaveSites.linkOf b.offset = u.linkOf b.offset from rfl, hlink]
  · rw [hends.events, show u.leaveSites.reg = u.reg from rfl, hreg]
  · rw [hbytes a h1 h2]
    exact hwritten a h3
  · exact hbefore.trans (((leaveSites_same u).mono (by simp)).trans (hsame.mono (by simp)))

/-- Settles O15: the level alone, the start of the entries, and the end of a block whose entries are all SKIP. -/
theorem contactRiseStartsTouchdown : Obligations.ContactRiseStartsTouchdown := by
  refine ⟨fun s hc => by simp [exec, execContactRise, hc], fun s hc h => ?_, fun b es released halted s hc hb hw hn hother =>
    contactRise_starts hc hb hw hn hother, fun b es released halted tag s hc hs hb hw hskips hwait hap =>
    contactRise_ends hc hs hb hw hskips hwait hap⟩
  rw [exec_contactRise hc, startWaiting_none (s := s.setContact true) h]
  exact ⟨_, rfl, rfl, setContact_same s true⟩

end Sys2Proof.Machine

/-! Intake (R9, R22, R108 to R110, R151, R157, R160): what the fields of an accepted WAFER_START, TOUCHDOWN and DUMP are,
and that every block with such fields is accepted. -/

namespace Sys2Proof.Machine

variable {m : Memory} {a b n : Nat}

/-! ### Lists that are read place by place -/

theorem mapM_eq_some_iff {α β : Type} {f : α → Option β} {l : List α} {ys : List β} :
    l.mapM f = some ys ↔ l.map f = ys.map some := by
  induction l generalizing ys with
  | nil => cases ys <;> simp
  | cons x l ih =>
    cases ys with
    | nil => simp [Option.bind_eq_some_iff]
    | cons y ys => simp [Option.bind_eq_some_iff, ih]

/-- The list read at places 0 to n − 1. -/
theorem mapM_range_eq_some_iff {β : Type} {f : Nat → Option β} {ys : List β} :
    (List.range n).mapM f = some ys ↔ ys.length = n ∧ ∀ k, ∀ h : k < ys.length, f k = some ys[k] := by
  rw [mapM_eq_some_iff]
  constructor
  · intro h
    have hlen : ys.length = n := by simpa using (congrArg List.length h).symm
    exact ⟨hlen, fun k hk => by simpa [hk, hlen ▸ hk] using congrArg (·[k]?) h⟩
  · rintro ⟨rfl, h⟩
    exact List.ext_getElem (by simp) fun k h1 h2 => by simpa using h k (by simpa using h2)

theorem exists_mapM_of_forall {α β : Type} {f : α → Option β} {l : List α} (h : ∀ x ∈ l, ∃ y, f x = some y) :
    ∃ ys, l.mapM f = some ys := by
  induction l with
  | nil => exact ⟨[], rfl⟩
  | cons x l ih =>
    obtain ⟨y, hy⟩ := h x List.mem_cons_self
    obtain ⟨ys, hys⟩ := ih fun z hz => h z (List.mem_cons_of_mem _ hz)
    exact ⟨y :: ys, by simp [hy, hys]⟩

/-- Places that all read well give a list. -/
theorem exists_mapM_range {β : Type} {f : Nat → Option β} (h : ∀ k, k < n → ∃ y, f k = some y) :
    ∃ ys, (List.range n).mapM f = some ys ∧ ys.length = n ∧ ∀ k, ∀ hk : k < ys.length, f k = some ys[k] := by
  obtain ⟨ys, hys⟩ := exists_mapM_of_forall (l := List.range n) fun k hk => h k (List.mem_range.1 hk)
  exact ⟨ys, hys, mapM_range_eq_some_iff.1 hys⟩

/-! ### Bytes of job memory -/

theorem Memory.readBytes_getElem {i : Nat} (h : i < (m.readBytes a n).length) : (m.readBytes a n)[i] = m.read (a + i) := by
  induction n generalizing a i with
  | zero => simp [Memory.readBytes] at h
  | succ n ih =>
    cases i with
    | zero => rfl
    | succ i =>
      simp only [Memory.readBytes, List.getElem_cons_succ, ih]
      rw [Nat.add_right_comm, Nat.add_assoc]

theorem Memory.mem_readBytes {x : Byte} : x ∈ m.readBytes a n ↔ ∃ i, i < n ∧ x = m.read (a + i) := by
  simp only [List.mem_iff_getElem, Memory.readBytes_getElem, Memory.readBytes_length, exists_prop, eq_comm]

theorem Memory.forall_mem_readBytes {p : Byte → Prop} : (∀ x ∈ m.readBytes a n, p x) ↔ ∀ i, i < n → p (m.read (a + i)) := by
  simp only [Memory.mem_readBytes]
  exact ⟨fun h i hi => h _ ⟨i, hi, rfl⟩, fun h x ⟨i, hi, hx⟩ => hx ▸ h i hi⟩

theorem Memory.nodup_readBytes (h : ∀ i j, i < j → j < n → m.read (a + i) ≠ m.read (a + j)) : (m.readBytes a n).Nodup := by
  rw [List.nodup_iff_pairwise_ne, List.pairwise_iff_getElem]
  intro i j hi hj hij
  simpa only [Memory.readBytes_getElem] using h i j hij (by simpa using hj)

theorem Memory.read16_lt (m : Memory) (a : Nat) : m.read16 a < 65536 := by
  have h0 := (m.read a).isLt
  have h1 := (m.read (a + 1)).isLt
  simp only [Memory.read16, Memory.readBytes, leNat]
  omega

/-! ### Windows and burn parameters (R9, R22) -/

theorem windowSize_iff {k : Nat} : [1, 2, 4, 8, 16, 32, 64, 128, 256, 512].contains k = true ↔ ∃ i, i ≤ 9 ∧ k = 2 ^ i := by
  have hlist : [1, 2, 4, 8, 16, 32, 64, 128, 256, 512] = (List.range 10).map (2 ^ ·) := by decide
  rw [hlist, List.contains_iff_mem]
  simp only [List.mem_map, List.mem_range]
  exact exists_congr fun i => and_congr (by omega) eq_comm

theorem Window.accepted_iff (w : Window) :
    w.accepted = true ↔ (∃ k, k ≤ 9 ∧ w.size = 2 ^ k) ∧ w.size ∣ w.base ∧ w.base ≤ 511 := by
  simp only [Window.accepted, Bool.and_eq_true, decide_eq_true_eq, windowSize_iff, and_assoc, Nat.dvd_iff_mod_eq_zero]

/-- A window that passes lies in the 512 rows (R9). -/
theorem Window.accepted_inside {w : Window} (h : w.accepted = true) : w.base + w.size ≤ 512 := by
  obtain ⟨⟨k, hk, hsize⟩, ⟨q, hq⟩, hbase⟩ := w.accepted_iff.1 h
  obtain ⟨r, hr⟩ : w.size ∣ 512 := hsize ▸ pow_dvd_pow 2 hk
  have hlt : w.size * q < w.size * r := by omega
  have hqr : w.size * (q + 1) ≤ w.size * r := Nat.mul_le_mul_left _ (Nat.lt_of_mul_lt_mul_left hlt)
  rw [Nat.mul_add] at hqr
  omega

theorem Profile.paramsAccepted_iff (p : Profile) : p.paramsAccepted = true ↔
    1 ≤ p.w0 ∧ p.w0 ≤ p.wmax ∧ p.wmax ≤ 4095 ∧ p.growth ≤ 15 ∧ 1 ≤ p.pmax ∧ p.pmax ≤ 15 ∧ 1 ≤ p.cmax ∧
      p.cmax ≤ 65535 ∧ p.tb < p.tu ∧ p.tu ≤ 1023 ∧ p.spareCount ≤ 8 := by
  simp only [Profile.paramsAccepted, Bool.and_eq_true, decide_eq_true_eq, and_assoc]

theorem Profile.accepted_iff (p : Profile) : p.accepted = true ↔
    p.paramsAccepted = true ∧ (∀ w ∈ p.windows, w.accepted = true) ∧ 1 ≤ p.windows.length ∧ p.windows.length ≤ 8 := by
  simp only [Profile.accepted, Bool.and_eq_true, decide_eq_true_eq, List.all_eq_true, and_assoc]

/-! ### The character table and the composition steps (R108, R110) -/

theorem tableAccepted_iff (t : List Byte) :
    tableAccepted t = true ↔ (∀ c ∈ t, 0x20 ≤ c.toNat ∧ c.toNat ≤ 0x7E) ∧ t.Nodup := by
  simp only [tableAccepted, Bool.and_eq_true, decide_eq_true_eq, List.all_eq_true]

/-- A step's arguments are in range (R110). -/
def CompStep.inRange (st : CompStep) : Prop :=
  (∀ n, st = .lot n → 1 ≤ n ∧ n ≤ 12) ∧ (∀ n, st = .skip n → 1 ≤ n ∧ n ≤ 12) ∧
    ∀ f n, st = .num f n → 1 ≤ n ∧ n ≤ 4

theorem stepOfBytes_inRange {kind arg wid : Byte} {st : CompStep} (h : stepOfBytes kind arg wid = some st) :
    st.inRange := by
  unfold stepOfBytes at h
  split at h
  · split at h
    · cases h
      simpa [CompStep.inRange]
    · cases h
  · split at h
    · cases h
      simpa [CompStep.inRange]
    · cases h
  · cases h
    simp [CompStep.inRange]
  · cases h
    simp [CompStep.inRange]
  · split at h
    · obtain ⟨f, -, rfl⟩ := Option.map_eq_some_iff.1 h
      simpa [CompStep.inRange]
    · cases h
  · cases h

/-- The bytes of a step that is not malformed (R110). -/
def stepBytesOk (kind arg wid : Byte) : Prop :=
  (kind = 1 ∨ kind = 2) ∧ 1 ≤ arg.toNat ∧ arg.toNat ≤ 12 ∨ (kind = 3 ∨ kind = 4) ∨
    kind = 5 ∧ arg.toNat ≤ 3 ∧ 1 ≤ wid.toNat ∧ wid.toNat ≤ 4

theorem numFieldOfCode_isSome {k : Nat} (h : k ≤ 3) : ∃ f, numFieldOfCode k = some f := by
  obtain rfl | rfl | rfl | rfl : k = 0 ∨ k = 1 ∨ k = 2 ∨ k = 3 := by omega
  all_goals exact ⟨_, rfl⟩

theorem stepOfBytes_isSome {kind arg wid : Byte} (h : stepBytesOk kind arg wid) : ∃ st, stepOfBytes kind arg wid = some st := by
  rcases h with ⟨rfl | rfl, harg⟩ | (rfl | rfl) | ⟨rfl, harg, hwid⟩
  · exact ⟨.lot arg.toNat, by simp [stepOfBytes, harg]⟩
  · exact ⟨.skip arg.toNat, by simp [stepOfBytes, harg]⟩
  · exact ⟨.lit arg, by simp [stepOfBytes]⟩
  · exact ⟨.supp arg, by simp [stepOfBytes]⟩
  · obtain ⟨f, hf⟩ := numFieldOfCode_isSome harg
    exact ⟨.num f wid.toNat, by simp [stepOfBytes, hwid, hf]⟩

theorem readSteps_inRange {left : Nat} {steps : List CompStep} (h : readSteps m a left = some steps) :
    steps.length ≤ left ∧ ∀ st ∈ steps, st.inRange := by
  induction left generalizing a steps with
  | zero => cases h; simp
  | succ left ih =>
    unfold readSteps at h
    split at h
    · cases h
      simp
    · split at h
      · rename_i st rest hst hrest
        cases h
        obtain ⟨hlen, hall⟩ := ih hrest
        refine ⟨Nat.succ_le_succ hlen, fun x hx => ?_⟩
        rcases List.mem_cons.1 hx with rfl | hx
        · exact stepOfBytes_inRange hst
        · exact hall x hx
      · cases h

/-- Steps that are well formed up to the first END are read. -/
theorem readSteps_isSome {left : Nat}
    (h : ∀ i, i < left → (∀ j, j ≤ i → m.read (a + 4 * j) ≠ 0) →
      stepBytesOk (m.read (a + 4 * i)) (m.read (a + 4 * i + 1)) (m.read (a + 4 * i + 2))) :
    ∃ steps, readSteps m a left = some steps := by
  induction left generalizing a with
  | zero => exact ⟨[], rfl⟩
  | succ left ih =>
    unfold readSteps
    split
    · exact ⟨[], rfl⟩
    · rename_i hne
      obtain ⟨st, hst⟩ := stepOfBytes_isSome
        (h 0 (Nat.succ_pos _) fun j hj => by simpa [Nat.le_zero.1 hj] using hne)
      obtain ⟨rest, hrest⟩ := ih (a := a + 4) fun i hi hall => by
        have hstep := h (i + 1) (Nat.succ_lt_succ hi) fun j hj => by
          cases j with
          | zero => simpa using hne
          | succ j =>
            rw [show a + 4 * (j + 1) = a + 4 + 4 * j by omega]
            exact hall j (Nat.le_of_succ_le_succ hj)
        rwa [show a + 4 * (i + 1) = a + 4 + 4 * i by omega] at hstep
      simp only [Nat.mul_zero, Nat.add_zero] at hst
      exact ⟨st :: rest, by simp only [hst, hrest]⟩

/-! ### WAFER_START (R157) -/

theorem readWaferStart_ok {w : WaferContext} (h : readWaferStart m b = .ok w) :
    w.profile.accepted = true ∧ w.table = m.readBytes (b + 96) 64 ∧ tableAccepted w.table = true ∧
      w.lot = m.readBytes (b + 72) (m.read (b + 64)).toNat ∧ 1 ≤ (m.read (b + 64)).toNat ∧
      (m.read (b + 64)).toNat ≤ 12 ∧ w.lot.all w.table.contains = true ∧ readSteps m (b + 160) 16 = some w.steps := by
  unfold readWaferStart at h
  dsimp only at h
  split at h
  · cases h
  split at h
  · cases h
  split at h
  · cases h
  rename_i haccepted
  split at h
  · cases h
  rename_i htable
  split at h
  · cases h
  rename_i hlot
  split at h
  · cases h
  rename_i steps hsteps
  cases h
  simp only [not_or, Bool.not_eq_true', Bool.not_eq_false, Nat.not_lt] at hlot haccepted htable
  obtain ⟨hpos, hmax, hall⟩ := hlot
  exact ⟨haccepted, rfl, htable, rfl, Nat.pos_of_ne_zero hpos, hmax, hall, hsteps⟩

/-- What a WAFER_START that is accepted holds. -/
theorem readWaferStart_sound {w : WaferContext} (h : readWaferStart m b = .ok w) :
    (1 ≤ w.profile.w0 ∧ w.profile.w0 ≤ w.profile.wmax ∧ w.profile.wmax ≤ 4095 ∧ w.profile.growth ≤ 15 ∧
       1 ≤ w.profile.pmax ∧ w.profile.pmax ≤ 15 ∧ 1 ≤ w.profile.cmax ∧ w.profile.cmax ≤ 65535 ∧
       w.profile.tb < w.profile.tu ∧ w.profile.tu ≤ 1023 ∧ w.profile.spareCount ≤ 8) ∧
     (1 ≤ w.profile.windows.length ∧ w.profile.windows.length ≤ 8 ∧
       ∀ x ∈ w.profile.windows, (∃ k, k ≤ 9 ∧ x.size = 2 ^ k) ∧ x.size ∣ x.base ∧ x.base + x.size ≤ 512) ∧
     (w.table.length = 64 ∧ w.table.Nodup ∧ ∀ c ∈ w.table, 0x20 ≤ c.toNat ∧ c.toNat ≤ 0x7E) ∧
     (1 ≤ w.lot.length ∧ w.lot.length ≤ 12 ∧ ∀ c ∈ w.lot, c ∈ w.table) ∧
     w.steps.length ≤ 16 ∧ ∀ st ∈ w.steps, st.inRange := by
  obtain ⟨haccepted, htable, hchars, hlot, hpos, hmax, hall, hsteps⟩ := readWaferStart_ok h
  obtain ⟨hparams, hwindows, hone, height⟩ := w.profile.accepted_iff.1 haccepted
  obtain ⟨hprint, hnodup⟩ := (tableAccepted_iff _).1 hchars
  have hlen : w.lot.length = (m.read (b + 64)).toNat := by rw [hlot, Memory.readBytes_length]
  refine ⟨w.profile.paramsAccepted_iff.1 hparams, ⟨hone, height, fun x hx => ?_⟩,
    ⟨by rw [htable, Memory.readBytes_length], hnodup, hprint⟩, ⟨hlen ▸ hpos, hlen ▸ hmax, fun c hc => ?_⟩,
    readSteps_inRange hsteps⟩
  · obtain ⟨hsize, hdvd, -⟩ := x.accepted_iff.1 (hwindows x hx)
    exact ⟨hsize, hdvd, Window.accepted_inside (hwindows x hx)⟩
  · simpa using List.all_eq_true.1 hall c hc

theorem accessOfCode_isSome {k : Nat} (h : k ≤ 2) : ∃ acc, accessOfCode k = some acc := by
  obtain rfl | rfl | rfl : k = 0 ∨ k = 1 ∨ k = 2 := by omega
  all_goals exact ⟨_, rfl⟩

/-- The fields of window j of the profile at `a` pass (R9). -/
def windowBytesOk (m : Memory) (a j : Nat) : Prop :=
  (m.read (a + 32 + 8 * j + 4)).toNat ≤ 2 ∧ (∃ k, k ≤ 9 ∧ m.read16 (a + 32 + 8 * j + 2) = 2 ^ k) ∧
    m.read16 (a + 32 + 8 * j + 2) ∣ m.read16 (a + 32 + 8 * j) ∧ m.read16 (a + 32 + 8 * j) ≤ 511

theorem readWindow_accepted {j : Nat} (h : windowBytesOk m a j) : ∃ w, readWindow m a j = some w ∧ w.accepted = true := by
  obtain ⟨haccess, hsize, hdvd, hbase⟩ := h
  obtain ⟨acc, hacc⟩ := accessOfCode_isSome haccess
  refine ⟨_, by rw [readWindow, hacc]; rfl, ?_⟩
  exact (Window.accepted_iff _).2 ⟨hsize, hdvd, hbase⟩

/-- A profile whose window count and windows pass is read, and accepted if its parameters are (R9, R22). -/
theorem readProfile_accepted {i : Nat} (h1 : 1 ≤ (m.read (64 + 256 * i + 18)).toNat)
    (h8 : (m.read (64 + 256 * i + 18)).toNat ≤ 8)
    (hwin : ∀ j, j < (m.read (64 + 256 * i + 18)).toNat → windowBytesOk m (64 + 256 * i) j) :
    ∃ p, readProfile m i = some p ∧ (p.paramsAccepted = true → p.accepted = true) ∧
      p.w0 = m.read16 (64 + 256 * i) ∧ p.wmax = m.read16 (64 + 256 * i + 2) ∧ p.cmax = m.read16 (64 + 256 * i + 4) ∧
      p.tb = m.read16 (64 + 256 * i + 6) ∧ p.tu = m.read16 (64 + 256 * i + 8) ∧
      p.growth = (m.read (64 + 256 * i + 12)).toNat ∧ p.pmax = (m.read (64 + 256 * i + 13)).toNat ∧
      p.spareCount = (m.read (64 + 256 * i + 17)).toNat := by
  obtain ⟨ws, hws, hlen, hget⟩ := exists_mapM_range (f := readWindow m (64 + 256 * i)) fun j hj =>
    (readWindow_accepted (hwin j hj)).imp fun _ h => h.1
  refine ⟨_, by rw [readProfile]; simp only [h1, h8, and_self, if_true, hws, Option.map_some]; rfl, fun hp => ?_,
    rfl, rfl, rfl, rfl, rfl, rfl, rfl, rfl⟩
  refine (Profile.accepted_iff _).2 ⟨hp, fun w hw => ?_, hlen ▸ h1, hlen ▸ h8⟩
  obtain ⟨j, hj, rfl⟩ := List.getElem_of_mem hw
  obtain ⟨w, hread, hok⟩ := readWindow_accepted (hwin j (hlen ▸ hj))
  rw [hget j hj] at hread
  cases hread
  exact hok

/-! ### TOUCHDOWN (R151) -/

/-- The entry read at a place: its fields and their ranges. -/
theorem readEntry_some {e : SiteEntry} (h : readEntry m a = some e) :
    (e.site.val = (m.read a).toNat ∧ e.arb = (m.read (a + 3)).toNat ∧ e.die = ⟨m.read16 (a + 4), m.read16 (a + 6)⟩ ∧
      e.expected = BitVec.ofNat 16 (m.read16 (a + 8))) ∧
    e.die.x ≤ 1023 ∧ e.die.y ≤ 1023 ∧ e.arb ≤ 63 ∧ (e.action = .provision → e.arb ≠ 0) := by
  unfold readEntry at h
  dsimp only at h
  split at h
  · split at h
    · split at h
      · rename_i hranges
        cases h
        obtain ⟨harb, hx, hy, hprov⟩ := hranges
        exact ⟨⟨rfl, rfl, rfl, rfl⟩, hx, hy, harb, hprov⟩
      · cases h
    · cases h
  · cases h

/-- The fields of a site entry are in their ranges (R151). -/
def entryBytesOk (m : Memory) (a : Nat) : Prop :=
  (m.read a).toNat ≤ 23 ∧ 1 ≤ (m.read (a + 1)).toNat ∧ (m.read (a + 1)).toNat ≤ 4 ∧ (m.read (a + 2)).toNat ≤ 2 ∧
    (m.read (a + 3)).toNat ≤ 63 ∧ m.read16 (a + 4) ≤ 1023 ∧ m.read16 (a + 6) ≤ 1023 ∧
    (m.read (a + 1) = 1 → m.read (a + 3) ≠ 0)

theorem actionOfCode_isSome {k : Nat} (h1 : 1 ≤ k) (h4 : k ≤ 4) :
    ∃ act, actionOfCode k = some act ∧ (act = .provision → k = 1) := by
  obtain rfl | rfl | rfl | rfl : k = 1 ∨ k = 2 ∨ k = 3 ∨ k = 4 := by omega
  all_goals exact ⟨_, rfl, by simp⟩

theorem lanesOfCode_isSome {k : Nat} (h : k ≤ 2) : ∃ lanes, lanesOfCode k = some lanes := by
  obtain rfl | rfl | rfl : k = 0 ∨ k = 1 ∨ k = 2 := by omega
  all_goals exact ⟨_, rfl⟩

theorem readEntry_isSome (h : entryBytesOk m a) : ∃ e, readEntry m a = some e := by
  obtain ⟨hsite, hact1, hact4, hlanes, harb, hx, hy, hprov⟩ := h
  obtain ⟨act, hact, hone⟩ := actionOfCode_isSome hact1 hact4
  obtain ⟨lanes, hlane⟩ := lanesOfCode_isSome hlanes
  have hnot : act = .provision → (m.read (a + 3)).toNat ≠ 0 := fun he h0 =>
    hprov (BitVec.eq_of_toNat_eq (hone he)) (BitVec.eq_of_toNat_eq h0)
  simp only [readEntry, hact, hlane, dif_pos (Nat.lt_succ_of_le hsite)]
  exact ⟨_, if_pos ⟨harb, hx, hy, hnot⟩⟩

theorem entriesDistinct_iff (es : List SiteEntry) : entriesDistinct es = true ↔
    (es.map SiteEntry.site).Nodup ∧ (es.map SiteEntry.die).Nodup ∧ (es.map SiteEntry.arb).Nodup := by
  simp only [entriesDistinct, Bool.and_eq_true, decide_eq_true_eq, and_assoc]

/-- A TOUCHDOWN body that passes validation: the count, the place, the entries read and their distinctness. -/
theorem readTouchdown_eq_some_iff {es : List SiteEntry} : readTouchdown m b = some es ↔
    (1 ≤ (m.read (b + 64)).toNat ∧ (m.read (b + 64)).toNat ≤ 24 ∧
      b + 80 + 48 * (m.read (b + 64)).toNat ≤ jobMemorySize) ∧
    ((List.range (m.read (b + 64)).toNat).mapM fun e => readEntry m (b + 80 + 48 * e)) = some es ∧
    entriesDistinct es = true := by
  unfold readTouchdown
  dsimp only
  by_cases hcount : 1 ≤ (m.read (b + 64)).toNat ∧ (m.read (b + 64)).toNat ≤ 24 ∧
      b + 80 + 48 * (m.read (b + 64)).toNat ≤ jobMemorySize
  · rw [if_pos hcount]
    cases h : (List.range (m.read (b + 64)).toNat).mapM fun e => readEntry m (b + 80 + 48 * e) with
    | none => simp
    | some l =>
      by_cases hd : entriesDistinct l = true
      · simp only [hd, if_true, hcount, true_and, Option.some.injEq]
        exact ⟨fun h => ⟨h, h ▸ hd⟩, fun h => h.1⟩
      · simp only [if_neg hd, hcount, true_and, Option.some.injEq, reduceCtorEq, false_iff]
        rintro ⟨rfl, h⟩
        exact hd h
  · simp [hcount]

/-- A list has no key twice when every later place has another key. -/
theorem nodup_map_of_lt {α β : Type} {f : α → β} {l : List α}
    (h : ∀ i j, ∀ hi : i < l.length, ∀ hj : j < l.length, i < j → f l[i] ≠ f l[j]) : (l.map f).Nodup := by
  rw [List.nodup_iff_pairwise_ne, List.pairwise_map, List.pairwise_iff_getElem]
  exact h

theorem readTouchdown_sound {es : List SiteEntry} (h : readTouchdown m b = some es) :
    1 ≤ es.length ∧ es.length ≤ 24 ∧ b + 80 + 48 * es.length ≤ jobMemorySize ∧
      (es.map SiteEntry.site).Nodup ∧ (es.map SiteEntry.die).Nodup ∧ (es.map SiteEntry.arb).Nodup ∧
      ∀ e ∈ es, e.die.x ≤ 1023 ∧ e.die.y ≤ 1023 ∧ e.arb ≤ 63 ∧ (e.action = .provision → e.arb ≠ 0) := by
  obtain ⟨⟨hone, hmax, hin⟩, hread, hdistinct⟩ := readTouchdown_eq_some_iff.1 h
  obtain ⟨hlen, hget⟩ := mapM_range_eq_some_iff.1 hread
  obtain ⟨hsite, hdie, harb⟩ := (entriesDistinct_iff es).1 hdistinct
  refine ⟨hlen ▸ hone, hlen ▸ hmax, hlen ▸ hin, hsite, hdie, harb, fun e he => ?_⟩
  obtain ⟨k, hk, rfl⟩ := List.getElem_of_mem he
  exact (readEntry_some (hget k hk)).2

/-- Two entry places differ in site, in arbitration number and in a coordinate of the die (R151). -/
def entriesApart (m : Memory) (a d : Nat) : Prop :=
  m.read a ≠ m.read d ∧ m.read (a + 3) ≠ m.read (d + 3) ∧
    (m.read16 (a + 4) ≠ m.read16 (d + 4) ∨ m.read16 (a + 6) ≠ m.read16 (d + 6))

/-- Entries read at places that differ are distinct. -/
theorem entriesDistinct_of_apart {es : List SiteEntry}
    (hget : ∀ k, ∀ hk : k < es.length, readEntry m (b + 80 + 48 * k) = some es[k])
    (h : ∀ k l, k < l → l < es.length → entriesApart m (b + 80 + 48 * k) (b + 80 + 48 * l)) :
    entriesDistinct es = true := by
  rw [entriesDistinct_iff]
  refine ⟨nodup_map_of_lt fun i j hi hj hij heq => ?_, nodup_map_of_lt fun i j hi hj hij heq => ?_,
    nodup_map_of_lt fun i j hi hj hij heq => ?_⟩ <;>
  · obtain ⟨⟨hsi, hai, hdi, -⟩, -⟩ := readEntry_some (hget i hi)
    obtain ⟨⟨hsj, haj, hdj, -⟩, -⟩ := readEntry_some (hget j hj)
    obtain ⟨hs, ha, hd⟩ := h i j hij hj
    simp_all [BitVec.toNat_inj]

theorem readTouchdown_complete (hone : 1 ≤ (m.read (b + 64)).toNat) (hmax : (m.read (b + 64)).toNat ≤ 24)
    (hin : b + 80 + 48 * (m.read (b + 64)).toNat ≤ jobMemorySize)
    (hok : ∀ k, k < (m.read (b + 64)).toNat → entryBytesOk m (b + 80 + 48 * k))
    (hapart : ∀ k l, k < l → l < (m.read (b + 64)).toNat → entriesApart m (b + 80 + 48 * k) (b + 80 + 48 * l)) :
    ∃ es, readTouchdown m b = some es ∧ es.length = (m.read (b + 64)).toNat ∧
      ∀ k, ∀ h : k < es.length, readEntry m (b + 80 + 48 * k) = some es[k] := by
  obtain ⟨es, hread, hlen, hget⟩ := exists_mapM_range (f := fun e => readEntry m (b + 80 + 48 * e))
    fun k hk => readEntry_isSome (hok k hk)
  refine ⟨es, readTouchdown_eq_some_iff.2 ⟨⟨hone, hmax, hin⟩, hread, ?_⟩, hlen, hget⟩
  exact entriesDistinct_of_apart hget fun k l hkl hl => hapart k l hkl (hlen ▸ hl)

/-! ### DUMP (R160) -/

theorem dumpAccepted_iff {offset buffer capacity : Nat} (hin : offset + 88 ≤ jobMemorySize) :
    dumpAccepted offset buffer capacity = true ↔ buffer % 64 = 0 ∧ 1088 ≤ buffer ∧
      buffer + capacity ≤ jobMemorySize ∧ (0 < capacity → apart buffer capacity offset 88) := by
  simp only [dumpAccepted, apart, hin, decide_true, Bool.true_and, Bool.and_eq_true, Bool.not_eq_true',
    decide_eq_true_eq, Bool.and_eq_false_iff, decide_eq_false_iff_not, and_assoc]
  exact and_congr_right fun _ => and_congr_right fun _ => and_congr_right fun _ => by omega

/-- The dump request of a DUMP block that passes joins the die table unit's queue, and the block stays in hand. -/
theorem takeBlock_dump_accepted {s : State} {offset : Nat} (hkind : s.mem.read (offset + 4) = 6)
    (h : dumpAccepted offset (s.mem.read32 (offset + 64)) (s.mem.read32 (offset + 68)) = true) :
    s.takeBlock offset =
      (((s.taking offset).holdBlock { readBlock s.mem offset with work := .dump }).queueTable
        (.dump (s.mem.read32 (offset + 64)) (s.mem.read32 (offset + 68))), none) := by
  rw [takeBlock_dump hkind]
  simp [State.takeDump, h]

theorem takeBlock_dump_refused {s : State} {offset : Nat} (hkind : s.mem.read (offset + 4) = 6)
    (h : dumpAccepted offset (s.mem.read32 (offset + 64)) (s.mem.read32 (offset + 68)) ≠ true) :
    (s.takeBlock offset).2 = some .blockInvalid := by
  rw [takeBlock_dump hkind]
  simp [State.takeDump, h]

/-- Settles O13: each reader's conditions in both directions, and the dump's checks. -/
theorem intakeValidates : Obligations.IntakeValidates := by
  refine ⟨fun m b w h => readWaferStart_sound h, fun m b es h => readTouchdown_sound h, ?_, ?_, ?_⟩
  · intro m b a count lot hindex hdry hin hw0 hwmax hwtop hgrowth hpmax1 hpmax hcmax htb htu hspares hcount1 hcount
      hwin hprint hdiff hlot1 hlot hchars hsteps
    obtain ⟨p, hread, haccepted, ew0, ewmax, ecmax, etb, etu, egrowth, epmax, espares⟩ :=
      readProfile_accepted (m := m) (i := (m.read (b + 65)).toNat) hcount1 hcount hwin
    have hp : p.accepted = true := haccepted <| p.paramsAccepted_iff.2 <| by
      rw [ew0, ewmax, ecmax, etb, etu, egrowth, epmax, espares]
      exact ⟨hw0, hwmax, hwtop, hgrowth, hpmax1, hpmax, hcmax, Nat.le_of_lt_succ (m.read16_lt _), htb, htu, hspares⟩
    have htable : tableAccepted (m.readBytes (b + 96) 64) = true :=
      (tableAccepted_iff _).2 ⟨Memory.forall_mem_readBytes.2 hprint, Memory.nodup_readBytes hdiff⟩
    have hall : (m.readBytes (b + 72) lot).all (m.readBytes (b + 96) 64).contains = true := by
      simp only [List.all_eq_true, List.contains_iff_mem]
      exact Memory.forall_mem_readBytes.2 fun i hi => Memory.mem_readBytes.2 (hchars i hi)
    obtain ⟨steps, hread'⟩ := readSteps_isSome (m := m) (a := b + 160) (left := 16) hsteps
    have hhead : ¬(3 < (m.read (b + 65)).toNat ∨ 1 < (m.read (b + 66)).toNat ∨ jobMemorySize < b + 224) := by omega
    have hlots : ¬(lot = 0 ∨ 12 < lot ∨ (!(m.readBytes (b + 72) lot).all (m.readBytes (b + 96) 64).contains) = true) := by
      rw [hall]
      simp only [Bool.not_true, Bool.false_eq_true, or_false]
      omega
    refine ⟨_, by
      simp only [readWaferStart, if_neg hhead, hread, hp, htable, Bool.not_true, Bool.false_eq_true, if_false]
      rw [if_neg hlots, hread'], rfl, rfl, rfl, rfl, ?_⟩
    simp only [decide_eq_true_eq]
    exact ⟨fun h => BitVec.eq_of_toNat_eq h, fun h => by rw [h]; rfl⟩
  · intro m b count hone hmax hin hok hapart
    obtain ⟨es, hread, hlen, hget⟩ := readTouchdown_complete hone hmax hin hok hapart
    refine ⟨es, hread, hlen, fun k hk => ?_⟩
    obtain ⟨⟨hsite, harb, hdie, hexp⟩, -⟩ := readEntry_some (hget k hk)
    refine ⟨hsite, harb, hdie, ?_⟩
    rw [hexp, BitVec.toNat_ofNat]
    exact Nat.mod_eq_of_lt (m.read16_lt _)
  · intro offset s hkind hin buffer capacity
    rw [← dumpAccepted_iff hin]
    refine ⟨fun h => ⟨_, takeBlock_dump_accepted hkind h, rfl, ⟨_, rfl, rfl, rfl, rfl⟩, fun p hp => ?_⟩,
      takeBlock_dump_refused hkind⟩
    cases p <;> simp_all [Part.same, State.holdBlock, State.taking]

end Sys2Proof.Machine

/-! The sweep over the site engines by which a release or a halt reaches them (R79, R81, R153, R154): what the visits of
some sites leave of the rest of the board, in whatever order they come (log 10). -/

namespace Sys2Proof.Machine

variable {s t u : State} {n : Site} {S S' : Site → Prop} {c d : SiteCtx}

/-- From `s` to `t` only sites of `S` were visited: no other site changed, each entry kept its number, and of the shared
queues only what those sites asked for was withdrawn, nothing that a site could withdraw was added. -/
structure sitesVisited (S : Site → Prop) (s t : State) : Prop where
  others : ∀ m : Site, ¬S m → t.sites[m] = s.sites[m]
  index : ∀ m : Site, t.sites[m].map SiteCtx.index = s.sites[m].map SiteCtx.index
  frame : sameBut [.sites, .mem, .keys, .comp, .dies, .escrow, .waiting] s t
  records : ∀ r ∈ s.escrow.queue, r ∈ t.escrow.queue
  requests : ∀ r ∈ s.dies.queue, (∀ m, S m → r.withdrawn m = false) → r ∈ t.dies.queue
  asked : ∀ r ∈ t.dies.queue, r ∈ s.dies.queue ∨ ∀ m, r.withdrawn m = false
  comp : ∀ r ∈ t.comp, r ∈ s.comp
  keyQueue : ∀ r ∈ t.keys.queue, r ∈ s.keys.queue
  keyHead : ∀ r rest, s.keys.queue = r :: rest → ¬S r.site → ∃ rest', t.keys.queue = r :: rest'
  next : t.keys.next = s.keys.next
  abandoned : s.keys.derivation = none → t.keys.derivation = none
  waiting : ∀ r ∈ t.waiting, r ∈ s.waiting
  bytes : ∀ b a, s.chain.block = some b → (∀ m x, S m → s.sites[m] = some x → outsideEntry b x.index a) →
    t.mem.read a = s.mem.read a
  wf : s.mem.wf = true → t.mem.wf = true

/-! ### Visits one after the other -/

theorem sitesVisited.refl (S : Site → Prop) (s : State) : sitesVisited S s s where
  others _ _ := rfl
  index _ := rfl
  frame p _ := by cases p <;> simp [Part.same]
  records _ hr := hr
  requests _ hr _ := hr
  asked _ hr := .inl hr
  comp _ hr := hr
  keyQueue _ hr := hr
  keyHead _ rest h _ := ⟨rest, h⟩
  next := rfl
  abandoned h := h
  waiting _ hr := hr
  bytes _ _ _ _ := rfl
  wf h := h

theorem sitesVisited.chain (h : sitesVisited S s t) : t.chain = s.chain := h.frame .chain (by simp)

theorem sitesVisited.mono (h : sitesVisited S s t) (hs : ∀ m, S m → S' m) : sitesVisited S' s t where
  others m hm := h.others m fun hin => hm (hs m hin)
  index := h.index
  frame := h.frame
  records := h.records
  requests r hr hw := h.requests r hr fun m hm => hw m (hs m hm)
  asked := h.asked
  comp := h.comp
  keyQueue := h.keyQueue
  keyHead r rest hq hr := h.keyHead r rest hq fun hin => hr (hs _ hin)
  next := h.next
  abandoned := h.abandoned
  waiting := h.waiting
  bytes b a hb ha := h.bytes b a hb fun m x hm hx => ha m x (hs m hm) hx
  wf := h.wf

/-- A site that is visited was there before, with the same entry. -/
theorem sitesVisited.before {x : SiteCtx} {m : Site} (h : sitesVisited S s t) (hx : t.sites[m] = some x) :
    ∃ y, s.sites[m] = some y ∧ y.index = x.index := by
  have hindex := h.index m
  rw [hx] at hindex
  exact Option.map_eq_some_iff.1 hindex.symm

theorem sitesVisited.trans (h : sitesVisited S s t) (h' : sitesVisited S t u) : sitesVisited S s u where
  others m hm := (h'.others m hm).trans (h.others m hm)
  index m := (h'.index m).trans (h.index m)
  frame := h.frame.trans h'.frame
  records r hr := h'.records r (h.records r hr)
  requests r hr hw := h'.requests r (h.requests r hr hw) hw
  asked r hr := (h'.asked r hr).elim (h.asked r) .inr
  comp r hr := h.comp r (h'.comp r hr)
  keyQueue r hr := h.keyQueue r (h'.keyQueue r hr)
  keyHead r rest hq hr := by
    obtain ⟨rest', hq'⟩ := h.keyHead r rest hq hr
    exact h'.keyHead r rest' hq' hr
  next := h'.next.trans h.next
  abandoned hd := h'.abandoned (h.abandoned hd)
  waiting r hr := h.waiting r (h'.waiting r hr)
  bytes b a hb ha := by
    rw [h'.bytes b a (by rw [h.chain, hb]) fun m x hm hx => ?_, h.bytes b a hb ha]
    obtain ⟨y, hy, hyx⟩ := h.before hx
    exact hyx ▸ ha m y hm hy
  wf hwf := h'.wf (h.wf hwf)

/-- Visits of the sites of a list, one after the other. -/
theorem foldl_visits {f : State → Site → State} (hf : ∀ s n, sitesVisited (· = n) s (f s n)) :
    ∀ (l : List Site) (s : State), sitesVisited (· ∈ l) s (l.foldl f s)
  | [], s => .refl _ s
  | n :: l, s => by
    have hrest := foldl_visits hf l (f s n)
    exact ((hf s n).mono fun m hm => hm ▸ List.mem_cons_self).trans
      (hrest.mono fun m hm => List.mem_cons_of_mem _ hm)

/-- A sweep that reaches every site once splits at each site: the visits before its own leave it as it is, and so do
those after. -/
theorem sweep_at {f : State → Site → State} (hf : ∀ s n, sitesVisited (· = n) s (f s n)) (l : List Site)
    (hnodup : l.Nodup) (hmem : n ∈ l) (s : State) :
    ∃ u, sitesVisited (· ≠ n) s u ∧ sitesVisited (· ≠ n) (f u n) (l.foldl f s) := by
  obtain ⟨l₁, l₂, rfl⟩ := List.append_of_mem hmem
  have hapart : n ∉ l₁ ∧ n ∉ l₂ := by
    rw [List.nodup_middle, List.nodup_cons, List.mem_append, not_or] at hnodup
    exact hnodup.1
  refine ⟨l₁.foldl f s, (foldl_visits hf l₁ s).mono fun m hm => ?_, ?_⟩
  · rintro rfl
    exact hapart.1 hm
  · rw [List.foldl_append, List.foldl_cons]
    refine (foldl_visits hf l₂ _).mono fun m hm => ?_
    rintro rfl
    exact hapart.2 hm

/-! ### The operations of a visit -/

theorem setSite_visits (hc : s.sites[n] = some c) (hd : d.index = c.index) : sitesVisited (· = n) s (s.setSite n d) where
  others m hm := by rw [setSite_get, if_neg hm]
  index m := by
    rw [setSite_get]
    split
    · subst m
      simp [hc, hd]
    · rfl
  frame p hp := by cases p <;> simp_all [Part.same]
  records r hr := by simpa using hr
  requests r hr _ := by simpa using hr
  asked r hr := .inl (by simpa using hr)
  comp r hr := by simpa using hr
  keyQueue r hr := by simpa using hr
  keyHead r rest hq _ := ⟨rest, by simpa using hq⟩
  next := by simp
  abandoned hn := by simpa using hn
  waiting r hr := by simpa using hr
  bytes b a _ _ := by simp
  wf hwf := by simpa using hwf

/-- Changes of the queues alone. -/
theorem queues_visited (hsites : u.sites = s.sites) (hmem : u.mem = s.mem)
    (hframe : sameBut [.sites, .mem, .keys, .comp, .dies, .escrow, .waiting] s u)
    (hrecords : ∀ r ∈ s.escrow.queue, r ∈ u.escrow.queue)
    (hrequests : ∀ r ∈ s.dies.queue, (∀ m, S m → r.withdrawn m = false) → r ∈ u.dies.queue)
    (hasked : ∀ r ∈ u.dies.queue, r ∈ s.dies.queue ∨ ∀ m, r.withdrawn m = false)
    (hcomp : ∀ r ∈ u.comp, r ∈ s.comp) (hkeys : u.keys = s.keys) (hwaiting : ∀ r ∈ u.waiting, r ∈ s.waiting) :
    sitesVisited S s u where
  others m _ := by rw [hsites]
  index m := by rw [hsites]
  frame := hframe
  records := hrecords
  requests := hrequests
  asked := hasked
  comp := hcomp
  keyQueue r hr := by rwa [hkeys] at hr
  keyHead r rest hq _ := ⟨rest, by rw [hkeys, hq]⟩
  next := by rw [hkeys]
  abandoned hn := by rw [hkeys, hn]
  waiting := hwaiting
  bytes b a _ _ := by rw [hmem]
  wf hwf := by rw [hmem, hwf]

theorem queueTable_visits {r : TableRequest} (hr : ∀ m, r.withdrawn m = false) : sitesVisited S s (s.queueTable r) :=
  queues_visited rfl rfl (fun p hp => by cases p <;> simp_all [Part.same]) (fun _ h => h)
    (fun q hq _ => List.mem_append_left _ hq)
    (fun q hq => (List.mem_append.1 hq).imp_right fun h m => by rw [List.mem_singleton.1 h, hr m]) (fun _ h => h) rfl fun _ h => h

theorem queueRecord_visits (r : EscrowRecord) (report : ReportTo) : sitesVisited S s (s.queueRecord r report) :=
  queues_visited rfl rfl (fun p hp => by cases p <;> simp_all [Part.same]) (fun q hq => List.mem_append_left _ hq)
    (fun _ h _ => h) (fun _ h => .inl h) (fun _ h => h) rfl fun _ h => h

theorem withdrawTable_visits (s : State) (n : Site) : sitesVisited (· = n) s (s.withdrawTable n) :=
  queues_visited rfl rfl (fun p hp => by cases p <;> simp_all [Part.same]) (fun _ h => h)
    (fun q hq hw => List.mem_filter.2 ⟨hq, by simp [hw n rfl]⟩) (fun q hq => .inl (List.mem_filter.1 hq).1)
    (fun _ h => h) rfl fun _ h => h

theorem withdrawComp_visits (s : State) (n : Site) : sitesVisited S s (s.withdrawComp n) :=
  queues_visited rfl rfl (fun p hp => by cases p <;> simp_all [Part.same]) (fun _ h => h) (fun _ h _ => h)
    (fun _ h => .inl h) (fun q hq => (List.mem_filter.1 hq).1) rfl fun _ h => h

theorem leaveWaiting_visits (s : State) (n : Site) : sitesVisited S s (s.leaveWaiting n) :=
  queues_visited rfl rfl (fun p hp => by cases p <;> simp_all [Part.same]) (fun _ h => h) (fun _ h _ => h)
    (fun _ h => .inl h) (fun _ h => h) rfl fun q hq => (List.mem_filter.1 hq).1

/-- A derivation request withdrawn (R104): only that site's leaves the queue, and no serial is taken. -/
theorem withdrawDerivation_visits (s : State) (n : Site) : sitesVisited (· = n) s (s.withdrawDerivation n) where
  others m _ := rfl
  index m := rfl
  frame p hp := by cases p <;> simp_all [Part.same]
  records _ h := h
  requests _ h _ := h
  asked _ h := .inl h
  comp _ h := h
  keyQueue r hr := (List.mem_filter.1 hr).1
  keyHead r rest hq hr := ⟨rest.filter fun q => decide (q.site ≠ n), by simp [State.withdrawDerivation, hq, hr]⟩
  next := rfl
  abandoned hn := by simp [State.withdrawDerivation, hn]
  waiting _ h := h
  bytes _ _ _ _ := rfl
  wf h := h

/-- A final entry writes its own place in the block alone (R84). -/
theorem enterFinal_visits (r : SiteResult) (ts : Option Nat) (hc : s.sites[n] = some c) (hd : d.index = c.index) :
    sitesVisited (· = n) s (s.enterFinal n d r ts) := by
  have hends := enterFinal_ends s n c d r ts hd
  have hqueues : sitesVisited (· = n) s (s.setSite n { d with state := .final, result := some r, exch := none }) :=
    setSite_visits hc hd
  have hsites : (s.enterFinal n d r ts).sites =
      (s.setSite n { d with state := .final, result := some r, exch := none }).sites := by
    unfold State.enterFinal
    split <;> simp [State.store]
  have hescrow : (s.enterFinal n d r ts).escrow = s.escrow := hends.frame .escrow (by simp)
  have hdies : (s.enterFinal n d r ts).dies = s.dies := hends.frame .dies (by simp)
  have hcomp : (s.enterFinal n d r ts).comp = s.comp := hends.frame .comp (by simp)
  have hkeys : (s.enterFinal n d r ts).keys = s.keys := hends.frame .keys (by simp)
  have hwaiting : (s.enterFinal n d r ts).waiting = s.waiting := hends.frame .waiting (by simp)
  exact
    { others := fun m hm => by rw [hsites, hqueues.others m hm]
      index := fun m => by rw [hsites, hqueues.index m]
      frame := hends.frame.mono (by simp)
      records := fun q hq => by rwa [hescrow]
      requests := fun q hq _ => by rwa [hdies]
      asked := fun q hq => .inl (by rwa [hdies] at hq)
      comp := fun q hq => by rwa [hcomp] at hq
      keyQueue := fun q hq => by rwa [hkeys] at hq
      keyHead := fun q rest hq _ => ⟨rest, by rw [hkeys, hq]⟩
      next := by rw [hkeys]
      abandoned := fun hn => by rw [hkeys, hn]
      waiting := fun q hq => by rwa [hwaiting] at hq
      bytes := fun b a hb ha => hends.bytes b hb a (by
        have hout := ha n c rfl hc
        unfold outsideEntry at hout
        omega)
      wf := fun hwf => by
        simp only [State.enterFinal, State.setSite_mem]
        split
        · simpa [State.store] using Memory.wf_writeBytes hwf _ _
        · exact hwf }

theorem giveBack_visits (s : State) (n : Site) (c : SiteCtx) : sitesVisited S s (s.giveBack n c) := by
  unfold State.giveBack
  split
  · exact queueTable_visits fun _ => rfl
  · exact .refl _ _

theorem giveBack_sites (s : State) (n : Site) (c : SiteCtx) : (s.giveBack n c).sites = s.sites := by
  unfold State.giveBack
  split <;> simp

/-- An entry without a serial ends early (R78). -/
theorem endEarly_visits (cause : StopCause) (hc : s.sites[n] = some c) (hd : d.index = c.index) :
    sitesVisited (· = n) s (s.endEarly n d cause) :=
  (giveBack_visits s n d).trans (enterFinal_visits _ _ (by rw [giveBack_sites, hc]) hd)

theorem beginClosing_unused_visits (hc : s.sites[n] = some c) (hd : d.index = c.index) :
    sitesVisited (· = n) s (s.beginClosing n d .voidUnused) := by
  unfold State.beginClosing
  dsimp only
  split
  · exact .trans (setSite_visits hc (by exact hd)) (queueTable_visits fun _ => rfl)
  · exact .trans (setSite_visits hc (by exact hd)) (queueRecord_visits _ _)

theorem beginParking_visits (hc : s.sites[n] = some c) (hd : d.index = c.index) :
    sitesVisited (· = n) s (s.beginParking n d) :=
  .trans (setSite_visits hc (by exact hd)) (queueTable_visits fun _ => rfl)

/-- A burn stops (R78): the CLOSE, the settlement or the park that it asks for can not be withdrawn. -/
theorem stopBurn_visits (cause : StopCause) (hc : s.sites[n] = some c) (hd : d.index = c.index) :
    sitesVisited (· = n) s (s.stopBurn n d cause) := by
  unfold State.stopBurn
  dsimp only
  split
  · exact beginClosing_unused_visits hc (by exact hd)
  · exact beginParking_visits hc (by exact hd)

/-! ### A release and a halt at a site -/

theorem releaseSite_visits (s : State) (n : Site) : sitesVisited (· = n) s (s.releaseSite n) := by
  unfold State.releaseSite
  split
  · exact .refl _ _
  · rename_i c hc
    split
    · exact endEarly_visits _ hc rfl
    · exact (withdrawTable_visits s n).trans (endEarly_visits _ hc rfl)
    · exact ((withdrawComp_visits s n).trans (withdrawTable_visits _ n)).trans (endEarly_visits _ hc rfl)
    · exact (withdrawDerivation_visits s n).trans (endEarly_visits _ hc rfl)
    · exact stopBurn_visits _ hc rfl
    · exact endEarly_visits _ hc rfl
    · exact .refl _ _
    · exact .refl _ _
    · exact .refl _ _
    · exact stopBurn_visits _ hc rfl

theorem haltSite_visits (s : State) (n : Site) : sitesVisited (· = n) s (s.haltSite n) := by
  unfold State.haltSite
  split
  · exact .refl _ _
  · rename_i c hc
    dsimp only
    split
    · exact setSite_visits hc rfl
    · split
      · exact (withdrawTable_visits s n).trans (endEarly_visits _ hc rfl)
      · exact setSite_visits hc rfl
    · split
      · exact (withdrawTable_visits s n).trans (endEarly_visits _ hc rfl)
      · exact setSite_visits hc rfl
    · exact (withdrawDerivation_visits s n).trans (endEarly_visits _ hc rfl)
    · exact stopBurn_visits _ hc rfl
    · exact (leaveWaiting_visits s n).trans (stopBurn_visits _ hc rfl)
    · exact setSite_visits hc rfl
    · exact setSite_visits hc rfl
    · exact setSite_visits hc rfl
    · exact .refl _ _
    · exact setSite_visits hc rfl

/-! ### What a visit of other sites keeps of one site's requests -/

theorem sitesVisited.hasTableRequest (h : sitesVisited (· ≠ n) s t) : t.hasTableRequest n = s.hasTableRequest n := by
  rw [Bool.eq_iff_iff]
  simp only [State.hasTableRequest, List.any_eq_true]
  constructor
  · rintro ⟨r, hr, hw⟩
    rcases h.asked r hr with hr | hnone
    · exact ⟨r, hr, hw⟩
    · rw [hnone n] at hw
      cases hw
  · rintro ⟨r, hr, hw⟩
    refine ⟨r, h.requests r hr fun m hm => ?_, hw⟩
    cases r <;> simp_all [TableRequest.withdrawn]
    all_goals exact fun e => hm e.symm

theorem sitesVisited.noTableRequest (h : sitesVisited S s t) (hs : ∀ r ∈ s.dies.queue, r.withdrawn n = false) :
    ∀ r ∈ t.dies.queue, r.withdrawn n = false := fun r hr =>
  (h.asked r hr).elim (hs r) fun hnone => hnone n

end Sys2Proof.Machine

/-! A release (R53, R59, R79, R104, R111, R127, R153): the pulses it cuts, the sweep over the sites, and what each kind of
site state makes of it. -/

namespace Sys2Proof.Machine

variable {s t u w : State} {n : Site} {c x : SiteCtx} {b : Block}

/-! ### The pulses that are cut (R53) -/

/-- A context but for its burn state. -/
def SiteCtx.unburnt (c : SiteCtx) : SiteCtx := { c with burn := none }

/-- From `s` to `t` the pulses of the channels of `S` were cut: each DRIVING one is READY, and only the sites that they
drove were charged. -/
structure chansCut (S : Chan → Prop) (s t : State) : Prop where
  others : ∀ d : Chan, ¬S d → t.chans[d] = s.chans[d]
  each : ∀ d : Chan, S d →
    (∀ o w e, s.chans[d].state ≠ .driving o w e) ∧ t.chans[d] = s.chans[d] ∨
      (∃ o w e, s.chans[d].state = .driving o w e) ∧ t.chans[d] = { s.chans[d] with state := .ready }
  frame : sameBut [.chans, .sites, .counters] s t
  counts : countersBut [.pulses] s t
  sites : ∀ m : Site, (∀ d, S d → ∀ w e, s.chans[d].state ≠ .driving m w e) → t.sites[m] = s.sites[m]
  unburnt : ∀ m : Site, t.sites[m].map SiteCtx.unburnt = s.sites[m].map SiteCtx.unburnt
  pulses : (∀ d, S d → ∀ o w e, s.chans[d].state ≠ .driving o w e) → t.counter .pulses = s.counter .pulses

theorem chansCut.refl {S : Chan → Prop} (hS : ∀ d, S d → ∀ o w e, s.chans[d].state ≠ .driving o w e) : chansCut S s s where
  others _ _ := rfl
  each d hd := .inl ⟨hS d hd, rfl⟩
  frame p _ := by cases p <;> simp [Part.same]
  counts _ _ := rfl
  sites _ _ := rfl
  unburnt _ := rfl
  pulses _ := rfl

/-- A charge changes the burn state of its site and the count of pulses alone (R27). -/
theorem chargePulse_unburnt (s : State) (n : Site) (w : Nat) :
    sameBut [.sites, .counters] s (s.chargePulse n w) ∧ countersBut [.pulses] s (s.chargePulse n w) ∧
      sitesBut n s (s.chargePulse n w) ∧
      ∀ m : Site, (s.chargePulse n w).sites[m].map SiteCtx.unburnt = s.sites[m].map SiteCtx.unburnt := by
  unfold State.chargePulse
  split
  · rename_i x hx
    split
    · rename_i b hb
      have hset := setSite_moves s n { x with burn := some (b.charge w) }
      refine ⟨fun p hp => ?_, fun k hk => ?_, fun m hm => ?_, fun m => ?_⟩
      · cases p <;> simp_all [Part.same]
      · exact (bump_counts _ _).2 k hk
      · simpa using hset.others m hm
      · simp only [State.bump_sites, setSite_get]
        split
        · subst m
          simp [hx, SiteCtx.unburnt]
        · rfl
    · exact ⟨fun p _ => by cases p <;> simp [Part.same], fun _ _ => rfl, fun _ _ => rfl, fun _ => rfl⟩
  · exact ⟨fun p _ => by cases p <;> simp [Part.same], fun _ _ => rfl, fun _ _ => rfl, fun _ => rfl⟩

theorem cutPulse_driving {d : Chan} {o : Site} {p e : Nat} (h : s.chans[d].state = .driving o p e) :
    s.cutPulse d = (s.setChan d { s.chans[d] with state := .ready }).chargePulse o p := by
  unfold State.cutPulse
  rw [h]

theorem cutPulse_still {d : Chan} (h : ∀ o p e, s.chans[d].state ≠ .driving o p e) : s.cutPulse d = s := by
  unfold State.cutPulse
  split
  · rename_i o p e hd
    exact absurd hd (h o p e)
  · rfl

theorem cutPulse_cuts (s : State) (d : Chan) : chansCut (· = d) s (s.cutPulse d) := by
  by_cases hdrives : ∃ o p e, s.chans[d].state = .driving o p e
  · obtain ⟨o, p, e, hd⟩ := hdrives
    obtain ⟨hframe, hcounts, hsites, hburns⟩ :=
      chargePulse_unburnt (s.setChan d { s.chans[d] with state := .ready }) o p
    have hchans := hframe .chans (by simp)
    rw [cutPulse_driving hd]
    refine ⟨fun i hi => ?_, fun i hi => .inr ?_, fun q hq => ?_, fun k hk => hcounts k hk, fun m hm => ?_, hburns,
      fun hnone => absurd hd (hnone d rfl o p e)⟩
    · rw [show (State.chargePulse _ o p).chans = _ from hchans, setChan_get, if_neg hi]
    · subst hi
      exact ⟨⟨o, p, e, hd⟩, by rw [show (State.chargePulse _ o p).chans = _ from hchans, setChan_get, if_pos rfl]⟩
    · have hpart := hframe q (by simp_all)
      cases q <;> simp_all [Part.same]
    · exact hsites m fun hmo => hm d rfl p e (hmo ▸ hd)
  · have hnone : ∀ o p e, s.chans[d].state ≠ .driving o p e := fun o p e h => hdrives ⟨o, p, e, h⟩
    rw [cutPulse_still hnone]
    exact .refl fun i hi => hi ▸ hnone

/-- Cuts of different channels, one after the other. -/
theorem chansCut.trans {S S' : Chan → Prop} (h : chansCut S s t) (h' : chansCut S' t u) (hS : ∀ d, S d → ¬S' d) :
    chansCut (fun d => S d ∨ S' d) s u where
  others d hd := by
    rw [not_or] at hd
    rw [h'.others d hd.2, h.others d hd.1]
  each d hd := by
    rcases hd with hd | hd
    · rw [h'.others d (hS d hd)]
      exact h.each d hd
    · have heach := h'.each d hd
      rwa [h.others d fun hin => hS d hin hd] at heach
  frame := h.frame.trans h'.frame
  counts k hk := (h'.counts k hk).trans (h.counts k hk)
  sites m hm := by
    rw [h'.sites m fun d hd => ?_, h.sites m fun d hd => hm d (.inl hd)]
    rw [h.others d fun hin => hS d hin hd]
    exact hm d (.inr hd)
  unburnt m := (h'.unburnt m).trans (h.unburnt m)
  pulses hnone := by
    rw [h'.pulses fun d hd => ?_, h.pulses fun d hd => hnone d (.inl hd)]
    rw [h.others d fun hin => hS d hin hd]
    exact hnone d (.inr hd)

theorem chansCut.congr {S S' : Chan → Prop} (h : chansCut S s t) (hS : ∀ d, S d ↔ S' d) : chansCut S' s t := by
  have hfun : S = S' := funext fun d => propext (hS d)
  exact hfun ▸ h

theorem foldl_cuts : ∀ (l : List Chan) (s : State), l.Nodup → chansCut (· ∈ l) s (l.foldl State.cutPulse s)
  | [], s, _ => .refl fun _ hd => (nomatch hd)
  | d :: l, s, hnodup => by
    obtain ⟨hd, hl⟩ := List.nodup_cons.1 hnodup
    refine ((cutPulse_cuts s d).trans (foldl_cuts l (s.cutPulse d) hl) fun i hi => ?_).congr fun i => by simp
    rintro hin
    exact hd (hi ▸ hin)

/-- The cut at a channel that drives site n: the site is charged, and, if no other channel drives, PULSES counts once. -/
theorem foldl_cuts_driving {d : Chan} {bs : BurnState} {p e : Nat} (hc : s.sites[n] = some c) (hb : c.burn = some bs)
    (hd : s.chans[d].state = .driving n p e) (hother : ∀ (i : Chan) (v f : Nat), i ≠ d → s.chans[i].state ≠ .driving n v f)
    (l : List Chan) (hnodup : l.Nodup) (hmem : d ∈ l) :
    (l.foldl State.cutPulse s).sites[n] = some { c with burn := some (bs.charge p) } ∧
      ((∀ (i : Chan) (o : Site) (v f : Nat), i ≠ d → s.chans[i].state ≠ .driving o v f) →
        (l.foldl State.cutPulse s).counter .pulses = satInc (s.counter .pulses)) := by
  obtain ⟨l₁, l₂, rfl⟩ := List.append_of_mem hmem
  rw [List.nodup_middle, List.nodup_cons, List.mem_append, not_or] at hnodup
  obtain ⟨⟨hd₁, hd₂⟩, hboth⟩ := hnodup
  have hbefore := foldl_cuts l₁ s hboth.of_append_left
  rw [List.foldl_append, List.foldl_cons]
  generalize l₁.foldl State.cutPulse s = v at *
  have hv : v.chans[d].state = .driving n p e := by rw [hbefore.others d hd₁, hd]
  have hsite : v.sites[n] = some c := by
    rw [hbefore.sites n fun i hi => ?_, hc]
    exact fun w f => hother i w f fun hid => hd₁ (hid ▸ hi)
  have hcut : v.cutPulse d =
      ((v.setChan d { v.chans[d] with state := .ready }).setSite n { c with burn := some (bs.charge p) }).bump
        .pulses := by
    rw [cutPulse_driving hv]
    simp [State.chargePulse, hsite, hb]
  have hafter := foldl_cuts l₂ (v.cutPulse d) hboth.of_append_right
  have hchans : ∀ i, i ∈ l₂ → (v.cutPulse d).chans[i].state = s.chans[i].state := fun i hi => by
    rw [(cutPulse_cuts v d).others i fun hid => hd₂ (hid ▸ hi), hbefore.others i fun hin => ?_]
    exact (List.nodup_append.1 hboth).2.2 i hin i hi rfl
  have hne : ∀ i, i ∈ l₂ → i ≠ d := fun i hi hid => hd₂ (hid ▸ hi)
  refine ⟨?_, fun hnone => ?_⟩
  · rw [hafter.sites n fun i hi w f => ?_, hcut]
    · simp only [State.bump_sites, setSite_get, if_true]
    · rw [hchans i hi]
      exact hother i w f (hne i hi)
  · rw [hafter.pulses fun i hi o w f => ?_, hcut, (bump_counts _ _).1]
    · have hcount : v.counter .pulses = s.counter .pulses :=
        hbefore.pulses fun i hi o w f => hnone i o w f fun hid => hd₁ (hid ▸ hi)
      exact congrArg satInc hcount
    · rw [hchans i hi]
      exact hnone i o w f (hne i hi)

/-! ### The steps of a release (R153) -/

/-- The board once the release is counted and marked, the waiting set empty. -/
def State.releaseStarted (s : State) (b : Block) : State :=
  (((s.raise .contactLost).bump .releases).setChain { s.chain with block := some b.markReleased }).setWaiting []

/-- The board once every pulse is cut. -/
def State.releaseCut (s : State) (b : Block) : State := allChans.foldl State.cutPulse (s.releaseStarted b)

/-- The board once every site is reached. -/
def State.releaseSwept (s : State) (b : Block) : State :=
  (s.releaseCut b).siteOrder.foldl State.releaseSite (s.releaseCut b)

theorem takeRelease_eq (s : State) (b : Block) :
    s.takeRelease b = (s.releaseSwept b).freshOrder.settleTouchdown := rfl

theorem allChans_nodup : allChans.Nodup := by decide

theorem releaseCut_cuts (s : State) (b : Block) : chansCut (fun _ => True) (s.releaseStarted b) (s.releaseCut b) :=
  (foldl_cuts allChans (s.releaseStarted b) allChans_nodup).congr fun d => by simp [allChans_mem]

theorem releaseSwept_visits (s : State) (b : Block) : sitesVisited (fun _ => True) (s.releaseCut b) (s.releaseSwept b) :=
  (foldl_visits releaseSite_visits _ _).mono fun _ _ => trivial

theorem releaseSwept_at (s : State) (b : Block) (n : Site) :
    ∃ u, sitesVisited (· ≠ n) (s.releaseCut b) u ∧ sitesVisited (· ≠ n) (u.releaseSite n) (s.releaseSwept b) :=
  sweep_at releaseSite_visits _ (siteOrder_nodup _).1 ((siteOrder_nodup _).2 n) _

theorem releaseSwept_chain (s : State) (b : Block) :
    (s.releaseSwept b).chain = { s.chain with block := some b.markReleased } :=
  (releaseSwept_visits s b).chain.trans ((releaseCut_cuts s b).frame .chain (by simp))

theorem releaseSwept_reg (s : State) (b : Block) : (s.releaseSwept b).reg = s.reg.setEvent .contactLost :=
  ((releaseSwept_visits s b).frame .reg (by simp)).trans ((releaseCut_cuts s b).frame .reg (by simp))

theorem releaseSwept_waiting (s : State) (b : Block) : (s.releaseSwept b).waiting = [] := by
  have hcut : (s.releaseCut b).waiting = [] := (releaseCut_cuts s b).frame .waiting (by simp)
  refine List.eq_nil_iff_forall_not_mem.2 fun r hr => ?_
  have hin := (releaseSwept_visits s b).waiting r hr
  rw [hcut] at hin
  cases hin

theorem releaseSwept_contact (s : State) (b : Block) : (s.releaseSwept b).contact = s.contact := by
  have hcut : (s.releaseCut b).contact = (s.releaseStarted b).contact := (releaseCut_cuts s b).frame .contact (by simp)
  have hswept : (s.releaseSwept b).contact = (s.releaseCut b).contact :=
    (releaseSwept_visits s b).frame .contact (by simp)
  rw [hswept, hcut]
  rfl

theorem releaseSwept_pending (s : State) (b : Block) : (s.releaseSwept b).pending = s.pending := by
  have hcut : (s.releaseCut b).pending = (s.releaseStarted b).pending := (releaseCut_cuts s b).frame .pending (by simp)
  have hswept : (s.releaseSwept b).pending = (s.releaseCut b).pending :=
    (releaseSwept_visits s b).frame .pending (by simp)
  rw [hswept, hcut]
  rfl

theorem releaseSwept_counters (s : State) (b : Block) : (s.releaseSwept b).counters = (s.releaseCut b).counters :=
  (releaseSwept_visits s b).frame .counters (by simp)

theorem releaseSwept_releases (s : State) (b : Block) :
    (s.releaseSwept b).counter .releases = satInc (s.counter .releases) := by
  have hcut := (releaseCut_cuts s b).counts .releases (by simp)
  have hstart : (s.releaseStarted b).counter .releases = satInc (s.counter .releases) := (bump_counts _ _).1
  rw [← hstart, ← hcut, State.counter, State.counter, releaseSwept_counters]

theorem releaseSwept_chans (s : State) (b : Block) (d : Chan) :
    (∀ o w e, s.chans[d].state ≠ .driving o w e) ∧ (s.releaseSwept b).chans[d] = s.chans[d] ∨
      (∃ o w e, s.chans[d].state = .driving o w e) ∧
        (s.releaseSwept b).chans[d] = { s.chans[d] with state := .ready } := by
  have hchans : (s.releaseSwept b).chans = (s.releaseCut b).chans := (releaseSwept_visits s b).frame .chans (by simp)
  rw [hchans]
  exact (releaseCut_cuts s b).each d trivial

/-- A started TOUCHDOWN in RUNNING is found by a release (R153). -/
theorem releaseIfRunning_touchdown (hs : s.chain.state = .running) (h : s.inTouchdown n) :
    ∃ b, s.chain.block = some b ∧ s.releaseIfRunning = s.takeRelease b ∧
      ∀ (m : Site) (u : State), s.inTouchdown m → u.chain = { s.chain with block := some b.markReleased } → u.inTouchdown m := by
  obtain ⟨b, es, rel, hal, hb, hw, -⟩ := h
  refine ⟨b, hb, by simp [State.releaseIfRunning, State.releasable, hb, hw, hs], fun m u hm hu => ?_⟩
  obtain ⟨b', es', rel', hal', hb', hw', hin⟩ := hm
  obtain rfl := Option.some.inj (hb.symm.trans hb')
  exact ⟨b.markReleased, es', true, hal', by rw [hu], by simp [Block.markReleased, hw'], hin⟩

/-- A release ends no block while a site of it is not final. -/
theorem takeRelease_running {m : Site} (hin : (s.releaseSwept b).inTouchdown m)
    (hx : (s.releaseSwept b).sites[m] = some x) (hf : x.state ≠ .final) :
    s.takeRelease b = (s.releaseSwept b).freshOrder := by
  rw [takeRelease_eq]
  refine settleTouchdown_running (n := m) hin ?_
  simp [State.isFinal, hx, hf]

/-! ### A site that a release reaches (R79) -/

theorem releaseSite_ending (hc : s.sites[n] = some c) (h : c.state = .closing ∨ c.state = .parking) :
    s.releaseSite n = s := by
  unfold State.releaseSite
  rw [hc]
  rcases h with h | h <;> simp [h]

/-- The states in which a release stops the burn. -/
def SiteState.burns (st : SiteState) : Prop :=
  st ∈ [.escrowWait, .resumeCheck, .burnRow, .waitGrant, .pulsing, .settling, .sensing, .rowVerify, .spareSelect,
    .remapBurn, .lockBurn]

theorem releaseSite_burning (hc : s.sites[n] = some c) (h : c.state.burns) : s.releaseSite n = s.stopBurn n c .release := by
  unfold State.releaseSite
  rw [hc]
  dsimp only
  split <;> simp_all [SiteState.burns]

theorem beginClosing_here (s : State) (n : Site) (c : SiteCtx) (o : CloseOutcome) :
    (s.beginClosing n c o).sites[n] =
      some { c with state := .closing, outcome := some o, exch := none, closeWritten := false } := by
  cases hd : s.dryRun
  · exact (beginClosing_closes s n c o hd).moves.here
  · exact (beginClosing_dry s n c o hd).1.moves.here

theorem stopBurn_here_unused (cause : StopCause) (h : c.totalPulses = 0) :
    (s.stopBurn n c cause).sites[n] =
      some { c with
        state := .closing, stop := cause, outcome := some .voidUnused, exch := none, closeWritten := false } := by
  unfold State.stopBurn
  rw [if_pos h]
  exact beginClosing_here s n _ _

/-- A burn that a release reaches, its pulses cut, without one delivered. -/
theorem released_unused (hc : (s.releaseCut b).sites[n] = some c) (hburns : c.state.burns) (h0 : c.totalPulses = 0) :
    (s.releaseSwept b).sites[n] =
        some { c with
          state := .closing, stop := .release, outcome := some .voidUnused, exch := none, closeWritten := false } ∧
      (s.dryRun = false →
        { record := .close (c.closeRecord .voidUnused), report := .site n } ∈ (s.releaseSwept b).escrow.queue) := by
  obtain ⟨u, hbefore, hafter⟩ := releaseSwept_at s b n
  have hu : u.sites[n] = some c := (hbefore.others n (by simp)).trans hc
  have hchain : u.chain = { s.chain with block := some b.markReleased } :=
    hbefore.chain.trans ((releaseCut_cuts s b).frame .chain (by simp))
  rw [releaseSite_burning hu hburns] at hafter
  refine ⟨?_, fun hd => hafter.records _ ?_⟩
  · rw [hafter.others n (by simp), stopBurn_here_unused _ h0]
  · have hdry : u.dryRun = false := by
      rw [← hd]
      simp [State.dryRun, hchain]
    rw [(stopBurn_void u n c .release h0 hdry).queued]
    exact List.mem_append_right _ (List.mem_singleton.2 rfl)

/-- A burn that a release reaches, its pulses cut, with one delivered. -/
theorem released_parks (hc : (s.releaseCut b).sites[n] = some c) (hburns : c.state.burns) (h0 : c.totalPulses ≠ 0) :
    (s.releaseSwept b).sites[n] = some { c with state := .parking, stop := .release, exch := none } ∧
      .park n ∈ (s.releaseSwept b).dies.queue := by
  obtain ⟨u, hbefore, hafter⟩ := releaseSwept_at s b n
  have hu : u.sites[n] = some c := (hbefore.others n (by simp)).trans hc
  rw [releaseSite_burning hu hburns] at hafter
  obtain ⟨hmoves, hqueue⟩ := stopBurn_park u n c .release h0
  refine ⟨?_, hafter.requests _ ?_ fun _ _ => rfl⟩
  · rw [hafter.others n (by simp), hmoves.here]
  · rw [hqueue]
    exact List.mem_append_right _ (List.mem_singleton.2 rfl)

theorem released_ending (hc : (s.releaseCut b).sites[n] = some c) (h : c.state = .closing ∨ c.state = .parking) :
    (s.releaseSwept b).sites[n] = some c := by
  obtain ⟨u, hbefore, hafter⟩ := releaseSwept_at s b n
  have hu : u.sites[n] = some c := (hbefore.others n (by simp)).trans hc
  rw [releaseSite_ending hu h] at hafter
  rw [hafter.others n (by simp), hu]

/-- A site that no channel drives is as it was once the pulses are cut. -/
theorem releaseCut_site (h : ∀ (d : Chan) (p e : Nat), s.chans[d].state ≠ .driving n p e) :
    (s.releaseCut b).sites[n] = s.sites[n] := (releaseCut_cuts s b).sites n fun d _ => h d

/-- Every site keeps its state and entry number as the pulses are cut. -/
theorem releaseCut_unburnt {m : Site} (hx : s.sites[m] = some x) :
    ∃ y, (s.releaseCut b).sites[m] = some y ∧ y.unburnt = x.unburnt := by
  have hmap := (releaseCut_cuts s b).unburnt m
  rw [show (s.releaseStarted b).sites[m] = some x from hx] at hmap
  exact Option.map_eq_some_iff.1 hmap

theorem unburnt_state {y : SiteCtx} (h : y.unburnt = x.unburnt) : y.state = x.state := by
  simpa [SiteCtx.unburnt] using congrArg SiteCtx.state h

theorem unburnt_index {y : SiteCtx} (h : y.unburnt = x.unburnt) : y.index = x.index := by
  simpa [SiteCtx.unburnt] using congrArg SiteCtx.index h

theorem unburnt_placeHeld {y : SiteCtx} (h : y.unburnt = x.unburnt) : y.placeHeld = x.placeHeld := by
  simpa [SiteCtx.unburnt] using congrArg SiteCtx.placeHeld h

/-! ### A site without a serial that a release reaches (R78, R79, R104, R111, R124, R127) -/

/-- An entry that ends early with RELEASED: its site final, its code in its place, its held place given back. -/
theorem endEarly_released (s : State) (n : Site) (c : SiteCtx) :
    (s.endEarly n c .release).endedWith n .released ∧
      (c.placeHeld = true → .giveBack n ∈ (s.endEarly n c .release).dies.queue) ∧
      (s.endEarly n c .release).keys = s.keys ∧ (s.endEarly n c .release).comp = s.comp ∧
      ((∀ r ∈ s.dies.queue, r.withdrawn n = false) → ∀ r ∈ (s.endEarly n c .release).dies.queue, r.withdrawn n = false) ∧
      ∀ b, s.chain.block = some b → s.mem.wf = true → b.offset + 80 + 48 * c.index + 48 ≤ jobMemorySize →
        ((s.endEarly n c .release).mem.read (b.offset + 80 + 48 * c.index + 12)).toNat = SiteResult.released.code := by
  have hends := enterFinal_ends (s.giveBack n c) n { c with stop := .release, placeHeld := false }
    { c with stop := .release, placeHeld := false } .released none rfl
  have hdies : (s.endEarly n c .release).dies = (s.giveBack n c).dies := hends.frame .dies (by simp)
  have hback : (s.giveBack n c).mem = s.mem ∧ (s.giveBack n c).chain = s.chain ∧ (s.giveBack n c).keys = s.keys ∧
      (s.giveBack n c).comp = s.comp := by
    unfold State.giveBack
    split <;> simp
  obtain ⟨hmem, hchain, hkeys, hcomp⟩ := hback
  refine ⟨hends.ended, fun hp => ?_, ?_, ?_, fun hnone r hr => ?_, fun b hb hwf hin => ?_⟩
  · rw [hdies]
    simp [State.giveBack, hp]
  · exact Eq.trans (hends.frame .keys (by simp)) hkeys
  · exact Eq.trans (hends.frame .comp (by simp)) hcomp
  · rw [hdies] at hr
    exact (giveBack_visits (S := fun _ => True) s n c).noTableRequest hnone r hr
  · exact hends.code b (by rw [hchain, hb]) (by rw [hmem, hwf]) hin

/-- The states in which a release ends an entry without a serial. -/
def SiteState.endsReleased (st : SiteState) : Prop :=
  st = .hail ∨ st = .lookup ∨ st = .prep ∨ st = .issueWait ∨ st = .reading

/-- The board on which the entry ends, once the site's requests are withdrawn. -/
def State.releaseWithdrawn (s : State) (n : Site) (c : SiteCtx) : State :=
  match c.state with
  | .lookup => s.withdrawTable n
  | .prep => (s.withdrawComp n).withdrawTable n
  | .issueWait => s.withdrawDerivation n
  | _ => s

theorem releaseSite_ends (hc : s.sites[n] = some c) (h : c.state.endsReleased) :
    s.releaseSite n = (s.releaseWithdrawn n c).endEarly n c .release := by
  unfold State.releaseSite State.releaseWithdrawn
  rw [hc]
  rcases h with h | h | h | h | h <;> simp [h]

theorem releaseWithdrawn_visits (s : State) (n : Site) (c : SiteCtx) :
    sitesVisited (· = n) s (s.releaseWithdrawn n c) := by
  unfold State.releaseWithdrawn
  split
  · exact withdrawTable_visits s n
  · exact (withdrawComp_visits s n).trans (withdrawTable_visits _ n)
  · exact withdrawDerivation_visits s n
  · exact .refl _ s

/-- What the withdrawal leaves of the site's requests. -/
theorem releaseWithdrawn_leaves (s : State) (n : Site) (c : SiteCtx) :
    (c.state = .lookup ∨ c.state = .prep → ∀ r ∈ (s.releaseWithdrawn n c).dies.queue, r.withdrawn n = false) ∧
      (c.state = .prep → ∀ r ∈ (s.releaseWithdrawn n c).comp, r.site ≠ n) ∧
      (c.state = .issueWait → (∀ r ∈ (s.releaseWithdrawn n c).keys.queue, r.site ≠ n) ∧
        ∀ r rest, s.keys.queue = r :: rest → r.site = n → (s.releaseWithdrawn n c).keys.derivation = none) := by
  have htable : ∀ u : State, ∀ r ∈ (u.withdrawTable n).dies.queue, r.withdrawn n = false := fun u r hr => by
    simpa using (List.mem_filter.1 hr).2
  refine ⟨fun h => ?_, fun h r hr => ?_, fun h => ⟨fun r hr => ?_, fun r rest hq hn => ?_⟩⟩
  · rcases h with h | h <;> simp only [State.releaseWithdrawn, h] <;> exact htable _
  · simp only [State.releaseWithdrawn, h] at hr
    simpa using (List.mem_filter.1 hr).2
  · simp only [State.releaseWithdrawn, h] at hr
    simpa using (List.mem_filter.1 hr).2
  · simp [State.releaseWithdrawn, h, State.withdrawDerivation, hq, hn]

/-- An entry without a serial, whose site a release reaches once the pulses are cut. -/
theorem released_ends (hc : (s.releaseCut b).sites[n] = some c) (h : c.state.endsReleased) :
    (s.releaseSwept b).endedWith n .released ∧
      (c.state = .lookup ∨ c.state = .prep → ∀ r ∈ (s.releaseSwept b).dies.queue, r.withdrawn n = false) ∧
      (c.state = .prep → ∀ r ∈ (s.releaseSwept b).comp, r.site ≠ n) ∧
      (c.state = .issueWait → (∀ r ∈ (s.releaseSwept b).keys.queue, r.site ≠ n) ∧
        (s.releaseSwept b).keys.next = s.keys.next ∧
        ∀ r rest, s.keys.queue = r :: rest → r.site = n → (s.releaseSwept b).keys.derivation = none) ∧
      (c.placeHeld = true → .giveBack n ∈ (s.releaseSwept b).dies.queue) ∧
      (s.mem.wf = true → b.offset + 80 + 48 * c.index + 48 ≤ jobMemorySize →
        (∀ (m : Site) (x : SiteCtx), m ≠ n → (s.releaseCut b).sites[m] = some x → x.index ≠ c.index) →
        ((s.releaseSwept b).mem.read (b.offset + 80 + 48 * c.index + 12)).toNat = SiteResult.released.code) := by
  obtain ⟨u, hbefore, hafter⟩ := releaseSwept_at s b n
  have hcut := releaseCut_cuts s b
  have hkeys : (s.releaseCut b).keys = s.keys := hcut.frame .keys (by simp)
  have hu : u.sites[n] = some c := (hbefore.others n (by simp)).trans hc
  have hsite := releaseWithdrawn_visits u n c
  obtain ⟨hlookup, hprep, hissue⟩ := releaseWithdrawn_leaves u n c
  obtain ⟨hended, hplace, hkeys', hcomp, htable, hcode⟩ := endEarly_released (u.releaseWithdrawn n c) n c
  rw [releaseSite_ends hu h] at hafter
  have hnext := (releaseSwept_visits s b).next
  generalize s.releaseSwept b = t at *
  refine ⟨?_, fun hst => hafter.noTableRequest (htable (hlookup hst)), fun hst r hr => ?_, fun hst =>
    ⟨fun r hr => ?_, by rw [hnext, hkeys], fun r rest hq hn => ?_⟩, fun hp => ?_, fun hwf hin happart => ?_⟩
  · obtain ⟨y, hy, hrest⟩ := hended
    exact ⟨y, by rw [hafter.others n (by simp), hy], hrest⟩
  · have hin := hafter.comp r hr
    rw [hcomp] at hin
    exact hprep hst r hin
  · have hin := hafter.keyQueue r hr
    rw [hkeys'] at hin
    exact (hissue hst).1 r hin
  · obtain ⟨rest', hq'⟩ := hbefore.keyHead r rest (by rw [hkeys, hq]) (by simpa using hn)
    refine hafter.abandoned ?_
    rw [hkeys']
    exact (hissue hst).2 r rest' hq' hn
  · exact hafter.requests _ (hplace hp) fun _ _ => rfl
  · have hchain : (s.releaseCut b).chain.block = some b.markReleased := by
      rw [show (s.releaseCut b).chain = _ from hcut.frame .chain (by simp)]
      rfl
    have hoffset : b.markReleased.offset = b.offset := by
      unfold Block.markReleased
      split <;> rfl
    have hwf' : (u.releaseWithdrawn n c).mem.wf = true := hsite.wf (hbefore.wf (by
      rw [show (s.releaseCut b).mem = _ from hcut.frame .mem (by simp)]
      exact hwf))
    have hblock : (u.releaseWithdrawn n c).chain.block = some b.markReleased := by
      rw [hsite.chain, hbefore.chain, hchain]
    have hwritten := hcode b.markReleased hblock hwf' (by rwa [hoffset])
    rw [hoffset] at hwritten
    have hvisit := endEarly_visits (s := u.releaseWithdrawn n c) (n := n) (c := c) (d := c) .release (by
      rw [show (u.releaseWithdrawn n c).sites = u.sites by
        unfold State.releaseWithdrawn
        split <;> rfl]
      exact hu) rfl
    rw [hafter.bytes b.markReleased _ (by rw [hvisit.chain, hblock]) fun m x hm hx => ?_, hwritten]
    obtain ⟨y, hy, hyx⟩ := ((hbefore.mono fun _ _ => trivial).trans
      ((hsite.trans hvisit).mono fun _ _ => trivial) : sitesVisited (fun _ => True) _ _).before hx
    have hne := happart m y hm hy
    unfold outsideEntry
    rw [hoffset]
    omega

/-! ### The two commands (R150, R153, R186) -/

/-- RELEASE, or a fall of CONTACT from the high level: the level, then a release if it finds a touchdown. -/
theorem exec_release_or_fall {cmd : Instr} (hr : s.reg.resetting = false)
    (h : cmd = .release ∨ (cmd = .contactFall ∧ s.contact = true)) :
    exec cmd s = .next (s.setContact (if cmd = .release then s.contact else false)).releaseIfRunning := by
  rcases h with rfl | ⟨rfl, hc⟩
  · simp only [exec, execRelease, hr, if_true]
    rfl
  · simp [exec, execContactFall, hc]

/-- A release finds nothing but a started TOUCHDOWN in RUNNING (R153). -/
theorem releaseIfRunning_none
    (h : s.chain.state ≠ .running ∨ s.chain.block = none ∨
      (∃ b es r h, s.chain.block = some b ∧ b.work = .touchdown es false r h) ∨
      (∃ b, s.chain.block = some b ∧ ∀ es st r h, b.work ≠ .touchdown es st r h)) : s.releaseIfRunning = s := by
  have hnone : s.releasable = none := by
    unfold State.releasable
    rcases h with h | h | ⟨b, es, r, h, hb, hw⟩ | ⟨b, hb, hw⟩
    · split
      · split
        · exact if_neg h
        · rfl
      · rfl
    · simp [h]
    · simp [hb, hw]
    · rw [hb]
      dsimp only
      split
      · rename_i es r h he
        exact absurd he (hw es true r h)
      · rfl
  simp [State.releaseIfRunning, hnone]

theorem burns_or_ends (h : c.state = .escrowWait ∨ c.state = .resumeCheck ∨ c.state = .burnRow ∨ c.state = .waitGrant ∨
      c.state = .settling ∨ c.state = .sensing ∨ c.state = .rowVerify ∨ c.state = .spareSelect ∨
      c.state = .remapBurn ∨ c.state = .lockBurn ∨ c.state = .closing ∨ c.state = .parking) :
    c.state.burns ∨ c.state = .closing ∨ c.state = .parking := by
  unfold SiteState.burns
  simp only [List.mem_cons, List.not_mem_nil, or_false]
  tauto

/-- A release of a TOUCHDOWN with a site that stops its burn, or that ends already: no site ends the block. -/
theorem release_ongoing (hs : s.chain.state = .running) (hin : s.inTouchdown n)
    (hx : ∀ b, s.chain.block = some b → ∃ x, (s.releaseSwept b).sites[n] = some x ∧ x.state ≠ .final) :
    ∃ b, s.chain.block = some b ∧ s.releaseIfRunning = (s.releaseSwept b).freshOrder := by
  obtain ⟨b, hb, htake, hkeep⟩ := releaseIfRunning_touchdown hs hin
  obtain ⟨x, hsite, hfinal⟩ := hx b hb
  refine ⟨b, hb, ?_⟩
  rw [htake, takeRelease_running (hkeep n _ hin (releaseSwept_chain s b)) hsite hfinal]

/-- What a release makes of a site in ESCROW_WAIT, a burning state, CLOSING or PARKING that no channel drives. -/
theorem release_burning (hs : s.chain.state = .running) (hin : s.inTouchdown n) (hc : s.sites[n] = some c)
    (hst : c.state.burns ∨ c.state = .closing ∨ c.state = .parking)
    (hnone : ∀ (d : Chan) (w e : Nat), s.chans[d].state ≠ .driving n w e) : ∃ t, s.releaseIfRunning = t ∧
      t.reg = s.reg.setEvent .contactLost ∧ t.counter .releases = satInc (s.counter .releases) ∧ t.waiting = [] ∧
      (∀ d : Chan,
        (∀ o w e, s.chans[d].state ≠ .driving o w e) ∧ t.chans[d] = s.chans[d] ∨
        (∃ o w e, s.chans[d].state = .driving o w e) ∧ t.chans[d] = { s.chans[d] with state := .ready }) ∧
      (c.state = .closing ∨ c.state = .parking → t.sites[n] = some c) ∧
      (c.state ≠ .closing → c.state ≠ .parking → c.totalPulses = 0 →
        t.sites[n] =
          some { c with
            state := .closing, stop := .release, outcome := some .voidUnused, exch := none, closeWritten := false } ∧
        (s.dryRun = false →
          { record := .close (c.closeRecord .voidUnused), report := .site n } ∈ t.escrow.queue)) ∧
      (c.state ≠ .closing → c.state ≠ .parking → c.totalPulses ≠ 0 →
        t.sites[n] = some { c with state := .parking, stop := .release, exch := none } ∧ .park n ∈ t.dies.queue) ∧
      t.contact = s.contact ∧ t.pending = s.pending := by
  have hcut : ∀ b, (s.releaseCut b).sites[n] = some c := fun b => (releaseCut_site hnone).trans hc
  have hgoes : ∀ b, s.chain.block = some b → ∃ x, (s.releaseSwept b).sites[n] = some x ∧ x.state ≠ .final := by
    intro b _
    rcases hst with hst | hst
    · by_cases h0 : c.totalPulses = 0
      · exact ⟨_, (released_unused (hcut b) hst h0).1, by simp⟩
      · exact ⟨_, (released_parks (hcut b) hst h0).1, by simp⟩
    · exact ⟨c, released_ending (hcut b) hst, by rcases hst with h | h <;> simp [h]⟩
  obtain ⟨b, hb, htake⟩ := release_ongoing hs hin hgoes
  have hburns : c.state ≠ .closing → c.state ≠ .parking → c.state.burns := fun h1 h2 =>
    hst.resolve_right (by tauto)
  have hreg := releaseSwept_reg s b
  have hcount := releaseSwept_releases s b
  have hwaiting := releaseSwept_waiting s b
  have hchans := releaseSwept_chans s b
  have hstill := fun hst => released_ending (hcut b) hst
  have hunused := fun h1 h2 => released_unused (hcut b) (hburns h1 h2)
  have hparks := fun h1 h2 => released_parks (hcut b) (hburns h1 h2)
  have hcontact : (s.releaseSwept b).contact = s.contact := releaseSwept_contact s b
  have hpending : (s.releaseSwept b).pending = s.pending := releaseSwept_pending s b
  generalize s.releaseSwept b = v at *
  exact ⟨v.freshOrder, htake, hreg, hcount, hwaiting, hchans, hstill, hunused, hparks, hcontact, hpending⟩

theorem releaseStarted_pulses (s : State) (b : Block) :
    (s.releaseStarted b).counter .pulses = s.counter .pulses :=
  (bump_counts (s.raise .contactLost) .releases).2 .pulses (by simp)

/-- The site of a cut pulse, once the pulses are cut: charged, and counted once if no other channel drives. -/
theorem releaseCut_pulsing {bs : BurnState} {d : Chan} {p e : Nat} (b : Block) (hc : s.sites[n] = some c)
    (hb : c.burn = some bs) (hd : s.chans[d].state = .driving n p e)
    (hother : ∀ (i : Chan) (v f : Nat), i ≠ d → s.chans[i].state ≠ .driving n v f) :
    (s.releaseCut b).sites[n] = some { c with burn := some (bs.charge p) } ∧
      ((∀ (i : Chan) (o : Site) (v f : Nat), i ≠ d → s.chans[i].state ≠ .driving o v f) →
        (s.releaseCut b).counter .pulses = satInc (s.counter .pulses)) := by
  rw [← releaseStarted_pulses s b]
  exact foldl_cuts_driving (s := s.releaseStarted b) hc hb hd hother allChans allChans_nodup (allChans_mem d)

theorem releaseSwept_counter (s : State) (b : Block) (k : Counter) :
    (s.releaseSwept b).counter k = (s.releaseCut b).counter k := by
  rw [State.counter, State.counter, releaseSwept_counters]

theorem releaseSwept_ready {d : Chan} {p e : Nat} (b : Block) (hd : s.chans[d].state = .driving n p e) :
    (s.releaseSwept b).chans[d] = { s.chans[d] with state := .ready } :=
  (releaseSwept_chans s b d).elim (fun h => absurd hd (h.1 n p e)) fun h => h.2

/-- What a release makes of a site in PULSING (R27, R53). -/
theorem release_pulsing {bs : BurnState} {d : Chan} {p e : Nat} (hs : s.chain.state = .running) (hin : s.inTouchdown n)
    (hc : s.sites[n] = some c) (hst : c.state = .pulsing) (hb : c.burn = some bs) (hd : s.chans[d].state = .driving n p e)
    (hother : ∀ (i : Chan) (v f : Nat), i ≠ d → s.chans[i].state ≠ .driving n v f) : ∃ t, s.releaseIfRunning = t ∧
      t.sites[n] = some { c with burn := some (bs.charge p), state := .parking, stop := .release, exch := none } ∧
      .park n ∈ t.dies.queue ∧ t.chans[d] = { s.chans[d] with state := .ready } ∧ t.waiting = [] ∧
      ((∀ (i : Chan) (o : Site) (v f : Nat), i ≠ d → s.chans[i].state ≠ .driving o v f) →
        t.counter .pulses = satInc (s.counter .pulses)) := by
  have hparks := fun b => released_parks (b := b) (releaseCut_pulsing b hc hb hd hother).1
    (by simp [SiteState.burns, hst]) (by simp [SiteCtx.totalPulses, BurnState.charge])
  obtain ⟨b, -, htake⟩ := release_ongoing hs hin fun b _ => ⟨_, (hparks b).1, by simp⟩
  obtain ⟨hsite, hqueue⟩ := hparks b
  have hchan := releaseSwept_ready b hd
  have hwaiting := releaseSwept_waiting s b
  have hcount := (releaseCut_pulsing b hc hb hd hother).2
  rw [← releaseSwept_counter] at hcount
  clear hparks
  generalize s.releaseSwept b = v at *
  exact ⟨v.freshOrder, htake, hsite, hqueue, hchan, hwaiting, hcount⟩

/-- What a release makes of a site whose entry has no serial, while another site ends (R78, R79). -/
theorem release_ending (hs : s.chain.state = .running) (hc : s.sites[n] = some c)
    (hstill : s.stillEnding n) (hst : c.state.endsReleased) : ∃ t, s.releaseIfRunning = t ∧
      t.endedWith n .released ∧
      (c.state = .lookup ∨ c.state = .prep → ∀ r ∈ t.dies.queue, r.withdrawn n = false) ∧
      (c.state = .prep → ∀ r ∈ t.comp, r.site ≠ n) ∧
      (c.state = .issueWait → (∀ r ∈ t.keys.queue, r.site ≠ n) ∧ t.keys.next = s.keys.next ∧
        ∀ r rest, s.keys.queue = r :: rest → r.site = n → t.keys.derivation = none) ∧
      (c.placeHeld = true → .giveBack n ∈ t.dies.queue) ∧
      ∀ b, s.chain.block = some b → s.mem.wf = true → b.offset + 80 + 48 * c.index + 48 ≤ jobMemorySize →
        (∀ (m : Site) (x : SiteCtx), m ≠ n → s.sites[m] = some x → x.index ≠ c.index) →
        (t.mem.read (b.offset + 80 + 48 * c.index + 12)).toNat = SiteResult.released.code := by
  obtain ⟨m, x, -, hin, hx, hends⟩ := hstill
  have hgoes : ∀ b, s.chain.block = some b → ∃ x, (s.releaseSwept b).sites[m] = some x ∧ x.state ≠ .final := by
    intro b _
    obtain ⟨y, hy, hyx⟩ := releaseCut_unburnt (b := b) hx
    have hstate := unburnt_state hyx
    exact ⟨y, released_ending hy (by rwa [hstate]), by rw [hstate]; rcases hends with h | h <;> simp [h]⟩
  obtain ⟨b, hb, htake⟩ := release_ongoing hs hin hgoes
  obtain ⟨y, hy, hyc⟩ := releaseCut_unburnt (b := b) hc
  obtain ⟨hended, htable, hcomp, hkeys, hplace, hcode⟩ := released_ends hy (by rwa [unburnt_state hyc])
  rw [unburnt_state hyc] at htable hcomp hkeys
  rw [unburnt_placeHeld hyc] at hplace
  rw [unburnt_index hyc] at hcode
  have hindex : ∀ (i : Site) (z : SiteCtx), (s.releaseCut b).sites[i] = some z →
      ∃ z', s.sites[i] = some z' ∧ z'.index = z.index := fun i z hz => by
    have hmap := (releaseCut_cuts s b).unburnt i
    rw [hz] at hmap
    obtain ⟨z', hz', hzz⟩ := Option.map_eq_some_iff.1 hmap.symm
    exact ⟨z', hz', unburnt_index hzz⟩
  generalize s.releaseSwept b = v at *
  refine ⟨v.freshOrder, htake, hended, htable, hcomp, hkeys, hplace, fun b' hb' hwf hin' happart => ?_⟩
  obtain rfl := Option.some.inj (hb.symm.trans hb')
  refine hcode hwf hin' fun i z hi hz => ?_
  obtain ⟨z', hz', hzz⟩ := hindex i z hz
  exact hzz ▸ happart i z' hi hz'

/-- Settles O16: the sweep over the sites, seen at one site in each kind of state. -/
theorem releaseReachesTouchdown : Obligations.ReleaseReachesTouchdown := by
  refine ⟨fun s h => ⟨?_, fun hc => ?_, fun hc => ?_⟩, fun n c s hr hs hin hc hst hnone cmd hcmd => ?_,
    fun n c b d w e s hr hs hin hc hst hb hd hother cmd hcmd => ?_, fun n c s hr hs hin hc hstill hst cmd hcmd => ?_⟩
  · simp [exec, execRelease, releaseIfRunning_none h]
  · simp [exec, execContactFall, hc]
  · have hnone : (s.setContact false).releaseIfRunning = s.setContact false :=
      releaseIfRunning_none (s := s.setContact false) h
    exact ⟨s.setContact false, by simp [exec, execContactFall, hc, hnone], rfl, setContact_same s false⟩
  · rw [exec_release_or_fall hr hcmd]
    obtain ⟨t, ht, hrest⟩ := release_burning (s := s.setContact (if cmd = .release then s.contact else false)) hs hin hc
      (burns_or_ends hst) hnone
    exact ⟨t, by rw [ht], hrest⟩
  · rw [exec_release_or_fall hr hcmd]
    obtain ⟨t, ht, hrest⟩ := release_pulsing (s := s.setContact (if cmd = .release then s.contact else false)) hs hin hc
      hst hb hd hother
    exact ⟨t, by rw [ht], hrest⟩
  · rw [exec_release_or_fall hr hcmd]
    obtain ⟨t, ht, hrest⟩ := release_ending (s := s.setContact (if cmd = .release then s.contact else false)) hs hc
      hstill hst
    exact ⟨t, by rw [ht], hrest⟩

end Sys2Proof.Machine

/-! The die port (R12 to R21, R65, R68, R80, R82, R83): what the answer to each request and the failure of an attempt make
of the site's entry. -/

namespace Sys2Proof.Machine

variable {s u : State} {n : Site} {c x : SiteCtx} {o : Host.Outcome State Fault Refusal} {ps : List Part} {k : Counter}

/-! ### Ends of a meaning (R152) -/

/-- A site that moves on within its entry, as the outcome of a step. -/
theorem siteMoves.step (h : siteMoves s u n x ps) (ho : o = .next u.settleTouchdown) (hin : s.inTouchdown n)
    (hx : x.state ≠ .final) (hc : Part.chain ∉ ps) : ∃ t, o = .next t ∧ siteMoves s t n x ps :=
  ⟨u, h.next ho hin hx hc, h⟩

theorem entryEnds.step {r : SiteResult} (h : entryEnds s u n c r ps) (ho : o = .next u.settleTouchdown)
    (hr : s.othersRun n) (hc : Part.chain ∉ ps) : ∃ t, o = .next t ∧ entryEnds s t n c r ps :=
  ⟨u, h.next ho hr hc, h⟩

/-- A site that changes its context and asks the die table unit. -/
theorem setSite_queueTable_moves (s : State) (n : Site) (x : SiteCtx) (r : TableRequest) :
    siteMoves s ((s.setSite n x).queueTable r) n x [.dies] ∧
      ((s.setSite n x).queueTable r).dies = { s.dies with queue := s.dies.queue ++ [r] } := by
  have hset := setSite_moves s n x
  refine ⟨⟨hset.here, hset.others, fun p hp => ?_⟩, rfl⟩
  cases p <;> simp_all [Part.same]

/-! ### Counts before a move (R182) -/

theorem counts_of_bump (h : u.counters = (s.bump k).counters) :
    u.counter k = satInc (s.counter k) ∧ countersBut [k] s u := by
  have hcounter : ∀ j, u.counter j = (s.bump k).counter j := fun j => by simp only [State.counter, h]
  exact ⟨(hcounter k).trans (bump_counts s k).1, fun j hj => (hcounter j).trans ((bump_counts s k).2 j hj)⟩

theorem entryEnds.of_bump {r : SiteResult} (h : entryEnds (s.bump k) u n c r ps) :
    entryEnds s u n c r (.counters :: ps) where
  ended := h.ended
  others m hm := by simpa using h.others m hm
  code b hb hwf hin := h.code b (by simpa using hb) (by simpa using hwf) hin
  bytes b hb a ha := by simpa using h.bytes b (by simpa using hb) a ha
  frame p hp := by
    have hpart := h.frame p (by simp_all)
    cases p <;> simp_all [Part.same]

theorem closesDry.of_bump {outcome : CloseOutcome} (h : closesDry (s.bump k) u n c outcome ps) :
    closesDry s u n c outcome (.counters :: ps) :=
  ⟨h.moves.of_bump.mono (by intro p hp; simp_all; tauto), by simpa using h.queued⟩

theorem othersRun_bump : (s.bump k).othersRun n ↔ s.othersRun n := by
  simp only [State.othersRun, State.inTouchdown, State.isFinal, State.bump_chain, State.bump_sites]

theorem noHalt_bump (h : s.noHalt) : (s.bump k).noHalt := fun b hb => h b (by simpa using hb)

theorem inTouchdown_bump : (s.bump k).inTouchdown n ↔ s.inTouchdown n := by
  simp only [State.inTouchdown, State.bump_chain]

/-! ### HELLO (R17, R65) -/

theorem exec_hello_answered {f : ResponseFrame} (h : s.answers n c .hello f) (h1 : 16 ≤ helloRows f.data)
    (h2 : helloRows f.data ≤ 512) :
    exec (.helloResponse n f) s = .next (s.helloOk n c f.data).settleTouchdown := by
  obtain ⟨e, -, -, hr⟩ := respond_answered h (fun _ => ⟨h1, h2⟩) State.helloEnded
  simp only [exec, execHelloResponse, hr, State.helloEnded]

theorem helloLocked_eq {d : BitVec 64} {locked : Bool} (h : d.extractLsb' 40 8 = if locked then 1 else 0) :
    helloLocked d = locked := by
  cases locked <;> simp_all [helloLocked]

theorem helloOk_provision (d : BitVec 64) (ha : c.action = .provision) (hh : c.haltPending = false) :
    s.helloOk n c d = (s.setSite n
      { c with rows := some (helloRows d), locked := some (helloLocked d), exch := none, state := .lookup }).queueTable
        (.lookup n c.die) := by
  simp [State.helloOk, ha, hh]

theorem helloOk_reading {d : BitVec 64} (ha : c.action ≠ .provision) (hl : helloLocked d = true)
    (hh : c.haltPending = false) :
    s.helloOk n c d = s.send n { c with rows := some (helloRows d), locked := some true, exch := none } .reading
      .readTag 0 0 0 := by
  unfold State.helloOk
  split
  · contradiction
  · simp [hl, hh]

theorem helloOk_unlocked {d : BitVec 64} (ha : c.action ≠ .provision) (hl : helloLocked d = false) :
    s.helloOk n c d = s.finish n { c with rows := some (helloRows d), locked := some false, exch := none } .notLocked := by
  unfold State.helloOk
  split
  · contradiction
  · simp [hl]

/-- Settles O17: the answer's row count and lock state, and the step by action and lock. -/
theorem helloAnswered : Obligations.HelloAnswered := by
  intro n c f s h h1 h2 hin hh locked hlock
  have hl := helloLocked_eq hlock
  have hexec := exec_hello_answered h h1 h2
  refine ⟨fun ha => ?_, fun ha hlocked => ?_, fun ha hlocked hrun => ?_⟩
  · rw [helloOk_provision f.data ha hh, hl] at hexec
    obtain ⟨hmoves, hqueue⟩ := setSite_queueTable_moves s n
      { c with rows := some (helloRows f.data), locked := some locked, exch := none, state := .lookup } (.lookup n c.die)
    exact ⟨_, hmoves.next hexec hin (by simp) (by simp), hmoves, hqueue⟩
  · rw [helloOk_reading ha (by rw [hl, hlocked]) hh] at hexec
    exact (send_moves s n { c with rows := some (helloRows f.data), locked := some true, exch := none } .reading
      .readTag 0 0 0).step hexec hin (by simp [SiteCtx.asks]) (by simp)
  · rw [helloOk_unlocked ha (by rw [hl, hlocked])] at hexec
    exact (finish_ends s n c { c with rows := some (helloRows f.data), locked := some false, exch := none } .notLocked
      none rfl (.inr (by decide))).step hexec hrun (by simp)

/-! ### Failed attempts (R12, R14) -/

theorem timeoutAt_attempt {e : Exchange} (hc : s.sites[n] = some c) (he : c.exch = some e) :
    s.timeoutAt n = s.attemptFailed n c e := by
  simp only [State.timeoutAt, hc, he]

theorem exec_frameTimeout {e : Exchange} (hc : s.sites[n] = some c) (he : c.exch = some e) :
    exec (.frameTimeout n) s = .next (s.attemptFailed n c e).settleTouchdown := by
  simp only [exec, execFrameTimeout, timeoutAt_attempt hc he]

/-- A response that is judged a failed attempt acts as the end of the timeout. -/
theorem respond_failed {e : Exchange} {cmd : DieCommand} {f : ResponseFrame} (hc : s.sites[n] = some c)
    (he : c.exch = some e) (hcmd : e.cmd = cmd) (hj : judge cmd f = .failed)
    (ended : State → Site → SiteCtx → Exchange → Option (BitVec 64) → State) :
    s.respond n cmd f ended = s.timeoutAt n := by
  rw [timeoutAt_attempt hc he]
  simp only [State.respond, hc, he, hcmd, if_true, hj]

theorem judge_bad {cmd : DieCommand} {f : ResponseFrame} (h : responseGood f = false ∨ f.status = statusBadFrame) :
    judge cmd f = .failed := by
  unfold judge
  rcases h with h | h
  · simp [h]
  · simp [h, statusBadFrame, statusOk, statusRefused]

/-- A HELLO answer with a bad row count fails the attempt whatever its status. -/
theorem judge_badRows {f : ResponseFrame} (h : helloRows f.data < 16 ∨ 512 < helloRows f.data) :
    judge .hello f = .failed := by
  have hrows : ¬(16 ≤ helloRows f.data ∧ helloRows f.data ≤ 512) := by omega
  simp [judge, hrows]

theorem attemptFailed_resends {e : Exchange} (h : e.resends < min 3 s.profile.frameRetries) :
    s.attemptFailed n c e = s.resend n c e := if_pos h

theorem attemptFailed_last {e : Exchange} (h : min 3 s.profile.frameRetries ≤ e.resends) :
    s.attemptFailed n c e = s.exchangeFailed n c := if_neg (Nat.not_lt.2 h)

theorem resend_moves (s : State) (n : Site) (c : SiteCtx) (e : Exchange) :
    siteMoves s (s.resend n c e) n
        { c with exch := some { e with resends := e.resends + 1 }, retries := satInc c.retries, timer := 0 }
        [.counters] ∧
      (s.resend n c e).counter .frameRetries = satInc (s.counter .frameRetries) ∧
      countersBut [.frameRetries] s (s.resend n c e) := by
  have hset := setSite_moves s n
    { c with exch := some { e with resends := e.resends + 1 }, retries := satInc c.retries, timer := 0 }
  refine ⟨⟨hset.here, hset.others, fun p hp => ?_⟩, counts_of_bump (u := s.resend n c e) rfl⟩
  cases p <;> simp_all [Part.same, State.resend]

/-- Settles O18: the resend, the AUTO search's turn, and every bad response as the end of the timeout. -/
theorem failedAttempts : Obligations.FailedAttempts := by
  refine ⟨fun n c e s hc he hst hin => ⟨fun hleft => ?_, fun hlast hhail hauto hnormal => ?_⟩,
    fun n c e f s hc he => ⟨fun hbad => ⟨fun hcmd => ?_, fun hcmd => ?_, fun hcmd => ?_, fun hcmd => ?_, fun hcmd => ?_⟩,
      fun hcmd hrows => ?_⟩⟩
  · have hexec := exec_frameTimeout hc he
    rw [attemptFailed_resends hleft] at hexec
    obtain ⟨hmoves, hcounts⟩ := resend_moves s n c e
    exact ⟨_, hmoves.next hexec hin hst (by simp), hmoves, hcounts⟩
  · have hexec := exec_frameTimeout hc he
    have hsend : s.exchangeFailed n c = s.send n { c with lanesUsed := .reversed } .hail .hello 0 0 0 :=
      if_pos ⟨hhail, hauto, hnormal⟩
    rw [attemptFailed_last hlast, hsend] at hexec
    exact (send_moves s n { c with lanesUsed := .reversed } .hail .hello 0 0 0).step hexec hin (by simp [SiteCtx.asks])
      (by simp)
  · simp only [exec, execHelloResponse, execFrameTimeout, respond_failed hc he hcmd (judge_bad hbad)]
  · simp only [exec, execRowCheckResponse, execFrameTimeout, respond_failed hc he hcmd (judge_bad hbad)]
  · simp only [exec, execArmBitResponse, execFrameTimeout, respond_failed hc he hcmd (judge_bad hbad)]
  · simp only [exec, execSenseBitResponse, execFrameTimeout, respond_failed hc he hcmd (judge_bad hbad)]
  · simp only [exec, execReadTagResponse, execFrameTimeout, respond_failed hc he hcmd (judge_bad hbad)]
  · simp only [exec, execHelloResponse, execFrameTimeout, respond_failed hc he hcmd (judge_badRows hrows)]

/-! ### The last failed attempt (R14, R78, R80) -/

theorem exec_frameTimeout_last {e : Exchange} (hc : s.sites[n] = some c) (he : c.exch = some e)
    (hlast : min 3 s.profile.frameRetries ≤ e.resends)
    (hauto : ¬(c.state = .hail ∧ c.lanesAsked = .auto ∧ c.lanesUsed = .normal)) :
    exec (.frameTimeout n) s =
      .next ((s.bump .contactFails).contactLost n { c with exch := none }).settleTouchdown := by
  have hfailed : s.exchangeFailed n c = (s.bump .contactFails).contactLost n { c with exch := none } := if_neg hauto
  rw [exec_frameTimeout hc he, attemptFailed_last hlast, hfailed]

theorem contactLost_ends (h : c.state = .hail ∨ c.state = .reading ∨ (c.state = .prep ∧ c.placeHeld = false)) :
    s.contactLost n c = s.finish n { c with stop := .contact } .failedContact := by
  unfold State.contactLost
  rcases h with h | h | ⟨h, hp⟩
  · simp [h]
  · simp [h]
  · simp [h, hp, State.giveBack]

/-- The states in which a contact failure stops the burn. -/
theorem contactLost_stops (h : c.state = .resumeCheck ∨ c.state = .burnRow ∨ c.state = .sensing ∨ c.state = .rowVerify ∨
      c.state = .spareSelect ∨ c.state = .remapBurn ∨ c.state = .lockBurn) :
    s.contactLost n c = s.stopBurn n c .contact := by
  unfold State.contactLost
  rcases h with h | h | h | h | h | h | h <;> simp [h]

/-- A burn stopped before its first pulse in a dry run: no CLOSE, the settlement asked for at once (R76, R126). -/
theorem stopBurn_dry (s : State) (n : Site) (c : SiteCtx) (cause : StopCause) (h : c.totalPulses = 0)
    (hd : s.dryRun = true) : closesDry s (s.stopBurn n c cause) n { c with stop := cause } .voidUnused [] := by
  have hstop : s.stopBurn n c cause = s.beginClosing n { c with stop := cause } .voidUnused := if_pos h
  obtain ⟨hcloses, hcounters⟩ := beginClosing_dry s n { c with stop := cause } .voidUnused hd
  rw [← hstop] at hcloses hcounters
  refine ⟨⟨hcloses.moves.here, hcloses.moves.others, fun p hp => ?_⟩, hcloses.queued⟩
  by_cases hcounter : p = .counters
  · subst hcounter
    exact hcounters
  · exact hcloses.moves.frame p (by simp_all)

theorem dryRun_bump : (s.bump k).dryRun = s.dryRun := by simp [State.dryRun]

/-- Settles O19: the count, then the end of the entry by the site's state. -/
theorem contactFailureEndsEntry : Obligations.ContactFailureEndsEntry := by
  intro n c e s hc he hlast hauto
  have hexec := exec_frameTimeout_last hc he hlast hauto
  refine ⟨fun hst hnoHalt hrun => ?_, fun hst hin => ?_⟩
  · rw [contactLost_ends (c := { c with exch := none }) hst] at hexec
    have hends := finish_ends (s.bump .contactFails) n c { c with exch := none, stop := .contact } .failedContact none
      rfl (.inl (noHalt_bump hnoHalt))
    exact ⟨_, hends.next hexec (othersRun_bump.2 hrun) (by simp), hends.of_bump,
      counts_of_bump (hends.frame .counters (by simp))⟩
  · rw [contactLost_stops (c := { c with exch := none }) hst] at hexec
    have hin' : (s.bump .contactFails).inTouchdown n := inTouchdown_bump.2 hin
    refine ⟨fun h0 hd => ?_, fun h0 hd => ?_, fun h0 => ?_⟩
    · have hcloses := stopBurn_void (s.bump .contactFails) n { c with exch := none } .contact h0 (dryRun_bump.trans hd)
      exact ⟨_, hcloses.next hexec hin' (by simp), hcloses.of_bump,
        counts_of_bump (hcloses.moves.frame .counters (by simp))⟩
    · have hcloses := stopBurn_dry (s.bump .contactFails) n { c with exch := none } .contact h0 (dryRun_bump.trans hd)
      exact ⟨_, hcloses.next hexec hin' (by simp), hcloses.of_bump,
        counts_of_bump (hcloses.moves.frame .counters (by simp))⟩
    · obtain ⟨hmoves, hqueue⟩ := stopBurn_park (s.bump .contactFails) n { c with exch := none } .contact h0
      exact ⟨_, hmoves.next hexec hin' (by simp) (by simp), hmoves.of_bump, hqueue,
        counts_of_bump (hmoves.frame .counters (by simp))⟩

/-! ### READ_TAG (R21, R82, R83) -/

theorem exec_readTag_answered {e : Exchange} {f : ResponseFrame} (h : s.answers n c .readTag f) (he : c.exch = some e) :
    exec (.readTagResponse n f) s = .next (s.tagRead n c e.arg f.data).settleTouchdown := by
  obtain ⟨e', he', -, hr⟩ := respond_answered h (by simp) State.tagEnded
  obtain rfl := Option.some.inj (he.symm.trans he')
  simp only [exec, execReadTagResponse, hr, State.tagEnded]

theorem exec_readTag_refused {f : ResponseFrame} (h : s.refuses n c .readTag f) :
    exec (.readTagResponse n f) s = .next (s.finish n c .notLocked).settleTouchdown := by
  obtain ⟨e, -, -, hr⟩ := respond_refused h State.tagEnded
  simp only [exec, execReadTagResponse, hr, State.tagEnded]

theorem tagRead_verify {d : BitVec 64} (ha : c.action = .verify) :
    s.tagRead n c 1 d =
      if tagCheck d = c.expected then (s.bump .diesVerified).finish n c .verified
      else (s.bump .verifyMismatch).finish n c .mismatch := by
  simp [State.tagRead, ha]

theorem tagRead_identify {d : BitVec 64} (ha : c.action = .identify) :
    s.tagRead n c 1 d =
      s.finish n { c with identity := some (decodeIdentity s.chain.wafer (c.tag0 ++ tagStreamTail d)) } .identified := by
  simp [State.tagRead, ha]

theorem decodeIdentity_chars (w : Option WaferContext) (stream : BitVec 96) (i : Fin 16) :
    (decodeIdentity w stream).chars[i.val]? =
      some (((w.map WaferContext.table).getD []).getD ((stream.extractLsb' (6 * (15 - i.val)) 6).toNat) 0) := by
  simp [decodeIdentity, codesOfStream, charOf]

/-- The identity's characters stand from byte 32 of the entry on (R84). -/
theorem entryBytes_identity {r : SiteResult} {ts : Option Nat} {j : Identity} (hj : c.identity = some j) {i : Nat}
    (hi : i < 16) (hlen : i < j.chars.length) : (entryBytes c r ts)[22 + i]? = some j.chars[i] := by
  have hhead : ∀ l : List Byte, l.length = 22 → (l ++ padTo 16 j.chars)[22 + i]? = some j.chars[i] := fun l hl => by
    rw [List.getElem?_append_right (by omega), hl, Nat.add_sub_cancel_left, padTo, List.getElem?_take_of_lt hi,
      List.getElem?_append_left hlen, List.getElem?_eq_getElem hlen]
  rw [entryBytes, hj]
  exact hhead _ (by simp [serialField])

/-- The characters that a final entry with an identity leaves in job memory (R83, R84). -/
theorem enterFinal_identity {b : Block} {r : SiteResult} {ts : Option Nat} {j : Identity} (hb : s.chain.block = some b)
    (hwf : s.mem.wf = true) (hin : b.offset + 80 + 48 * c.index + 48 ≤ jobMemorySize) (hj : c.identity = some j) {i : Nat}
    (hi : i < 16) (hlen : i < j.chars.length) :
    (s.enterFinal n c r ts).mem.read (b.offset + 80 + 48 * c.index + 32 + i) = j.chars[i] := by
  have hbytes := entryBytes_identity (r := r) (ts := ts) hj hi hlen
  simp only [State.enterFinal, State.entryOffset, hb, Option.map_some, State.setSite_mem, State.store, State.setMem_mem]
  rw [Memory.read_writeBytes_in hwf (by omega) (by rw [entryBytes_length]; omega) (by omega)]
  have hplace : b.offset + 80 + 48 * c.index + 32 + i - (b.offset + 80 + 48 * c.index + 10) = 22 + i := by omega
  simp only [hplace]
  exact (List.getElem?_eq_some_iff.1 hbytes).2

theorem finish_noHalt {r : SiteResult} {ts : Option Nat} (hr : r.startsHalt = false) :
    s.finish n c r ts = s.enterFinal n c r ts := reportResult_noHalt _ _ (.inr hr)

/-- Settles O20: the next part, the check word's verdict, the identity read back, and the part refused. -/
theorem readTagAnswered : Obligations.ReadTagAnswered := by
  intro n c e f s hst he
  refine ⟨fun h harg hin => ?_, fun h harg hrun => ⟨fun ha heq => ?_, fun ha hne => ?_, fun ha => ?_⟩, fun h hrun => ?_⟩
  · have hexec := exec_readTag_answered h he
    have hread : s.tagRead n c e.arg f.data = s.send n { c with tag0 := f.data } .reading .readTag 0 0 1 := if_pos harg
    rw [hread] at hexec
    exact (send_moves s n { c with tag0 := f.data } .reading .readTag 0 0 1).step hexec hin (by simp [SiteCtx.asks])
      (by simp)
  · have hexec := exec_readTag_answered h he
    rw [harg, tagRead_verify ha, if_pos (show tagCheck f.data = c.expected from heq)] at hexec
    have hends := finish_ends (s.bump .diesVerified) n c c .verified none rfl (.inr (by decide))
    exact ⟨_, hends.next hexec (othersRun_bump.2 hrun) (by simp), hends.of_bump,
      counts_of_bump (hends.frame .counters (by simp))⟩
  · have hexec := exec_readTag_answered h he
    rw [harg, tagRead_verify ha, if_neg (show tagCheck f.data ≠ c.expected from hne)] at hexec
    have hends := finish_ends (s.bump .verifyMismatch) n c c .mismatch none rfl (.inr (by decide))
    exact ⟨_, hends.next hexec (othersRun_bump.2 hrun) (by simp), hends.of_bump,
      counts_of_bump (hends.frame .counters (by simp))⟩
  · have hexec := exec_readTag_answered h he
    rw [harg, tagRead_identify ha] at hexec
    have hends := finish_ends s n c
      { c with identity := some (decodeIdentity s.chain.wafer (c.tag0 ++ tagStreamTail f.data)) } .identified none rfl
      (.inr (by decide))
    refine ⟨_, hends.next hexec hrun (by simp), hends, fun b hb hwf hin i => ?_⟩
    obtain ⟨hlen, hchar⟩ :=
      List.getElem?_eq_some_iff.1 (decodeIdentity_chars s.chain.wafer (c.tag0 ++ tagStreamTail f.data) i)
    rw [finish_noHalt (by decide)]
    exact (enterFinal_identity (c := { c with identity := some (decodeIdentity s.chain.wafer _) }) hb hwf hin rfl i.isLt
      hlen).trans hchar
  · exact (finish_ends s n c c .notLocked none rfl (.inr (by decide))).step (exec_readTag_refused h) hrun (by simp)

/-! ### The blank check (R68, R69) -/

theorem masksClean_eq_true {d : BitVec 64} (h1 : blownMask d = 0) (h2 : marginalMask d = 0) : masksClean d = true := by
  simp [masksClean, h1, h2]

theorem masksClean_eq_false {d : BitVec 64} (h : blownMask d ≠ 0 ∨ marginalMask d ≠ 0) : masksClean d = false := by
  rw [masksClean, Bool.and_eq_false_iff, decide_eq_false_iff_not, decide_eq_false_iff_not]
  exact h

theorem rowCheckEnded_prep {d : Option (BitVec 64)} (hst : c.state = .prep) :
    s.rowCheckEnded n c d = if (d.map masksClean).getD false then s.blankPassed n c else s.blankFailed n c := by
  simp only [State.rowCheckEnded, hst]

/-- A row that is not blank, or a REFUSED one: the VOID entry is asked for (R68). -/
theorem exec_rowCheck_notBlank {f : ResponseFrame} (hst : c.state = .prep)
    (h : s.refuses n c .rowCheck f ∨ (s.answers n c .rowCheck f ∧ (blownMask f.data ≠ 0 ∨ marginalMask f.data ≠ 0))) :
    exec (.rowCheckResponse n f) s = .next (s.blankFailed n c).settleTouchdown := by
  rcases h with h | ⟨h, hmasks⟩
  · rw [exec_rowCheck_refused h, rowCheckEnded_prep hst]
    rfl
  · rw [exec_rowCheck_answered h, rowCheckEnded_prep hst]
    simp [masksClean_eq_false hmasks]

theorem exec_rowCheck_blank {f : ResponseFrame} (hst : c.state = .prep) (h : s.answers n c .rowCheck f)
    (h1 : blownMask f.data = 0) (h2 : marginalMask f.data = 0) :
    exec (.rowCheckResponse n f) s = .next (s.blankPassed n c).settleTouchdown := by
  rw [exec_rowCheck_answered h, rowCheckEnded_prep hst]
  simp [masksClean_eq_true h1 h2]

theorem blankPassed_next (hh : c.haltPending = false) (hi : c.checkIndex < 13) :
    s.blankPassed n c =
      s.sendRowCheck n { c with checkIndex := c.checkIndex + 1 } .prep (s.profile.blankRow (c.checkIndex + 1)) := by
  have hlt : c.checkIndex + 1 < 14 := by omega
  simp [State.blankPassed, hh, hlt]

theorem blankPassed_last {w : WaferContext} (hh : c.haltPending = false) (hi : c.checkIndex = 13)
    (hw : s.chain.wafer = some w) :
    s.blankPassed n c = (s.setSite n { c with exch := none }).setComp
      (s.comp ++ [{ site := n, lot := w.lot, number := w.number, die := c.die }]) := by
  simp [State.blankPassed, hh, hi, hw]

/-- Settles O21: the next row, the composition after the last, and the VOID entry. -/
theorem blankCheckAnswered : Obligations.BlankCheckAnswered := by
  intro n c f s hst hin
  refine ⟨fun h h1 h2 hh => ⟨fun hi => ?_, fun hi w hw => ?_⟩, fun h => ?_⟩
  · have hexec := exec_rowCheck_blank hst h h1 h2
    rw [blankPassed_next hh hi] at hexec
    exact (sendRowCheck_moves s n { c with checkIndex := c.checkIndex + 1 } .prep _).step hexec hin
      (by simp [SiteCtx.asks]) (by simp)
  · have hexec := exec_rowCheck_blank hst h h1 h2
    rw [blankPassed_last hh hi hw] at hexec
    have hset := setSite_moves s n { c with exch := none }
    have hmoves : siteMoves s ((s.setSite n { c with exch := none }).setComp
        (s.comp ++ [{ site := n, lot := w.lot, number := w.number, die := c.die }])) n { c with exch := none } [.comp] := by
      refine ⟨hset.here, hset.others, fun p hp => ?_⟩
      cases p <;> simp_all [Part.same]
    exact ⟨_, hmoves.next hexec hin (by simp [hst]) (by simp), hmoves, rfl⟩
  · obtain ⟨hmoves, hqueue⟩ := setSite_queueTable_moves s n { c with exch := none } (.voidEntry n c.die)
    exact ⟨_, hmoves.next (exec_rowCheck_notBlank hst h) hin (by simp [hst]) (by simp), hmoves, hqueue⟩

end Sys2Proof.Machine

/-! The burn of record and remap rows (R24 to R40): what the answer to each request makes of the burn state, and the
request that follows. -/

namespace Sys2Proof.Machine

variable {s t u : State} {n : Site} {c : SiteCtx} {b : BurnState} {p : Profile} {tg : Vector FuseRow 12}
  {f : ResponseFrame} {o : Host.Outcome State Fault Refusal} {st : SiteState} {cmd : DieCommand} {row bit : Nat}
  {k : Fin 12} {j : Fin 2} {target : FuseRow} {arg : BitVec 32}

/-! ### Burn state and targets of a context -/

theorem burnState_of (h : c.burn = some b) (p : Profile) : c.burnState p = b := by simp [SiteCtx.burnState, h]

theorem burnTargets_of (h : c.targets = some tg) : c.burnTargets = tg := by simp [SiteCtx.burnTargets, h]

theorem totalPulses_of (h : c.burn = some b) : c.totalPulses = b.totalPulses := by simp [SiteCtx.totalPulses, h]

/-! ### Answers to a ROW_CHECK, by the state that sent it (R15, R18) -/

/-- The states whose ROW_CHECK is a pre-check, a single check, or the lock check (R31, R39, R41). -/
def SiteState.checksRow (st : SiteState) : Prop := st = .burnRow ∨ st = .remapBurn ∨ st = .lockBurn

theorem rowCheckEnded_checks {d : Option (BitVec 64)} (hst : c.state.checksRow) :
    s.rowCheckEnded n c d = s.rowChecked n c ((d.map masksClean).getD false) ((d.map blownMask).getD 0) := by
  rcases hst with h | h | h <;> simp only [State.rowCheckEnded, h]

theorem rowCheckEnded_verify {d : Option (BitVec 64)} (hst : c.state = .rowVerify) :
    s.rowCheckEnded n c d = s.rowVerified n c
      ((d.map (masksMatch ((c.burnState s.profile).curTarget c.burnTargets))).getD false) := by
  simp only [State.rowCheckEnded, hst]

theorem rowCheckEnded_spare {d : Option (BitVec 64)} (hst : c.state = .spareSelect) :
    s.rowCheckEnded n c d = s.spareChecked n c ((d.map masksClean).getD false) := by
  simp only [State.rowCheckEnded, hst]

/-- The ROW_CHECK reported a row that is not clean, or was REFUSED. -/
def State.rowNotClean (s : State) (n : Site) (c : SiteCtx) (f : ResponseFrame) : Prop :=
  s.refuses n c .rowCheck f ∨ (s.answers n c .rowCheck f ∧ (blownMask f.data ≠ 0 ∨ marginalMask f.data ≠ 0))

/-- The ROW_CHECK reported another row than the target, or was REFUSED. -/
def State.rowNotTarget (s : State) (n : Site) (c : SiteCtx) (f : ResponseFrame) (target : FuseRow) : Prop :=
  s.refuses n c .rowCheck f ∨ (s.answers n c .rowCheck f ∧ (blownMask f.data ≠ target ∨ marginalMask f.data ≠ 0))

theorem exec_rowChecked_clean (h : s.answers n c .rowCheck f) (hst : c.state.checksRow) (h1 : blownMask f.data = 0)
    (h2 : marginalMask f.data = 0) :
    exec (.rowCheckResponse n f) s = .next (s.rowChecked n c true 0).settleTouchdown := by
  rw [exec_rowCheck_answered h, rowCheckEnded_checks hst]
  simp [masksClean_eq_true h1 h2, h1]

theorem exec_rowChecked_bad (h : s.rowNotClean n c f) (hst : c.state.checksRow) :
    ∃ blown, exec (.rowCheckResponse n f) s = .next (s.rowChecked n c false blown).settleTouchdown := by
  rcases h with h | ⟨h, hmasks⟩
  · exact ⟨0, by rw [exec_rowCheck_refused h, rowCheckEnded_checks hst]; rfl⟩
  · refine ⟨blownMask f.data, ?_⟩
    rw [exec_rowCheck_answered h, rowCheckEnded_checks hst]
    simp [masksClean_eq_false hmasks]

theorem masksMatch_eq_true {d : BitVec 64} (h1 : blownMask d = target) (h2 : marginalMask d = 0) :
    masksMatch target d = true := by
  simp [masksMatch, h1, h2]

theorem masksMatch_eq_false {d : BitVec 64} (h : blownMask d ≠ target ∨ marginalMask d ≠ 0) :
    masksMatch target d = false := by
  rw [masksMatch, Bool.and_eq_false_iff, decide_eq_false_iff_not, decide_eq_false_iff_not]
  exact h

theorem exec_rowVerified_pass (h : s.answers n c .rowCheck f) (hst : c.state = .rowVerify) (hb : c.burn = some b)
    (htg : c.targets = some tg) (h1 : blownMask f.data = b.curTarget tg) (h2 : marginalMask f.data = 0) :
    exec (.rowCheckResponse n f) s = .next (s.rowVerified n c true).settleTouchdown := by
  rw [exec_rowCheck_answered h, rowCheckEnded_verify hst, burnState_of hb, burnTargets_of htg]
  simp [masksMatch_eq_true h1 h2]

theorem exec_rowVerified_fail (hst : c.state = .rowVerify) (hb : c.burn = some b) (htg : c.targets = some tg)
    (h : s.rowNotTarget n c f (b.curTarget tg)) :
    exec (.rowCheckResponse n f) s = .next (s.rowVerified n c false).settleTouchdown := by
  rcases h with h | ⟨h, hmasks⟩
  · rw [exec_rowCheck_refused h, rowCheckEnded_verify hst]
    rfl
  · rw [exec_rowCheck_answered h, rowCheckEnded_verify hst, burnState_of hb, burnTargets_of htg]
    simp [masksMatch_eq_false hmasks]

theorem exec_spareChecked_clean (h : s.answers n c .rowCheck f) (hst : c.state = .spareSelect)
    (h1 : blownMask f.data = 0) (h2 : marginalMask f.data = 0) :
    exec (.rowCheckResponse n f) s = .next (s.spareChecked n c true).settleTouchdown := by
  rw [exec_rowCheck_answered h, rowCheckEnded_spare hst]
  simp [masksClean_eq_true h1 h2]

theorem exec_spareChecked_bad (h : s.rowNotClean n c f) (hst : c.state = .spareSelect) :
    exec (.rowCheckResponse n f) s = .next (s.spareChecked n c false).settleTouchdown := by
  rcases h with h | ⟨h, hmasks⟩
  · rw [exec_rowCheck_refused h, rowCheckEnded_spare hst]
    rfl
  · rw [exec_rowCheck_answered h, rowCheckEnded_spare hst]
    simp [masksClean_eq_false hmasks]

/-! ### The request that follows (R44, R73) -/

theorem burnOn_going (hh : c.haltPending = false) : s.burnOn n c b = s.burnStep n c b := if_neg (by simp [hh])

theorem BurnState.firstStep.notFinal (h : b.firstStep p st cmd row bit) : st ≠ .final := by
  have hstage : b.cur.stageState ≠ .final := by cases b.cur <;> simp [CurRow.stageState]
  rcases h with ⟨-, rfl, -⟩ | ⟨-, -, rfl, -⟩ | ⟨-, -, ⟨-, -, rfl, -⟩ | ⟨-, -, -, -, -, rfl, -⟩ | ⟨-, -, -, rfl, -⟩ |
    ⟨-, -, rfl, -⟩⟩
  · simp
  · simp
  · exact hstage
  · exact hstage
  · simp
  · simp

/-- The burn goes on with the request of its table (R44). -/
theorem firstStep_next (ho : o = .next (s.burnOn n c b).settleTouchdown) (hin : s.inTouchdown n)
    (hh : c.haltPending = false) (h : b.firstStep s.profile st cmd row bit)
    (harg : s.profile.burnArg cmd = arg := by simp [Profile.burnArg]) :
    ∃ t, o = .next t ∧ siteMoves s t n ({ c with burn := some b }.asks st cmd row bit arg) [] := by
  rw [burnOn_going hh, burnStep_firstStep h, harg] at ho
  exact (send_moves s n { c with burn := some b } st cmd row bit arg).step ho hin (by simpa [SiteCtx.asks] using h.notFinal)
    (by simp)

/-- A bit in hand that can be pulsed is armed. -/
theorem firstStep_arms (hu : b.unsensed = false) (hw : b.spareWanted = false) (hs : b.curState ≠ .notStarted)
    (hb : b.step = .bits) (hp : b.bitPulses ≠ p.pmax) (h1 : 1 ≤ b.width) (h2 : b.rowStress < p.cmax)
    (hst : b.cur.stageState = st) (hrow : b.curPhys p = row) : b.firstStep p st .armBit row b.bit :=
  .inr (.inr ⟨hu, hw, .inr (.inl ⟨hs, hb, hp, h1, h2, hst.symm, rfl, hrow.symm, rfl⟩)⟩)

/-- A row without a bit left is verified. -/
theorem firstStep_verifies (hu : b.unsensed = false) (hw : b.spareWanted = false) (hc : b.cur ≠ .lock)
    (hs : b.curState ≠ .notStarted) (hb : b.step = .verify) (hrow : b.curPhys p = row) :
    b.firstStep p .rowVerify .rowCheck row 0 :=
  .inr (.inr ⟨hu, hw, .inr (.inr (.inl ⟨hc, hs, hb, rfl, rfl, hrow.symm, rfl⟩))⟩)

/-- A row that has not begun is pre-checked. -/
theorem firstStep_preChecks (hu : b.unsensed = false) (hw : b.spareWanted = false) (hc : b.cur ≠ .lock)
    (hs : b.curState = .notStarted) (hst : b.cur.stageState = st) (hrow : b.curPhys p = row) :
    b.firstStep p st .rowCheck row 0 :=
  .inr (.inr ⟨hu, hw, .inl ⟨hc, hs, hst.symm, rfl, hrow.symm, rfl⟩⟩)

/-- A wanted spare is pre-checked. -/
theorem firstStep_spare {i : Nat} (hu : b.unsensed = false) (hw : b.spareWanted = true) (hi : b.nextSpare p i)
    (hus : p.spareUsable i = true) : b.firstStep p .spareSelect .rowCheck (p.spareBase + i) 0 :=
  .inr (.inl ⟨hu, hw, rfl, rfl, rfl, i, hi, hus, rfl⟩)

/-! ### Rows that pass (R30, R31, R33, R39) -/

theorem startBits_top {i : Nat} (h : topBit target 32 i) : b.startBits p target = b.enterBit p i := by
  simp [BurnState.startBits, topBitBelow_of_topBit h]

theorem startBits_zero : b.startBits p 0 = { b with step := .verify, unsensed := false } := by
  simp [BurnState.startBits, topBitBelow_eq_none]

theorem rowChecked_clean_logical (blown : FuseRow) (hb : c.burn = some b) (hcur : b.cur = .logical k)
    (htg : c.targets = some tg) :
    s.rowChecked n c true blown =
      s.burnOn n c (({ b with rowStates := b.rowStates.set k .inProgress, rowStress := 0 }).startBits s.profile tg[k]) := by
  simp [State.rowChecked, burnState_of hb, burnTargets_of htg, hcur, BurnState.preCheckPassed, BurnState.setCurState,
    BurnState.curTarget]

theorem rowVerified_pass (hb : c.burn = some b) : s.rowVerified n c true = s.burnOn n c (b.rowDone s.profile) := by
  simp [State.rowVerified, burnState_of hb]

theorem rowDone_logical {k' : Fin 12} (hcur : b.cur = .logical k) (hk : k'.val = k.val + 1) :
    b.rowDone p =
      { b with
        rowStates := b.rowStates.set k .done, maxStress := max b.maxStress b.rowStress, cur := .logical k'
        bit := 31, step := .bits, rowStress := 0 } := by
  have hlt : k.val + 1 < 12 := hk ▸ k'.isLt
  have hk' : k' = ⟨k.val + 1, hlt⟩ := Fin.ext hk
  simp [BurnState.rowDone, BurnState.setCurState, BurnState.finishRow, BurnState.moveOn, hcur, hlt, hk']

theorem rowDone_last (hcur : b.cur = .logical k) (hk : k.val = 11) :
    b.rowDone p =
      { b with
        rowStates := b.rowStates.set k .done, maxStress := max b.maxStress b.rowStress, stage := .remap
        cur := .remap 0, bit := 31, step := .bits, rowStress := 0 } := by
  simp [BurnState.rowDone, BurnState.setCurState, BurnState.finishRow, BurnState.moveOn, hcur, hk]

/-- Settles O22: the pre-check that passes, with and without a 1-bit, and the verify that passes, before and at row 11. -/
theorem recordRowPasses : Obligations.RecordRowPasses := by
  refine ⟨fun n c b k tg f s h hin hst hb hcur hw htg hh hw0 hpmax hcmax h1 h2 => ⟨fun i hi => ?_, fun h0 => ?_⟩,
    fun n c b k tg f s h hin hst hb hcur hw hu htg hh h1 h2 => ⟨fun k' hk hnot => ?_, fun hk hnot => ?_⟩⟩
  · have hexec := exec_rowChecked_clean h (.inl hst) h1 h2
    rw [rowChecked_clean_logical 0 hb hcur htg, startBits_top hi] at hexec
    exact firstStep_next hexec hin hh (firstStep_arms rfl hw (by simp [BurnState.curState, hcur]) rfl
      (Nat.ne_of_lt hpmax) hw0 hcmax (by simp [hcur, CurRow.stageState]) (by simp [BurnState.curPhys, hcur]))
  · have hexec := exec_rowChecked_clean h (.inl hst) h1 h2
    rw [rowChecked_clean_logical 0 hb hcur htg, h0, startBits_zero] at hexec
    exact firstStep_next hexec hin hh (firstStep_verifies rfl hw (by simp [hcur]) (by simp [BurnState.curState, hcur]) rfl
      (by simp [BurnState.curPhys, hcur]))
  · have hexec := exec_rowVerified_pass h hst hb htg (by simpa [BurnState.curTarget, hcur] using h1) h2
    rw [rowVerified_pass hb, rowDone_logical hcur hk] at hexec
    refine firstStep_next hexec hin hh (firstStep_preChecks hu hw (by simp) ?_ rfl rfl)
    have hne : k.val ≠ k'.val := by omega
    simpa [BurnState.curState, Vector.getElem_set_ne _ _ hne] using hnot
  · have hexec := exec_rowVerified_pass h hst hb htg (by simpa [BurnState.curTarget, hcur] using h1) h2
    rw [rowVerified_pass hb, rowDone_last hcur hk] at hexec
    exact firstStep_next hexec hin hh (firstStep_preChecks hu hw (by simp) hnot rfl rfl)

/-! ### Candidate spares (R35, R36, R38) -/

/-- The board after `m` candidate spares were rejected: each counts (R36). -/
def State.rejecting (s : State) : Nat → State
  | 0 => s
  | m + 1 => (s.bump .sparesRejected).rejecting m

theorem rejecting_same (s : State) (m : Nat) : sameBut [.counters] s (s.rejecting m) := by
  induction m generalizing s with
  | zero => exact fun p _ => by cases p <;> simp [Part.same, State.rejecting]
  | succ m ih =>
    have hbump : sameBut [.counters] s (s.bump .sparesRejected) := fun p hp => by
      cases p <;> simp_all [Part.same]
    exact hbump.trans (ih _)

theorem rejecting_profile (s : State) (m : Nat) : (s.rejecting m).profile = s.profile := by
  simp [State.profile, (rejecting_same s m).chain (by simp)]

theorem rejecting_dryRun (s : State) (m : Nat) : (s.rejecting m).dryRun = s.dryRun := by
  simp [State.dryRun, (rejecting_same s m).chain (by simp)]

theorem rejecting_counts (s : State) (m : Nat) (h : s.counter .sparesRejected ≤ counterMax) :
    (s.rejecting m).counter .sparesRejected = min counterMax (s.counter .sparesRejected + m) ∧
      countersBut [.sparesRejected] s (s.rejecting m) := by
  induction m generalizing s with
  | zero => exact ⟨by simpa [State.rejecting] using h, fun _ _ => rfl⟩
  | succ m ih =>
    obtain ⟨hcount, hothers⟩ := bump_counts s .sparesRejected
    have hbound : satInc (s.counter .sparesRejected) ≤ counterMax := by
      unfold satInc
      split <;> omega
    obtain ⟨hrest, hothers'⟩ := ih (s.bump .sparesRejected) (hcount ▸ hbound)
    refine ⟨?_, fun k hk => (hothers' k hk).trans (hothers k hk)⟩
    rw [State.rejecting, hrest, hcount]
    unfold satInc
    split <;> omega

/-- Candidates that fail their tests are rejected, each counted. -/
theorem selectSpare_unusable (l : List Nat) : ∀ (us : List Nat) (s : State) (b : BurnState),
    (∀ i ∈ us, s.profile.spareUsable i = false) →
    s.selectSpare n c b (us ++ l) =
      (s.rejecting us.length).selectSpare n c { b with rejected := b.rejected ++ us } l
  | [], s, b, _ => by simp [State.rejecting]
  | i :: us, s, b, h => by
    have hi : s.profile.spareUsable i = false := h i List.mem_cons_self
    have hprofile : (s.bump .sparesRejected).profile = s.profile := by simp [State.profile]
    have hrest := selectSpare_unusable l us (s.bump .sparesRejected) (b.reject i) fun x hx => by
      rw [hprofile]
      exact h x (List.mem_cons_of_mem _ hx)
    have happend : (b.reject i).rejected ++ us = b.rejected ++ i :: us := by simp [BurnState.reject]
    rw [happend] at hrest
    have hfirst : s.selectSpare n c b (i :: us ++ l) =
        (s.bump .sparesRejected).selectSpare n c (b.reject i) (us ++ l) := by
      simp [State.selectSpare, hi]
    exact hfirst.trans hrest

theorem selectSpare_usable {i : Nat} {l : List Nat} (h : s.profile.spareUsable i = true) :
    s.selectSpare n c b (i :: l) = s.sendRowCheck n { c with burn := some b } .spareSelect (s.profile.spareBase + i) := by
  simp [State.selectSpare, h]

theorem trySpares_usable {us : List Nat} {i : Nat} (hu : b.unusableBelow s.profile i us) (hi : b.spareLeft s.profile i)
    (h : s.profile.spareUsable i = true) :
    s.trySpares n c b =
      (s.rejecting us.length).sendRowCheck n { c with burn := some { b with rejected := b.rejected ++ us } } .spareSelect
        (s.profile.spareBase + i) := by
  obtain ⟨l, hl⟩ := freeSpares_split hu hi
  rw [State.trySpares, hl, selectSpare_unusable _ us s b hu.2.2,
    selectSpare_usable (by rw [rejecting_profile, h]), rejecting_profile]

theorem trySpares_none {us : List Nat} (hu : b.unusableBelow s.profile s.profile.spareCount us) :
    s.trySpares n c b =
      (s.rejecting us.length).beginClosing n { c with burn := some { b with rejected := b.rejected ++ us } } .failedFuse := by
  have hl := freeSpares_of_unusable hu
  have hselect := selectSpare_unusable (n := n) (c := c) [] us s b hu.2.2
  rw [List.append_nil] at hselect
  rw [State.trySpares, hl, hselect, State.selectSpare]

/-! ### A record row that wants a spare (R34, R38) -/

theorem burnStep_wants (hu : b.unsensed = false) (hw : b.spareWanted = true) :
    s.burnStep n c b = s.trySpares n c b := by
  simp [State.burnStep, hu, hw]

theorem afterBadRow_none (h : b.noSpareLeft s.profile) :
    s.afterBadRow n c b = s.beginClosing n { c with burn := some b } .failedFuse := if_pos (freeSpares_eq_nil h)

theorem afterBadRow_tries (h : b.freeSpares s.profile ≠ []) (hh : c.haltPending = false) (hu : b.unsensed = false)
    (hw : b.spareWanted = true) : s.afterBadRow n c b = s.trySpares n c b := by
  rw [State.afterBadRow, if_neg h, burnOn_going hh, burnStep_wants hu hw]

/-- The counts and the move of a closing in a dry run: FAILED_FUSE counts in DIES_FAILED (R85). -/
theorem beginClosing_dry_failed {outcome : CloseOutcome} (hd : s.dryRun = true) (hf : outcome.isFailed = true) :
    closesDry s (s.beginClosing n c outcome) n c outcome [.counters] ∧
      (s.beginClosing n c outcome).counter .diesFailed = satInc (s.counter .diesFailed) ∧
      countersBut [.diesFailed] s (s.beginClosing n c outcome) := by
  obtain ⟨hcloses, hcounters⟩ := beginClosing_dry s n c outcome hd
  rw [hf, if_pos rfl] at hcounters
  exact ⟨hcloses, counts_of_bump hcounters⟩

/-- What follows a record row that wants a spare, its burn state being `b`. -/
theorem afterBadRow_outcomes (ho : o = .next (s.afterBadRow n c b).settleTouchdown) (hin : s.inTouchdown n)
    (hu : b.unsensed = false) (hw : b.spareWanted = true) :
    (b.noSpareLeft s.profile → s.dryRun = false → ∃ t, o = .next t ∧
      closesWith s t n { c with burn := some b } .failedFuse []) ∧
    (b.noSpareLeft s.profile → s.dryRun = true → ∃ t, o = .next t ∧
      closesDry s t n { c with burn := some b } .failedFuse [.counters] ∧
      t.counter .diesFailed = satInc (s.counter .diesFailed) ∧ countersBut [.diesFailed] s t) ∧
    (∀ us, s.countersBounded → c.haltPending = false → b.unusableBelow s.profile s.profile.spareCount us → us ≠ [] →
      s.dryRun = false → ∃ t, o = .next t ∧
      closesWith s t n { c with burn := some { b with rejected := b.rejected ++ us } } .failedFuse [.counters] ∧
      t.counter .sparesRejected = min counterMax (s.counter .sparesRejected + us.length) ∧
      countersBut [.sparesRejected] s t) ∧
    (∀ us j, s.countersBounded → c.haltPending = false → b.unusableBelow s.profile j us → b.spareLeft s.profile j →
      s.profile.spareUsable j = true → ∃ t, o = .next t ∧
      siteMoves s t n
        ({ c with burn := some { b with rejected := b.rejected ++ us } }.asks .spareSelect .rowCheck
          (s.profile.spareBase + j) 0 s.profile.thresholds) [.counters] ∧
      t.counter .sparesRejected = min counterMax (s.counter .sparesRejected + us.length) ∧
      countersBut [.sparesRejected] s t) ∧
    ∀ i, b.nextSpare s.profile i → s.profile.spareUsable i = true → c.haltPending = false →
      ∃ t, o = .next t ∧
        siteMoves s t n
          ({ c with burn := some b }.asks .spareSelect .rowCheck (s.profile.spareBase + i) 0 s.profile.thresholds) [] := by
  refine ⟨fun hnone hd => ?_, fun hnone hd => ?_, fun us hbound hh hus hne hd => ?_, fun us j hbound hh hus hj huse => ?_,
    fun i hi huse hh => ?_⟩
  · rw [afterBadRow_none hnone] at ho
    have hcloses := beginClosing_closes s n { c with burn := some b } .failedFuse hd
    exact ⟨_, hcloses.next ho hin (by simp), hcloses⟩
  · rw [afterBadRow_none hnone] at ho
    obtain ⟨hcloses, hcounts⟩ := beginClosing_dry_failed (n := n) (c := { c with burn := some b })
      (outcome := .failedFuse) hd rfl
    exact ⟨_, hcloses.next ho hin (by simp), hcloses, hcounts⟩
  · rw [afterBadRow_tries (by rwa [freeSpares_of_unusable hus]) hh hu hw, trySpares_none hus] at ho
    have hsame := rejecting_same s us.length
    have hcloses := beginClosing_closes (s.rejecting us.length) n
      { c with burn := some { b with rejected := b.rejected ++ us } } .failedFuse (by rw [rejecting_dryRun, hd])
    have hin' : (s.rejecting us.length).inTouchdown n := (State.inTouchdown_congr (hsame.chain (by simp))).2 hin
    refine ⟨_, hcloses.next ho hin' (by simp), ⟨(hcloses.moves.after hsame (by simp)).mono (by simp), ?_⟩, ?_⟩
    · rw [hcloses.queued, show (s.rejecting us.length).escrow = s.escrow from hsame .escrow (by simp)]
    · have hcounters := hcloses.moves.frame .counters (by simp)
      simpa only [State.counter, countersBut, show (State.beginClosing _ _ _ _).counters = _ from hcounters] using
        rejecting_counts s us.length (hbound _)
  · obtain ⟨l, hl⟩ := freeSpares_split hus hj
    rw [afterBadRow_tries (by simp [hl]) hh hu hw, trySpares_usable hus hj huse] at ho
    have hsame := rejecting_same s us.length
    have hmoves := sendRowCheck_moves (s.rejecting us.length) n
      { c with burn := some { b with rejected := b.rejected ++ us } } .spareSelect (s.profile.spareBase + j)
    rw [rejecting_profile] at hmoves
    have hin' : (s.rejecting us.length).inTouchdown n := (State.inTouchdown_congr (hsame.chain (by simp))).2 hin
    exact ⟨_, hmoves.next ho hin' (by simp [SiteCtx.asks]) (by simp), hmoves.after hsame (by simp),
      rejecting_counts s us.length (hbound _)⟩
  · obtain ⟨l, hl⟩ := freeSpares_of_nextSpare hi
    have hon : s.afterBadRow n c b = s.burnOn n c b := if_neg (by simp [hl])
    rw [hon] at ho
    exact firstStep_next ho hin hh (firstStep_spare hu hw hi huse)

theorem rowBad_logical (hcur : b.cur = .logical k) :
    b.rowBad =
      { b with
        rowStates := b.rowStates.set k .inProgress, maxStress := max b.maxStress b.rowStress, spareWanted := true } := by
  simp [BurnState.rowBad, BurnState.setCurState, BurnState.finishRow, hcur]

theorem rowChecked_bad_logical (blown : FuseRow) (hb : c.burn = some b) (hcur : b.cur = .logical k) :
    s.rowChecked n c false blown = s.afterBadRow n c b.rowBad := by
  simp [State.rowChecked, burnState_of hb, hcur]

theorem rowVerified_fail (hb : c.burn = some b) :
    s.rowVerified n c false = s.rowFailed n c b State.afterBadRow := by
  simp [State.rowVerified, burnState_of hb]

theorem rowFailed_logical (next : State → Site → SiteCtx → BurnState → State) (hcur : b.cur = .logical k) :
    s.rowFailed n c b next = next s n c b.rowBad := by
  simp [State.rowFailed, hcur]

theorem armRefused_notLock (hb : c.burn = some b) (hcur : b.cur ≠ .lock) :
    s.armRefused n c = s.rowFailed n c b State.afterBadRow := by
  unfold State.armRefused
  rw [burnState_of hb]
  dsimp only
  split
  · contradiction
  · rfl

/-- A record row is judged bad by its pre-check, its row verify or a REFUSED ARM_BIT. -/
theorem exec_recordRowBad {cmd : Instr} (hb : c.burn = some b) (hcur : b.cur = .logical k) (htg : c.targets = some tg)
    (h : (cmd = .rowCheckResponse n f ∧ c.state = .burnRow ∧ s.rowNotClean n c f) ∨
      (cmd = .rowCheckResponse n f ∧ c.state = .rowVerify ∧ s.rowNotTarget n c f tg[k]) ∨
      (cmd = .armBitResponse n f ∧ c.state = .burnRow ∧ s.refuses n c .armBit f)) :
    exec cmd s = .next (s.afterBadRow n c b.rowBad).settleTouchdown := by
  rcases h with ⟨rfl, hst, h⟩ | ⟨rfl, hst, h⟩ | ⟨rfl, -, h⟩
  · obtain ⟨blown, hexec⟩ := exec_rowChecked_bad h (.inl hst)
    rw [hexec, rowChecked_bad_logical blown hb hcur]
  · rw [exec_rowVerified_fail hst hb htg (by simpa [BurnState.curTarget, hcur] using h), rowVerified_fail hb,
      rowFailed_logical _ hcur]
  · rw [exec_armBit_refused h, armRefused_notLock hb (by simp [hcur]), rowFailed_logical _ hcur]

/-- Settles O23: the bad row's burn state, and the choice of its spare. -/
theorem badRecordRowTakesSpare : Obligations.BadRecordRowTakesSpare := by
  intro n c b k tg f cmd s hin hb hcur hu htg h
  have hexec := exec_recordRowBad hb hcur htg h
  rw [rowBad_logical hcur] at hexec
  exact afterBadRow_outcomes hexec hin hu rfl

/-! ### A candidate that is answered (R36, R37) -/

theorem spareChecked_clean {i : Nat} (hb : c.burn = some b) (hcur : b.cur = .logical k) (htg : c.targets = some tg)
    (hi : b.nextSpare s.profile i) :
    s.spareChecked n c true = (s.bump .remaps).burnOn n c (b.accept s.profile k i tg[k]) := by
  obtain ⟨l, hl⟩ := freeSpares_of_nextSpare hi
  simp [State.spareChecked, burnState_of hb, burnTargets_of htg, hl, hcur, BurnState.curTarget]

theorem spareChecked_bad {i : Nat} (hb : c.burn = some b) (hcur : b.cur = .logical k) (hi : b.nextSpare s.profile i) :
    s.spareChecked n c false =
      (s.bump .sparesRejected).afterBadRow n c { b with rejected := b.rejected ++ [i] } := by
  obtain ⟨l, hl⟩ := freeSpares_of_nextSpare hi
  simp [State.spareChecked, burnState_of hb, hl, hcur, BurnState.reject]

theorem profile_bump {k : Counter} : (s.bump k).profile = s.profile := by simp [State.profile]

/-- Settles O24: the acceptance with its arming, the rejection with the next candidate or the end. -/
theorem spareCheckAnswered : Obligations.SpareCheckAnswered := by
  intro n c b k i tg f s hin hst hb hcur hw hu htg hi
  refine ⟨fun h h1 h2 hh hw0 hpmax hcmax j hj => ?_, fun h => ?_⟩
  · have hexec := exec_spareChecked_clean h hst h1 h2
    rw [spareChecked_clean hb hcur htg hi, BurnState.accept, startBits_top hj] at hexec
    rw [← profile_bump (s := s) (k := .remaps)] at hpmax hcmax
    obtain ⟨t, ht, hmoves⟩ := firstStep_next (arg := 0) hexec (inTouchdown_bump.2 hin) hh (firstStep_arms
      (st := .burnRow) (row := s.profile.spareBase + i) rfl rfl (by simp [BurnState.curState, BurnState.enterBit, hcur])
      rfl (Nat.ne_of_lt hpmax) hw0 hcmax (by simp [BurnState.enterBit, hcur, CurRow.stageState])
      (by simp [BurnState.curPhys, BurnState.enterBit, hcur]))
    exact ⟨t, ht, hmoves.of_bump, counts_of_bump (hmoves.frame .counters (by simp))⟩
  · have hexec := exec_spareChecked_bad h hst
    rw [spareChecked_bad hb hcur hi] at hexec
    obtain ⟨hnone, -, -, -, hnext⟩ := afterBadRow_outcomes hexec (inTouchdown_bump.2 hin) hu hw
    rw [profile_bump, dryRun_bump] at hnone
    rw [profile_bump] at hnext
    refine ⟨fun hno hd => ?_, fun j hj huse hh => ?_⟩
    · obtain ⟨t, ht, hcloses⟩ := hnone hno hd
      exact ⟨t, ht, hcloses.of_bump, counts_of_bump (hcloses.moves.frame .counters (by simp))⟩
    · obtain ⟨t, ht, hmoves⟩ := hnext j hj huse hh
      exact ⟨t, ht, hmoves.of_bump, counts_of_bump (hmoves.frame .counters (by simp))⟩

end Sys2Proof.Machine

/-! The remap rows, the lock stage and the judgement of a sense code (R25, R28 to R41). -/

namespace Sys2Proof.Machine

variable {s t u : State} {n : Site} {c : SiteCtx} {b : BurnState} {p : Profile} {tg : Vector FuseRow 12}
  {f : ResponseFrame} {o : Host.Outcome State Fault Refusal} {st : SiteState} {row : Nat} {k : Fin 12} {j : Fin 2}
  {target : FuseRow}

/-! ### Remap rows (R39) -/

theorem topBit.ne_zero {m i : Nat} (h : topBit target m i) : target ≠ 0 := by
  rintro rfl
  simpa using h.2.1

theorem rowChecked_clean_remap (blown : FuseRow) (hb : c.burn = some b) (hcur : b.cur = .remap j) :
    s.rowChecked n c true blown =
      s.burnOn n c (if remapTarget b.remaps j = 0 then b.rowDone s.profile
        else ({ b with remapStates := b.remapStates.set j .inProgress, rowStress := 0 }).startBits s.profile
          (remapTarget b.remaps j)) := by
  simp [State.rowChecked, burnState_of hb, hcur, BurnState.preCheckPassed, BurnState.setCurState, BurnState.curTarget]

theorem rowDone_firstRemap (hcur : b.cur = .remap 0) :
    b.rowDone p =
      { b with
        remapStates := b.remapStates.set 0 .done, maxStress := max b.maxStress b.rowStress, cur := .remap 1
        bit := 31, step := .bits, rowStress := 0 } := by
  simp [BurnState.rowDone, BurnState.setCurState, BurnState.finishRow, BurnState.moveOn, hcur]

theorem rowDone_secondRemap (hcur : b.cur = .remap 1) :
    b.rowDone p =
      { b with
        remapStates := b.remapStates.set 1 .done, maxStress := max b.maxStress b.rowStress, stage := .lock
        cur := .lock, rowStress := 0, bit := 2, step := .bits, width := p.w0, bitPulses := 0, unsensed := false } := by
  simp [BurnState.rowDone, BurnState.setCurState, BurnState.finishRow, BurnState.moveOn, BurnState.enterBit, hcur]

/-- A remap row that is DONE: row 0 is followed by row 1, row 1 by lock bit 2 (R39, R40). -/
theorem remapRow_done (ho : o = .next (s.burnOn n c (b.rowDone s.profile)).settleTouchdown) (hin : s.inTouchdown n)
    (hcur : b.cur = .remap j) (hw : b.spareWanted = false) (hu : b.unsensed = false) (hh : c.haltPending = false) :
    (j = 0 → b.remapStates[(1 : Fin 2)] = .notStarted → ∃ t, o = .next t ∧
      siteMoves s t n
        ({ c with
            burn := some
              { b with
                remapStates := b.remapStates.set 0 .done, maxStress := max b.maxStress b.rowStress
                cur := .remap 1, bit := 31, step := .bits, rowStress := 0 } }.asks .remapBurn .rowCheck
          (s.profile.remapBase + 1) 0 s.profile.thresholds) []) ∧
    (j = 1 → 1 ≤ s.profile.w0 → 1 ≤ s.profile.pmax → 1 ≤ s.profile.cmax → ∃ t, o = .next t ∧
      siteMoves s t n
        ({ c with
            burn := some
              { b with
                remapStates := b.remapStates.set 1 .done, maxStress := max b.maxStress b.rowStress
                stage := .lock, cur := .lock, rowStress := 0, bit := 2, step := .bits, width := s.profile.w0
                bitPulses := 0, unsensed := false } }.asks .lockBurn .armBit s.profile.lockRow 2 0) []) := by
  refine ⟨?_, ?_⟩
  · rintro rfl hnot
    rw [rowDone_firstRemap hcur] at ho
    refine firstStep_next ho hin hh (firstStep_preChecks hu hw (by simp) ?_ rfl rfl)
    simpa [BurnState.curState] using hnot
  · rintro rfl hw0 hpmax hcmax
    rw [rowDone_secondRemap hcur] at ho
    exact firstStep_next ho hin hh (firstStep_arms rfl hw (by simp [BurnState.curState]) rfl (Nat.ne_of_lt hpmax) hw0 hcmax
      rfl rfl)

theorem rowFailed_remap (next : State → Site → SiteCtx → BurnState → State) (hcur : b.cur = .remap j) :
    s.rowFailed n c b next = s.beginClosing n { c with burn := some b.finishRow } .failedRemapRow := by
  simp [State.rowFailed, hcur]

theorem rowChecked_bad_remap (blown : FuseRow) (hb : c.burn = some b) (hcur : b.cur = .remap j) :
    s.rowChecked n c false blown = s.beginClosing n { c with burn := some b.finishRow } .failedRemapRow := by
  simp [State.rowChecked, burnState_of hb, hcur, rowFailed_remap _ hcur]

/-- A remap row is judged bad by its check, its row verify or a REFUSED ARM_BIT. -/
theorem exec_remapRowBad {cmd : Instr} (hb : c.burn = some b) (hcur : b.cur = .remap j) (htg : c.targets = some tg)
    (h : (cmd = .rowCheckResponse n f ∧ c.state = .remapBurn ∧ s.rowNotClean n c f) ∨
      (cmd = .rowCheckResponse n f ∧ c.state = .rowVerify ∧ s.rowNotTarget n c f (remapTarget b.remaps j)) ∨
      (cmd = .armBitResponse n f ∧ c.state = .remapBurn ∧ s.refuses n c .armBit f)) :
    exec cmd s =
      .next (s.beginClosing n { c with burn := some b.finishRow } .failedRemapRow).settleTouchdown := by
  rcases h with ⟨rfl, hst, h⟩ | ⟨rfl, hst, h⟩ | ⟨rfl, -, h⟩
  · obtain ⟨blown, hexec⟩ := exec_rowChecked_bad h (.inr (.inl hst))
    rw [hexec, rowChecked_bad_remap blown hb hcur]
  · rw [exec_rowVerified_fail hst hb htg (by simpa [BurnState.curTarget, hcur] using h), rowVerified_fail hb,
      rowFailed_remap _ hcur]
  · rw [exec_armBit_refused h, armRefused_notLock hb (by simp [hcur]), rowFailed_remap _ hcur]

/-- Settles O25: the empty row, the row with bits, the row verified, and the bad row. -/
theorem remapRowAnswered : Obligations.RemapRowAnswered := by
  intro n c b j tg f s hin hb hcur hw hu htg
  refine ⟨fun h hst h1 h2 h0 hh => ?_, fun h hst h1 h2 hh hw0 hpmax hcmax i hi => ?_, fun h hst h1 h2 hh => ?_,
    fun hd cmd h => ?_⟩
  · have hexec := exec_rowChecked_clean h (.inr (.inl hst)) h1 h2
    rw [rowChecked_clean_remap 0 hb hcur, if_pos h0] at hexec
    exact remapRow_done hexec hin hcur hw hu hh
  · have hexec := exec_rowChecked_clean h (.inr (.inl hst)) h1 h2
    rw [rowChecked_clean_remap 0 hb hcur, if_neg hi.ne_zero, startBits_top hi] at hexec
    exact firstStep_next hexec hin hh (firstStep_arms rfl hw (by simp [BurnState.curState, hcur]) rfl
      (Nat.ne_of_lt hpmax) hw0 hcmax (by simp [hcur, CurRow.stageState]) (by simp [BurnState.curPhys, hcur]))
  · have hexec := exec_rowVerified_pass h hst hb htg (by simpa [BurnState.curTarget, hcur] using h1) h2
    rw [rowVerified_pass hb] at hexec
    exact remapRow_done hexec hin hcur hw hu hh
  · have hcloses := beginClosing_closes s n { c with burn := some b.finishRow } .failedRemapRow hd
    exact ⟨_, hcloses.next (exec_remapRowBad hb hcur htg h) hin (by simp), hcloses⟩

/-! ### The lock check (R41) -/

theorem rowChecked_lock (clean : Bool) (blown : FuseRow) (hb : c.burn = some b) (hcur : b.cur = .lock) :
    s.rowChecked n c clean blown =
      s.beginClosing n { c with burn := some b.finishRow } (if lockBlown blown then .burned else .failedLock) := by
  simp [State.rowChecked, burnState_of hb, hcur]

/-- At least two of three bits. -/
theorem two_le_bits_iff (x y z : Bool) : 2 ≤ x.toNat + y.toNat + z.toNat ↔ (x && y || x && z || y && z) = true := by
  cases x <;> cases y <;> cases z <;> decide

theorem lockBlown_eq (m : FuseRow) :
    lockBlown m = (m.getLsbD 2 && m.getLsbD 1 || m.getLsbD 2 && m.getLsbD 0 || m.getLsbD 1 && m.getLsbD 0) := by
  rw [lockBlown, Bool.eq_iff_iff, decide_eq_true_eq, two_le_bits_iff]

theorem exec_lockCheck {cmd : Instr} (hcmd : cmd = .rowCheckResponse n f) (h : s.answers n c .rowCheck f)
    (hst : c.state = .lockBurn) (hb : c.burn = some b) (hcur : b.cur = .lock) :
    exec cmd s =
      .next (s.beginClosing n { c with burn := some b.finishRow }
        (if lockBlown (blownMask f.data) then .burned else .failedLock)).settleTouchdown := by
  rw [hcmd, exec_rowCheck_answered h, rowCheckEnded_checks (.inr (.inr hst)), rowChecked_lock _ _ hb hcur]
  rfl

/-- A lock check that fails: REFUSED, or with fewer than two of the lock bits set. -/
theorem exec_lockCheck_fails (hst : c.state = .lockBurn) (hb : c.burn = some b) (hcur : b.cur = .lock)
    (h : s.refuses n c .rowCheck f ∨ (s.answers n c .rowCheck f ∧ lockBlown (blownMask f.data) = false)) :
    exec (.rowCheckResponse n f) s =
      .next (s.beginClosing n { c with burn := some b.finishRow } .failedLock).settleTouchdown := by
  rcases h with h | ⟨h, hblown⟩
  · rw [exec_rowCheck_refused h, rowCheckEnded_checks (.inr (.inr hst)), rowChecked_lock _ _ hb hcur]
    rfl
  · rw [exec_lockCheck rfl h hst hb hcur, hblown]
    rfl

theorem lockBits_of_extract {m : FuseRow} {v : BitVec 3} (h : m.extractLsb' 0 3 = v) {i : Nat} (hi : i < 3) :
    m.getLsbD i = v.getLsbD i := by
  rw [← h, BitVec.getLsbD_extractLsb']
  simp [hi]

/-! ### Lock bits (R25, R40) -/

theorem lockBitJudged_zero (h : b.bit = 0) : b.lockBitJudged p = { b with step := .lockCheck, unsensed := false } := by
  simp [BurnState.lockBitJudged, h]

theorem lockBitJudged_succ {i : Nat} (h : b.bit = i + 1) : b.lockBitJudged p = b.enterBit p i := by
  simp [BurnState.lockBitJudged, h]

theorem lockSettle_still (h : ¬(b.step = .bits ∧ b.bitSpent p = true)) (m : Nat) : BurnState.lockSettle p m b = b := by
  cases m <;> exact if_neg h

theorem lockSettle_spent {m : Nat} (h : b.step = .bits) (hs : b.bitSpent p = true) :
    BurnState.lockSettle p (m + 1) b = BurnState.lockSettle p m (b.lockBitJudged p) := if_pos ⟨h, hs⟩

theorem bitSpent_of_pmax (h : b.bitPulses = p.pmax) : b.bitSpent p = true := by simp [BurnState.bitSpent, h]

theorem bitSpent_of_cmax (h : p.cmax ≤ b.rowStress) : b.bitSpent p = true := by
  have hzero : p.cmax - b.rowStress = 0 := by omega
  simp [BurnState.bitSpent, BurnState.pulseWidth, hzero]

theorem bitSpent_eq_false (hp : b.bitPulses ≠ p.pmax) (h1 : 1 ≤ b.width) (h2 : b.rowStress < p.cmax) :
    b.bitSpent p = false := by
  simp [BurnState.bitSpent, BurnState.pulseWidth, hp]
  omega

theorem burnStep_lock (hu : b.unsensed = false) (hw : b.spareWanted = false) (hcur : b.cur = .lock) :
    s.burnStep n c b =
      if (BurnState.lockSettle s.profile 2 b).step = .lockCheck then
        s.sendRowCheck n { c with burn := some (BurnState.lockSettle s.profile 2 b) } .lockBurn s.profile.lockRow
      else s.armBit n c (BurnState.lockSettle s.profile 2 b) := by
  simp [State.burnStep, hu, hw, hcur]

/-- The lock check is sent (R41). -/
theorem firstStep_lockChecks (hu : b.unsensed = false) (hw : b.spareWanted = false) (hcur : b.cur = .lock)
    (hstep : b.step = .lockCheck) : b.firstStep p .lockBurn .rowCheck p.lockRow 0 :=
  .inr (.inr ⟨hu, hw, .inr (.inr (.inr ⟨hcur, hstep, rfl, rfl, rfl, rfl⟩))⟩)

/-- A lock bit in hand that can be pulsed is armed. -/
theorem firstStep_lockArms (hu : b.unsensed = false) (hw : b.spareWanted = false) (hcur : b.cur = .lock)
    (hb : b.step = .bits) (hp : b.bitPulses ≠ p.pmax) (h1 : 1 ≤ b.width) (h2 : b.rowStress < p.cmax) :
    b.firstStep p .lockBurn .armBit p.lockRow b.bit :=
  firstStep_arms hu hw (by simp [BurnState.curState, hcur]) hb hp h1 h2 (by simp [hcur, CurRow.stageState])
    (by simp [BurnState.curPhys, hcur])

/-- The lock bits that are passed over leave the request of the bit, or of the lock check, that they end at. -/
theorem burnOn_lockSettle (hu : b.unsensed = false) (hw : b.spareWanted = false) (hcur : b.cur = .lock)
    (hh : c.haltPending = false) {b' : BurnState} (hb' : BurnState.lockSettle s.profile 2 b = b')
    (hu' : b'.unsensed = false) (hw' : b'.spareWanted = false) (hcur' : b'.cur = .lock)
    (hend : b'.step = .lockCheck ∨ b'.bitSpent s.profile = false) : s.burnOn n c b = s.burnOn n c b' := by
  have hfix : BurnState.lockSettle s.profile 2 b' = b' := lockSettle_still (by
    rintro ⟨hstep, hspent⟩
    rcases hend with h | h
    · rw [hstep] at h
      cases h
    · rw [hspent] at h
      cases h) 2
  rw [burnOn_going hh, burnOn_going hh, burnStep_lock hu hw hcur, burnStep_lock hu' hw' hcur', hb', hfix]

/-! ### The judgement of a sense code (R28, R29) -/

theorem sensed_low {code : Nat} (hb : c.burn = some b) (hcode : code ≤ s.profile.tb) :
    s.sensed n c code =
      s.burnOn n c ({ b with unsensed := false }.bitDone s.profile (b.curTarget c.burnTargets)) := by
  simp [State.sensed, burnState_of hb, hcode]

theorem sensed_high {code : Nat} (hb : c.burn = some b) (hcode : s.profile.tb < code) :
    s.sensed n c code = s.burnOn n c (b.grow s.profile) := by
  simp [State.sensed, burnState_of hb, Nat.not_le.2 hcode]

/-- A sense code above Tb, or a REFUSED SENSE_BIT, which counts as 1023. -/
theorem exec_sensed_high (hb : c.burn = some b) (htb : s.profile.tb < 1023)
    (h : s.refuses n c .senseBit f ∨ (s.answers n c .senseBit f ∧ s.profile.tb < senseCode f.data)) :
    exec (.senseBitResponse n f) s = .next (s.burnOn n c (b.grow s.profile)).settleTouchdown := by
  rcases h with h | ⟨h, hcode⟩
  · rw [exec_senseBit_refused h, sensed_high hb htb]
  · rw [exec_senseBit_answered h, sensed_high hb hcode]

theorem bitDone_lock {b : BurnState} (target : FuseRow) (hcur : b.cur = .lock) :
    b.bitDone p target = b.lockBitJudged p := by
  simp [BurnState.bitDone, hcur]

theorem armRefused_lock (hb : c.burn = some b) (hcur : b.cur = .lock) :
    s.armRefused n c = s.burnOn n c (b.lockBitJudged s.profile) := by
  simp [State.armRefused, burnState_of hb, hcur]

/-- Judged with its pulse sensed or not, the lock bit is followed by the same. -/
theorem lockBitJudged_sensed (b : BurnState) (p : Profile) :
    { b with unsensed := false }.lockBitJudged p = b.lockBitJudged p := by
  unfold BurnState.lockBitJudged
  cases b.bit <;> rfl

/-- A lock bit that is done or whose ARM_BIT is REFUSED. -/
theorem exec_lockBitJudged {cmd : Instr} (hb : c.burn = some b) (hcur : b.cur = .lock)
    (h : (cmd = .senseBitResponse n f ∧ c.state = .sensing ∧ s.answers n c .senseBit f ∧
        senseCode f.data ≤ s.profile.tb) ∨
      (cmd = .armBitResponse n f ∧ c.state = .lockBurn ∧ s.refuses n c .armBit f)) :
    exec cmd s = .next (s.burnOn n c (b.lockBitJudged s.profile)).settleTouchdown := by
  rcases h with ⟨rfl, -, h, hcode⟩ | ⟨rfl, -, h⟩
  · rw [exec_senseBit_answered h, sensed_low hb hcode, bitDone_lock (b := { b with unsensed := false }) _ hcur,
      lockBitJudged_sensed]
  · rw [exec_armBit_refused h, armRefused_lock hb hcur]

theorem grownWidth_pos {w : Nat} (h1 : 1 ≤ p.wmax) (h2 : 1 ≤ w) : 1 ≤ grownWidth p w := by
  simp only [grownWidth]
  omega

/-- A lock bit sensed above Tb: armed again while it can be, else the next one, or the lock check. -/
theorem lockBit_high (ho : o = .next (s.burnOn n c (b.grow s.profile)).settleTouchdown) (hin : s.inTouchdown n)
    (hcur : b.cur = .lock) (hstep : b.step = .bits) (hw : b.spareWanted = false) (hh : c.haltPending = false)
    (hw0 : 1 ≤ s.profile.w0) (hwmax : 1 ≤ s.profile.wmax) (hpmax : 1 ≤ s.profile.pmax) (hwidth : 1 ≤ b.width) :
    (b.bitPulses ≠ s.profile.pmax → b.rowStress < s.profile.cmax → ∃ t, o = .next t ∧
      siteMoves s t n
        ({ c with burn := some { b with width := grownWidth s.profile b.width, unsensed := false } }.asks .lockBurn .armBit
          s.profile.lockRow b.bit 0) []) ∧
    (∀ i, b.bitPulses = s.profile.pmax → b.rowStress < s.profile.cmax → b.bit = i + 1 → i ≤ 1 →
      ∃ t, o = .next t ∧
        siteMoves s t n
          ({ c with
              burn := some { b with bit := i, width := s.profile.w0, bitPulses := 0, unsensed := false } }.asks
            .lockBurn .armBit s.profile.lockRow i 0) []) ∧
    ((b.bitPulses = s.profile.pmax ∨ s.profile.cmax ≤ b.rowStress) → b.bit = 0 → ∃ t, o = .next t ∧
      siteMoves s t n
        ({ c with
            burn := some
              { b with width := grownWidth s.profile b.width, step := .lockCheck, unsensed := false } }.asks .lockBurn
          .rowCheck s.profile.lockRow 0 s.profile.thresholds) []) ∧
    (s.profile.cmax ≤ b.rowStress → 1 ≤ b.bit → b.bit ≤ 2 → ∃ t, o = .next t ∧
      siteMoves s t n
        ({ c with
            burn := some
              { b with
                bit := 0, width := s.profile.w0, bitPulses := 0, step := .lockCheck, unsensed := false } }.asks
          .lockBurn .rowCheck s.profile.lockRow 0 s.profile.thresholds) []) := by
  have hbits : ∀ i, { b with bit := i, width := s.profile.w0, bitPulses := 0, unsensed := false } =
      (b.grow s.profile).enterBit s.profile i := fun i => by
    rw [BurnState.enterBit, BurnState.grow, ← hstep]
  refine ⟨fun hp hcmax => ?_, fun i hp hcmax hbit hi => ?_, fun hspent hbit => ?_, fun hcmax hbit1 hbit2 => ?_⟩
  · exact firstStep_next ho hin hh
      (firstStep_lockArms rfl hw hcur hstep hp (grownWidth_pos hwmax hwidth) hcmax)
  · have hsettle : BurnState.lockSettle s.profile 2 (b.grow s.profile) = (b.grow s.profile).enterBit s.profile i := by
      rw [lockSettle_spent (b := b.grow s.profile) hstep (bitSpent_of_pmax hp), lockBitJudged_succ (b := b.grow s.profile) hbit]
      exact lockSettle_still (fun h => by
        rw [bitSpent_eq_false (b := (b.grow s.profile).enterBit s.profile i) (Nat.ne_of_lt hpmax) hw0 hcmax] at h
        cases h.2) 1
    rw [burnOn_lockSettle (b := b.grow s.profile) rfl hw hcur hh hsettle rfl hw hcur
      (.inr (bitSpent_eq_false (Nat.ne_of_lt hpmax) hw0 hcmax))] at ho
    rw [hbits]
    exact firstStep_next ho hin hh (firstStep_lockArms rfl hw hcur rfl (Nat.ne_of_lt hpmax) hw0 hcmax)
  · have hsettle : BurnState.lockSettle s.profile 2 (b.grow s.profile) =
        { b.grow s.profile with step := .lockCheck, unsensed := false } := by
      have hgspent : (b.grow s.profile).bitSpent s.profile = true := by
        rcases hspent with h | h
        · exact bitSpent_of_pmax h
        · exact bitSpent_of_cmax h
      rw [lockSettle_spent (b := b.grow s.profile) hstep hgspent, lockBitJudged_zero (b := b.grow s.profile) hbit]
      exact lockSettle_still (fun h => by cases h.1) 1
    rw [burnOn_lockSettle (b := b.grow s.profile) rfl hw hcur hh hsettle rfl hw hcur (.inl rfl)] at ho
    exact firstStep_next ho hin hh (firstStep_lockChecks rfl hw hcur rfl)
  · have hlast : ∀ m, BurnState.lockSettle s.profile (m + 1) ((b.grow s.profile).enterBit s.profile 0) =
        { b with bit := 0, width := s.profile.w0, bitPulses := 0, step := .lockCheck, unsensed := false } := fun m => by
      rw [lockSettle_spent (b := (b.grow s.profile).enterBit s.profile 0) rfl (bitSpent_of_cmax hcmax),
        lockBitJudged_zero (b := (b.grow s.profile).enterBit s.profile 0) rfl]
      exact lockSettle_still (fun h => by cases h.1) m
    have hlast0 : BurnState.lockSettle s.profile 0 ((b.grow s.profile).enterBit s.profile 0) =
        { b with bit := 0, width := s.profile.w0, bitPulses := 0, step := .lockCheck, unsensed := false } :=
      if_pos ⟨rfl, bitSpent_of_cmax hcmax⟩
    have hsettle : BurnState.lockSettle s.profile 2 (b.grow s.profile) =
        { b with bit := 0, width := s.profile.w0, bitPulses := 0, step := .lockCheck, unsensed := false } := by
      obtain hbit | hbit : b.bit = 0 + 1 ∨ b.bit = 1 + 1 := by omega
      · rw [lockSettle_spent (b := b.grow s.profile) hstep (bitSpent_of_cmax hcmax),
          lockBitJudged_succ (b := b.grow s.profile) hbit,
          hlast 0]
      · rw [lockSettle_spent (b := b.grow s.profile) hstep (bitSpent_of_cmax hcmax),
          lockBitJudged_succ (b := b.grow s.profile) hbit,
          lockSettle_spent (b := (b.grow s.profile).enterBit s.profile 1) rfl (bitSpent_of_cmax hcmax),
          lockBitJudged_succ (b := (b.grow s.profile).enterBit s.profile 1) (i := 0) rfl]
        exact hlast0
    rw [burnOn_lockSettle (b := b.grow s.profile) rfl hw hcur hh hsettle rfl hw hcur (.inl rfl)] at ho
    exact firstStep_next ho hin hh (firstStep_lockChecks rfl hw hcur rfl)

/-- Settles O26: the lock check live and dry, the lock bit that is judged, and the one sensed above Tb. -/
theorem lockStage : Obligations.LockStage := by
  refine ⟨fun n c b f s hin hd hst hb hcur => ⟨fun h hbits => ?_, fun h => ?_⟩,
    fun n c b f cmd s hin hb hcur hstep hu hw hh hw0 hpmax h => ⟨fun i hbit hi hcmax => ?_, fun hbit => ?_⟩,
    fun n c b f s hin hd hst hb hcur h => ⟨fun hbits => ?_, fun hbits => ?_⟩,
    fun n c b f s hin hb hcur hstep hst hw hh hw0 hwmax hpmax htb h hwidth => ?_⟩
  · have hexec := exec_lockCheck rfl h hst hb hcur
    rw [lockBlown_eq, hbits] at hexec
    have hcloses := beginClosing_closes s n { c with burn := some b.finishRow } .burned hd
    exact ⟨_, hcloses.next hexec hin (by simp), hcloses⟩
  · have hexec := exec_lockCheck_fails hst hb hcur (h.imp_right fun ⟨h, hbits⟩ => ⟨h, by
      rw [lockBlown_eq]
      rcases hbits with ⟨h1, h2⟩ | ⟨h1, h2⟩ | ⟨h1, h2⟩ <;> rw [h1, h2] <;> simp only [Bool.and_false, Bool.false_and,
        Bool.or_false]⟩)
    have hcloses := beginClosing_closes s n { c with burn := some b.finishRow } .failedLock hd
    exact ⟨_, hcloses.next hexec hin (by simp), hcloses⟩
  · have hexec := exec_lockBitJudged hb hcur h
    have hbits : { b with bit := i, width := s.profile.w0, bitPulses := 0, unsensed := false } =
        b.enterBit s.profile i := by rw [BurnState.enterBit, ← hstep]
    rw [lockBitJudged_succ hbit] at hexec
    rw [hbits]
    exact firstStep_next hexec hin hh (firstStep_lockArms rfl hw hcur rfl (Nat.ne_of_lt hpmax) hw0 hcmax)
  · have hexec := exec_lockBitJudged hb hcur h
    rw [lockBitJudged_zero hbit] at hexec
    exact firstStep_next hexec hin hh (firstStep_lockChecks rfl hw hcur rfl)
  · have hexec := exec_lockCheck rfl h hst hb hcur
    have hblown : lockBlown (blownMask f.data) = true := by
      rw [lockBlown_eq, lockBits_of_extract hbits (i := 2) (by omega), lockBits_of_extract hbits (i := 1) (by omega)]
      rfl
    rw [hblown, if_pos rfl] at hexec
    obtain ⟨hcloses, hcounters⟩ := beginClosing_dry s n { c with burn := some b.finishRow } .burned hd
    exact ⟨_, hcloses.next hexec hin (by simp), hcloses, fun k _ => congrArg (·[k.index]) hcounters⟩
  · have hexec := exec_lockCheck rfl h hst hb hcur
    have hblown : lockBlown (blownMask f.data) = false := by
      rw [lockBlown_eq, lockBits_of_extract hbits (i := 2) (by omega), lockBits_of_extract hbits (i := 1) (by omega)]
      rfl
    rw [hblown, if_neg (by simp)] at hexec
    obtain ⟨hcloses, hcounts⟩ := beginClosing_dry_failed (n := n) (c := { c with burn := some b.finishRow })
      (outcome := .failedLock) hd rfl
    exact ⟨_, hcloses.next hexec hin (by simp), hcloses, hcounts⟩
  · exact lockBit_high (exec_sensed_high hb htb h) hin hcur hstep hw hh hw0 hwmax hpmax hwidth

/-! ### A sense code on a record or remap row (R25, R28 to R39) -/

theorem BurnState.onRow.fields (h : b.onRow p tg st row target) :
    b.cur ≠ .lock ∧ b.curState = .inProgress ∧ b.cur.stageState = st ∧ b.curPhys p = row ∧ b.curTarget tg = target := by
  rcases h with ⟨k, hcur, hk, rfl, rfl, rfl⟩ | ⟨j, hcur, hj, rfl, rfl, rfl⟩
  · simp only [BurnState.curState, BurnState.curPhys, BurnState.curTarget, hcur, CurRow.stageState, ne_eq, reduceCtorEq,
      not_false_eq_true, hk, and_self]
  · simp only [BurnState.curState, BurnState.curPhys, BurnState.curTarget, hcur, CurRow.stageState, ne_eq, reduceCtorEq,
      not_false_eq_true, hj, and_self]

/-- Bit, width, pulses and stress do not say which row is in hand. -/
theorem bitDone_row (hcur : b.cur ≠ .lock) :
    b.bitDone p target =
      match topBitBelow b.bit target with
      | some i => b.enterBit p i
      | none => { b with step := .verify, unsensed := false } := by
  unfold BurnState.bitDone
  split
  · contradiction
  · rfl

theorem burnStep_spent (hu : b.unsensed = false) (hw : b.spareWanted = false) (hcur : b.cur ≠ .lock)
    (hs : b.curState ≠ .notStarted) (hstep : b.step = .bits) (hspent : b.bitSpent s.profile = true) :
    s.burnStep n c b = s.rowFailed n c b State.trySpares := by
  unfold State.burnStep
  dsimp only
  rw [if_neg (by simp [hu]), if_neg (by simp [hw])]
  split
  · contradiction
  · rw [if_neg hs, if_pos hstep, if_pos hspent]

/-- A record row in progress that wants a spare keeps its row states. -/
theorem rowBad_inProgress (hcur : b.cur = .logical k) (hk : b.rowStates[k] = .inProgress) :
    b.rowBad = { b with maxStress := max b.maxStress b.rowStress, spareWanted := true } := by
  have hset : b.rowStates.set k .inProgress = b.rowStates := by
    rw [← hk]
    simp
  rw [rowBad_logical hcur, hset]

theorem onRow_logical (h : b.onRow p tg st row target) (hcur : b.cur = .logical k) : b.rowStates[k] = .inProgress := by
  have hstate := h.fields.2.1
  simpa only [BurnState.curState, hcur] using hstate

/-- The bit on a row is done: the next one below it is armed, after the last the row is verified. -/
theorem rowBit_low (ho : o = .next (s.burnOn n c ({ b with unsensed := false }.bitDone s.profile target)).settleTouchdown)
    (hin : s.inTouchdown n) (hrow : b.onRow s.profile tg st row target) (hstep : b.step = .bits)
    (hw : b.spareWanted = false) (hh : c.haltPending = false) (hw0 : 1 ≤ s.profile.w0) (hpmax : 1 ≤ s.profile.pmax) :
    (∀ i, topBit target b.bit i → b.rowStress < s.profile.cmax → ∃ t, o = .next t ∧
      siteMoves s t n
        ({ c with
            burn := some
              { b with bit := i, width := s.profile.w0, bitPulses := 0, unsensed := false } }.asks st .armBit row i 0)
        []) ∧
    ((∀ i, i < b.bit → target.getLsbD i = false) → ∃ t, o = .next t ∧
      siteMoves s t n
        ({ c with burn := some { b with step := .verify, unsensed := false } }.asks .rowVerify .rowCheck row 0
          s.profile.thresholds) []) := by
  obtain ⟨hcur, hstate, hst, hphys, -⟩ := hrow.fields
  have hnot : b.curState ≠ .notStarted := by simp [hstate]
  rw [bitDone_row (b := { b with unsensed := false }) hcur] at ho
  refine ⟨fun i hi hcmax => ?_, fun hnone => ?_⟩
  · have hbits : { b with bit := i, width := s.profile.w0, bitPulses := 0, unsensed := false } =
        b.enterBit s.profile i := by rw [BurnState.enterBit, ← hstep]
    rw [topBitBelow_of_topBit (n := BurnState.bit _) hi] at ho
    rw [hbits]
    exact firstStep_next ho hin hh (firstStep_arms rfl hw hnot rfl (Nat.ne_of_lt hpmax) hw0 hcmax hst hphys)
  · rw [topBitBelow_eq_none (n := BurnState.bit _) hnone] at ho
    exact firstStep_next ho hin hh (firstStep_verifies rfl hw hcur hnot rfl hphys)

/-- A bit on a row that has failed its test: the row wants a spare, or the remap row ends the burn. -/
theorem rowBit_failed (ho : o = .next (s.burnOn n c b).settleTouchdown)
    (hrow : b.onRow s.profile tg st row target) (hstep : b.step = .bits) (hw : b.spareWanted = false)
    (hu : b.unsensed = false) (hh : c.haltPending = false) (hspent : b.bitSpent s.profile = true) :
    (∀ k, b.cur = .logical k → o = .next (s.trySpares n c
      { b with maxStress := max b.maxStress b.rowStress, spareWanted := true }).settleTouchdown) ∧
    ∀ j, b.cur = .remap j → o = .next (s.beginClosing n
      { c with burn := some { b with maxStress := max b.maxStress b.rowStress } } .failedRemapRow).settleTouchdown := by
  obtain ⟨hcur, hstate, -⟩ := hrow.fields
  rw [burnOn_going hh, burnStep_spent hu hw hcur (by simp [hstate]) hstep hspent] at ho
  refine ⟨fun k hk => ?_, fun j hj => ?_⟩
  · rw [ho, rowFailed_logical _ hk, rowBad_inProgress hk (onRow_logical hrow hk)]
  · rw [ho, rowFailed_remap _ hj]
    rfl

theorem trySpares_empty (h : b.noSpareLeft s.profile) :
    s.trySpares n c b = s.beginClosing n { c with burn := some b } .failedFuse := by
  simp [State.trySpares, freeSpares_eq_nil h, State.selectSpare]

/-- Settles O31: the bit that is done, the one armed again, and the one that has failed. -/
theorem senseCodeDecidesBit : Obligations.SenseCodeDecidesBit := by
  intro n c b tg st row target f s hin hst hb htg hrow hstep hw hh hw0 hwmax hpmax htb
  obtain ⟨hcur, hstate, hstage, hphys, htarget⟩ := hrow.fields
  refine ⟨fun h hcode => ?_, fun h hwidth => ?_⟩
  · have hexec := exec_senseBit_answered h
    rw [sensed_low hb hcode, burnTargets_of htg, htarget] at hexec
    exact rowBit_low hexec hin hrow hstep hw hh hw0 hpmax
  intro b' bad
  refine ⟨fun hp hcmax => ?_, fun hspent => ?_⟩
  · have hnot : (b.grow s.profile).curState ≠ .notStarted := by
      rw [show (b.grow s.profile).curState = .inProgress from hstate]
      simp
    exact firstStep_next (exec_sensed_high hb htb h) hin hh
      (firstStep_arms rfl hw hnot hstep hp (grownWidth_pos hwmax hwidth) hcmax hstage hphys)
  · have hspent' : b'.bitSpent s.profile = true := by
      rcases hspent with h | h
      · exact bitSpent_of_pmax h
      · exact bitSpent_of_cmax h
    obtain ⟨hrecord, hremap⟩ := rowBit_failed (b := b') (exec_sensed_high hb htb h) hrow hstep hw rfl hh hspent'
    refine ⟨fun k hk hnone hd => ?_, fun k hk hnone hd => ?_, fun k us i hk hbound hus hi huse => ?_, fun k hk hd => ?_,
      fun k hk hd => ?_⟩
    · have hexec := hrecord k hk
      rw [trySpares_empty (b := bad) hnone] at hexec
      have hcloses := beginClosing_closes s n { c with burn := some bad } .failedFuse hd
      exact ⟨_, hcloses.next hexec hin (by simp), hcloses⟩
    · have hexec := hrecord k hk
      rw [trySpares_empty (b := bad) hnone] at hexec
      obtain ⟨hcloses, hcounts⟩ := beginClosing_dry_failed (n := n) (c := { c with burn := some bad })
        (outcome := .failedFuse) hd rfl
      exact ⟨_, hcloses.next hexec hin (by simp), hcloses, hcounts⟩
    · have hexec := hrecord k hk
      rw [trySpares_usable (b := bad) hus hi huse] at hexec
      have hsame := rejecting_same s us.length
      have hmoves := sendRowCheck_moves (s.rejecting us.length) n
        { c with burn := some { bad with rejected := b.rejected ++ us } } .spareSelect (s.profile.spareBase + i)
      rw [rejecting_profile] at hmoves
      have hin' : (s.rejecting us.length).inTouchdown n := (State.inTouchdown_congr (hsame.chain (by simp))).2 hin
      exact ⟨_, hmoves.next hexec hin' (by simp [SiteCtx.asks]) (by simp), hmoves.after hsame (by simp),
        rejecting_counts s us.length (hbound _)⟩
    · have hcloses := beginClosing_closes s n
        { c with burn := some { b' with maxStress := max b.maxStress b.rowStress } } .failedRemapRow hd
      exact ⟨_, hcloses.next (hremap k hk) hin (by simp), hcloses⟩
    · obtain ⟨hcloses, hcounts⟩ := beginClosing_dry_failed (n := n)
        (c := { c with burn := some { b' with maxStress := max b.maxStress b.rowStress } }) (outcome := .failedRemapRow) hd
        rfl
      exact ⟨_, hcloses.next (hremap k hk) hin (by simp), hcloses, hcounts⟩

end Sys2Proof.Machine

/-! The burn channels and the arbiter (R48 to R57): which request a READY channel drives, what a pulse that ended leaves
at its site, and the ends of the timers. -/

namespace Sys2Proof.Machine

variable {s t u : State} {n : Site} {c x y : SiteCtx} {b : BurnState} {d : Chan} {r : GrantRequest} {ps qs : List Part}
  {w e : Nat} {ch : Channel}

/-! ### Two moves of one site -/

theorem siteMoves.trans (h : siteMoves s t n x ps) (h' : siteMoves t u n y qs) : siteMoves s u n y (ps ++ qs) where
  here := h'.here
  others m hm := (h'.others m hm).trans (h.others m hm)
  frame := (h.frame.mono (by simp)).trans (h'.frame.mono (by simp))

/-- A change of other parts that follows a site's move. -/
theorem siteMoves.before (h : siteMoves s t n x ps) (h' : sameBut qs t u) (hs : Part.sites ∉ qs) :
    siteMoves s u n x (ps ++ qs) := by
  have hsites : u.sites = t.sites := h' .sites hs
  refine ⟨by rw [hsites, h.here], fun m hm => by rw [hsites, h.others m hm], ?_⟩
  exact (h.frame.mono (by simp)).trans (h'.mono (by simp))

/-! ### One channel -/

theorem setChan_same (s : State) (d : Chan) (ch : Channel) : sameBut [.chans] s (s.setChan d ch) := fun p hp => by
  cases p <;> simp_all [Part.same]

theorem setChan_here (s : State) (d : Chan) (ch : Channel) : (s.setChan d ch).chans[d] = ch := by
  rw [setChan_get, if_pos rfl]

theorem setChan_others (s : State) (d : Chan) (ch : Channel) : chansBut d s (s.setChan d ch) := fun j hj => by
  rw [setChan_get, if_neg hj]

/-! ### The arbiter (R56) -/

/-- The request whose arbitration number is above all others is the top one. -/
theorem topRequest_of_max {l : List GrantRequest} (hr : r ∈ l) (hmax : ∀ q ∈ l, q ≠ r → q.arb < r.arb) :
    topRequest l = some r := by
  induction l with
  | nil => exact (nomatch hr)
  | cons q l ih =>
    by_cases hl : r ∈ l
    · have hrest := ih hl fun q' hq' => hmax q' (List.mem_cons_of_mem _ hq')
      by_cases hq : q = r
      · simp [topRequest, hrest, hq]
      · simp [topRequest, hrest, hmax q List.mem_cons_self hq]
    · obtain rfl : r = q := (List.mem_cons.1 hr).resolve_right hl
      cases hrest : topRequest l with
      | none => simp [topRequest, hrest]
      | some q' =>
        have hmem := topRequest_mem hrest
        have hlt := hmax q' (List.mem_cons_of_mem _ hmem) fun h => hl (h ▸ hmem)
        simp [topRequest, hrest, Nat.not_lt.2 hlt.le]

/-- A channel is not READY or nothing waits: it is granted nothing. -/
theorem grantTo_still (h : s.chans[d].state ≠ .ready ∨ s.waiting = []) : s.grantTo d = s := by
  unfold State.grantTo
  rcases h with h | h
  · rw [if_neg h]
  · simp [h, topRequest]

theorem foldl_grantTo_still {l : List Chan} (h : ∀ i ∈ l, s.chans[i].state ≠ .ready ∨ s.waiting = []) :
    l.foldl State.grantTo s = s := by
  induction l with
  | nil => rfl
  | cons i l ih =>
    rw [List.foldl_cons, grantTo_still (h i List.mem_cons_self)]
    exact ih fun j hj => h j (List.mem_cons_of_mem _ hj)

theorem arbitrate_still (h : (∀ i : Chan, s.chans[i].state ≠ .ready) ∨ s.waiting = []) : s.arbitrate = s :=
  foldl_grantTo_still fun i _ => h.imp_left fun h => h i

/-- A channel of the list stands behind the lower ones and before the higher ones. -/
theorem allChans_split (d : Chan) : ∃ l m, allChans = l ++ d :: m ∧ (∀ i ∈ l, i < d) ∧ ∀ i ∈ m, d < i := by
  obtain ⟨l, m, h⟩ := List.append_of_mem (allChans_mem d)
  have hsorted : allChans.Pairwise (· < ·) := by decide
  rw [h, List.pairwise_append, List.pairwise_cons] at hsorted
  exact ⟨l, m, h, fun i hi => hsorted.2.2 i hi d List.mem_cons_self, hsorted.2.1.1⟩

theorem grant_waiting (s : State) (d : Chan) (r : GrantRequest) :
    (s.grant d r).waiting = s.waiting.filter fun q => decide (q.site ≠ r.site) := by
  simp [State.grant]

theorem grant_here (s : State) (d : Chan) (r : GrantRequest) :
    (s.grant d r).chans[d] = { s.chans[d] with state := .driving r.site r.width 0 } := by
  simp only [State.grant, modSite_waiting_chans]
  exact setChan_here (s.leaveWaiting r.site) d _

theorem grant_others (s : State) (d : Chan) (r : GrantRequest) : chansBut d s (s.grant d r) := by
  intro j hj
  simp only [State.grant, modSite_waiting_chans]
  exact setChan_others (s.leaveWaiting r.site) d _ j hj

theorem grant_moves (hx : s.sites[r.site] = some x) :
    siteMoves s (s.grant d r) r.site { x with state := .pulsing } [.chans, .waiting] := by
  have hsame : sameBut [.chans, .waiting] s
      ((s.leaveWaiting r.site).setChan d { s.chans[d] with state := .driving r.site r.width 0 }) := fun p hp => by
    cases p <;> simp_all [Part.same]
  unfold State.grant
  rw [modSite_at _ _ _ (by simpa using hx)]
  exact (setSite_moves _ _ _).after hsame (by simp)

/-- The lowest-numbered READY channel drives the top request, and nothing is left to grant: no other channel was READY,
or no other request waits. -/
theorem arbitrate_grants (hd : s.chans[d].state = .ready) (hbefore : ∀ i : Chan, i < d → s.chans[i].state ≠ .ready)
    (hr : topRequest s.waiting = some r)
    (hafter : (∀ i : Chan, i ≠ d → s.chans[i].state ≠ .ready) ∨ (s.grant d r).waiting = []) :
    s.arbitrate = s.grant d r := by
  obtain ⟨l, m, hsplit, hl, hm⟩ := allChans_split d
  have hgrant : s.grantTo d = s.grant d r := by simp only [State.grantTo, if_pos hd, hr]
  rw [State.arbitrate, hsplit, List.foldl_append, foldl_grantTo_still fun i hi => .inl (hbefore i (hl i hi)),
    List.foldl_cons, hgrant]
  refine foldl_grantTo_still fun i hi => hafter.imp_left fun hother => ?_
  have hne : i ≠ d := (hm i hi).ne'
  rw [grant_others s d r i hne]
  exact hother i hne

theorem mem_waiting_of_grant (hsite : ∀ q ∈ s.waiting, q.site = r.site → q = r) (q : GrantRequest) :
    q ∈ (s.grant d r).waiting ↔ q ∈ s.waiting ∧ q ≠ r := by
  rw [grant_waiting, List.mem_filter, decide_eq_true_eq]
  exact and_congr_right fun hq => not_congr ⟨hsite q hq, fun h => h ▸ rfl⟩

/-- A channel that becomes READY while no other one is drives the request of the highest arbitration number. -/
theorem arbitrate_offered (hidle : ∀ i : Chan, s.chans[i].state ≠ .ready) (hch : ch.state = .ready) (hr : r ∈ s.waiting)
    (hmax : ∀ q ∈ s.waiting, q ≠ r → q.arb < r.arb) :
    (s.setChan d ch).arbitrate = (s.setChan d ch).grant d r := by
  have hothers : ∀ i : Chan, i ≠ d → (s.setChan d ch).chans[i].state ≠ .ready := fun i hi => by
    rw [setChan_others s d ch i hi]
    exact hidle i
  exact arbitrate_grants (by rw [setChan_here, hch]) (fun i hi => hothers i hi.ne)
    (by simpa using topRequest_of_max hr hmax) (.inl hothers)

theorem grant_setChan_here (s : State) (d : Chan) (ch : Channel) (r : GrantRequest) :
    ((s.setChan d ch).grant d r).chans[d] = { ch with state := .driving r.site r.width 0 } := by
  rw [grant_here, setChan_here]

theorem grant_setChan_others (s : State) (d : Chan) (ch : Channel) (r : GrantRequest) :
    chansBut d s ((s.setChan d ch).grant d r) := fun j hj => by
  rw [grant_others (s.setChan d ch) d r j hj, setChan_others s d ch j hj]

/-! ### An armed bit applies for a pulse (R26, R55) -/

/-- The request that an armed bit applies with. -/
def SiteCtx.pulseRequest (c : SiteCtx) (n : Site) (b : BurnState) (p : Profile) : GrantRequest :=
  { site := n, arb := c.arb, width := min b.width (p.cmax - b.rowStress), timer := 0 }

/-- The state that an armed bit hands to the arbiter. -/
def State.applying (s : State) (n : Site) (c : SiteCtx) (b : BurnState) : State :=
  (s.setSite n { c with state := .waitGrant, exch := none }).setWaiting (c.pulseRequest n b s.profile :: s.waiting)

theorem armed_eq (hb : c.burn = some b) (hh : c.haltPending = false) :
    s.armed n c = (s.applying n c b).arbitrate := by
  simp [State.armed, hh, burnState_of hb, State.joinWaiting, BurnState.pulseWidth, State.applying, SiteCtx.pulseRequest]

theorem applying_moves (s : State) (n : Site) (c : SiteCtx) (b : BurnState) :
    siteMoves s (s.applying n c b) n { c with state := .waitGrant, exch := none } [.waiting] :=
  (setSite_moves s n _).before (fun p hp => by cases p <;> simp_all [Part.same, State.applying]) (by simp)

/-- Settles O27: an armed bit's request with and without a READY channel, and the channel whose settle timer expires. -/
theorem arbiterGrants : Obligations.ArbiterGrants := by
  refine ⟨fun n c b f s h hin hb hh => ⟨fun hidle => ?_, fun d hempty hd hbefore => ?_⟩,
    fun d k r c s hk hidle hr hsite hmax hc => ?_⟩
  · have hexec := exec_armBit_answered h
    rw [armed_eq hb hh, arbitrate_still (s := s.applying n c b) (.inl hidle)] at hexec
    exact ⟨_, (applying_moves s n c b).next hexec hin (by simp) (by simp), applying_moves s n c b, rfl⟩
  · have hexec := exec_armBit_answered h
    have hwaiting : (s.applying n c b).waiting = [c.pulseRequest n b s.profile] := by simp [State.applying, hempty]
    have hnone : ((s.applying n c b).grant d (c.pulseRequest n b s.profile)).waiting = [] := by
      rw [grant_waiting, hwaiting]
      simp
    rw [armed_eq hb hh, arbitrate_grants (s := s.applying n c b) (r := c.pulseRequest n b s.profile) hd hbefore
    (by rw [hwaiting]; rfl)
      (.inr hnone)] at hexec
    have hmoves := (applying_moves s n c b).trans (grant_moves (d := d) (r := c.pulseRequest n b s.profile)
      (applying_moves s n c b).here)
    have hmoves' := hmoves.mono (qs := [.chans, .waiting]) (by simp)
    exact ⟨_, hmoves'.next hexec hin (by simp) (by simp), hmoves', hnone, grant_here _ d _, grant_others _ d _⟩
  · have hexec : exec (.settleTimerExpiry d) s =
        .next (s.setChan d { s.chans[d] with state := .ready }).arbitrate := by
      simp only [exec, execSettleTimerExpiry, hk]
    rw [arbitrate_offered hidle rfl hr hmax] at hexec
    exact ⟨_, hexec, (grant_moves (by simpa using hc)).after (setChan_same s d _) (by simp) |>.mono (by simp),
      grant_setChan_here s d _ r, grant_setChan_others s d _ r, mem_waiting_of_grant (by simpa using hsite)⟩

/-! ### The end of a pulse (R27, R28, R51, R52) -/

/-- The context of a site whose pulse of width w ended: charged in full, its settle delay begun. -/
def SiteCtx.pulsed (c : SiteCtx) (b : BurnState) (w : Nat) : SiteCtx :=
  { c with state := .settling, timer := 0, burn := some (b.charge w) }

theorem pulseEnd_eq (hc : s.sites[n] = some c) (hb : c.burn = some b) (w : Nat) :
    (s.chargePulse n w).beginSettle n =
      ((s.setSite n { c with burn := some (b.charge w) }).bump .pulses).setSite n (c.pulsed b w) := by
  have hcharge : s.chargePulse n w = (s.setSite n { c with burn := some (b.charge w) }).bump .pulses := by
    simp [State.chargePulse, hc, hb]
  rw [hcharge, State.beginSettle, modSite_at (c := { c with burn := some (b.charge w) }) _ _ _ (by simp)]
  rfl

theorem pulseEnd_moves (hc : s.sites[n] = some c) (hb : c.burn = some b) (w : Nat) :
    siteMoves s ((s.chargePulse n w).beginSettle n) n (c.pulsed b w) [.counters] := by
  rw [pulseEnd_eq hc hb]
  exact (setSite_moves s n _).trans (setSite_moves _ n _).of_bump

theorem pulseEnd_counters (hc : s.sites[n] = some c) (hb : c.burn = some b) (w : Nat) :
    ((s.chargePulse n w).beginSettle n).counters = (s.bump .pulses).counters := by
  rw [pulseEnd_eq hc hb]
  rfl

/-- The state after a pulse of width w at a site has ended. -/
def State.pulseEnd (s : State) (n : Site) (w : Nat) : State := (s.chargePulse n w).beginSettle n

theorem exec_pulseComplete (hd : s.chans[d].state = .driving n w e) : exec (.pulseComplete d) s =
    .next ((s.pulseEnd n w).setChan d { s.chans[d] with state := .ready }).arbitrate := by
  simp only [exec, execPulseComplete, hd, chargePulse_setChan, beginSettle_setChan, State.pulseEnd]

@[simp] theorem State.pulseEnd_chans (s : State) (n : Site) (w : Nat) : (s.pulseEnd n w).chans = s.chans := by
  simp [State.pulseEnd]

@[simp] theorem State.pulseEnd_waiting (s : State) (n : Site) (w : Nat) : (s.pulseEnd n w).waiting = s.waiting := by
  simp [State.pulseEnd]

@[simp] theorem State.pulseEnd_reg (s : State) (n : Site) (w : Nat) : (s.pulseEnd n w).reg = s.reg := by
  simp [State.pulseEnd]

theorem setChan_pulseEnd_others (s : State) (n : Site) (w : Nat) (d : Chan) (ch : Channel) :
    chansBut d s ((s.pulseEnd n w).setChan d ch) := fun j hj => by
  rw [setChan_others (s.pulseEnd n w) d ch j hj, State.pulseEnd_chans]

/-- Settles O28: a channel that drives nothing, one whose pulse completes with nothing waiting, and one that is granted
again. -/
theorem pulseCompletionCharges : Obligations.PulseCompletionCharges := by
  refine ⟨fun d s hd => ?_, fun d n w e c b s hd hc hb hempty => ?_,
    fun d n w e c x b r s hd hc hb hidle hr hrn hx hmax => ?_⟩
  · simp only [exec, execPulseComplete]
  · have hexec := exec_pulseComplete hd
    rw [arbitrate_still (.inr (by simpa using hempty))] at hexec
    obtain ⟨hcount, hcounts⟩ := counts_of_bump (pulseEnd_counters hc hb w)
    exact ⟨_, hexec, ((pulseEnd_moves hc hb w).before (setChan_same _ d _) (by simp)).mono (by simp),
      setChan_here _ d _, setChan_pulseEnd_others s n w d _, hcount, hcounts⟩
  · have hexec := exec_pulseComplete hd
    have hends := pulseEnd_moves hc hb w
    have hends' := hends.before (setChan_same (s.pulseEnd n w) d { s.chans[d] with state := .ready }) (by simp)
    have hmax' : ∀ q ∈ (s.pulseEnd n w).waiting, q ≠ r → q.arb < r.arb ∧ q.site ≠ r.site := by simpa using hmax
    rw [arbitrate_offered (s := s.pulseEnd n w) (by simpa only [State.pulseEnd_chans] using hidle) rfl (by simpa using hr)
      fun q hq hne => (hmax' q hq hne).1] at hexec
    obtain ⟨hcount, hcounts⟩ := counts_of_bump (pulseEnd_counters hc hb w)
    have hgrant := grant_moves (s := (s.pulseEnd n w).setChan d { s.chans[d] with state := .ready }) (d := d)
      ((hends'.others r.site hrn).trans hx)
    have hcounters := hgrant.frame .counters (by simp)
    refine ⟨_, hexec, (hgrant.others n hrn.symm).trans hends'.here, hgrant.here,
      fun m hm hmr => (hgrant.others m hmr).trans (hends'.others m hm), grant_setChan_here _ d _ r, fun j hj => ?_, ?_, ?_, ?_,
      (hends'.frame.mono (by simp)).trans (hgrant.frame.mono (by simp))⟩
    · rw [grant_setChan_others (s.pulseEnd n w) d _ r j hj, State.pulseEnd_chans]
    · have hmem := mem_waiting_of_grant (d := d) (r := r)
        (s := (s.pulseEnd n w).setChan d { s.chans[d] with state := .ready }) fun q hq hsite =>
          by_contra fun hne => (hmax' q hq hne).2 hsite
      simpa using hmem
    · exact (congrArg (·[_]) hcounters).trans hcount
    · exact fun k hk => (congrArg (·[_]) hcounters).trans (hcounts k hk)

/-! ### Loss and restoration of regulation (R48, R49, R52) -/

theorem goOffline_same (s : State) (d : Chan) : sameBut [.chans, .reg, .counters] s (s.goOffline d) := fun p hp => by
  cases p <;> simp_all [Part.same]

theorem exec_regulationLost_driving (hd : s.chans[d].state = .driving n w e) : exec (.regulationLost d) s =
    .next (((s.pulseEnd n w).setChan d { s.chans[d] with good := false }).goOffline d) := by
  simp only [exec, execRegulationLost, hd, chargePulse_setChan, beginSettle_setChan, State.pulseEnd]

theorem exec_regulationLost_idle (hoff : s.chans[d].state ≠ .offline) (hd : ∀ n w e, s.chans[d].state ≠ .driving n w e) :
    exec (.regulationLost d) s = .next ((s.setChan d { s.chans[d] with good := false }).goOffline d) := by
  simp only [exec, execRegulationLost]

theorem goOffline_lost (s : State) (d : Chan) :
    ((s.setChan d { s.chans[d] with good := false }).goOffline d).chans[d] = { state := .offline, good := false } ∧
    chansBut d s ((s.setChan d { s.chans[d] with good := false }).goOffline d) := by
  refine ⟨?_, fun j hj => ?_⟩
  · rw [goOffline_chan, if_pos rfl, setChan_here]
  · rw [goOffline_chan, if_neg hj, setChan_others s d _ j hj]

theorem goOffline_reg (s : State) (d : Chan) : (s.goOffline d).reg = s.reg.setEvent .channelUnlock := rfl

theorem goOffline_counters (s : State) (d : Chan) : (s.goOffline d).counters = (s.bump .channelUnlocks).counters := rfl

/-- Settles O29: the loss at a channel that drives nothing and at one that drives a pulse, and the restoration. -/
theorem regulationMovesChannel : Obligations.RegulationMovesChannel := by
  refine ⟨fun d s hoff hd => ?_, fun d n w e c b s hd hc hb => ?_, fun d s => ?_⟩
  · obtain ⟨hhere, hothers⟩ := goOffline_lost s d
    obtain ⟨hcount, hcounts⟩ := counts_of_bump (s := s)
      (goOffline_counters (s.setChan d { s.chans[d] with good := false }) d)
    exact ⟨_, exec_regulationLost_idle hoff hd, hhere, hothers, goOffline_reg _ d, hcount, hcounts,
      ((setChan_same s d _).mono (by simp)).trans (goOffline_same _ d)⟩
  · obtain ⟨hhere, hothers⟩ := goOffline_lost (s.pulseEnd n w) d
    obtain ⟨hcount, hcounts⟩ := counts_of_bump (pulseEnd_counters hc hb w)
    obtain ⟨hunlock, hunlocks⟩ := counts_of_bump (s := s.pulseEnd n w)
      (goOffline_counters ((s.pulseEnd n w).setChan d { s.chans[d] with good := false }) d)
    have hmoves := ((pulseEnd_moves hc hb w).before
      (setChan_same (s.pulseEnd n w) d { s.chans[d] with good := false }) (by simp)).before (goOffline_same _ d) (by simp)
    rw [State.pulseEnd_chans] at *
    refine ⟨_, exec_regulationLost_driving hd, hmoves.mono (by simp), hhere, fun j hj => ?_, ?_, hunlock.trans ?_, ?_,
      fun k hk => ?_⟩
    · rw [hothers j hj, State.pulseEnd_chans]
    · exact (goOffline_reg _ d).trans (by simp)
    · exact congrArg satInc (hcounts .channelUnlocks (by simp))
    · exact (hunlocks .pulses (by simp)).trans hcount
    · exact (hunlocks k fun h => hk (by simp_all)).trans (hcounts k fun h => hk (by simp_all))
  · by_cases hoff : s.chans[d].state = .offline
    · refine ⟨s.setChan d { state := .settling 0, good := true }, ?_, ?_, setChan_others s d _, setChan_same s d _⟩
      · simp only [exec, execRegulationRestored, hoff]
      · rw [setChan_here, if_pos hoff]
    · refine ⟨s.setChan d { s.chans[d] with good := true }, ?_, ?_, setChan_others s d _, setChan_same s d _⟩
      · simp only [exec, execRegulationRestored]
      · rw [setChan_here, if_neg hoff]

/-! ### The ends of the other timers (R28, R48, R57) -/

theorem closesWith.after {outcome : CloseOutcome} (h : sameBut qs s u) (hs : Part.sites ∉ qs) (he : Part.escrow ∉ qs)
    (m : closesWith u t n c outcome ps) : closesWith s t n c outcome (qs ++ ps) := by
  have hescrow : u.escrow = s.escrow := h .escrow he
  exact ⟨(m.moves.after h hs).mono (by intro p hp; simp_all; tauto), by rw [m.queued, hescrow]⟩

theorem closesDry.after {outcome : CloseOutcome} (h : sameBut qs s u) (hs : Part.sites ∉ qs) (hd : Part.dies ∉ qs)
    (m : closesDry u t n c outcome ps) : closesDry s t n c outcome (qs ++ ps) := by
  have hdies : u.dies = s.dies := h .dies hd
  exact ⟨(m.moves.after h hs).mono (by intro p hp; simp_all; tauto), by rw [m.queued, hdies]⟩

/-- The state after a site's request left the waiting set by its grant limit. -/
def State.timedOut (s : State) (n : Site) : State := (s.leaveWaiting n).bump .grantTimeouts

theorem timedOut_same (s : State) (n : Site) : sameBut [.waiting, .counters] s (s.timedOut n) := fun p hp => by
  cases p <;> simp_all [Part.same, State.timedOut]

theorem exec_grantLimitExpiry (hc : s.sites[n] = some c) (hr : ∃ r ∈ s.waiting, r.site = n) :
    exec (.grantLimitExpiry n) s = .next ((s.timedOut n).stopBurn n c .supply) := by
  have hwaits : s.isWaiting n = true := by simpa [State.isWaiting] using hr
  simp only [exec, execGrantLimitExpiry, if_pos hwaits, hc, State.timedOut]

/-- What a stop that leaves waiting set and counters alone keeps of the end of the grant limit. -/
theorem timedOut_keeps (h : sameBut ps (s.timedOut n) t) (hw : Part.waiting ∉ ps) (hk : Part.counters ∉ ps) :
    t.waiting = s.waiting.filter (fun r => decide (r.site ≠ n)) ∧
      t.counter .grantTimeouts = satInc (s.counter .grantTimeouts) ∧ countersBut [.grantTimeouts] s t :=
  ⟨h .waiting hw, counts_of_bump (s := s) (h .counters hk)⟩

/-- Settles O30: the settle delay, the grant limit live, dry and after a pulse, and the settle timer. -/
theorem timersEnd : Obligations.TimersEnd := by
  refine ⟨fun n c b s hc hst hb => ?_, fun n c s hc hr => ⟨fun h0 hd => ?_, fun h0 hd => ?_, fun h0 => ?_⟩,
    fun n s hnone => ?_, fun d k s hd hempty => ?_⟩
  · refine ⟨_, ?_, send_moves s n c .sensing .senseBit (b.curPhys s.profile) b.bit 0⟩
    simp only [exec, execSiteSettleDelayEnd, hc, if_pos hst, burnState_of hb]
  · have hstops := stopBurn_void (s.timedOut n) n c .supply h0 hd
    exact ⟨_, exec_grantLimitExpiry hc hr, hstops.after (timedOut_same s n) (by simp) (by simp),
      timedOut_keeps hstops.moves.frame (by simp) (by simp)⟩
  · have hstops := stopBurn_dry (s.timedOut n) n c .supply h0 hd
    exact ⟨_, exec_grantLimitExpiry hc hr, hstops.after (timedOut_same s n) (by simp) (by simp),
      timedOut_keeps hstops.moves.frame (by simp) (by simp)⟩
  · obtain ⟨hparks, hdies⟩ := stopBurn_park (s.timedOut n) n c .supply h0
    exact ⟨_, exec_grantLimitExpiry hc hr, hparks.after (timedOut_same s n) (by simp), hdies,
      timedOut_keeps hparks.frame (by simp) (by simp)⟩
  · have hwaits : s.isWaiting n = false := by simpa [State.isWaiting] using hnone
    simp [exec, execGrantLimitExpiry, hwaits]
  · refine ⟨s.setChan d { s.chans[d] with state := .ready }, ?_, setChan_here s d _, setChan_others s d _, setChan_same s d _⟩
    simp only [exec, execSettleTimerExpiry, hd]
    rw [arbitrate_still (.inr (by simpa using hempty))]

end Sys2Proof.Machine

/-! The key unit and the composition unit (chapters 5 and 6): the end of an import, the service of the derivation queue,
the reports of a reservation write, a completed derivation, and the composition unit's answer. -/

namespace Sys2Proof.Machine

variable {s t u : State} {n : Site} {c : SiteCtx} {ps qs : List Part} {r : DerivRequest} {rest : List DerivRequest}
  {st : ImportStore} {b : Block} {tag : Nat}

/-! ### An entry that ends after other parts changed -/

theorem entryEnds.after {result : SiteResult} (h : sameBut qs s u) (hs : Part.sites ∉ qs) (hm : Part.mem ∉ qs)
    (hc : Part.chain ∉ qs) (e : entryEnds u t n c result ps) : entryEnds s t n c result (qs ++ ps) := by
  have hsites : u.sites = s.sites := h .sites hs
  have hmem : u.mem = s.mem := h .mem hm
  have hchain : u.chain = s.chain := h .chain hc
  refine ⟨e.ended, fun m hmn => by rw [e.others m hmn, hsites], fun b hb hwf hin => ?_, fun b hb a ha => ?_, ?_⟩
  · exact e.code b (by rw [hchain, hb]) (by rw [hmem, hwf]) hin
  · rw [e.bytes b (by rw [hchain, hb]) a ha, hmem]
  · refine (h.mono fun p hp => ?_).trans (e.frame.mono fun p hp => ?_)
    all_goals simp only [List.mem_cons, List.mem_append] at *; tauto

theorem entryEnds.mono {result : SiteResult} (e : entryEnds s t n c result ps) (h : ps ⊆ qs) :
    entryEnds s t n c result qs :=
  ⟨e.ended, e.others, e.code, e.bytes, e.frame.mono (List.cons_subset_cons _ (List.cons_subset_cons _ h))⟩

theorem noHalt_congr (h : u.chain = s.chain) : u.noHalt ↔ s.noHalt := by
  simp only [State.noHalt, h]

theorem othersRun_congr (h : u.chain = s.chain) (hs : u.sites = s.sites) : u.othersRun n ↔ s.othersRun n := by
  simp only [State.othersRun, State.inTouchdown, State.isFinal, h, hs]

theorem setKeys_same (s : State) (k : KeyUnit) : sameBut [.keys] s (s.setKeys k) := fun p hp => by
  cases p <;> simp_all [Part.same]

theorem queueTable_same (s : State) (r : TableRequest) : sameBut [.dies] s (s.queueTable r) := fun p hp => by
  cases p <;> simp_all [Part.same]

/-! ### The end of an import (R88, R89, R156) -/

theorem ImportStore.verifies_iff : st.verifies = true ↔
    Config.rootTag Config.importKey st.root = BitVec.ofNat 64 (leNat (st.rootBlob.drop 36)) ∧
      Config.transportTag Config.importKey st.transport = BitVec.ofNat 64 (leNat (st.transportBlob.drop 32)) := by
  simp [ImportStore.verifies]

theorem exec_keyImportComplete (hi : s.keys.importing = some st) (hb : s.chain.block = some b) (hw : b.work = .loadKeys) :
    exec .keyImportComplete s = .next ((s.setKeys (s.keys.import st)).blockDone b st.answer) := by
  simp only [exec, execKeyImportComplete, hi, State.loadKeysDone, State.setKeys_chain, hb, hw]

/-- A LOAD_KEYS in hand is done after the key unit took its store. -/
theorem keyImport_ends (k : KeyUnit) (r : BlockResult) (h : s.waitsAfter b tag) :
    blockDoneWaiting s ((s.setKeys k).blockDone b r) b tag r ∧ doneBytes s ((s.setKeys k).blockDone b r) b ∧
      ((s.setKeys k).blockDone b r).keys = k ∧ sameBut [.reg, .mem, .chain, .keys] s ((s.setKeys k).blockDone b r) := by
  have hwait : (s.setKeys k).waitsAfter b tag := waitsAfter_of_agree h h.memory rfl rfl rfl rfl
  obtain ⟨hdone, hbytes, hsame⟩ := blockDone_waits r hwait
  exact ⟨⟨hdone.chain, hdone.result, hdone.doneTag, hdone.events⟩, hbytes, hsame .keys (by simp),
    ((setKeys_same s k).mono (by simp)).trans (hsame.mono (by simp))⟩

/-- Settles O33: no import in hand, and both answers of the key unit. -/
theorem keyImportDecided : Obligations.KeyImportDecided := by
  refine ⟨fun s hi => by simp only [exec, execKeyImportComplete, hi], fun st b tag s hi hb hw hwait => ?_⟩
  obtain ⟨hdone, hbytes, hkeys, hsame⟩ := keyImport_ends (s.keys.import st) st.answer hwait
  refine ⟨_, exec_keyImportComplete hi hb hw, hsame, hbytes, fun hroot htransport => ?_, fun hbad => ?_⟩
  · have hv := ImportStore.verifies_iff.2 ⟨hroot, htransport⟩
    rw [show st.answer = .ok from if_pos hv] at *
    exact ⟨hdone, hkeys.trans (if_pos hv)⟩
  · have hv : ¬st.verifies = true := fun h => by
      obtain ⟨hroot, htransport⟩ := ImportStore.verifies_iff.1 h
      exact hbad.elim (· hroot) (· htransport)
    rw [show st.answer = .keysRejected from if_neg hv] at *
    exact ⟨hdone, hkeys.trans (if_neg hv)⟩

/-! ### The derivation queue (R94, R97, R101) -/

theorem exec_derivationQueueServe (hq : s.keys.queue = r :: rest) (hd : s.keys.derivation = none)
    (ha : s.keys.alloc ≠ .reserving) : exec .derivationQueueServe s = .next (s.serveHead r).settleTouchdown := by
  simp only [exec, execDerivationQueueServe, State.serveQueue, hd, hq, if_neg ha]

/-- A refused head leaves the queue; its site gives its place back and ends with the refusal. -/
theorem refuseHead_ends {result : SiteResult} (hq : s.keys.queue = r :: rest) (hc : s.sites[r.site] = some c)
    (hp : c.placeHeld = true) (hh : s.noHalt) :
    entryEnds s (s.refuseHead r result) r.site c result [.keys, .dies] ∧
      (s.refuseHead r result).keys = { s.keys with queue := rest } ∧
      (s.refuseHead r result).dies = { s.dies with queue := s.dies.queue ++ [.giveBack r.site] } := by
  have hsame : sameBut [.keys, .dies] s
      ((s.setKeys { s.keys with queue := rest }).queueTable (.giveBack r.site)) := fun p hp => by
    cases p <;> simp_all [Part.same]
  have hrefuse : s.refuseHead r result = ((s.setKeys { s.keys with queue := rest }).queueTable (.giveBack r.site)).finish
      r.site { c with placeHeld := false } result := by
    simp [State.refuseHead, hq, hc, State.giveBack, hp]
  have hends := finish_ends ((s.setKeys { s.keys with queue := rest }).queueTable (.giveBack r.site)) r.site c
    { c with placeHeld := false } result none rfl (.inl ((noHalt_congr (by simp)).2 hh))
  rw [hrefuse]
  exact ⟨hends.after hsame (by simp) (by simp) (by simp), hends.frame .keys (by simp), hends.frame .dies (by simp)⟩

theorem serveHead_reserves (hl : s.keys.loaded = true) (ha : s.keys.alloc = .ready) (heq : s.keys.next = s.keys.limit) :
    s.serveHead r = s.reserveFor r := by
  simp [State.serveHead, hl, ha, heq]

/-- Settles O35: each refusal, the wait for a reservation, the derivation that begins, the reservation write, and the
allocator found exhausted. -/
theorem derivationQueueServed : Obligations.DerivationQueueServed := by
  intro r rest c s hq hd hc hst hp hin
  refine ⟨fun result hresult ha hh hrun => ?_, fun ha => ?_, fun hl ha hlt w hw => ?_, fun hl ha heq htop => ?_,
    fun hl ha heq htop hh hrun => ?_⟩
  · have hserve : s.serveHead r = s.refuseHead r result := by
      rcases hresult with ⟨hl, rfl⟩ | ⟨hl, ha, rfl⟩ | ⟨hl, ha, rfl⟩ <;> simp [State.serveHead, *]
    obtain ⟨hends, hrest⟩ := refuseHead_ends (result := result) hq hc hp hh
    have hexec := exec_derivationQueueServe hq hd ha
    rw [hserve] at hexec
    exact ⟨_, hends.next hexec hrun (by simp), hends, hrest⟩
  · simp only [exec, execDerivationQueueServe, State.serveQueue, hd, hq, if_pos ha]
    rw [settleTouchdown_running hin (by simp [State.isFinal, hc, hst])]
  · have hexec := exec_derivationQueueServe hq hd (by simp [ha])
    have hserve : s.serveHead r = s.beginDerivation r := by simp [State.serveHead, hl, ha, hlt]
    have hstill : (s.beginDerivation r).settleTouchdown = s.beginDerivation r :=
      settleTouchdown_running (n := r.site) hin (by simp [State.isFinal, State.beginDerivation, hc, hst])
    rw [hserve, hstill] at hexec
    exact ⟨_, hexec, by simp [State.beginDerivation, State.waferLot, State.waferNumber, hw], setKeys_same s _⟩
  · have hexec := exec_derivationQueueServe hq hd (by simp [ha])
    have hserve : s.serveHead r =
        s.setKeys { s.keys with alloc := .reserving, writeInFlight := some (s.keys.h + 256) } :=
      (serveHead_reserves hl ha heq).trans (if_pos htop)
    have hstill := settleTouchdown_running (n := r.site)
      (s := s.setKeys { s.keys with alloc := .reserving, writeInFlight := some (s.keys.h + 256) }) hin
      (by simp [State.isFinal, hc, hst])
    rw [hserve, hstill] at hexec
    exact ⟨_, hexec, rfl, setKeys_same s _⟩
  · have hexec := exec_derivationQueueServe hq hd (by simp [ha])
    have hserve : s.serveHead r = (s.setKeys { s.keys with alloc := .exhausted }).refuseHead r .refusedSerials :=
      (serveHead_reserves hl ha heq).trans (if_neg (Nat.not_le.2 htop))
    obtain ⟨hends, hkeys, hdies⟩ := refuseHead_ends (s := s.setKeys { s.keys with alloc := .exhausted })
      (result := .refusedSerials) hq hc hp hh
    have hends' := (hends.after (setKeys_same s _) (by simp) (by simp) (by simp)).mono (qs := [.keys, .dies]) (by simp)
    rw [hserve] at hexec
    exact ⟨_, hends'.next hexec hrun (by simp), hends', hkeys, hdies⟩

/-! ### Reports of a reservation write (R91, R95, R96, R98) -/

/-- The value that a failed write leaves in the reserve memory is the old one or the new one. -/
theorem reserve_oneOf (tookNew : Bool) (v old : Nat) :
    (if tookNew then v else old) = old ∨ (if tookNew then v else old) = v := by
  cases tookNew <;> simp

/-- Settles O36: the two reports outside a reset, during one, and without a write in flight. -/
theorem reservationReports : Obligations.ReservationReports := by
  refine ⟨fun v s hv hr => ?_, fun tookNew v s hv hr => ?_, fun v s hv hr => ⟨?_, fun tookNew => ?_⟩,
    fun s hv => ⟨?_, fun tookNew => ?_⟩⟩
  · refine ⟨_, by simp only [exec, execReservationSuccess, hv]; rfl, ?_, setKeys_same s _⟩
    simp [hr, KeyUnit.reserved]
  · refine ⟨_, by simp only [exec, execReservationFailure, hv, hr]; rfl, reserve_oneOf tookNew v _, rfl, rfl, fun p hp => ?_⟩
    cases p <;> simp_all [Part.same]
  · refine ⟨_, by simp only [exec, execReservationSuccess, hv]; rfl, ?_, setKeys_same s _⟩
    simp [hr]
  · exact ⟨_, by simp only [exec, execReservationFailure, hv, hr]; rfl, reserve_oneOf tookNew v _, rfl, setKeys_same s _⟩
  · simp only [exec, execReservationSuccess, hv]
  · simp only [exec, execReservationFailure, hv]

/-! ### A completed derivation (R70, R103, R105, R169) -/

/-- The state in which a site takes a completed derivation. -/
def State.derivationEnded (s : State) : State := (s.setKeys s.keys.derived).bump .keysIssued

theorem exec_derivationComplete {d : Derivation} (hd : s.keys.derivation = some d) (hq : s.keys.queue = r :: rest)
    (hc : s.sites[r.site] = some c) : exec .derivationComplete s =
      .next (s.derivationEnded.takeDerivation r.site c d) := by
  simp only [exec, execDerivationComplete, hd, hq, State.bump_sites, State.setKeys_sites, hc, State.derivationEnded]

theorem derivationEnded_same (s : State) : sameBut [.keys, .counters] s s.derivationEnded := fun p hp => by
  cases p <;> simp_all [Part.same, State.derivationEnded]

/-- The context of a site that took a completed derivation. -/
def SiteCtx.issued (c : SiteCtx) (d : Derivation) (w : WrappedKey) : SiteCtx :=
  { c.takeKey d.serial d.key with wrapped := some w, placeHeld := false, state := .escrowWait }

theorem takeDerivation_moves (s : State) (n : Site) (c : SiteCtx) (d : Derivation) :
    siteMoves s (s.takeDerivation n c d) n (c.issued d (s.keys.wrap d.key d.serial c.die s.waferNumber))
      [.dies, .escrow] := by
  have hafter : sameBut [.dies, .escrow] (s.setSite n (c.issued d (s.keys.wrap d.key d.serial c.die s.waferNumber)))
      (s.takeDerivation n c d) := fun p hp => by
    cases p <;> simp_all [Part.same, State.takeDerivation, SiteCtx.issued]
  exact (setSite_moves s n _).before hafter (by simp)

theorem takeDerivation_dies (s : State) (n : Site) (c : SiteCtx) (d : Derivation) :
    (s.takeDerivation n c d).dies = { s.dies with queue := s.dies.queue ++ [.toEntry n c.die d.serial] } := by
  simp [State.takeDerivation, State.queueTable]

theorem takeDerivation_escrow (s : State) (n : Site) (c : SiteCtx) (d : Derivation) :
    (s.takeDerivation n c d).escrow =
      { s.escrow with
        queue := s.escrow.queue ++
          [{ record := .issue (s.issueRecord c d (s.keys.wrap d.key d.serial c.die s.waferNumber))
             report := .site n }] } := by
  simp [State.takeDerivation, State.queueRecord]

/-- Settles O37. -/
theorem derivationCompletes : Obligations.DerivationCompletes := by
  intro d r rest c i w s hd hq hc hi hw
  have hbefore := derivationEnded_same s
  have htakes := takeDerivation_moves s.derivationEnded r.site c d
  have hmoves := htakes.after hbefore (by simp)
  have hkeys : s.derivationEnded.keys = { s.keys with next := s.keys.next + 1, queue := rest, derivation := none } := by
    simp [State.derivationEnded, KeyUnit.derived, hq]
  have hchain : s.derivationEnded.chain = s.chain := rfl
  have hwrap : s.derivationEnded.keys.wrap d.key d.serial c.die s.derivationEnded.waferNumber =
      { cipher := Config.encipher s.keys.transportKey d.key
        tag := Config.wrapTag s.keys.transportKey (Config.encipher s.keys.transportKey d.key) d.serial c.die.x c.die.y
          w.number s.keys.rootId } := by
    simp [KeyUnit.wrap, State.waferNumber, hkeys, hchain, hw]
  have hescrow := takeDerivation_escrow s.derivationEnded r.site c d
  rw [hwrap] at hmoves hescrow
  refine ⟨_, exec_derivationComplete hd hq hc, Eq.trans (htakes.frame .keys (by simp)) hkeys, ?_,
    takeDerivation_dies s.derivationEnded r.site c d, hescrow.trans ?_,
    counts_of_bump (s := s) (htakes.frame .counters (by simp))⟩
  · simpa only [SiteCtx.issued, SiteCtx.takeKey, hi, Option.map_some, Option.getD_some] using
      hmoves.mono (qs := [.keys, .counters, .dies, .escrow]) (by simp)
  · simp only [State.issueRecord, State.waferLot, State.waferNumber, hchain, hkeys, hi, hw, Option.map_some,
      Option.getD_some]
    rfl

/-! ### The composition unit answers (R69, R111) -/

theorem exec_compositionComplete {q : CompRequest} {rest : List CompRequest} (hq : s.comp = q :: rest)
    {w : WaferContext} (hw : s.chain.wafer = some w) (hlot : w.lot = q.lot) :
    exec .compositionComplete s = .next ((s.setComp rest).composed q (compose w q)).settleTouchdown := by
  have hself : { w with lot := q.lot } = w := by rw [← hlot]
  simp only [exec, execCompositionComplete, hq, State.composeRequest, hw, hself]

theorem setComp_same (s : State) (q : List CompRequest) : sameBut [.comp] s (s.setComp q) := fun p hp => by
  cases p <;> simp_all [Part.same]

/-- Settles O38: no request, an identity, and an error. -/
theorem compositionAnswered : Obligations.CompositionAnswered := by
  refine ⟨fun s hq => by simp only [exec, execCompositionComplete, hq], fun q rest c w s hq hw hlot hc hst hin =>
    ⟨fun i hok hh => ?_, fun e herr hh hrun => ?_⟩⟩
  · have hexec := exec_compositionComplete hq hw hlot
    have hcomposed : (s.setComp rest).composed q (compose w q) =
        ((s.setComp rest).setSite q.site { c with identity := some i }).queueTable (.hold q.site c.die) := by
      simp [State.composed, hc, hok, State.identityReturned, hh]
    obtain ⟨hmoves, hdies⟩ := setSite_queueTable_moves (s.setComp rest) q.site { c with identity := some i }
      (.hold q.site c.die)
    have hmoves' := hmoves.after (setComp_same s rest) (by simp)
    rw [hcomposed] at hexec
    exact ⟨_, hmoves'.next hexec hin (by simp [hst]) (by simp), hmoves', rfl, hdies⟩
  · have hexec := exec_compositionComplete hq hw hlot
    have hcomposed : (s.setComp rest).composed q (compose w q) = (s.setComp rest).finish q.site c .refusedCompose := by
      simp [State.composed, hc, herr]
    have hends := finish_ends (s.setComp rest) q.site c c .refusedCompose none rfl (.inl ((noHalt_congr rfl).2 hh))
    have hends' := hends.after (setComp_same s rest) (by simp) (by simp) (by simp)
    rw [hcomposed] at hexec
    exact ⟨_, hends'.next hexec hrun (by simp), hends', hends.frame .comp (by simp)⟩

end Sys2Proof.Machine

/-! The die table unit serves lookups, places, VOID entries and settlements (R66 to R70, R123 to R127). -/

namespace Sys2Proof.Machine

variable {s t u : State} {n : Site} {c x : SiteCtx} {ps qs : List Part} {die d d' : Die} {e : DieEntry}
  {rest : List TableRequest} {r : TableRequest} {result : SiteResult} {ts : Option Nat} {b : Block}
  {l : List (Die × DieEntry)} {st : EntryState}

/-! ### The table (R121, R123) -/

/-- A mark changes the state of the marked die's entry, its serial kept, and no other entry. -/
theorem tableFind_mark (l : List (Die × DieEntry)) (d : Die) (st : EntryState) (d' : Die) :
    tableFind (tableMark l d st) d' =
      (tableFind l d').map fun e => if d' = d then { e with state := st } else e := by
  unfold tableMark
  cases h : tableFind l d with
  | none =>
    by_cases hd : d' = d
    · simp [hd, h]
    · simp [hd]
  | some e =>
    rw [tableFind_set]
    by_cases hd : d' = d
    · simp [hd, h]
    · simp [hd]

theorem tableFind_mark_here (h : tableFind l d = some e) (st : EntryState) :
    tableFind (tableMark l d st) d = some { e with state := st } := by simp [tableFind_mark, h]

theorem tableFind_mark_other (hd : d' ≠ d) : tableFind (tableMark l d st) d' = tableFind l d' := by
  simp [tableFind_mark, hd]

theorem tableFind_erase_here (l : List (Die × DieEntry)) (d : Die) : tableFind (tableErase l d) d = none := by
  induction l with
  | nil => rfl
  | cons y l ih =>
    by_cases hy : y.1 = d
    · simpa [tableErase, hy] using ih
    · simpa [tableErase, hy, tableFind] using ih

theorem tableFind_erase_other (hd : d' ≠ d) : tableFind (tableErase l d) d' = tableFind l d' := by
  induction l with
  | nil => rfl
  | cons y l ih =>
    by_cases hy : y.1 = d
    · have hne : y.1 ≠ d' := fun h => hd (h ▸ hy)
      simpa [tableErase, hy, tableFind, hne, hd.symm] using ih
    · simp only [tableErase, List.filter_cons, hy, ne_eq, not_false_eq_true, decide_true, if_true, tableFind]
      rw [← ih]
      rfl

/-! ### The request at the head (R122) -/

theorem setDies_same (s : State) (v : DieTableUnit) : sameBut [.dies] s (s.setDies v) := fun p hp => by
  cases p <;> simp_all [Part.same]

theorem popTable_same (s : State) : sameBut [.dies] s s.popTable := setDies_same s _

theorem popTable_setDies_same (s : State) (v : DieTableUnit) : sameBut [.dies] s (s.popTable.setDies v) :=
  (popTable_same s).trans (setDies_same _ v)

theorem popTable_head (h : s.dies.queue = r :: rest) : s.popTable.dies = { s.dies with queue := rest } := by
  simp [DieTableUnit.pop, h]

/-- A result that starts no halt leaves the final entry as the end of the meaning. -/
theorem finish_of_noHalt (h : s.noHalt) : s.finish n c result ts = s.enterFinal n c result ts :=
  reportResult_noHalt _ _ (.inl ((noHalt_congr (by simp)).2 h))

/-- An entry that ends as the head of the die table unit's queue is served. -/
theorem served_ends (hd : sameBut [.dies] s u) (hx : x.index = c.index) (hh : s.noHalt) :
    entryEnds s (u.finish n x result ts) n c result [.dies] ∧ (u.finish n x result ts).dies = u.dies := by
  have hends := finish_ends u n c x result ts hx (.inl ((noHalt_congr (hd.chain (by simp))).2 hh))
  exact ⟨hends.after hd (by simp) (by simp) (by simp), hends.frame .dies (by simp)⟩

/-! ### Lookups (R66, R67, R123) -/

theorem exec_dieLookup (hq : s.dies.queue = .lookup n die :: rest) (hc : s.sites[n] = some c) :
    exec .dieLookup s = .next (s.popTable.lookedUp n c die).settleTouchdown := by
  have hc' : s.popTable.sites[n] = some c := hc
  simp only [exec, execDieLookup, hq, hc']

theorem Memory.readBytes_writeBytes_middle {m : Memory} {a : Nat} {xs ys zs : List Byte} (hw : m.wf = true)
    (h : a + xs.length + ys.length ≤ jobMemorySize) :
    (m.writeBytes a (xs ++ ys ++ zs)).readBytes (a + xs.length) ys.length = ys := by
  rw [Memory.writeBytes_append, Memory.writeBytes_append,
    Memory.readBytes_writeBytes_out (by simp only [List.length_append]; omega)]
  exact Memory.readBytes_writeBytes (Memory.wf_writeBytes hw _ _) h

theorem leNat_append (xs ys : List Byte) : leNat (xs ++ ys) = leNat xs + 256 ^ xs.length * leNat ys := by
  induction xs with
  | nil => simp [leNat]
  | cons x xs ih =>
    simp only [List.cons_append, leNat, ih, List.length_cons, Nat.pow_succ]
    ring

theorem leNat_serialField {serial : Nat} (h : serial < 2 ^ 40) : leNat (serialField serial) = serial := by
  rw [serialField, leNat_append, leNat_leBytes]
  simpa [leNat] using h

/-- The serial that a final entry leaves in job memory (R84). -/
theorem enterFinal_serial {serial : Nat} (hb : s.chain.block = some b) (hwf : s.mem.wf = true)
    (hin : b.offset + 80 + 48 * c.index + 48 ≤ jobMemorySize) (hs : serial < 2 ^ 40) :
    leNat ((s.enterFinal n c result (some serial)).mem.readBytes (b.offset + 80 + 48 * c.index + 16) 8) = serial := by
  obtain ⟨xs, zs, hlen, hsplit⟩ : ∃ xs zs, xs.length = 6 ∧
      entryBytes c result (some serial) = xs ++ serialField serial ++ zs :=
    ⟨[0, 0, BitVec.ofNat 8 result.code, if c.lanesUsed = .normal then 0 else 1,
      BitVec.ofNat 8 ((c.burn.map fun b => b.remaps.length).getD 0), 0], _, rfl, by
      simp only [entryBytes, reportedSerial, List.append_assoc]
      rfl⟩
  have hfield : (serialField serial).length = 8 := by simp [serialField]
  have hread := Memory.readBytes_writeBytes_middle (m := s.mem) (a := b.offset + 80 + 48 * c.index + 10) (xs := xs)
    (ys := serialField serial) (zs := zs) hwf (by omega)
  rw [hlen, hfield] at hread
  simp only [State.enterFinal, State.entryOffset, hb, Option.map_some, State.setSite_mem, State.store, State.setMem_mem,
    hsplit]
  exact (congrArg leNat hread).trans (leNat_serialField hs)

/-- Settles O40: an entry that is BURNED, VOID or FAILED, and a locked die without one. -/
theorem lookupFindsSettledDie : Obligations.LookupFindsSettledDie := by
  intro n die rest c s hq hc hst hh hrun
  have hpop := popTable_same s
  refine ⟨fun e he result hresult => ?_, fun hnone hlock => ?_⟩
  · have hexec := exec_dieLookup hq hc
    have hlooked : s.popTable.lookedUp n c die = s.popTable.finish n c result (some e.serial) := by
      have he' : tableFind s.popTable.dies.entries die = some e := he
      rcases hresult with ⟨hstate, rfl⟩ | ⟨hstate, rfl⟩ | ⟨hstate, rfl⟩ <;>
        simp only [State.lookedUp, he', hstate]
    obtain ⟨hends, hdies⟩ := served_ends (ts := some e.serial) (result := result) hpop (rfl : c.index = c.index) hh
    rw [hlooked] at hexec
    refine ⟨_, hends.next hexec hrun (by simp), hends, hdies.trans (popTable_head hq), fun b hb hwf hin hserial => ?_⟩
    rw [finish_of_noHalt (s := s.popTable) hh]
    exact enterFinal_serial (s := s.popTable) hb hwf hin hserial
  · have hexec := exec_dieLookup hq hc
    have hlooked : s.popTable.lookedUp n c die = s.popTable.finish n c .alreadyLocked := by
      have hnone' : tableFind s.popTable.dies.entries die = none := hnone
      simp only [State.lookedUp, hnone', State.absentDie, if_pos hlock]
    obtain ⟨hends, hdies⟩ := served_ends (ts := none) (result := .alreadyLocked) hpop (rfl : c.index = c.index) hh
    rw [hlooked] at hexec
    exact ⟨_, hends.next hexec hrun (by simp), hends, hdies.trans (popTable_head hq)⟩

/-! ### An absent die (R66 to R68) -/

theorem windowTest_iff (p : Profile) : p.windowTest = true ↔ ∀ r ∈ p.fixedRows, rowAccess p.windows r = .program := by
  simp [Profile.windowTest]

theorem geometryTest_iff (p : Profile) (rows : Nat) :
    p.geometryTest rows = true ↔ (∀ r ∈ p.fixedRows, r < rows) ∧ p.fixedRows.Nodup := by
  simp [Profile.geometryTest]

/-- What an absent, unlocked die's tests make of the entry. -/
theorem lookedUp_absent {rows : Nat} (hnone : tableFind s.dies.entries die = none) (hl : c.locked = some false)
    (hr : c.rows = some rows) (hh : c.haltPending = false) : s.popTable.lookedUp n c die =
      if s.profile.windowTest = true then
        if s.profile.geometryTest rows = true then
          s.popTable.sendRowCheck n { c with checkIndex := 0 } .prep (s.profile.blankRow 0)
        else s.popTable.finish n c .refusedGeometry
      else s.popTable.finish n c .refusedWindow := by
  have hnone' : tableFind s.popTable.dies.entries die = none := hnone
  have hprofile : s.popTable.profile = s.profile := rfl
  simp only [State.lookedUp, hnone', State.absentDie, hl, hr, hh, hprofile, Option.getD_some]
  cases s.profile.windowTest <;> cases s.profile.geometryTest rows <;> simp

/-- Settles O41: the window test, the geometry test, and the first row of the blank check. -/
theorem absentDieIsPrepared : Obligations.AbsentDieIsPrepared := by
  intro n die rest c rows s hq hc hl hr hh hin hnone
  have hpop := popTable_same s
  have hexec := exec_dieLookup hq hc
  rw [lookedUp_absent hnone hl hr hh] at hexec
  refine ⟨fun hbad hno hrun => ?_, fun hwin hbad hno hrun => ?_, fun hgood hnodup => ?_⟩
  · have hw : ¬s.profile.windowTest = true := by
      rw [windowTest_iff]
      push Not
      exact hbad
    rw [if_neg hw] at hexec
    obtain ⟨hends, hdies⟩ := served_ends (ts := none) (result := .refusedWindow) hpop (rfl : c.index = c.index) hno
    exact ⟨_, hends.next hexec hrun (by simp), hends, hdies.trans (popTable_head hq)⟩
  · have hg : ¬s.profile.geometryTest rows = true := by
      rw [geometryTest_iff]
      rintro ⟨hlt, hnodup⟩
      rcases hbad with ⟨r, hmem, hle⟩ | hdup
      · exact absurd (hlt r hmem) (Nat.not_lt.2 hle)
      · exact hdup hnodup
    rw [if_pos ((windowTest_iff _).2 hwin), if_neg hg] at hexec
    obtain ⟨hends, hdies⟩ := served_ends (ts := none) (result := .refusedGeometry) hpop (rfl : c.index = c.index) hno
    exact ⟨_, hends.next hexec hrun (by simp), hends, hdies.trans (popTable_head hq)⟩
  · rw [if_pos ((windowTest_iff _).2 fun r hmem => (hgood r hmem).1),
      if_pos ((geometryTest_iff _ _).2 ⟨fun r hmem => (hgood r hmem).2, hnodup⟩)] at hexec
    have hmoves := (sendRowCheck_moves s.popTable n { c with checkIndex := 0 } .prep s.profile.recordBase).after hpop
      (by simp)
    exact ⟨_, hmoves.next hexec hin (by simp [SiteCtx.asks]) (by simp), hmoves, popTable_head hq⟩

/-! ### Places (R69, R70, R72, R100, R106, R124) -/

theorem hasRoom_iff (v : DieTableUnit) : v.hasRoom = true ↔ v.entries.length + v.places.length < 8192 :=
  decide_eq_true_iff

theorem exec_placeHold (hq : s.dies.queue = .hold n die :: rest) (hc : s.sites[n] = some c) :
    exec .placeHold s = .next
      (if s.dies.entries.length + s.dies.places.length < 8192 then
        (s.popTable.setDies (s.popTable.dies.holdPlace n die)).placeGranted n c
      else s.popTable.finish n c .refusedTableFull).settleTouchdown := by
  have hc' : s.popTable.sites[n] = some c := hc
  simp only [exec, execPlaceHold, hq, hc', hasRoom_iff]
  exact congrArg Host.Outcome.next (apply_ite State.settleTouchdown _ _ _).symm

/-- The board with a place held for the request at the head of the queue. -/
def State.placed (s : State) (n : Site) (die : Die) : State := s.popTable.setDies (s.popTable.dies.holdPlace n die)

theorem placed_same (s : State) (n : Site) (die : Die) : sameBut [.dies] s (s.placed n die) :=
  popTable_setDies_same s _

theorem placed_dies (hq : s.dies.queue = r :: rest) : (s.placed n die).dies =
    { s.dies with queue := rest, places := s.dies.places ++ [{ site := n, die := die }] } := by
  simp [State.placed, DieTableUnit.holdPlace, DieTableUnit.pop, hq]

/-- A live site with its place held joins the derivation queue. -/
theorem placeGranted_live (hh : c.haltPending = false) (hd : s.dryRun = false) :
    siteMoves s (s.placeGranted n c) n { c with placeHeld := true, state := .issueWait } [.keys] ∧
      (s.placeGranted n c).keys = { s.keys with queue := s.keys.queue ++ [{ site := n, die := c.die }] } := by
  have hgranted : s.placeGranted n c = (s.setSite n { c with placeHeld := true, state := .issueWait }).setKeys
      { s.keys with queue := s.keys.queue ++ [{ site := n, die := c.die }] } := by
    simp [State.placeGranted, hh, hd]
  rw [hgranted]
  exact ⟨(setSite_moves s n _).before (setKeys_same _ _) (by simp), rfl⟩

/-- A burn begins with the pre-check of logical row 0 (R71, R72). -/
theorem beginBurn_moves (s : State) (n : Site) (c : SiteCtx) : siteMoves s (s.beginBurn n c) n
    ({ c with touchdowns := some 1, burn := some (.begin s.profile) }.asks .burnRow .rowCheck s.profile.recordBase 0
      s.profile.thresholds) [] := by
  have hfirst : (BurnState.begin s.profile).firstStep s.profile .burnRow .rowCheck s.profile.recordBase 0 :=
    .inr (.inr ⟨rfl, rfl, .inl ⟨by simp [BurnState.begin], by simp [BurnState.begin, BurnState.curState], rfl, rfl,
      by simp [BurnState.begin, BurnState.curPhys], rfl⟩⟩)
  have hbegin : s.beginBurn n c = s.burnStep n { c with touchdowns := some 1 } (.begin s.profile) := rfl
  rw [hbegin, burnStep_firstStep hfirst]
  exact send_moves s n _ _ _ _ _ _

theorem checkWord_dryRunKey : checkWord dryRunKey = 672 := by decide

/-- A dry-run site asks for its entry and begins its burn at once (R72). -/
theorem placeGranted_dry {i : Identity} (hh : c.haltPending = false) (hd : s.dryRun = true) (hi : c.identity = some i) :
    siteMoves s (s.placeGranted n c) n
      ({ c with
          placeHeld := false, serial := some 0, key := some dryRunKey, check := some 672
          targets := some (recordTargets dryRunKey 672 0 i.codes), touchdowns := some 1
          burn := some (.begin s.profile) }.asks .burnRow .rowCheck s.profile.recordBase 0 s.profile.thresholds)
      [.dies] ∧
      (s.placeGranted n c).dies = { s.dies with queue := s.dies.queue ++ [.toEntry n c.die 0] } := by
  have hgranted : s.placeGranted n c =
      (s.queueTable (.toEntry n c.die 0)).beginBurn n { c.takeKey 0 dryRunKey with placeHeld := false } := by
    simp [State.placeGranted, hh, hd]
  have hkey : { c.takeKey 0 dryRunKey with placeHeld := false } =
      { c with
        placeHeld := false, serial := some 0, key := some dryRunKey, check := some 672
        targets := some (recordTargets dryRunKey 672 0 i.codes) } := by
    simp only [SiteCtx.takeKey, checkWord_dryRunKey, hi, Option.map_some, Option.getD_some]
  have hburns := beginBurn_moves (s.queueTable (.toEntry n c.die 0)) n { c.takeKey 0 dryRunKey with placeHeld := false }
  rw [hgranted]
  refine ⟨?_, hburns.frame .dies (by simp)⟩
  rw [hkey] at *
  exact hburns.after (queueTable_same s _) (by simp)

/-- Settles O43: the place of a live site, the full table, the place given back and the one turned into an entry, and the
place of a dry-run site. -/
theorem placesServed : Obligations.PlacesServed := by
  refine ⟨⟨fun n rest c s hq hc => ⟨fun hroom hh hd hin => ?_, fun hfull hno hrun => ?_⟩, fun n rest s hq => ?_,
    fun n die serial rest s hq => ?_⟩, fun n rest c i s hq hc hi hd hroom hh hin => ?_⟩
  · have hexec := exec_placeHold hq hc
    rw [if_pos hroom] at hexec
    obtain ⟨hmoves, hkeys⟩ := placeGranted_live (s := s.placed n c.die) (n := n) hh hd
    have hmoves' := hmoves.after (placed_same s n c.die) (by simp)
    exact ⟨_, hmoves'.next hexec hin (by simp) (by simp), hmoves', (hmoves.frame .dies (by simp)).trans (placed_dies hq),
      hkeys⟩
  · have hexec := exec_placeHold hq hc
    rw [if_neg (Nat.not_lt.2 hfull)] at hexec
    obtain ⟨hends, hdies⟩ := served_ends (ts := none) (result := .refusedTableFull) (popTable_same s)
      (rfl : c.index = c.index) hno
    exact ⟨_, hends.next hexec hrun (by simp), hends, hdies.trans (popTable_head hq)⟩
  · refine ⟨_, by simp only [exec, execPlaceGiveBack, hq]; rfl, popTable_setDies_same s _, ?_⟩
    simp [DieTableUnit.dropPlace, DieTableUnit.pop, hq]
  · refine ⟨_, by simp only [exec, execPlaceToEntry, hq],
      popTable_setDies_same s ((s.popTable.dies.dropPlace n).setEntry die { state := .issued, serial := serial }), ?_,
      fun d hd => ?_, rfl, rfl, ?_⟩
    · simp [DieTableUnit.setEntry, tableFind_set]
    · simp [DieTableUnit.setEntry, tableFind_set, hd, DieTableUnit.dropPlace, DieTableUnit.pop]
    · simp [DieTableUnit.setEntry, DieTableUnit.dropPlace, DieTableUnit.pop, hq]
  · have hexec := exec_placeHold hq hc
    rw [if_pos hroom] at hexec
    obtain ⟨hmoves, hdies⟩ := placeGranted_dry (s := s.placed n c.die) (n := n) hh hd hi
    have hmoves' := (hmoves.after (placed_same s n c.die) (by simp)).mono (qs := [.dies]) (by simp)
    rw [placed_dies hq] at hdies
    exact ⟨_, hmoves'.next hexec hin (by simp [SiteCtx.asks]) (by simp), hmoves', hdies⟩

/-! ### A VOID entry (R68, R125) -/

/-- The board after the VOID entry at the head of the queue was made, or found no room. -/
def State.voidMade (s : State) (die : Die) : State :=
  if s.dies.entries.length + s.dies.places.length < 8192 then
    (s.popTable.setDies (s.popTable.dies.setEntry die { state := .void, serial := 0 })).bump .diesVoided
  else s.popTable

theorem voidMade_same (s : State) (die : Die) : sameBut [.dies, .counters] s (s.voidMade die) := by
  unfold State.voidMade
  intro p hp
  split <;> cases p <;> simp_all [Part.same]

theorem exec_voidEntry (hq : s.dies.queue = .voidEntry n die :: rest) (hc : s.sites[n] = some c) :
    exec .voidEntry s = .next ((s.voidMade die).finish n c .refusedNotBlank).settleTouchdown := by
  have hc' : (s.voidMade die).sites[n] = some c := by rw [voidMade_same s die .sites (by simp), hc]
  have hmade : (if s.popTable.dies.hasRoom = true then
      (s.popTable.setDies (s.popTable.dies.setEntry die { state := .void, serial := 0 })).bump .diesVoided
    else s.popTable) = s.voidMade die := by simp only [hasRoom_iff]; rfl
  simp only [exec, execVoidEntry, hq, hmade, hc']

/-- Settles O44: the board after the entry was or was not made, and the site that ends either way. -/
theorem voidEntryServed : Obligations.VoidEntryServed := by
  intro n die rest c s hq hc hh hrun
  have hsame := voidMade_same s die
  have hends := finish_ends (s.voidMade die) n c c .refusedNotBlank none rfl
    (.inl ((noHalt_congr (hsame.chain (by simp))).2 hh))
  have hends' := hends.after hsame (by simp) (by simp) (by simp)
  have hdies : ((s.voidMade die).finish n c .refusedNotBlank).dies = (s.voidMade die).dies := hends.frame .dies (by simp)
  have hcounters : ((s.voidMade die).finish n c .refusedNotBlank).counters = (s.voidMade die).counters :=
    hends.frame .counters (by simp)
  refine ⟨_, hends'.next (exec_voidEntry hq hc) hrun (by simp), hends', ?_⟩
  generalize (s.voidMade die).finish n c .refusedNotBlank = t at *
  by_cases hroom : s.dies.entries.length + s.dies.places.length < 8192
  · rw [show s.voidMade die = _ from if_pos hroom] at hdies hcounters
    obtain ⟨hcount, hcounts⟩ := counts_of_bump (s := s) hcounters
    rw [hdies]
    refine ⟨?_, rfl, rfl, hcounts, fun d hd => ?_, fun _ => ⟨?_, hcount⟩, fun h => absurd hroom (Nat.not_lt.2 h)⟩
    · simp [DieTableUnit.setEntry, DieTableUnit.pop, hq]
    · simp [DieTableUnit.setEntry, tableFind_set, hd, DieTableUnit.pop]
    · simp [DieTableUnit.setEntry, tableFind_set]
  · rw [show s.voidMade die = s.popTable from if_neg hroom] at hdies hcounters
    rw [hdies]
    have hcounter : ∀ k, t.counter k = s.counter k := fun k => by simp only [State.counter, hcounters, State.popTable_counters]
    exact ⟨by rw [popTable_head hq], rfl, rfl, fun k _ => hcounter k, fun d _ => rfl, fun h => absurd h hroom,
      fun _ => ⟨rfl, hcounter _⟩⟩

/-! ### Settlements (R76, R78, R126) -/

theorem exec_entrySettle {outcome : CloseOutcome} (hq : s.dies.queue = .settle n die outcome :: rest)
    (hc : s.sites[n] = some c) : exec .entrySettle s =
      .next ((s.popTable.setDies (s.popTable.dies.settle die outcome)).finish n c.eraseKey
        (closeResult outcome c.stop)).settleTouchdown := by
  have hc' : (s.popTable.setDies (s.popTable.dies.settle die outcome)).sites[n] = some c := hc
  simp only [exec, execEntrySettle, hq, hc']

/-- A settlement touches the entries alone. -/
theorem settle_entries (v : DieTableUnit) (die : Die) (outcome : CloseOutcome) :
    (v.settle die outcome).places = v.places ∧ (v.settle die outcome).parked = v.parked ∧
      (v.settle die outcome).queue = v.queue := by
  cases outcome <;> exact ⟨rfl, rfl, rfl⟩

/-- A settlement changes no other die's entry. -/
theorem settle_other (v : DieTableUnit) (outcome : CloseOutcome) (hd : d ≠ die) :
    tableFind (v.settle die outcome).entries d = tableFind v.entries d := by
  cases outcome
  case voidUnused => exact tableFind_erase_other hd
  case voidEvicted => rfl
  case voidWaferEnd => rfl
  all_goals exact tableFind_mark_other hd

/-- Settles O45: what each outcome makes of the entry, and the site that ends with it. -/
theorem settlementEndsEntry : Obligations.SettlementEndsEntry := by
  intro n die outcome rest c e s hq hc he hh hrun entry result houtcome
  have hresult : closeResult outcome c.stop = result := by
    rcases houtcome with ⟨rfl, -, rfl⟩ | ⟨rfl, -, rfl⟩ | ⟨rfl, -, rfl⟩ | ⟨rfl, -, rfl⟩ | ⟨rfl, -, rfl⟩ |
      ⟨rfl, -, ⟨hstop, rfl⟩ | ⟨hstop, rfl⟩ | ⟨hstop, rfl⟩ | ⟨hstop, rfl⟩⟩
    all_goals simp [closeResult, StopCause.endResult, *]
  have hentry : tableFind (s.popTable.dies.settle die outcome).entries die = entry := by
    have he' : tableFind s.popTable.dies.entries die = some e := he
    rcases houtcome with ⟨rfl, rfl, -⟩ | ⟨rfl, rfl, -⟩ | ⟨rfl, rfl, -⟩ | ⟨rfl, rfl, -⟩ | ⟨rfl, rfl, -⟩ | ⟨rfl, rfl, -⟩
    case inr.inr.inr.inr.inr => exact tableFind_erase_here _ _
    all_goals exact tableFind_mark_here he' _
  obtain ⟨hplaces, hparked, hqueue⟩ := settle_entries s.popTable.dies die outcome
  have hexec := exec_entrySettle hq hc
  obtain ⟨hends, hdies⟩ := served_ends (n := n) (ts := none) (result := result) (x := c.eraseKey) (c := c)
    (popTable_setDies_same s (s.popTable.dies.settle die outcome)) rfl hh
  rw [hresult] at hexec
  refine ⟨_, hends.next hexec hrun (by simp), hends, ?_, fun d hd => ?_, ?_, ?_, ?_, fun x hx => ?_⟩
  · rw [hdies]
    exact hentry
  · rw [hdies]
    exact settle_other _ outcome hd
  · rw [hdies]
    exact hplaces
  · rw [hdies]
    exact hparked
  · rw [hdies]
    exact hqueue.trans (by rw [popTable_head hq])
  · rw [finish_of_noHalt (s := s.popTable.setDies (s.popTable.dies.settle die outcome)) hh, State.enterFinal, setSite_get,
      if_pos rfl] at hx
    cases hx
    exact ⟨rfl, rfl, rfl⟩

end Sys2Proof.Machine

/-! The die table unit resumes, parks and evicts contexts (R75, R77, R123, R130 to R137), voids them at a WAFER_END and
dumps the table (R138). -/

namespace Sys2Proof.Machine

variable {s t u : State} {n : Site} {c x : SiteCtx} {ps qs : List Part} {die d d' : Die} {e : DieEntry}
  {rest : List TableRequest} {r : TableRequest} {b : Block} {p : ParkedContext} {l pre : List ParkedContext}
  {bs : BurnState} {f : ResponseFrame} {tg : Vector FuseRow 12}

/-! ### The parked list (R130 to R136) -/

theorem isHeld_iff : p.isHeld = true ↔ p.status = .held := by simp [ParkedContext.isHeld]

/-- The one held context of a die is the one that a lookup finds. -/
theorem heldContext_of_filter (h : (l.filter fun q => q.isHeld && decide (q.die = die)) = [p]) :
    heldContext l die = some p := by
  unfold heldContext
  rw [← List.head?_filter, h]
  rfl

/-- The one context of the list with a property leaves it, and no other one does. -/
theorem removeContext_of_filter {g : ParkedContext → Bool} (h : l.filter g = [p]) :
    removeContext l p = l.filter fun q => decide (q ≠ p) := by
  obtain ⟨hmem, hg⟩ : p ∈ l ∧ g p = true := List.mem_filter.1 (h ▸ List.mem_singleton_self p)
  have hcount : l.count p = 1 := by
    rw [← List.count_filter hg, h]
    simp
  obtain ⟨l1, l2, rfl⟩ := List.append_of_mem hmem
  simp only [List.count_append, List.count_cons_self] at hcount
  have h1 : p ∉ l1 := List.count_eq_zero.1 (by omega)
  have h2 : p ∉ l2 := List.count_eq_zero.1 (by omega)
  have hkeep : ∀ l' : List ParkedContext, p ∉ l' → l'.filter (fun q => decide (q ≠ p)) = l' := fun l' hl' =>
    List.filter_eq_self.2 fun q hq => decide_eq_true fun hqp => hl' (hqp ▸ hq)
  rw [removeContext, List.erase_append_right _ h1, List.erase_cons_head, List.filter_append, hkeep l1 h1,
    List.filter_cons_of_neg (by simp), hkeep l2 h2]

theorem oldestHeld_behind (hpre : ∀ q ∈ pre, q.status ≠ .held) (hp : p.status = .held) :
    oldestHeld (pre ++ p :: l) = some p := by
  have hnone : pre.find? ParkedContext.isHeld = none := List.find?_eq_none.2 fun q hq h => hpre q hq (isHeld_iff.1 h)
  simp [oldestHeld, List.find?_append, hnone, isHeld_iff.2 hp]

theorem closeFirstHeld_behind (bound : Option Site) (hpre : ∀ q ∈ pre, q.status ≠ .held) (hp : p.status = .held) :
    closeFirstHeld bound (pre ++ p :: l) = pre ++ { p with status := .closing bound } :: l := by
  induction pre with
  | nil => simp [closeFirstHeld, isHeld_iff.2 hp]
  | cons q pre ih =>
    have hq : ¬q.isHeld = true := fun h => hpre q List.mem_cons_self (isHeld_iff.1 h)
    rw [List.cons_append, closeFirstHeld, if_neg hq, ih fun q' hq' => hpre q' (List.mem_cons_of_mem _ hq')]
    rfl

theorem removeContext_behind (hpre : ∀ q ∈ pre, q.status ≠ .held) (hp : p.status = .held) :
    removeContext (pre ++ p :: l) p = pre ++ l := by
  rw [removeContext, List.erase_append_right _ fun h => hpre p h hp, List.erase_cons_head]

/-! ### A parked die resumes (R44, R66, R75, R123, R134) -/

/-- The board after a parked context was handed over to the site that looked its die up. -/
def State.handedOver (s : State) (p : ParkedContext) : State :=
  (s.popTable.setDies
    { s.popTable.dies.mark p.die .issued with parked := removeContext s.popTable.dies.parked p }).bump .diesResumed

theorem handedOver_same (s : State) (p : ParkedContext) : sameBut [.dies, .counters] s (s.handedOver p) := fun q hq => by
  cases q <;> simp_all [Part.same, State.handedOver]

theorem lookedUp_parked (he : tableFind s.dies.entries die = some e) (hst : e.state = .parked)
    (hp : heldContext s.dies.parked die = some p) (hh : c.haltPending = false) :
    s.popTable.lookedUp n c die = (s.handedOver p).resumeFrom n (c.resume p) p.burn 0 := by
  have he' : tableFind s.popTable.dies.entries die = some e := he
  have hp' : heldContext s.popTable.dies.parked die = some p := hp
  simp only [State.lookedUp, he', hst, hp', State.resumeDie, hh]
  rfl

/-- The re-check of the next DONE row. -/
theorem resumeFrom_checks {low i row : Nat} {target : FuseRow} (hi : bs.firstDone low i)
    (hr : bs.rowAt s.profile c.burnTargets i row target) : siteMoves s (s.resumeFrom n c bs low) n
      ({ c with burn := some bs, checkIndex := i }.asks .resumeCheck .rowCheck row 0 s.profile.thresholds) [] := by
  simp only [State.resumeFrom, nextDone_first hi, resumeRow_at hr]
  exact sendRowCheck_moves s n _ _ _

/-- The first step of a burn that has no DONE row left to re-check. -/
theorem resumeFrom_steps {low row bit : Nat} {st : SiteState} {cmd : DieCommand} (hi : ∀ i, low ≤ i → ¬bs.doneAt i)
    (hf : bs.firstStep s.profile st cmd row bit) : siteMoves s (s.resumeFrom n c bs low) n
      ({ c with burn := some bs }.asks st cmd row bit (s.profile.burnArg cmd)) [] := by
  simp only [State.resumeFrom, nextDone_none hi, burnStep_firstStep hf]
  exact send_moves s n _ _ _ _ _ _

/-- A parked die's lookup: what is left of the die table, and the count. -/
theorem handedOver_dies (hq : s.dies.queue = r :: rest) (he : tableFind s.dies.entries die = some e)
    (hp : (s.dies.parked.filter fun q => q.isHeld && decide (q.die = die)) = [p]) :
    (s.handedOver p).dies.parked = s.dies.parked.filter (fun q => decide (q ≠ p)) ∧
      tableFind (s.handedOver p).dies.entries die = some { e with state := .issued } ∧
      (∀ d, d ≠ die → tableFind (s.handedOver p).dies.entries d = tableFind s.dies.entries d) ∧
      (s.handedOver p).dies.places = s.dies.places ∧ (s.handedOver p).dies.queue = rest := by
  have hdie : p.die = die := by
    have hmem : p ∈ s.dies.parked.filter fun q => q.isHeld && decide (q.die = die) := by simp [hp]
    have hboth := (List.mem_filter.1 hmem).2
    simp only [Bool.and_eq_true, decide_eq_true_eq] at hboth
    exact hboth.2
  refine ⟨removeContext_of_filter hp, ?_, fun d hd => ?_, rfl, ?_⟩
  · rw [← hdie] at he ⊢
    exact tableFind_mark_here he _
  · exact tableFind_mark_other (hdie ▸ hd)
  · simp [State.handedOver, DieTableUnit.mark, DieTableUnit.pop, hq]

theorem resumeCheckEnded {d : Option (BitVec 64)} (hst : c.state = .resumeCheck) : s.rowCheckEnded n c d =
    s.resumeChecked n c
      ((d.map (masksMatch ((c.burnState s.profile).resumeRow s.profile c.burnTargets c.checkIndex).2)).getD false) := by
  simp only [State.rowCheckEnded, hst]

/-- A re-check that reports another row than the target, or is REFUSED, closes the provisioning. -/
theorem exec_recheck_fails {row : Nat} {target : FuseRow} (hst : c.state = .resumeCheck) (hb : c.burn = some bs)
    (htg : c.targets = some tg) (hrow : bs.rowAt s.profile tg c.checkIndex row target)
    (h : s.rowNotTarget n c f target) :
    exec (.rowCheckResponse n f) s = .next (s.beginClosing n c .voidMismatch).settleTouchdown := by
  rcases h with h | ⟨h, hmasks⟩
  · rw [exec_rowCheck_refused h, resumeCheckEnded hst]
    simp [State.resumeChecked]
  · rw [exec_rowCheck_answered h, resumeCheckEnded hst, burnState_of hb, burnTargets_of htg, resumeRow_at hrow]
    simp [State.resumeChecked, masksMatch_eq_false hmasks]

/-- A re-check that reports exactly the target goes on with the rows behind it. -/
theorem exec_recheck_passes {row : Nat} {target : FuseRow} (hst : c.state = .resumeCheck) (hb : c.burn = some bs)
    (htg : c.targets = some tg) (hrow : bs.rowAt s.profile tg c.checkIndex row target)
    (h : s.answers n c .rowCheck f) (hblown : blownMask f.data = target) (hmarginal : marginalMask f.data = 0)
    (hh : c.haltPending = false) : exec (.rowCheckResponse n f) s =
      .next (s.resumeFrom n c bs (c.checkIndex + 1)).settleTouchdown := by
  rw [exec_rowCheck_answered h, resumeCheckEnded hst, burnState_of hb, burnTargets_of htg, resumeRow_at hrow]
  simp [State.resumeChecked, masksMatch_eq_true hblown hmarginal, hh, burnState_of hb]

theorem withBurn_self (h : c.burn = some bs) : { c with burn := some bs } = c := by rw [← h]

/-- A dry-run closing that did not fail counts nothing. -/
theorem beginClosing_dry_quiet {outcome : CloseOutcome} (hd : s.dryRun = true) (hf : outcome.isFailed = false) :
    closesDry s (s.beginClosing n c outcome) n c outcome [] := by
  obtain ⟨hcloses, hcounters⟩ := beginClosing_dry s n c outcome hd
  rw [hf] at hcounters
  refine ⟨⟨hcloses.moves.here, hcloses.moves.others, fun p hp => ?_⟩, hcloses.queued⟩
  by_cases hcounter : p = .counters
  · subst hcounter
    exact hcounters
  · exact hcloses.moves.frame p (by simp_all)

/-- Settles O42: the context handed over with its first request, and the answer to each re-check. -/
theorem parkedDieResumes : Obligations.ParkedDieResumes := by
  refine ⟨fun n die rest c e p s hq hc hh hin he hst hp => ?_, fun n c b tg row target f s hin hst hb htg hrow =>
    ⟨fun h => ⟨fun hd => ?_, fun hd => ?_⟩, fun h hblown hmarginal hh => ⟨fun i next goal hi hnext => ?_,
      fun hnone st cmd next bit hf => ?_⟩⟩⟩
  · intro targets resumed x hx
    have hexec := exec_dieLookup hq hc
    rw [lookedUp_parked he hst (heldContext_of_filter hp) hh] at hexec
    have hsame := handedOver_same s p
    have hmoves : siteMoves (s.handedOver p) ((s.handedOver p).resumeFrom n (c.resume p) p.burn 0) n x [] := by
      rcases hx with ⟨i, row, target, hi, hrow, rfl⟩ | ⟨hnone, st, cmd, row, bit, hf, rfl⟩
      · exact resumeFrom_checks hi hrow
      · exact resumeFrom_steps (fun i _ => hnone i) hf
    have hstate : x.state ≠ .final := by
      rcases hx with ⟨i, row, target, -, -, rfl⟩ | ⟨-, st, cmd, row, bit, hf, rfl⟩
      · simp [SiteCtx.asks]
      · simpa [SiteCtx.asks] using hf.notFinal
    have hmoves' := hmoves.after hsame (by simp)
    have hdies := hmoves.frame .dies (by simp)
    have hcounters := hmoves.frame .counters (by simp)
    obtain ⟨h1, h2, h3, h4, h5⟩ := handedOver_dies hq he hp
    refine ⟨_, hmoves'.next hexec hin hstate (by simp), hmoves', ?_⟩
    generalize (s.handedOver p).resumeFrom n (c.resume p) p.burn 0 = t at *
    replace hdies : t.dies = (s.handedOver p).dies := hdies
    rw [hdies]
    exact ⟨h1, h2, h3, h4, h5, counts_of_bump (s := s) hcounters⟩
  · have hexec := exec_recheck_fails hst hb htg hrow h
    have hcloses := beginClosing_closes s n c .voidMismatch hd
    exact ⟨_, hcloses.next hexec hin (by simp), hcloses⟩
  · have hexec := exec_recheck_fails hst hb htg hrow h
    have hcloses := beginClosing_dry_quiet (n := n) (c := c) (outcome := .voidMismatch) hd rfl
    exact ⟨_, hcloses.next hexec hin (by simp), hcloses⟩
  · have hexec := exec_recheck_passes hst hb htg hrow h hblown hmarginal hh
    rw [← burnTargets_of htg] at hnext
    have hmoves := resumeFrom_checks (n := n) hi hnext
    rw [← hb] at hmoves
    exact hmoves.step hexec hin (by simp [SiteCtx.asks]) (by simp)
  · have hexec := exec_recheck_passes hst hb htg hrow h hblown hmarginal hh
    have hmoves := resumeFrom_steps (n := n) (c := c) (low := c.checkIndex + 1) hnone hf
    rw [withBurn_self hb] at hmoves
    exact hmoves.step hexec hin (by simpa [SiteCtx.asks] using hf.notFinal) (by simp)

/-! ### Parks (R77, R131) -/

/-- A park that the list takes: the site's entry ends, its context joins the list, its copies are erased. -/
theorem joinPark_ends (s : State) (n : Site) (c : SiteCtx) :
    entryEnds s (s.joinPark n c) n c c.stop.parkResult [.dies] ∧
      (s.joinPark n c).dies =
        { s.dies.mark c.die .parked with parked := s.dies.parked ++ [c.parked s.profile] } ∧
      ∀ x, (s.joinPark n c).sites[n] = some x → x.key = none ∧ x.check = none ∧ x.identity = none := by
  have hends := enterFinal_ends (s.setDies { s.dies.mark c.die .parked with parked := s.dies.parked ++ [c.parked s.profile] })
    n c c c.stop.parkResult none rfl
  obtain ⟨x, hx, hstate, hresult, hexch⟩ := hends.ended
  have hjoin : s.joinPark n c = ((s.setDies { s.dies.mark c.die .parked with
      parked := s.dies.parked ++ [c.parked s.profile] }).enterFinal n c c.stop.parkResult none).setSite n
        { x.eraseKey with identity := none } := modSite_at _ _ _ hx
  have hset := setSite_moves ((s.setDies { s.dies.mark c.die .parked with
      parked := s.dies.parked ++ [c.parked s.profile] }).enterFinal n c c.stop.parkResult none) n
        { x.eraseKey with identity := none }
  rw [hjoin]
  refine ⟨?_, Eq.trans (hset.frame .dies (by simp)) (hends.frame .dies (by simp)), fun y hy => ?_⟩
  · have hends' := hends.after (setDies_same s _) (by simp) (by simp) (by simp)
    refine ⟨⟨_, hset.here, hstate, hresult, hexch⟩, fun m hm => (hset.others m hm).trans (hends'.others m hm), ?_, ?_,
      hends'.frame.trans (hset.frame.mono (by simp))⟩
    · exact hends'.code
    · exact hends'.bytes
  · rw [hset.here] at hy
    cases hy
    exact ⟨rfl, rfl, rfl⟩

theorem takePark_of_noHalt (h : s.noHalt) : s.takePark n c = s.joinPark n c := by
  refine reportResult_noHalt _ _ (.inl ((noHalt_congr ?_).2 h))
  exact (joinPark_ends s n c).1.frame .chain (by simp)

theorem exec_contextPark (hq : s.dies.queue = .park n :: rest) (hc : s.sites[n] = some c) :
    exec .contextPark s = .next
      (if s.dies.parked.length < 64 then (s.popTable.takePark n c).settleTouchdown
      else if s.dryRun then (s.popTable.parkDry n c).settleTouchdown else s.popTable.evictFor n) := by
  have hc' : s.popTable.sites[n] = some c := hc
  simp only [exec, execContextPark, hq, hc']
  rfl

/-! ### Evictions (R132, R137) -/

/-- The die table unit with the first held context's die VOID and a new parked list. -/
def State.evicting (s : State) (p : ParkedContext) (l : List ParkedContext) : State :=
  (s.popTable.setDies { s.popTable.dies.mark p.die .void with parked := l }).bump .evictions

theorem evicting_same (s : State) (p : ParkedContext) (l : List ParkedContext) :
    sameBut [.dies, .counters] s (s.evicting p l) := fun q hq => by
  cases q <;> simp_all [Part.same, State.evicting]

theorem evicting_dies (hq : s.dies.queue = r :: rest) (he : tableFind s.dies.entries p.die = some e) :
    (s.evicting p l).dies.parked = l ∧
      tableFind (s.evicting p l).dies.entries p.die = some { e with state := .void } ∧
      (∀ d, d ≠ p.die → tableFind (s.evicting p l).dies.entries d = tableFind s.dies.entries d) ∧
      (s.evicting p l).dies.queue = rest := by
  refine ⟨rfl, tableFind_mark_here he _, fun d hd => tableFind_mark_other hd, ?_⟩
  simp [State.evicting, DieTableUnit.mark, DieTableUnit.pop, hq]

theorem evictFor_eq (hl : s.dies.parked = pre ++ p :: l) (hpre : ∀ q ∈ pre, q.status ≠ .held) (hp : p.status = .held) :
    s.popTable.evictFor n = (s.evicting p (pre ++ { p with status := .closing (some n) } :: l)).queueRecord
      (.close (p.closeRecord .voidEvicted)) .dieTable := by
  have hl' : s.popTable.dies.parked = pre ++ p :: l := hl
  have hmark : (s.popTable.dies.mark p.die .void).parked = pre ++ p :: l := hl
  simp only [State.evictFor, hl', oldestHeld_behind hpre hp, hmark, closeFirstHeld_behind _ hpre hp]
  rfl

theorem evictDry_eq (hl : s.dies.parked = pre ++ p :: l) (hpre : ∀ q ∈ pre, q.status ≠ .held) (hp : p.status = .held) :
    s.popTable.evictDry = (s.evicting p (pre ++ l)).bump .diesVoided := by
  have hl' : s.popTable.dies.parked = pre ++ p :: l := hl
  have hmark : (s.popTable.dies.mark p.die .void).parked = pre ++ p :: l := hl
  simp only [State.evictDry, hl', oldestHeld_behind hpre hp, hmark, removeContext_behind hpre hp]
  rfl

theorem queueRecord_same (s : State) (q : EscrowRecord) (report : ReportTo) :
    sameBut [.escrow] s (s.queueRecord q report) := fun p hp => by
  cases p <;> simp_all [Part.same]

/-- A park that finds room. -/
theorem contextPark_joins {i : Identity} {key : Key} {chk : BitVec 16} {serial touchdowns : Nat}
    (hq : s.dies.queue = .park n :: rest) (hc : s.sites[n] = some c) (hb : c.burn = some bs) (hi : c.identity = some i)
    (hkey : c.key = some key) (hchk : c.check = some chk) (hserial : c.serial = some serial)
    (htd : c.touchdowns = some touchdowns) (hroom : s.dies.parked.length < 64)
    (he : tableFind s.dies.entries c.die = some e) (hh : s.noHalt) (hrun : s.othersRun n) :
    ∃ t, exec .contextPark s = .next t ∧ entryEnds s t n c c.stop.parkResult [.dies] ∧
      t.dies.parked = s.dies.parked ++
        [{ status := .held, die := c.die, serial := serial, key := key, check := chk, identity := i, burn := bs
           touchdowns := touchdowns }] ∧
      tableFind t.dies.entries c.die = some { e with state := .parked } ∧
      (∀ d, d ≠ c.die → tableFind t.dies.entries d = tableFind s.dies.entries d) ∧
      t.dies.places = s.dies.places ∧ t.dies.queue = rest ∧
      ∀ x, t.sites[n] = some x → x.key = none ∧ x.check = none ∧ x.identity = none := by
  have hexec := exec_contextPark hq hc
  rw [if_pos hroom, takePark_of_noHalt (s := s.popTable) hh] at hexec
  obtain ⟨hends, hdies, herased⟩ := joinPark_ends s.popTable n c
  have hends' := (hends.after (popTable_same s) (by simp) (by simp) (by simp)).mono (qs := [.dies]) (by simp)
  have hparked : c.parked s.popTable.profile =
      { status := .held, die := c.die, serial := serial, key := key, check := chk, identity := i, burn := bs
        touchdowns := touchdowns } := by
    simp only [SiteCtx.parked, hserial, hkey, hchk, hi, htd, burnState_of hb, Option.getD_some]
  refine ⟨_, hends'.next hexec hrun (by simp), hends', ?_⟩
  rw [hdies, hparked]
  refine ⟨rfl, tableFind_mark_here he _, fun d hd => tableFind_mark_other hd, rfl, ?_, herased⟩
  simp [DieTableUnit.mark, DieTableUnit.pop, hq]

/-- Settles O46: a park with room, a live eviction, and a dry-run eviction. -/
theorem parksServed : Obligations.ParksServed := by
  refine ⟨fun n rest c b i key chk serial touchdowns e result s hq hc hb hi hkey hchk hserial htd hroom he hh hrun hresult =>
    ?_, fun n rest c pre p l e s hq hc hl hlen hpre hp he => ?_⟩
  · have hpark : c.stop.parkResult = result := by
      rcases hresult with ⟨h, rfl⟩ | ⟨h, rfl⟩ | ⟨h, rfl⟩ | ⟨h, rfl⟩ <;> simp [h, StopCause.parkResult]
    rw [← hpark]
    exact contextPark_joins hq hc hb hi hkey hchk hserial htd hroom he hh hrun
  have hexec := exec_contextPark hq hc
  have hfull : ¬s.dies.parked.length < 64 := by
    rw [hl, List.length_append, List.length_cons]
    omega
  rw [if_neg hfull] at hexec
  refine ⟨fun hd => ?_, fun hd hne hh hrun => ?_⟩
  · rw [if_neg (by simp [hd]), evictFor_eq hl hpre hp] at hexec
    obtain ⟨hparked, hvoid, hothers, hrest⟩ :=
      evicting_dies (l := pre ++ { p with status := .closing (some n) } :: l) hq he
    obtain ⟨hcount, hcounts⟩ := counts_of_bump (s := s) (k := .evictions)
      (u := (s.evicting p (pre ++ { p with status := .closing (some n) } :: l)).queueRecord
        (.close (p.closeRecord .voidEvicted)) .dieTable) rfl
    exact ⟨_, hexec, ((evicting_same s p _).mono (by simp)).trans ((queueRecord_same _ _ _).mono (by simp)), hparked, hvoid,
      hothers, hrest, hcount, hcounts, rfl⟩
  · rw [if_pos hd] at hexec
    have hroom : ((s.evicting p (pre ++ l)).bump .diesVoided).dies.parked.length < parkedCapacity := by
      show (pre ++ l).length < 64
      rw [List.length_append]
      omega
    have hpark : s.popTable.parkDry n c = ((s.evicting p (pre ++ l)).bump .diesVoided).joinPark n c := by
      rw [State.parkDry, evictDry_eq hl hpre hp]
      exact (if_pos hroom).trans (takePark_of_noHalt (s := (s.evicting p (pre ++ l)).bump .diesVoided) hh)
    rw [hpark] at hexec
    obtain ⟨hends, hdies, -⟩ := joinPark_ends ((s.evicting p (pre ++ l)).bump .diesVoided) n c
    have hsame : sameBut [.dies, .counters] s ((s.evicting p (pre ++ l)).bump .diesVoided) := fun q hq => by
      have hq' := evicting_same s p (pre ++ l) q hq
      cases q <;> simp_all [Part.same]
    have hends' := (hends.after hsame (by simp) (by simp) (by simp)).mono (qs := [.dies, .counters]) (by simp)
    obtain ⟨hcount, hcounts⟩ := counts_of_bump (s := s) (k := .evictions) (u := s.evicting p (pre ++ l)) rfl
    obtain ⟨hvoided, hvoids⟩ := counts_of_bump (s := s.evicting p (pre ++ l)) (k := .diesVoided)
      (u := ((s.evicting p (pre ++ l)).bump .diesVoided).joinPark n c) (hends.frame .counters (by simp))
    refine ⟨_, hends'.next hexec hrun (by simp), hends', ?_, ?_, (hvoids _ (by simp)).trans hcount,
      hvoided.trans (congrArg satInc (hcounts _ (by simp))), fun k hk => ?_⟩
    · rw [hdies]
      rfl
    · rw [hdies]
      exact (tableFind_mark_other hne.symm).trans (evicting_dies hq he).2.1
    · exact (hvoids k fun h => hk (by simp_all)).trans (hcounts k fun h => hk (by simp_all))

end Sys2Proof.Machine

/-! The requests of the chain unit at the die table unit: the clear (R128), the void-all of a WAFER_END (R136, R137, R158),
and the dump (R138, R160). -/

namespace Sys2Proof.Machine

variable {s t u : State} {r : TableRequest} {rest : List TableRequest} {b : Block} {tag : Nat}

/-! ### A live void-all (R136) -/

/-- A held context of a live wafer that has ended. -/
def ParkedContext.ended (q : ParkedContext) : ParkedContext :=
  if q.isHeld then { q with status := .closing none } else q

/-- What a run of voided contexts does to the entry of a die. -/
def voidsEntry (hs : List ParkedContext) (d : Die) (e : DieEntry) : DieEntry :=
  if hs.any (fun p => decide (p.die = d)) then { e with state := .void } else e

theorem closeFirstHeld_fewer (l : List ParkedContext) :
    ((closeFirstHeld none l).filter ParkedContext.isHeld).length = (l.filter ParkedContext.isHeld).length - 1 := by
  induction l with
  | nil => rfl
  | cons q l ih =>
    unfold closeFirstHeld
    split
    · rename_i hq
      rw [List.filter_cons_of_pos hq, List.filter_cons_of_neg (by simp [ParkedContext.isHeld]), List.length_cons]
      rfl
    · rename_i hq
      rw [List.filter_cons_of_neg hq, List.filter_cons_of_neg hq, ih]

theorem closeFirstHeld_ended (l : List ParkedContext) :
    (closeFirstHeld none l).map ParkedContext.ended = l.map ParkedContext.ended := by
  induction l with
  | nil => rfl
  | cons q l ih =>
    unfold closeFirstHeld
    split
    · rename_i hq
      simp only [List.map_cons, ParkedContext.ended, if_pos hq]
      rw [if_neg (by simp [ParkedContext.isHeld])]
    · rw [List.map_cons, List.map_cons, ih]

theorem ended_noneHeld {l : List ParkedContext} (h : (l.filter ParkedContext.isHeld).length = 0) :
    l.map ParkedContext.ended = l := by
  refine (List.map_congr_left fun q hq => ?_).trans (List.map_id l)
  have hnone := List.filter_eq_nil_iff.1 (List.length_eq_zero_iff.1 h) q hq
  simp [ParkedContext.ended, hnone]

theorem voidsEntry_nil (o : Option DieEntry) (d : Die) : o.map (voidsEntry [] d) = o := by
  cases o <;> simp [voidsEntry]

/-- The entries after one more context was voided. -/
theorem voidsEntry_cons (p : ParkedContext) (hs : List ParkedContext) (l : List (Die × DieEntry)) (d : Die) :
    (tableFind (tableMark l p.die .void) d).map (voidsEntry hs d) = (tableFind l d).map (voidsEntry (p :: hs) d) := by
  rw [tableFind_mark, Option.map_map]
  refine congrArg (fun f => (tableFind l d).map f) (funext fun e => ?_)
  by_cases hd : d = p.die
  · subst hd
    by_cases hany : (hs.any fun q => decide (q.die = p.die)) = true <;> simp [voidsEntry, hany]
  · have hd' : ¬p.die = d := fun h => hd h.symm
    simp [voidsEntry, hd, hd']

/-- From `s` to `t` the contexts `hs` were voided at a live WAFER_END. -/
structure voidsLive (hs : List ParkedContext) (s t : State) : Prop where
  frame : sameBut [.dies, .escrow] s t
  parked : t.dies.parked = s.dies.parked.map ParkedContext.ended
  escrow : t.escrow =
    { s.escrow with
      queue := s.escrow.queue ++ hs.map fun p => { record := .close (p.closeRecord .voidWaferEnd), report := .dieTable } }
  queue : t.dies.queue = s.dies.queue
  places : t.dies.places = s.dies.places
  entries : ∀ d, tableFind t.dies.entries d = (tableFind s.dies.entries d).map (voidsEntry hs d)

theorem voidLive_fold (hs : List ParkedContext) : ∀ s : State,
    (s.dies.parked.filter ParkedContext.isHeld).length = hs.length → voidsLive hs s (hs.foldl State.voidLive s) := by
  induction hs with
  | nil =>
    intro s h
    refine ⟨fun p _ => by cases p <;> simp [Part.same], (ended_noneHeld h).symm, by simp, rfl, rfl, fun d => ?_⟩
    exact (voidsEntry_nil _ d).symm
  | cons p hs ih =>
    intro s h
    have hparked : (s.voidLive p).dies.parked = closeFirstHeld none s.dies.parked := rfl
    have hone : sameBut [.dies, .escrow] s (s.voidLive p) := fun q hq => by
      cases q <;> simp_all [Part.same, State.voidLive]
    have hrest := ih (s.voidLive p) (by rw [hparked, closeFirstHeld_fewer, h]; rfl)
    refine ⟨hone.trans hrest.frame, ?_, ?_, hrest.queue, hrest.places, fun d => ?_⟩
    · rw [List.foldl_cons, hrest.parked, hparked, closeFirstHeld_ended]
    · rw [List.foldl_cons, hrest.escrow]
      simp [State.voidLive, State.queueRecord]
    · rw [List.foldl_cons, hrest.entries d]
      exact voidsEntry_cons p hs s.dies.entries d

/-! ### A dry-run void-all (R137) -/

/-- From `s` to `t` all the contexts of the list, `hs`, were voided at a dry-run WAFER_END. -/
structure voidsDry (hs : List ParkedContext) (s t : State) : Prop where
  frame : sameBut [.dies, .counters] s t
  parked : t.dies.parked = []
  count : t.counter .diesVoided = min counterMax (s.counter .diesVoided + hs.length)
  counts : countersBut [.diesVoided] s t
  queue : t.dies.queue = s.dies.queue
  places : t.dies.places = s.dies.places
  entries : ∀ d, tableFind t.dies.entries d = (tableFind s.dies.entries d).map (voidsEntry hs d)

theorem satInc_eq_min {v : Nat} (h : v ≤ counterMax) : satInc v = min counterMax (v + 1) := by
  unfold satInc
  split <;> omega

theorem voidDry_fold (hs : List ParkedContext) : ∀ s : State, s.dies.parked = hs → s.counter .diesVoided ≤ counterMax →
    voidsDry hs s (hs.foldl State.voidDry s) := by
  induction hs with
  | nil =>
    intro s h hmax
    refine ⟨fun p _ => by cases p <;> simp [Part.same], h, by simpa using hmax, fun _ _ => rfl, rfl, rfl, fun d => ?_⟩
    exact (voidsEntry_nil _ d).symm
  | cons p hs ih =>
    intro s h hmax
    have hparked : (s.voidDry p).dies.parked = hs := by
      show removeContext s.dies.parked p = hs
      rw [h, removeContext, List.erase_cons_head]
    have hone : sameBut [.dies, .counters] s (s.voidDry p) := fun q hq => by
      cases q <;> simp_all [Part.same, State.voidDry]
    obtain ⟨hcount, hcounts⟩ := counts_of_bump (s := s) (u := s.voidDry p) (k := .diesVoided) rfl
    have hmax' : (s.voidDry p).counter .diesVoided ≤ counterMax := by
      rw [hcount, satInc_eq_min hmax]
      exact Nat.min_le_left _ _
    have hrest := ih (s.voidDry p) hparked hmax'
    refine ⟨hone.trans hrest.frame, hrest.parked, ?_, fun k hk => (hrest.counts k hk).trans (hcounts k hk), hrest.queue,
      hrest.places, fun d => ?_⟩
    · rw [List.foldl_cons, hrest.count, hcount, satInc_eq_min hmax, List.length_cons]
      omega
    · rw [List.foldl_cons, hrest.entries d]
      exact voidsEntry_cons p hs s.dies.entries d

/-! ### The void-all and the clear -/

theorem voidsEntry_held (l : List ParkedContext) (d : Die) : voidsEntry (l.filter ParkedContext.isHeld) d =
    fun e => if l.any (fun p => p.isHeld && decide (p.die = d)) then { e with state := .void } else e := by
  funext e
  simp only [voidsEntry, List.any_filter]

theorem exec_voidAllParked (hq : s.dies.queue = .voidAll :: rest) (hb : s.chain.block = some b) (hw : b.work = .waferEnd)
    (hframe : s.popTable.voidHeld.chain = s.chain) :
    exec .voidAllParked s = .next (s.popTable.voidHeld.queueRecord .summary .chain) := by
  simp only [exec, execVoidAllParked, hq, State.voidAllAnswered, hframe, hb, hw]

/-- Settles O47: the clear, the live void-all and the dry-run one. -/
theorem clearAndVoidAllServed : Obligations.ClearAndVoidAllServed := by
  refine ⟨fun rest s hq => ?_, fun rest b s hq hb hw => ⟨fun hd => ?_, fun hd hheld hmax => ?_⟩⟩
  · refine ⟨s.popTable.setDies { s.popTable.dies with entries := [] }, by simp only [exec, execTableClear, hq], ?_,
      popTable_setDies_same s _⟩
    simp [DieTableUnit.pop, hq]
  · have hvoids := voidLive_fold (s.dies.parked.filter ParkedContext.isHeld) s.popTable rfl
    have hvoid : s.popTable.voidHeld = (s.dies.parked.filter ParkedContext.isHeld).foldl State.voidLive s.popTable :=
      congrArg (fun f => List.foldl f s.popTable (s.dies.parked.filter ParkedContext.isHeld))
      (if_neg (by rw [show s.popTable.dryRun = s.dryRun from rfl, hd]; simp))
    rw [← hvoid] at hvoids
    have hsame := ((popTable_same s).mono (by simp)).trans hvoids.frame
    refine ⟨_, exec_voidAllParked hq hb hw (hsame.chain (by simp)), hsame.trans ((queueRecord_same _ _ _).mono (by simp)),
      hvoids.parked, ?_, hvoids.queue.trans ?_, hvoids.places, fun d => ?_⟩
    · simp only [State.queueRecord, State.setEscrow_escrow, hvoids.escrow]
      rfl
    · rw [popTable_head hq]
    · rw [← voidsEntry_held]
      exact hvoids.entries d
  · have hall : s.dies.parked.filter ParkedContext.isHeld = s.dies.parked := List.filter_eq_self.2 hheld
    have hvoids := voidDry_fold s.dies.parked s.popTable rfl (hmax _)
    have hvoid : s.popTable.voidHeld = s.dies.parked.foldl State.voidDry s.popTable := by
      show (s.dies.parked.filter ParkedContext.isHeld).foldl _ s.popTable = _
      rw [hall]
      exact congrArg (fun f => List.foldl f s.popTable s.dies.parked) (if_pos hd)
    rw [← hvoid] at hvoids
    have hsame : sameBut [.dies, .counters, .escrow] s s.popTable.voidHeld :=
      ((popTable_same s).mono (by simp)).trans (hvoids.frame.mono (by simp))
    have hescrow : s.popTable.voidHeld.escrow = s.escrow := hvoids.frame .escrow (by simp)
    refine ⟨_, exec_voidAllParked hq hb hw (hsame.chain (by simp)), hsame.trans ((queueRecord_same _ _ _).mono (by simp)),
      hvoids.parked, hvoids.count, hvoids.counts, hvoids.queue.trans ?_, hvoids.places, ?_, hvoids.entries⟩
    · rw [popTable_head hq]
    · simp only [State.queueRecord, State.setEscrow_escrow, hescrow]

/-! ### The records of a dump (R138, section 11.2) -/

/-- Records of 16 bytes written one behind the other read back one by one. -/
theorem Memory.readBytes_writeBytes_records {m : Memory} {a k : Nat} {l : List (List Byte)} (hw : m.wf = true)
    (hl : ∀ x ∈ l, x.length = 16) (hfit : a + 16 * l.length ≤ jobMemorySize) (hk : k < l.length) :
    (m.writeBytes a l.flatten).readBytes (a + 16 * k) 16 = l[k] := by
  induction l generalizing m a k with
  | nil => exact absurd hk (Nat.not_lt_zero k)
  | cons x l ih =>
    have hx : x.length = 16 := hl x List.mem_cons_self
    simp only [List.length_cons] at hfit hk
    rw [List.flatten_cons, Memory.writeBytes_append, hx]
    cases k with
    | zero =>
      rw [Memory.readBytes_writeBytes_out (by omega)]
      exact Memory.readBytes_written hw hx (by omega)
    | succ k =>
      have hrest := ih (Memory.wf_writeBytes hw a x) (a := a + 16) (k := k)
        (fun y hy => hl y (List.mem_cons_of_mem _ hy)) (by omega) (by omega)
      rwa [show a + 16 * (k + 1) = a + 16 + 16 * k by omega]

theorem dumpRecord_length {v : DieTableUnit} {capacity : Nat} {x : List Byte} (hx : x ∈ v.dumpRecords capacity) :
    x.length = 16 := by
  simp only [DieTableUnit.dumpRecords, List.mem_append, List.mem_map] at hx
  rcases hx with ⟨_, _, rfl⟩ | ⟨_, _, rfl⟩ <;> simp [entryRecord, summaryRecord, serialField]

/-- The summaries that fit behind the entries. -/
theorem summariesDumped_eq (v : DieTableUnit) (capacity : Nat) :
    v.summariesDumped capacity = min (capacity / 16 - v.entriesDumped capacity) v.parked.length := by
  unfold DieTableUnit.summariesDumped DieTableUnit.entriesDumped
  split <;> omega

theorem dumpRecords_length (v : DieTableUnit) (capacity : Nat) :
    (v.dumpRecords capacity).length = v.entriesDumped capacity + v.summariesDumped capacity := by
  have hentries : v.entriesDumped capacity ≤ v.entries.length := Nat.min_le_right _ _
  have hsummaries : v.summariesDumped capacity ≤ v.parked.length := by
    rw [summariesDumped_eq]
    exact Nat.min_le_right _ _
  simp [DieTableUnit.dumpRecords, hentries, hsummaries]

theorem dumpRecords_entry {v : DieTableUnit} {capacity k : Nat} (hk : k < v.entries.length)
    (hs : k < v.entriesDumped capacity) : (v.dumpRecords capacity)[k]? = some (entryRecord v.entries[k]) := by
  rw [DieTableUnit.dumpRecords, List.getElem?_append_left (by simp; omega)]
  simp [hs, hk]

theorem dumpRecords_summary {v : DieTableUnit} {capacity k : Nat} (hk : k < v.parked.length)
    (hs : k < v.summariesDumped capacity) :
    (v.dumpRecords capacity)[v.entriesDumped capacity + k]? = some (summaryRecord v.parked[k]) := by
  have hentries : v.entriesDumped capacity ≤ v.entries.length := Nat.min_le_right _ _
  rw [DieTableUnit.dumpRecords, List.getElem?_append_right (by simp)]
  simp [hs, hk, hentries]

theorem dumpBytes_length (v : DieTableUnit) (capacity : Nat) :
    (v.dumpBytes capacity).length = 16 * (v.entriesDumped capacity + v.summariesDumped capacity) := by
  rw [← dumpRecords_length, DieTableUnit.dumpBytes, List.length_flatten]
  have hall : (v.dumpRecords capacity).map List.length = List.replicate (v.dumpRecords capacity).length 16 :=
    List.eq_replicate_iff.2 ⟨by simp, fun k hk => by
      obtain ⟨x, hx, rfl⟩ := List.mem_map.1 hk
      exact dumpRecord_length hx⟩
  rw [hall, List.sum_replicate, smul_eq_mul, Nat.mul_comm]

/-! ### The bytes that a dump writes -/

/-- The board after a dump's records and counts are written. -/
def State.dumped (s : State) (b : Block) (buffer capacity : Nat) : State :=
  (s.popTable.writeDump buffer capacity).writeDumpCounts b capacity

theorem dumped_same (s : State) (b : Block) (buffer capacity : Nat) :
    sameBut [.mem, .dies] s (s.dumped b buffer capacity) := fun p hp => by
  cases p <;> simp_all [Part.same, State.dumped, State.writeDumpCounts, State.writeDump]

theorem dumped_wf (hw : s.mem.wf = true) (b : Block) (buffer capacity : Nat) :
    (s.dumped b buffer capacity).mem.wf = true :=
  Memory.wf_writeField (Memory.wf_writeField (Memory.wf_writeField (Memory.wf_writeField
    (Memory.wf_writeBytes hw _ _) _ _ _) _ _ _) _ _ _) _ _ _

theorem dumped_counts_out (s : State) (b : Block) (buffer capacity : Nat) {a : Nat}
    (ha : ¬(b.offset + 72 ≤ a ∧ a < b.offset + 88)) :
    (s.dumped b buffer capacity).mem.read a = (s.mem.writeBytes buffer (s.dies.dumpBytes capacity)).read a := by
  simp only [State.dumped, State.writeDumpCounts, State.storeField, State.setMem_mem]
  rw [Memory.read_writeField_out (by omega), Memory.read_writeField_out (by omega), Memory.read_writeField_out (by omega),
    Memory.read_writeField_out (by omega)]
  rfl

theorem dumped_out (s : State) (b : Block) (buffer capacity : Nat) {a : Nat}
    (ha : ¬(b.offset + 72 ≤ a ∧ a < b.offset + 88))
    (hbuffer : ¬(buffer ≤ a ∧
      a < buffer + 16 * (s.dies.entriesDumped capacity + s.dies.summariesDumped capacity))) :
    (s.dumped b buffer capacity).mem.read a = s.mem.read a := by
  rw [dumped_counts_out s b buffer capacity ha]
  exact Memory.read_writeBytes_out (by rwa [dumpBytes_length])

theorem dumped_counts (hw : s.mem.wf = true) (hin : b.offset + 88 ≤ jobMemorySize) (he : s.dies.entries.length ≤ 8192)
    (hp : s.dies.parked.length ≤ 64) (buffer capacity : Nat) :
    (s.dumped b buffer capacity).mem.read32 (b.offset + 72) = s.dies.entriesDumped capacity ∧
      (s.dumped b buffer capacity).mem.read32 (b.offset + 76) = s.dies.summariesDumped capacity ∧
      (s.dumped b buffer capacity).mem.read32 (b.offset + 80) = s.dies.entries.length ∧
      (s.dumped b buffer capacity).mem.read32 (b.offset + 84) = s.dies.parked.length := by
  have hentries : s.dies.entriesDumped capacity ≤ s.dies.entries.length := Nat.min_le_right _ _
  have hsummaries : s.dies.summariesDumped capacity ≤ s.dies.parked.length := by
    rw [summariesDumped_eq]
    exact Nat.min_le_right _ _
  have h0 : (s.mem.writeBytes buffer (s.dies.dumpBytes capacity)).wf = true := Memory.wf_writeBytes hw _ _
  have h1 := Memory.wf_writeField h0 (b.offset + 72) 4 (s.dies.entriesDumped capacity)
  have h2 := Memory.wf_writeField h1 (b.offset + 76) 4 (s.dies.summariesDumped capacity)
  have h3 := Memory.wf_writeField h2 (b.offset + 80) 4 s.dies.entries.length
  have hmem : (s.dumped b buffer capacity).mem =
      ((((s.mem.writeBytes buffer (s.dies.dumpBytes capacity)).writeField (b.offset + 72) 4
        (s.dies.entriesDumped capacity)).writeField (b.offset + 76) 4 (s.dies.summariesDumped capacity)).writeField
          (b.offset + 80) 4 s.dies.entries.length).writeField (b.offset + 84) 4 s.dies.parked.length := rfl
  have hmax : counterMax = 4294967295 := rfl
  rw [hmem]
  refine ⟨?_, ?_, ?_, Memory.read32_writeField h3 (by omega) (by omega)⟩
  · rw [Memory.read32_writeField_out (by omega), Memory.read32_writeField_out (by omega),
      Memory.read32_writeField_out (by omega)]
    exact Memory.read32_writeField h0 (by omega) (by omega)
  · rw [Memory.read32_writeField_out (by omega), Memory.read32_writeField_out (by omega)]
    exact Memory.read32_writeField h1 (by omega) (by omega)
  · rw [Memory.read32_writeField_out (by omega)]
    exact Memory.read32_writeField h2 (by omega) (by omega)

/-- What an accepted buffer keeps clear of. -/
theorem dumpAccepted_apart {offset buffer capacity : Nat} (h : dumpAccepted offset buffer capacity = true) :
    offset + 88 ≤ jobMemorySize ∧ buffer + capacity ≤ jobMemorySize ∧
      (capacity = 0 ∨ offset + 88 ≤ buffer ∨ buffer + capacity ≤ offset) := by
  simp only [dumpAccepted, Bool.and_eq_true, Bool.not_eq_true', Bool.and_eq_false_iff, decide_eq_true_eq,
    decide_eq_false_iff_not] at h
  omega

theorem dumpedBytes_le (v : DieTableUnit) (capacity : Nat) :
    16 * (v.entriesDumped capacity + v.summariesDumped capacity) ≤ capacity := by
  rw [← dumpBytes_length]
  exact v.dumpBytes_length_le capacity

/-- A record of the dump as it stands in the buffer. -/
theorem dumped_record {buffer capacity k : Nat} {x : List Byte} (hw : s.mem.wf = true)
    (h : dumpAccepted b.offset buffer capacity = true) (hx : (s.dies.dumpRecords capacity)[k]? = some x) :
    (s.dumped b buffer capacity).mem.readBytes (buffer + 16 * k) 16 = x := by
  obtain ⟨hk, rfl⟩ := List.getElem?_eq_some_iff.1 hx
  obtain ⟨hblock, hbuffer, hapart⟩ := dumpAccepted_apart h
  have hle := dumpedBytes_le s.dies capacity
  have hlen := dumpRecords_length s.dies capacity
  rw [Memory.readBytes_congr fun a h1 h2 => dumped_counts_out s b buffer capacity (by omega)]
  exact Memory.readBytes_writeBytes_records hw (fun y hy => dumpRecord_length hy) (by omega) hk

theorem exec_tableDump {buffer capacity : Nat} (hq : s.dies.queue = .dump buffer capacity :: rest)
    (hb : s.chain.block = some b) (hw : b.work = .dump) :
    exec .tableDump s = .next ((s.dumped b buffer capacity).blockDone b .ok) := by
  have hb' : (s.popTable.writeDump buffer capacity).chain.block = some b := hb
  simp only [exec, execTableDump, hq, hb', hw]
  rfl

/-- Settles O48: the counts, the records, the other bytes, and the end of the block. -/
theorem dumpServed : Obligations.DumpServed := by
  intro buffer capacity rest b tag s hq hb hw hwait hok hlink he hp
  obtain ⟨hblock, hbuffer, hapart⟩ := dumpAccepted_apart hok
  have hle := dumpedBytes_le s.dies capacity
  have hsame := dumped_same s b buffer capacity
  have hmod := validBlockOffset_mod hwait.link
  have hal := hwait.aligned
  have hlink' : (s.dumped b buffer capacity).linkOf b.offset = s.linkOf b.offset :=
    Memory.read32_congr fun a h1 h2 => dumped_out s b buffer capacity (by omega) (by omega)
  have htag : (s.dumped b buffer capacity).mem.read16 (s.linkOf b.offset) = s.mem.read16 (s.linkOf b.offset) :=
    Memory.read16_congr fun a h1 h2 => dumped_out s b buffer capacity (by omega) (by omega)
  have hwait' := waitsAfter_of_agree hwait (dumped_wf hwait.memory b buffer capacity)
    (by rw [hsame.chain (by simp)]) (hsame .escrow (by simp)) hlink' htag
  obtain ⟨hdone, hbytes, hdoneSame⟩ := blockDone_waits .ok hwait'
  have hreg : (s.dumped b buffer capacity).reg = s.reg := hsame .reg (by simp)
  obtain ⟨h72, h76, h80, h84⟩ := dumped_counts (b := b) hwait.memory hblock he hp buffer capacity
  refine ⟨_, exec_tableDump hq hb hw, ⟨?_, hdone.result, hdone.doneTag, ?_⟩,
    (hsame.mono (by simp)).trans (hdoneSame.mono (by simp)), ?_, ?_⟩
  · rw [hdone.chain, hsame.chain (by simp), hlink']
  · rw [hdone.events, hreg]
  · exact Eq.trans (hdoneSame .dies (by simp)) (popTable_head hq)
  generalize hu : s.dumped b buffer capacity = u at *
  generalize u.blockDone b .ok = t at *
  intro fit shown summaries
  have hsummaries : s.dies.summariesDumped capacity = summaries := summariesDumped_eq s.dies capacity
  have hfield : ∀ a, b.offset + 72 ≤ a → a + 4 ≤ b.offset + 88 → t.mem.read32 a = u.mem.read32 a := fun a h1 h2 =>
    Memory.read32_congr fun x hx1 hx2 => hbytes x (by omega) (by omega)
  have hrecords : ∀ k x, (s.dies.dumpRecords capacity)[k]? = some x → t.mem.readBytes (buffer + 16 * k) 16 = x := by
    intro k x hx
    have hk := (List.getElem?_eq_some_iff.1 hx).1
    rw [dumpRecords_length] at hk
    rw [← dumped_record hwait.memory hok hx, hu]
    exact Memory.readBytes_congr fun a h1 h2 => hbytes a (by omega) (by omega)
  refine ⟨(hfield _ (by omega) (by omega)).trans h72, ((hfield _ (by omega) (by omega)).trans h76).trans hsummaries,
    (hfield _ (by omega) (by omega)).trans h80, (hfield _ (by omega) (by omega)).trans h84, fun k hk hs => ?_,
    fun k hk hs => ?_, fun a h1 h2 h3 => ?_⟩
  · exact hrecords k _ (dumpRecords_entry hk hs)
  · exact hrecords _ _ (dumpRecords_summary hk (hsummaries ▸ hs))
  · rw [hbytes a (by omega) (by omega), ← hu]
    exact dumped_out s b buffer capacity h3 (by rw [hsummaries]; exact h1)

end Sys2Proof.Machine

/-! Pages and records of the escrow log (R163, R166 to R168): the record at the head of the queue written into the open
page, and a page handed over. -/

namespace Sys2Proof.Machine

variable {s t u w : State} {page slot records next : Nat} {r : RecordRequest} {rest : List RecordRequest}

/-! ### The head of the write queue stands in its slots (R166 steps 1 to 4) -/

/-- From `s` to `u` the record at the head of the queue was written and left the queue, and the flush that waited for it
is no longer pending. -/
structure headStands (s u : State) (page slot records : Nat) (r : RecordRequest) (rest : List RecordRequest) : Prop where
  bytes : u.mem.readBytes (page + 64 + 64 * slot) (64 * r.record.slots) = r.record.bytes s.counters
  count : u.mem.read32 (page + 8) = records + 1
  memory : ∀ a, ¬(page + 8 ≤ a ∧ a < page + 12) →
    ¬(page + 64 + 64 * slot ≤ a ∧ a < page + 64 + 64 * (slot + r.record.slots)) → u.mem.read a = s.mem.read a
  escrow : u.escrow =
    { writer := .opened page (slot + r.record.slots) (records + 1), seq := s.escrow.seq, queue := rest
      flushPending := false }
  frame : sameBut [.mem, .escrow] s u
  wf : u.mem.wf = true

theorem writeRecord_stands (hwf : s.mem.wf = true) (hw : s.escrow.writer = .opened page slot records)
    (hq : s.escrow.queue = r :: rest) (hroom : slot + r.record.slots ≤ 16) (hcount : records < counterMax)
    (hin : page + 1088 ≤ jobMemorySize) : ∃ u, headStands s u page slot records r rest ∧
      s.writeRecord = ((u.reportWritten r).handOverFull).flushAfter s.escrow.flushPending := by
  obtain ⟨t, hhead, hstands, hsame, hwf'⟩ := writeHead_stands hwf hw hq hroom hcount hin
  have hescrow := hstands.escrow
  refine ⟨t.setEscrow { t.escrow with flushPending := false }, ⟨hstands.bytes, hstands.count, hstands.memory, ?_,
    fun p hp => ?_, hwf'⟩, ?_⟩
  · simp [hescrow]
  · have hpart := hsame p hp
    cases p <;> simp_all [Part.same]
  · simp only [State.writeRecord, hhead]

theorem makeRoom_still (hw : s.escrow.writer = .opened page slot records) (hq : s.escrow.queue = r :: rest)
    (hroom : slot + r.record.slots ≤ 16) : s.makeRoom = s := by
  simp only [State.makeRoom, hw, hq, if_pos hroom]

/-- The write of a record that the open page has room for. -/
theorem exec_writeRecord (hwf : s.mem.wf = true) (hw : s.escrow.writer = .opened page slot records)
    (hq : s.escrow.queue = r :: rest) (hroom : slot + r.record.slots ≤ 16) (hcount : records < counterMax)
    (hin : page + 1088 ≤ jobMemorySize) : ∃ u, headStands s u page slot records r rest ∧
      exec .escrowRecordWrite s =
        .next (((u.reportWritten r).handOverFull).flushAfter s.escrow.flushPending) := by
  obtain ⟨u, hstands, hwrite⟩ := writeRecord_stands hwf hw hq hroom hcount hin
  refine ⟨u, hstands, ?_⟩
  simp only [exec, execEscrowRecordWrite, makeRoom_still hw hq hroom, hwrite]

theorem reportWritten_nobody (h : r.report = .nobody) : s.reportWritten r = s := by
  simp only [State.reportWritten, h]

/-- Settles O49: nothing to write or nowhere to write it, and a record that nobody asked to be told of. -/
theorem escrowRecordWritten : Obligations.EscrowRecordWritten := by
  refine ⟨fun s h => ?_, fun page slot records r rest s h hnobody => ?_⟩
  · have hroom : s.makeRoom = s := by
      unfold State.makeRoom
      split
      · rename_i slot' records' r' rest' hw hq
        rcases h with h | h
        · exact absurd hw (h _ _ _)
        · rw [h] at hq
          cases hq
      · rfl
    have hhead : s.writeHead = none := by
      unfold State.writeHead
      split
      · rename_i page' slot' records' r' rest' hw hq
        rcases h with h | h
        · exact absurd hw (h _ _ _)
        · rw [h] at hq
          cases hq
      · rfl
    simp only [exec, execEscrowRecordWrite, hroom, State.writeRecord, hhead]
  · obtain ⟨u, hstands, hsame, -, hexec⟩ := exec_recordWrite h
    rw [reportWritten_nobody hnobody,
      handOverFull_id (congrArg EscrowWriter.writer hstands.escrow) h.room] at hexec
    exact ⟨u, hexec, hstands, hsame⟩

/-! ### A page handed over (R163, R167) -/

theorem validPage_bounds (h : validPage next = true) : 1088 ≤ next ∧ next + 1088 ≤ jobMemorySize := by
  simp only [validPage, validOffset, Bool.and_eq_true, decide_eq_true_eq] at h
  omega

/-- From `s` to `t` the page was handed over: its three fields, ESCROW_READY, and the page sequence moved on (R162,
R167). -/
structure pageReleased (s t : State) (page records : Nat) : Prop where
  owner : t.mem.read32 page = ownerHostRead
  sequence : s.escrow.seq ≤ counterMax → t.mem.read32 (page + 4) = s.escrow.seq
  count : t.mem.read32 (page + 8) = records
  frame : sameBut [.reg, .mem, .escrow] s t
  wf : t.mem.wf = true

/-- The board before the next page is opened. -/
def State.released (s : State) (page records : Nat) : State :=
  ((s.releasePage page records).raise .escrowReady).setEscrow { s.escrow with seq := nextSeq s.escrow.seq }

theorem handOver_eq (hw : s.escrow.writer = .opened page slot records) :
    s.handOver = (s.released page records).openPage (s.mem.read32 (page + 12)) (.link page) true := by
  simp only [State.handOver, hw]
  rfl

theorem released_facts (hwf : s.mem.wf = true) (hin : page + 1088 ≤ jobMemorySize)
    (hrec : records ≤ counterMax) : pageReleased s (s.released page records) page records ∧
      bytesBut page 12 s (s.released page records) := by
  obtain ⟨howner, hsequence, hcount, hbytes⟩ := releasePage_fields (page := page) (records := records) hwf (by omega) hrec
  refine ⟨⟨howner, hsequence, hcount, fun p hp => ?_, ?_⟩, hbytes⟩
  · cases p <;> simp_all [Part.same, State.released, State.releasePage, State.storeField]
  · exact Memory.wf_writeField (Memory.wf_writeField (Memory.wf_writeField hwf _ _ _) _ _ _) _ _ _

/-- The next page is valid and the engine's: it is opened with the moved-on page sequence. -/
theorem handOver_opens (hw : s.escrow.writer = .opened page slot records) (hwf : s.mem.wf = true)
    (hin : page + 1088 ≤ jobMemorySize) (hrec : records ≤ counterMax)
    (hn : s.mem.read32 (page + 12) = next) (hv : validPage next = true) (ho : s.mem.read32 next = ownerEngine)
    (hap : apart page 1088 next 1088) : pageReleased s s.handOver page records ∧
      s.handOver.escrow = { s.escrow with writer := .opened next 0 0, seq := nextSeq s.escrow.seq } ∧
      s.handOver.reg = s.reg.setEvent .escrowReady ∧
      (s.escrow.seq ≤ counterMax → s.handOver.mem.read32 (next + 4) = nextSeq s.escrow.seq) ∧
      s.handOver.mem.read32 (next + 8) = 0 ∧
      ∀ a, ¬(page ≤ a ∧ a < page + 12) → ¬(next + 4 ≤ a ∧ a < next + 12) → s.handOver.mem.read a = s.mem.read a := by
  obtain ⟨hreleased, hbytes⟩ := released_facts (records := records) hwf hin hrec
  obtain ⟨hlow, hhigh⟩ := validPage_bounds hv
  have ho' : (s.released page records).mem.read32 next = ownerEngine := by
    rw [← ho]
    exact Memory.read32_congr fun a h1 h2 => hbytes a (by unfold apart at hap; omega)
  have hfresh : s.escrow.seq ≤ counterMax → nextSeq s.escrow.seq ≤ counterMax := fun hseq => by
    unfold nextSeq
    split <;> simp only [counterMax] at * <;> omega
  have hopen : s.handOver =
      (((s.released page records).storeField (next + 4) 4 (nextSeq s.escrow.seq)).storeField (next + 8) 4 0).setWriter
        (.opened next 0 0) := by
    rw [handOver_eq hw, hn]
    exact if_pos ⟨hv, ho'⟩
  have hmem : s.handOver.mem = ((s.released page records).mem.writeField (next + 4) 4 (nextSeq s.escrow.seq)).writeField
      (next + 8) 4 0 := by rw [hopen]; rfl
  have hwf4 : ((s.released page records).mem.writeField (next + 4) 4 (nextSeq s.escrow.seq)).wf = true :=
    Memory.wf_writeField hreleased.wf _ _ _
  have hsame : sameBut [.reg, .mem, .escrow] (s.released page records) s.handOver := fun p hp => by
    rw [hopen]
    cases p <;> simp_all [Part.same, State.setWriter, State.storeField]
  have hkeep : ∀ a, ¬(next + 4 ≤ a ∧ a < next + 12) → s.handOver.mem.read a = (s.released page records).mem.read a :=
    fun a ha => by rw [hmem, Memory.read_writeField_out (by omega), Memory.read_writeField_out (by omega)]
  have hfield : ∀ a, page ≤ a → a + 4 ≤ page + 12 →
      s.handOver.mem.read32 a = (s.released page records).mem.read32 a := fun a h1 h2 =>
    Memory.read32_congr fun x hx1 hx2 => hkeep x (by unfold apart at hap; omega)
  refine ⟨⟨(hfield _ (by omega) (by omega)).trans hreleased.owner,
    fun hseq => (hfield _ (by omega) (by omega)).trans (hreleased.sequence hseq),
    (hfield _ (by omega) (by omega)).trans hreleased.count, hreleased.frame.trans hsame, ?_⟩, ?_, ?_, fun hseq => ?_, ?_,
    fun a h1 h2 => (hkeep a h2).trans (hbytes a h1)⟩
  · rw [hmem]
    exact Memory.wf_writeField hwf4 _ _ _
  · rw [hopen]
    rfl
  · rw [hopen]
    rfl
  · rw [hmem, Memory.read32_writeField_out (by omega)]
    exact Memory.read32_writeField hreleased.wf (by omega) (hfresh hseq)
  · rw [hmem]
    exact Memory.read32_writeField hwf4 (by omega) (by decide)

/-- The link that a hand-over finds is no page of the engine's: not valid, another owner's, or the page handed over. -/
def State.linkStalls (s : State) (page next : Nat) : Prop :=
  validPage next = false ∨ (s.mem.read32 next ≠ ownerEngine ∧ apart page 1088 next 1088) ∨ next = page

theorem handOver_stalls (hw : s.escrow.writer = .opened page slot records) (hwf : s.mem.wf = true)
    (hin : page + 1088 ≤ jobMemorySize) (hrec : records ≤ counterMax)
    (hn : s.mem.read32 (page + 12) = next) (h : s.linkStalls page next) : pageReleased s s.handOver page records ∧
      s.handOver.escrow = { s.escrow with writer := .stalled (.link page), seq := nextSeq s.escrow.seq } ∧
      s.handOver.reg = (s.reg.setEvent .escrowReady).setEvent .escrowStall ∧ bytesBut page 12 s s.handOver := by
  obtain ⟨hreleased, hbytes⟩ := released_facts (records := records) hwf hin hrec
  have hstall : validPage next = false ∨ (s.released page records).mem.read32 next ≠ ownerEngine := by
    rcases h with h | ⟨ho, hap⟩ | rfl
    · exact .inl h
    · refine .inr fun heq => ho ?_
      rw [← heq]
      exact (Memory.read32_congr fun a h1 h2 => hbytes a (by unfold apart at hap; omega)).symm
    · refine .inr ?_
      rw [hreleased.owner]
      decide
  have heq : s.handOver = (s.released page records).stallWriter (.link page) true := by
    rw [handOver_eq hw, hn, openPage_of_stall hstall]
  rw [heq]
  refine ⟨⟨hreleased.owner, hreleased.sequence, hreleased.count, fun p hp => ?_, hreleased.wf⟩, rfl, rfl, hbytes⟩
  have hpart := hreleased.frame p hp
  cases p <;> simp_all [Part.same, State.stallWriter, State.setWriter]

/-! ### The write that fills a page or meets a flush (R166 step 5, R168) -/

/-- After a write that fills the page, or that a flush waited for, the page is handed over. -/
theorem handOver_afterWrite {pending : Bool} (hw : s.escrow.writer = .opened page slot records) (hpos : records ≠ 0)
    (h : slot = 16 ∨ (slot < 16 ∧ pending = true))
    (hnext : ∀ p l k, s.handOver.escrow.writer = .opened p l k → k = 0) :
    s.handOverFull.flushAfter pending = s.handOver := by
  rcases h with rfl | ⟨hlt, rfl⟩
  · have hfull : s.handOverFull = s.handOver := by simp only [State.handOverFull, hw]
    rw [hfull]
    cases pending
    · rfl
    · show s.handOver.handOverRecords = s.handOver
      unfold State.handOverRecords
      split
      · rename_i p l k hk
        rw [if_pos (hnext p l k hk)]
      · rfl
  · rw [handOverFull_id hw (by omega)]
    simp only [State.flushAfter, if_true, State.handOverRecords, hw, if_neg hpos]

/-- The page in hand and its link, as the write of a record leaves them. -/
theorem headStands.link (h : headStands s u page slot records r rest) :
    u.mem.read32 (page + 12) = s.mem.read32 (page + 12) :=
  Memory.read32_congr fun a h1 h2 => h.memory a (by omega) (by omega)

theorem headStands.apart_read (h : headStands s u page slot records r rest) (hroom : slot + r.record.slots ≤ 16)
    (hap : apart page 1088 next 1088) : u.mem.read32 next = s.mem.read32 next :=
  Memory.read32_congr fun a h1 h2 => h.memory a (by unfold apart at hap; omega) (by unfold apart at hap; omega)

/-- A nobody's record whose write hands the page over: the board before and after the hand-over. -/
theorem write_handsOver (hw : s.escrow.writer = .opened page slot records) (hq : s.escrow.queue = r :: rest)
    (hr : r.report = .nobody) (hwf : s.mem.wf = true) (hin : page + 1088 ≤ jobMemorySize) (hcount : records < counterMax)
    (hends : slot + r.record.slots = 16 ∨ (slot + r.record.slots < 16 ∧ s.escrow.flushPending = true)) :
    ∃ u, headStands s u page slot records r rest ∧
      ((∀ p l k, u.handOver.escrow.writer = .opened p l k → k = 0) → exec .escrowRecordWrite s = .next u.handOver) := by
  obtain ⟨u, hstands, hexec⟩ := exec_writeRecord hwf hw hq (by omega) hcount hin
  refine ⟨u, hstands, fun hnext => ?_⟩
  rw [hexec, reportWritten_nobody hr,
    handOver_afterWrite (congrArg EscrowWriter.writer hstands.escrow) (Nat.succ_ne_zero _) hends hnext]

/-- A page handed over as it is filled or flushed, its next page opened (R163, R167). -/
theorem fullPage_opens (hw : s.escrow.writer = .opened page slot records) (hq : s.escrow.queue = r :: rest)
    (hr : r.report = .nobody) (hwf : s.mem.wf = true) (hin : page + 1088 ≤ jobMemorySize) (hcount : records < counterMax)
    (hseq : s.escrow.seq ≤ counterMax)
    (hends : slot + r.record.slots = 16 ∨ (slot + r.record.slots < 16 ∧ s.escrow.flushPending = true))
    (hn : s.mem.read32 (page + 12) = next) (hv : validPage next = true) (ho : s.mem.read32 next = ownerEngine)
    (hap : apart page 1088 next 1088) : ∃ t, exec .escrowRecordWrite s = .next t ∧
      t.escrow = { writer := .opened next 0 0, seq := nextSeq s.escrow.seq, queue := rest, flushPending := false } ∧
      t.reg = s.reg.setEvent .escrowReady ∧ t.mem.read32 page = ownerHostRead ∧
      t.mem.read32 (page + 4) = s.escrow.seq ∧ t.mem.read32 (page + 8) = records + 1 ∧
      t.mem.readBytes (page + 64 + 64 * slot) (64 * r.record.slots) = r.record.bytes s.counters ∧
      t.mem.read32 (next + 4) = nextSeq s.escrow.seq ∧ t.mem.read32 (next + 8) = 0 ∧
      (∀ a, ¬(page ≤ a ∧ a < page + 12) →
        ¬(page + 64 + 64 * slot ≤ a ∧ a < page + 64 + 64 * (slot + r.record.slots)) →
        ¬(next + 4 ≤ a ∧ a < next + 12) → t.mem.read a = s.mem.read a) ∧
      sameBut [.reg, .mem, .escrow] s t := by
  obtain ⟨u, hstands, hexec⟩ := write_handsOver hw hq hr hwf hin hcount hends
  have hroom : slot + r.record.slots ≤ 16 := by omega
  have hescrow := hstands.escrow
  have hreg : u.reg = s.reg := hstands.frame .reg (by simp)
  obtain ⟨hreleased, hwriter, hevent, hseq4, hcount8, hkeep⟩ := handOver_opens (congrArg EscrowWriter.writer hescrow)
    hstands.wf hin (Nat.succ_le_of_lt hcount) (hstands.link.trans hn) hv
    ((hstands.apart_read hroom hap).trans ho) hap
  have hseqU : u.escrow.seq ≤ counterMax := by rwa [hescrow]
  replace hseq4 := hseq4 hseqU
  rw [hescrow] at hwriter hseq4
  refine ⟨_, hexec fun p l k h => ?_, hwriter, hevent.trans (by rw [hreg]), hreleased.owner,
    (hreleased.sequence hseqU).trans (by rw [hescrow]), hreleased.count, ?_, hseq4, hcount8, fun a h1 h2 h3 => ?_,
    (hstands.frame.mono (by simp)).trans hreleased.frame⟩
  · rw [hwriter] at h
    cases h
    rfl
  · rw [← hstands.bytes]
    exact Memory.readBytes_congr fun a h1 h2 => hkeep a (by omega) (by unfold apart at hap; omega)
  · rw [hkeep a h1 h3]
    exact hstands.memory a (by omega) h2

/-- A page handed over as it is filled or flushed, its link no page of the engine's (R163, R167). -/
theorem fullPage_stalls (hw : s.escrow.writer = .opened page slot records) (hq : s.escrow.queue = r :: rest)
    (hr : r.report = .nobody) (hwf : s.mem.wf = true) (hin : page + 1088 ≤ jobMemorySize) (hcount : records < counterMax)
    (hseq : s.escrow.seq ≤ counterMax)
    (hends : slot + r.record.slots = 16 ∨ (slot + r.record.slots < 16 ∧ s.escrow.flushPending = true))
    (hn : s.mem.read32 (page + 12) = next) (hstall : s.linkStalls page next) :
    ∃ t, exec .escrowRecordWrite s = .next t ∧
      t.escrow =
        { writer := .stalled (.link page), seq := nextSeq s.escrow.seq, queue := rest, flushPending := false } ∧
      t.reg = (s.reg.setEvent .escrowReady).setEvent .escrowStall ∧ t.mem.read32 page = ownerHostRead ∧
      t.mem.read32 (page + 4) = s.escrow.seq ∧ t.mem.read32 (page + 8) = records + 1 ∧
      t.mem.readBytes (page + 64 + 64 * slot) (64 * r.record.slots) = r.record.bytes s.counters ∧
      (∀ a, ¬(page ≤ a ∧ a < page + 12) →
        ¬(page + 64 + 64 * slot ≤ a ∧ a < page + 64 + 64 * (slot + r.record.slots)) →
        t.mem.read a = s.mem.read a) ∧
      sameBut [.reg, .mem, .escrow] s t := by
  obtain ⟨u, hstands, hexec⟩ := write_handsOver hw hq hr hwf hin hcount hends
  have hroom : slot + r.record.slots ≤ 16 := by omega
  have hescrow := hstands.escrow
  have hreg : u.reg = s.reg := hstands.frame .reg (by simp)
  have hstall' : u.linkStalls page next :=
    hstall.imp_right (Or.imp_left fun ⟨ho, hap⟩ => ⟨by rwa [hstands.apart_read hroom hap], hap⟩)
  obtain ⟨hreleased, hwriter, hevent, hkeep⟩ := handOver_stalls (congrArg EscrowWriter.writer hescrow) hstands.wf hin
    (Nat.succ_le_of_lt hcount) (hstands.link.trans hn) hstall'
  have hseqU : u.escrow.seq ≤ counterMax := by rwa [hescrow]
  rw [hescrow] at hwriter
  refine ⟨_, hexec fun p l k h => ?_, hwriter, hevent.trans (by rw [hreg]), hreleased.owner,
    (hreleased.sequence hseqU).trans (by rw [hescrow]), hreleased.count, ?_, fun a h1 h2 => ?_,
    (hstands.frame.mono (by simp)).trans hreleased.frame⟩
  · rw [hwriter] at h
    cases h
  · rw [← hstands.bytes]
    exact Memory.readBytes_congr fun a h1 h2 => hkeep a (by omega)
  · rw [hkeep a h1]
    exact hstands.memory a (by omega) h2

/-! ### A two-slot record that finds only slot 15 free (R166) -/

theorem makeRoom_handsOver (hw : s.escrow.writer = .opened page 15 records) (hq : s.escrow.queue = r :: rest)
    (hr : r.record.slots = 2) : s.makeRoom = s.handOver := by
  simp only [State.makeRoom, hw, hq, hr]
  exact if_neg (by decide)

theorem writeRecord_stalled {source : StallSource} (hw : s.escrow.writer = .stalled source) : s.writeRecord = s := by
  simp only [State.writeRecord, State.writeHead, hw]

variable {n : Site} {c : SiteCtx} {i : IssueRecord}

/-- The context of a site whose ISSUE is written as it begins its burn (R71, R72). -/
def SiteCtx.issueStarts (c : SiteCtx) (p : Profile) : SiteCtx :=
  { c with wrapped := none, touchdowns := some 1, burn := some (.begin p) }.asks .burnRow .rowCheck p.recordBase 0
    p.thresholds

theorem issueWritten_burns (hc : s.sites[n] = some c) (hst : c.state = .escrowWait) :
    siteMoves s (s.issueWritten n) n (c.issueStarts s.profile) [] := by
  simp only [State.issueWritten, hc, if_pos hst]
  exact beginBurn_moves s n { c with wrapped := none }

theorem reportWritten_issue : s.reportWritten { record := .issue i, report := .site n } =
    (s.issueWritten n).settleTouchdown := rfl

/-- The report of an ISSUE to the site that waits for it. -/
theorem reportWritten_burns (hc : s.sites[n] = some c) (hst : c.state = .escrowWait) (hin : s.inTouchdown n) :
    siteMoves s (s.reportWritten { record := .issue i, report := .site n }) n (c.issueStarts s.profile) [] := by
  have hmoves := issueWritten_burns hc hst
  rw [reportWritten_issue, hmoves.settle hin (by simp [SiteCtx.issueStarts, SiteCtx.asks]) (by simp)]
  exact hmoves

/-- Settles O50: the page that is filled or flushed, and the one too full for a two-slot record. -/
theorem fullPageHandedOver : Obligations.FullPageHandedOver := by
  refine ⟨fun page slot records r rest s hw hq hr hwf hin hcount hpos hseq hends =>
    ⟨fun hv ho hap => fullPage_opens hw hq hr hwf hin hcount hseq hends rfl hv ho hap,
      fun hstall => fullPage_stalls hw hq hr hwf hin hcount hseq hends rfl hstall⟩,
    fun page records r rest s hw hq hr hwf hin hcount hpos hseq => ⟨fun hstall => ?_,
      fun i n c hissue hflush hc hst htd hv ho hap => ?_⟩⟩
  · obtain ⟨hreleased, hwriter, hevent, hkeep⟩ := handOver_stalls hw hwf hin hcount rfl hstall
    refine ⟨s.handOver, ?_, hwriter, hevent, hreleased.owner, hreleased.sequence hseq, hreleased.count, hkeep,
      hreleased.frame⟩
    simp only [exec, execEscrowRecordWrite, makeRoom_handsOver hw hq hr,
      writeRecord_stalled (congrArg EscrowWriter.writer hwriter)]
  · subst hissue
    obtain ⟨hreleased, hwriter, hevent, hseq4, hcount8, hkeep⟩ := handOver_opens hw hwf hin hcount rfl hv ho hap
    obtain ⟨hlow, hhigh⟩ := validPage_bounds hv
    obtain ⟨u, hstands, hwrite⟩ := writeRecord_stands hreleased.wf (congrArg EscrowWriter.writer hwriter)
      ((congrArg EscrowWriter.queue hwriter).trans hq) (by rw [hr]; decide) (by decide) hhigh
    have hframe := hreleased.frame.trans (hstands.frame.mono (by simp))
    have hchain : u.chain = s.chain := hframe .chain (by simp)
    have hsites : u.sites = s.sites := hframe .sites (by simp)
    have hprofile : u.profile = s.profile := by simp [State.profile, hchain]
    have hburns := reportWritten_burns (s := u) (i := i) (by rw [hsites]; exact hc) hst ((State.inTouchdown_congr hchain).2 htd)
    have hescrow := hstands.escrow
    have hmem := hburns.frame .mem (by simp)
    have hescrow' := hburns.frame .escrow (by simp)
    have hreg' := hburns.frame .reg (by simp)
    have hexec : exec .escrowRecordWrite s = .next (u.reportWritten { record := .issue i, report := .site n }) := by
      have hpending : s.handOver.escrow.flushPending = false := (congrArg EscrowWriter.flushPending hwriter).trans hflush
      simp only [exec, execEscrowRecordWrite, makeRoom_handsOver hw hq hr, hwrite, hpending]
      exact congrArg _ (handOverFull_id (congrArg EscrowWriter.writer (hescrow'.trans hescrow)) (by rw [hr]; decide))
    refine ⟨_, hexec, ?_⟩
    generalize u.reportWritten { record := .issue i, report := .site n } = t at *
    replace hmem : t.mem = u.mem := hmem
    replace hescrow' : t.escrow = u.escrow := hescrow'
    replace hreg' : t.reg = u.reg := hreg'
    have hcounters : s.handOver.counters = s.counters := hreleased.frame .counters (by simp)
    have hslots : ∀ a, ¬(s.mem.read32 (page + 12) + 8 ≤ a ∧ a < s.mem.read32 (page + 12) + 12) →
        ¬(s.mem.read32 (page + 12) + 64 ≤ a ∧ a < s.mem.read32 (page + 12) + 192) →
        u.mem.read a = s.handOver.mem.read a := fun a h1 h2 => hstands.memory a h1 (by rw [hr]; omega)
    have hpage : ∀ a, page ≤ a → a + 4 ≤ page + 12 → t.mem.read32 a = s.handOver.mem.read32 a := fun a h1 h2 => by
      rw [hmem]
      exact Memory.read32_congr fun x hx1 hx2 => hslots x (by unfold apart at hap; omega) (by unfold apart at hap; omega)
    refine ⟨?_, ?_, (hpage _ (by omega) (by omega)).trans hreleased.owner,
      (hpage _ (by omega) (by omega)).trans (hreleased.sequence hseq),
      (hpage _ (by omega) (by omega)).trans hreleased.count, ?_, ?_, ?_, fun a h1 h2 h3 => ?_, ?_⟩
    · rw [hescrow', hescrow, hwriter, hr]
      rfl
    · rw [hreg', ← hevent]
      exact hstands.frame .reg (by simp)
    · rw [hmem]
      exact (Memory.read32_congr fun x hx1 hx2 => hslots x (by omega) (by omega)).trans (hseq4 hseq)
    · rw [hmem]
      exact hstands.count
    · have hbytes := hstands.bytes
      rw [hr, hcounters] at hbytes
      rw [hmem]
      exact hbytes
    · rw [hmem, hslots a (by omega) h3]
      exact hkeep a h1 h2
    · rw [hprofile] at hburns
      exact (hburns.after hframe (by simp)).mono (by simp)

end Sys2Proof.Machine

/-! The reports of written records (R71, R76, R85, R133, R136, R166): what the requester of an ISSUE or a CLOSE does when
its record stands. -/

namespace Sys2Proof.Machine

variable {s t u : State} {page slot records : Nat} {r : RecordRequest} {rest : List RecordRequest} {n : Site}
  {c x : SiteCtx} {q : CloseRecord} {p : ParkedContext} {ps : List Part} {b : Block} {e : DieEntry}

/-- The chain unit's part of a report changes nothing while no touchdown has started (R152). -/
theorem settleTouchdown_notStarted (h : ∀ b es released halted, s.chain.block = some b →
    b.work ≠ .touchdown es true released halted) : s.settleTouchdown = s := by
  unfold State.settleTouchdown
  split
  · rename_i b hb
    split
    · rename_i es released halted hw
      exact absurd hw (h b es released halted hb)
    · rfl
  · rfl

/-- A record written with slots left in the page, its report leaving job memory and the writer alone. -/
theorem record_reported (h : s.writesRecord page slot records r rest) :
    ∃ u, recordStands s u page slot records r rest ∧ sameBut [.mem, .escrow] s u ∧ u.mem.wf = true ∧
      ∀ t, u.reportWritten r = t → t.mem = u.mem → t.escrow = u.escrow →
        exec .escrowRecordWrite s = .next t ∧ recordStands s t page slot records r rest := by
  obtain ⟨u, hstands, hsame, hwf, hexec⟩ := exec_recordWrite h
  refine ⟨u, hstands, hsame, hwf, fun t ht hmem hescrow => ?_⟩
  rw [ht] at hexec
  rw [hexec, handOverFull_id (congrArg EscrowWriter.writer (hescrow.trans hstands.escrow)) h.room]
  exact ⟨rfl, hstands.of hmem hescrow⟩

/-! ### An ISSUE (R71) -/

theorem issueWritten_erases (hc : s.sites[n] = some c) (hst : c.state ≠ .escrowWait) :
    siteMoves s (s.issueWritten n) n { c with wrapped := none } [] := by
  simp only [State.issueWritten, hc, if_neg hst]
  exact setSite_moves s n _

/-- The report of an ISSUE moves its site as said, whatever the write of the record changed before. -/
theorem issue_reported {i : IssueRecord} (h : s.writesRecord page slot records { record := .issue i, report := .site n } rest)
    (hin : s.inTouchdown n) (hx : x.state ≠ .final)
    (hmoves : ∀ u, u.sites = s.sites → u.chain = s.chain → siteMoves u (u.issueWritten n) n x []) :
    ∃ t, exec .escrowRecordWrite s = .next t ∧
      recordStands s t page slot records { record := .issue i, report := .site n } rest ∧
      siteMoves s t n x [.mem, .escrow] := by
  obtain ⟨u, -, hsame, -, hreport⟩ := record_reported h
  have hm := hmoves u (hsame .sites (by simp)) (hsame.chain (by simp))
  have hin' : u.inTouchdown n := (State.inTouchdown_congr (hsame.chain (by simp))).2 hin
  obtain ⟨hexec, hstands⟩ := hreport (u.issueWritten n) (by rw [reportWritten_issue, hm.settle hin' hx (by simp)])
    (hm.frame .mem (by simp)) (hm.frame .escrow (by simp))
  exact ⟨_, hexec, hstands, (hm.after hsame (by simp)).mono (by simp)⟩

/-! ### A CLOSE of a site (R76, R85) -/

theorem bump_congr (h : u.counters = s.counters) (k : Counter) : (u.bump k).counters = (s.bump k).counters := by
  simp only [State.bump, State.setCounters_counters, State.counter, h]

/-- The board with at most one counter counted. -/
def State.counting (s : State) : Option Counter → State
  | some k => s.bump k
  | none => s

/-- A CLOSE written for a site: its key is erased, its outcome counted, its settlement asked for. -/
theorem closeWritten_moves {outcome : CloseOutcome} (hc : s.sites[n] = some c) (hst : c.state = .closing)
    (hw : c.closeWritten = false) :
    siteMoves s (s.closeWritten n outcome) n { c.eraseKey with closeWritten := true } [.dies, .counters] ∧
      (s.closeWritten n outcome).dies = { s.dies with queue := s.dies.queue ++ [.settle n c.die outcome] } ∧
      (s.closeWritten n outcome).counters = (s.counting outcome.counter).counters := by
  have hset := setSite_moves s n { c.eraseKey with closeWritten := true }
  simp only [State.closeWritten, hc, if_pos (And.intro hst hw)]
  refine ⟨?_, ?_, ?_⟩
  · refine (hset.before (qs := [.dies, .counters]) (fun p hp => ?_) (by simp)).mono (by simp)
    split <;> cases p <;> simp_all [Part.same]
  · split <;> rfl
  · cases outcome.counter <;> rfl

theorem reportWritten_close : s.reportWritten { record := .close q, report := .site n } =
    (s.closeWritten n q.outcome).settleTouchdown := rfl

/-- The counters that the outcomes move. -/
theorem countedOf {counted : List Counter} {k : Option Counter} (hk : k.elim [] (fun k => [k]) = counted)
    (ht : t.counters = (s.counting k).counters) :
    countersBut counted s t ∧ ∀ j ∈ counted, t.counter j = satInc (s.counter j) := by
  subst hk
  cases k with
  | none => exact ⟨fun j _ => by simp only [State.counter, ht, State.counting], fun j hj => (nomatch hj)⟩
  | some k =>
    obtain ⟨hcount, hcounts⟩ := counts_of_bump (s := s) ht
    exact ⟨hcounts, fun j hj => by rw [List.mem_singleton.1 hj, hcount]⟩

/-! ### A CLOSE of a parked context (R133, R136) -/

theorem closingContext_of_filter {die : Die} {l : List ParkedContext}
    (h : (l.filter fun q => !q.isHeld && decide (q.die = die)) = [p]) : closingContext l die = some p := by
  unfold closingContext
  rw [← List.head?_filter, h]
  rfl

/-- The board after a closing context left the parked list. -/
def State.closed (s : State) (p : ParkedContext) : State :=
  (s.setDies { s.dies with parked := removeContext s.dies.parked p }).bump .diesVoided

theorem closed_same (s : State) (p : ParkedContext) : sameBut [.dies, .counters] s (s.closed p) := fun j hj => by
  cases j <;> simp_all [Part.same, State.closed]

theorem reportWritten_table (h : (s.dies.parked.filter fun x => !x.isHeld && decide (x.die = q.die)) = [p]) :
    s.reportWritten { record := .close q, report := .dieTable } =
      ((s.closed p).takeBound p.status).1.settleReport ((s.closed p).takeBound p.status).2 := by
  show (s.closingWritten q).1.settleReport (s.closingWritten q).2 = _
  simp only [State.closingWritten, closingContext_of_filter h]
  rfl

/-- The CLOSE of a context that no park waits for. -/
theorem close_unbound (h : s.writesRecord page slot records { record := .close q, report := .dieTable } rest)
    (hp : (s.dies.parked.filter fun x => !x.isHeld && decide (x.die = q.die)) = [p]) (hst : p.status = .closing none)
    (hwork : ∀ b es released halted, s.chain.block = some b → b.work ≠ .touchdown es true released halted) :
    ∃ t, exec .escrowRecordWrite s = .next t ∧
      recordStands s t page slot records { record := .close q, report := .dieTable } rest ∧
      t.dies = { s.dies with parked := s.dies.parked.filter fun q => decide (q ≠ p) } ∧
      t.counter .diesVoided = satInc (s.counter .diesVoided) ∧ countersBut [.diesVoided] s t ∧
      sameBut [.mem, .escrow, .dies, .counters] s t := by
  obtain ⟨u, -, hsame, -, hreport⟩ := record_reported h
  have hdies : u.dies = s.dies := hsame .dies (by simp)
  have hcounters : u.counters = s.counters := hsame .counters (by simp)
  have hclosed := closed_same u p
  have hreported : u.reportWritten { record := .close q, report := .dieTable } = u.closed p := by
    rw [reportWritten_table (by rwa [hdies])]
    simp only [State.takeBound, hst]
    refine settleTouchdown_notStarted fun b es released halted hb => hwork b es released halted ?_
    rw [← hb, hclosed.chain (by simp), hsame.chain (by simp)]
  obtain ⟨hexec, hstands⟩ := hreport _ hreported (hclosed .mem (by simp)) (hclosed .escrow (by simp))
  obtain ⟨hcount, hcounts⟩ := counts_of_bump (s := s) (u := u.closed p) (k := .diesVoided)
    (bump_congr hcounters _)
  refine ⟨_, hexec, hstands, ?_, hcount, hcounts, (hsame.mono (by simp)).trans (hclosed.mono (by simp))⟩
  show ({ u.dies with parked := removeContext u.dies.parked p } : DieTableUnit) = _
  rw [hdies, removeContext_of_filter hp]

/-- The CLOSE of a context that a park waits for: the park is taken. -/
theorem close_bound (h : s.writesRecord page slot records { record := .close q, report := .dieTable } rest)
    (hp : (s.dies.parked.filter fun x => !x.isHeld && decide (x.die = q.die)) = [p])
    (hst : p.status = .closing (some n)) (hc : s.sites[n] = some c) (hh : s.noHalt) (hrun : s.othersRun n) :
    ∃ u t, recordStands s u page slot records { record := .close q, report := .dieTable } rest ∧
      sameBut [.mem, .escrow] s u ∧ u.mem.wf = true ∧ exec .escrowRecordWrite s = .next t ∧ t = (u.closed p).joinPark n c := by
  obtain ⟨u, hstands, hsame, hwf, hexec⟩ := exec_recordWrite h
  have hdies : u.dies = s.dies := hsame .dies (by simp)
  have hclosed := closed_same u p
  have hsites : (u.closed p).sites = s.sites := (hclosed .sites (by simp)).trans (hsame .sites (by simp))
  have hchain : (u.closed p).chain = s.chain := (hclosed.chain (by simp)).trans (hsame.chain (by simp))
  obtain ⟨hends, -, -⟩ := joinPark_ends (u.closed p) n c
  have hreported : u.reportWritten { record := .close q, report := .dieTable } = (u.closed p).joinPark n c := by
    have htake : (u.closed p).takeBound p.status = ((u.closed p).joinPark n c, some c.stop.parkResult) := by
      have hc' : (u.closed p).sites[n] = some c := by rw [hsites]; exact hc
      simp only [State.takeBound, hst, hc']
    rw [reportWritten_table (by rwa [hdies]), htake]
    show (State.reportResult _ _).settleTouchdown = _
    rw [show ((u.closed p).joinPark n c).reportResult c.stop.parkResult = _ from
      takePark_of_noHalt (s := u.closed p) ((noHalt_congr hchain).2 hh)]
    exact hends.settle ((othersRun_congr hchain hsites).2 hrun) (by simp)
  have hwriter : ((u.closed p).joinPark n c).escrow.writer = .opened page (slot + 1) (records + 1) :=
    congrArg EscrowWriter.writer
      (((hends.frame .escrow (by simp)).trans (hclosed .escrow (by simp))).trans hstands.escrow)
  rw [hreported, handOverFull_id hwriter h.room] at hexec
  exact ⟨u, _, hstands, hsame, hwf, hexec, rfl⟩

/-- Settles O51: an ISSUE, a site's CLOSE, and a parked context's CLOSE bound to nothing or to a park. -/
theorem writtenRecordReported : Obligations.WrittenRecordReported := by
  refine ⟨fun page slot records i n rest c s h hc hin => ⟨fun hst => ?_, fun hst hfin => ?_⟩,
    fun page slot records q n rest c counted s h hc hin hst hw hcounted => ?_,
    fun page slot records q rest p s h hp => ⟨fun hst hwork => close_unbound h hp hst hwork,
      fun n c e hst hc he hh hrun => ?_⟩⟩
  · refine issue_reported h hin (by simp [SiteCtx.asks]) fun u hsites hchain => ?_
    have hburns := issueWritten_burns (s := u) (n := n) (c := c) (by rw [hsites]; exact hc) hst
    rw [show u.profile = s.profile by simp [State.profile, hchain]] at hburns
    exact hburns
  · exact issue_reported h hin hfin fun u hsites _ => issueWritten_erases (by rw [hsites]; exact hc) hst
  · obtain ⟨u, -, hsame, -, hreport⟩ := record_reported h
    have hsites : u.sites = s.sites := hsame .sites (by simp)
    have hdies : u.dies = s.dies := hsame .dies (by simp)
    have hcounters : u.counters = s.counters := hsame .counters (by simp)
    have hin' : u.inTouchdown n := (State.inTouchdown_congr (hsame.chain (by simp))).2 hin
    obtain ⟨hmoves, hqueue, hcount⟩ := closeWritten_moves (s := u) (outcome := q.outcome) (by rw [hsites]; exact hc) hst hw
    obtain ⟨hexec, hstands⟩ := hreport (u.closeWritten n q.outcome)
      (by rw [reportWritten_close, hmoves.settle hin' (by simp [SiteCtx.eraseKey, hst]) (by simp)])
      (hmoves.frame .mem (by simp)) (hmoves.frame .escrow (by simp))
    have hk : q.outcome.counter.elim [] (fun k => [k]) = counted := by
      rcases hcounted with ⟨ho, rfl⟩ | ⟨ho | ho | ho, rfl⟩ | ⟨ho, rfl⟩ | ⟨ho, rfl⟩ <;> rw [ho] <;> rfl
    refine ⟨_, hexec, hstands, (hmoves.after hsame (by simp)).mono (by simp), by rw [hqueue, hdies], countedOf hk ?_⟩
    rw [hcount]
    cases q.outcome.counter with
    | none => exact hcounters
    | some k => exact bump_congr hcounters k
  · obtain ⟨u, t, hstands, hsame, hwf, hexec, ht⟩ := close_bound h hp hst hc hh hrun
    have hdies : u.dies = s.dies := hsame .dies (by simp)
    have hcounters : u.counters = s.counters := hsame .counters (by simp)
    have hclosed := closed_same u p
    have hall : sameBut [.mem, .escrow, .dies, .counters] s (u.closed p) :=
      (hsame.mono (by simp)).trans (hclosed.mono (by simp))
    obtain ⟨hends, hparked, -⟩ := joinPark_ends (u.closed p) n c
    have hprofile : (u.closed p).profile = s.profile := by simp [State.profile, hall.chain (by simp)]
    have hleft : (u.closed p).dies = { s.dies with parked := s.dies.parked.filter fun q => decide (q ≠ p) } := by
      show ({ u.dies with parked := removeContext u.dies.parked p } : DieTableUnit) = _
      rw [hdies, removeContext_of_filter hp]
    have hcount := counts_of_bump (s := s) (u := (u.closed p).joinPark n c) (k := .diesVoided)
      ((hends.frame .counters (by simp)).trans (bump_congr hcounters _))
    have hescrow : ((u.closed p).joinPark n c).escrow = u.escrow := hends.frame .escrow (by simp)
    rw [← ht] at *
    refine ⟨t, hexec, hends.ended, fun m hm => (hends.others m hm).trans (by rw [hall .sites (by simp)]),
      hescrow.trans hstands.escrow, fun b hb => ?_, ?_, fun d => ?_, hcount.1, hcount.2,
      (hall.mono (by simp)).trans (hends.frame.mono (by simp))⟩
    · have hb' : (u.closed p).chain.block = some b := by rw [hall.chain (by simp), hb]
      have hbytes := hends.bytes b hb'
      intro a
      refine ⟨fun hap => ⟨?_, ?_⟩, fun hin => hends.code b hb' hwf hin, fun x h1 h2 h3 => ?_⟩
      · have hroom : slot + 1 ≤ 15 := h.room
        rw [← hstands.bytes]
        exact Memory.readBytes_congr fun x h1 (h2 : x < page + 64 + 64 * slot + 64) => hbytes x (by
          unfold apart at hap
          omega)
      · rw [← hstands.count]
        exact Memory.read32_congr fun x h1 h2 => hbytes x (by unfold apart at hap; omega)
      · rw [hbytes x h3]
        exact hstands.memory x h1 h2
    · rw [hparked, hleft, hprofile]
      rfl
    · rw [hparked, hleft]
      show tableFind (tableMark s.dies.entries c.die .parked) d = _
      by_cases hd : d = c.die
      · rw [if_pos hd, hd, tableFind_mark_here he]
      · rw [if_neg hd, tableFind_mark_other hd]

end Sys2Proof.Machine

/-! The end of a block's work (R152 to R154, R158, R168): the last entry of a TOUCHDOWN and its settlement, and the
WAFER_SUMMARY of a WAFER_END. -/

namespace Sys2Proof.Machine

variable {s t u : State} {b : Block} {es : List SiteEntry} {tag : Nat} {n : Site} {c : SiteCtx} {r : BlockResult}
  {reason : HoldReason} {released halted : Bool} {result : SiteResult} {rest : List TableRequest}

/-! ### A block that ends in a hold (R145, R153, R154) -/

theorem writeResult_byte (hwf : s.mem.wf = true) {offset : Nat} (hin : offset + 64 ≤ jobMemorySize) (r : BlockResult) :
    ((s.writeResult offset r).mem.read (offset + 16)).toNat = r.code ∧ bytesBut (offset + 16) 1 s (s.writeResult offset r) := by
  have hcode : r.code < 256 := by cases r <;> decide
  have hread := Memory.read_writeField (m := s.mem) (a := offset + 16) (n := 1) (v := r.code) hwf (by omega)
  refine ⟨?_, fun a ha => Memory.read_writeField_out (by omega)⟩
  have hbyte : ((s.mem.writeField (offset + 16) 1 r.code).read (offset + 16)).toNat = r.code := by
    simpa [Memory.readBytes, leNat, Nat.mod_eq_of_lt hcode] using hread
  exact hbyte

theorem enterHeld_quiet (h : s.nothingToFlush) (reason : HoldReason) :
    s.enterHeld reason = (s.setChain { s.chain with state := .held reason }).raise .held :=
  flush_quiet (nothingToFlush_congr (by simp) h)

/-- The board whose TOUCHDOWN ended with a result that holds the unit: every site engine in IDLE. -/
def State.endsHeld (s : State) (b : Block) (r : BlockResult) (reason : HoldReason) : State :=
  ((s.writeResult b.offset r).leaveSites).enterHeld reason

theorem endsHeld_facts (hwf : s.mem.wf = true) (hin : b.offset + 64 ≤ jobMemorySize) (hq : s.nothingToFlush)
    (r : BlockResult) (reason : HoldReason) :
    (∀ n : Site, (s.endsHeld b r reason).sites[n] = none) ∧
      (s.endsHeld b r reason).chain = { s.chain with state := .held reason } ∧
      ((s.endsHeld b r reason).mem.read (b.offset + 16)).toNat = r.code ∧
      bytesBut (b.offset + 16) 1 s (s.endsHeld b r reason) ∧ (s.endsHeld b r reason).reg = s.reg.setEvent .held ∧
      sameBut [.reg, .mem, .chain, .sites] s (s.endsHeld b r reason) := by
  have hheld := enterHeld_quiet (s := (s.writeResult b.offset r).leaveSites) hq reason
  obtain ⟨hcode, hbytes⟩ := writeResult_byte hwf hin r
  unfold State.endsHeld
  rw [hheld]
  refine ⟨leaveSites_none (s.writeResult b.offset r), rfl, hcode, hbytes, rfl, fun p hp => ?_⟩
  cases p <;> simp_all [Part.same, State.leaveSites, State.writeResult, State.storeField]

/-! ### The end of a touchdown (R152 to R154) -/

theorem settleTouchdown_final (hs : s.chain.state = .running) (hb : s.chain.block = some b)
    (hw : b.work = .touchdown es true released halted) (hf : ∀ e ∈ es, s.isFinal e.site = true) : s.settleTouchdown =
      if released then s.endsHeld b .released .release
      else if halted then s.endsHeld b .halted .halt else s.leaveSites.blockDone b .ok := by
  have hall : s.allFinal es = true := List.all_eq_true.2 hf
  simp only [State.settleTouchdown, hb, hw, hs, hall]
  rfl

theorem leaveSites_waitsAfter (h : s.waitsAfter b tag) : s.leaveSites.waitsAfter b tag :=
  waitsAfter_of_agree h h.memory rfl rfl rfl rfl

/-- A block that is done as its site engines return to IDLE. -/
theorem leaveSites_done (h : s.waitsAfter b tag) : (∀ n : Site, (s.leaveSites.blockDone b .ok).sites[n] = none) ∧
    blockDoneWaiting s (s.leaveSites.blockDone b .ok) b tag .ok ∧ doneBytes s (s.leaveSites.blockDone b .ok) b ∧
      sameBut [.reg, .mem, .chain, .sites] s (s.leaveSites.blockDone b .ok) := by
  obtain ⟨hdone, hbytes, hsame⟩ := blockDone_waits .ok (leaveSites_waitsAfter h)
  have hsites : (s.leaveSites.blockDone b .ok).sites = s.leaveSites.sites := hsame .sites (by simp)
  exact ⟨fun n => by rw [hsites, leaveSites_none], ⟨hdone.chain, hdone.result, hdone.doneTag, hdone.events⟩, hbytes,
    ((leaveSites_same s).mono (by simp)).trans (hsame.mono (by simp))⟩

/-- From `s` to `t` a TOUCHDOWN with every entry final ended (R152 to R154). -/
structure touchdownEnds (s t : State) (b : Block) (tag : Nat) (released halted : Bool) : Prop where
  sites : ∀ n : Site, t.sites[n] = none
  release : released = true →
    t.chain = { s.chain with state := .held .release } ∧ (t.mem.read (b.offset + 16)).toNat = 2 ∧
      bytesBut (b.offset + 16) 1 s t ∧ t.reg = s.reg.setEvent .held ∧ sameBut [.reg, .mem, .chain, .sites] s t
  halt : released = false → halted = true →
    t.chain = { s.chain with state := .held .halt } ∧ (t.mem.read (b.offset + 16)).toNat = 3 ∧
      bytesBut (b.offset + 16) 1 s t ∧ t.reg = s.reg.setEvent .held ∧ sameBut [.reg, .mem, .chain, .sites] s t
  done : released = false → halted = false →
    blockDoneWaiting s t b tag .ok ∧ doneBytes s t b ∧ sameBut [.reg, .mem, .chain, .sites] s t

theorem settleTouchdown_ends (hb : s.chain.block = some b) (hw : b.work = .touchdown es true released halted)
    (hs : s.chain.state = .running) (hwait : s.waitsAfter b tag) (hf : ∀ e ∈ es, s.isFinal e.site = true) :
    touchdownEnds s s.settleTouchdown b tag released halted := by
  rw [settleTouchdown_final hs hb hw hf]
  have hheld := endsHeld_facts hwait.memory hwait.inside hwait.quiet
  cases released with
  | true => exact ⟨(hheld .released .release).1, fun _ => (hheld .released .release).2, nofun, nofun⟩
  | false =>
    cases halted with
    | true => exact ⟨(hheld .halted .halt).1, nofun, fun _ _ => (hheld .halted .halt).2, nofun⟩
    | false => exact ⟨(leaveSites_done hwait).1, nofun, nofun, fun _ _ => (leaveSites_done hwait).2⟩

/-- The bytes that the end of a touchdown leaves alone, and the parts. -/
theorem touchdownEnds.keeps (h : touchdownEnds s t b tag released halted) :
    doneBytes s t b ∧ sameBut [.reg, .mem, .chain, .sites] s t := by
  cases released with
  | true =>
    obtain ⟨-, -, hbytes, -, hsame⟩ := h.release rfl
    exact ⟨fun a h1 h2 => hbytes a (by omega), hsame⟩
  | false =>
    cases halted with
    | true =>
      obtain ⟨-, -, hbytes, -, hsame⟩ := h.halt rfl rfl
      exact ⟨fun a h1 h2 => hbytes a (by omega), hsame⟩
    | false => exact (h.done rfl rfl).2

/-! ### The settlement of the last entry (R76, R126, R152, R154) -/

/-- The board after the settlement at the head of the queue put its site in FINAL. -/
def State.settledFinal (s : State) (n : Site) (c : SiteCtx) (die : Die) (outcome : CloseOutcome) : State :=
  (s.popTable.setDies (s.popTable.dies.settle die outcome)).enterFinal n c.eraseKey (closeResult outcome c.stop) none

theorem settledFinal_ends (s : State) (n : Site) (c : SiteCtx) (die : Die) (outcome : CloseOutcome) :
    entryEnds s (s.settledFinal n c die outcome) n c (closeResult outcome c.stop) [.dies] :=
  (enterFinal_ends _ n c c.eraseKey _ none rfl).after (popTable_setDies_same s _) (by simp) (by simp) (by simp)

theorem settledFinal_wf (hwf : s.mem.wf = true) {die : Die} {outcome : CloseOutcome} :
    (s.settledFinal n c die outcome).mem.wf = true := by
  unfold State.settledFinal State.enterFinal
  dsimp only
  split
  · exact Memory.wf_writeBytes hwf _ _
  · exact hwf

/-- A site that is final, or has no entry, is not reached by a halt. -/
theorem haltSite_final (h : ∀ x, s.sites[n] = some x → x.state = .final) : s.haltSite n = s := by
  unfold State.haltSite
  split
  · rfl
  · rename_i x hx
    simp only [h x hx]

theorem foldl_haltSite_final (l : List Site) (h : ∀ (m : Site) x, s.sites[m] = some x → x.state = .final) :
    l.foldl State.haltSite s = s := by
  induction l with
  | nil => rfl
  | cons m l ih => rw [List.foldl_cons, haltSite_final (h m), ih]

/-- A halt of a block whose entries are all final only marks the block. -/
theorem startHalt_final (h : ∀ (m : Site) x, s.sites[m] = some x → x.state = .final) :
    s.startHalt b = (s.setChain { s.chain with block := some b.markHalted }).freshOrder := by
  exact congrArg State.freshOrder
    (foldl_haltSite_final (s := s.setChain { s.chain with block := some b.markHalted }) _ h)

theorem haltsOn_of_touchdown (hw : b.work = .touchdown es true released halted) (result : SiteResult) :
    b.haltsOn result = (!released && !halted && (b.haltOnError && result.startsHalt)) := by
  unfold Block.haltsOn
  rw [hw]
  cases released <;> cases halted <;> simp

/-- What the settlement of the last entry leaves, however the block ends: `v` is the board with that entry final. -/
structure lastSettled (s t : State) (b : Block) (c : SiteCtx) (outcome : CloseOutcome) (rest : List TableRequest) :
    Prop where
  sites : ∀ m : Site, t.sites[m] = none
  queue : t.dies.queue = rest
  code : b.offset + 80 + 48 * c.index + 48 ≤ jobMemorySize →
    (t.mem.read (b.offset + 80 + 48 * c.index + 12)).toNat = (closeResult outcome c.stop).code
  bytes : ∀ a, ¬(b.offset + 12 ≤ a ∧ a < b.offset + 14) → a ≠ b.offset + 16 →
    ¬(b.offset + 80 + 48 * c.index + 10 ≤ a ∧ a < b.offset + 80 + 48 * c.index + 48) → t.mem.read a = s.mem.read a
  frame : sameBut [.reg, .mem, .chain, .sites, .dies, .order] s t

theorem lastSettled_of {die : Die} {outcome : CloseOutcome} (hwf : s.mem.wf = true) (hb : s.chain.block = some b)
    (hq : s.dies.queue = .settle n die outcome :: rest) (hsites : ∀ m : Site, t.sites[m] = none)
    (hbytes : doneBytes (s.settledFinal n c die outcome) t b)
    (hsame : sameBut [.reg, .mem, .chain, .sites, .order] (s.settledFinal n c die outcome) t) :
    lastSettled s t b c outcome rest := by
  have hends := settledFinal_ends s n c die outcome
  refine ⟨hsites, ?_, fun hin => ?_, fun a h1 h2 h3 => ?_, (hends.frame.mono (by simp)).trans (hsame.mono (by simp))⟩
  · have hdies : t.dies = (s.settledFinal n c die outcome).dies := hsame .dies (by simp)
    have hfinal : (s.settledFinal n c die outcome).dies = s.popTable.dies.settle die outcome :=
      (enterFinal_ends (s.popTable.setDies (s.popTable.dies.settle die outcome)) n c c.eraseKey _ none rfl).frame .dies
        (by simp)
    rw [hdies, hfinal, (settle_entries s.popTable.dies die outcome).2.2, popTable_head hq]
  · rw [hbytes _ (by omega) (by omega)]
    exact hends.code b hb hwf hin
  · exact (hbytes a h1 h2).trans (hends.bytes b hb a (by omega))

theorem settledFinal_waits {die : Die} {outcome : CloseOutcome} (hb : s.chain.block = some b) (hwait : s.waitsAfter b tag)
    (hap : apart (s.linkOf b.offset) 2 (b.offset + 80 + 48 * c.index + 10) 38) :
    (s.settledFinal n c die outcome).waitsAfter b tag := by
  have hends := settledFinal_ends s n c die outcome
  have hbytes := hends.bytes b hb
  refine waitsAfter_of_agree hwait (settledFinal_wf hwait.memory) (congrArg _ (hends.frame.chain (by simp)))
    (hends.frame .escrow (by simp)) ?_ ?_
  · exact Memory.read32_congr fun a h1 h2 => hbytes a (by omega)
  · exact Memory.read16_congr fun a h1 h2 => hbytes a (by unfold apart at hap; omega)

/-- The settlement of the last entry leaves no entry running. -/
theorem settledFinal_final {die : Die} {outcome : CloseOutcome}
    (hothers : ∀ (m : Site) (x : SiteCtx), m ≠ n → s.sites[m] = some x → x.state = .final) :
    ∀ (m : Site) x, (s.settledFinal n c die outcome).sites[m] = some x → x.state = .final := by
  intro m x hx
  have hends := settledFinal_ends s n c die outcome
  by_cases hm : m = n
  · subst hm
    obtain ⟨y, hy, hstate, -⟩ := hends.ended
    rw [hy] at hx
    cases hx
    exact hstate
  · rw [hends.others m hm] at hx
    exact hothers m x hm hx

theorem settledFinal_isFinal {die : Die} {outcome : CloseOutcome}
    (hes : ∀ e ∈ es, e.site ≠ n → s.isFinal e.site = true) :
    ∀ e ∈ es, (s.settledFinal n c die outcome).isFinal e.site = true := by
  intro e he
  have hends := settledFinal_ends s n c die outcome
  by_cases hm : e.site = n
  · obtain ⟨y, hy, hstate, -⟩ := hends.ended
    simp [State.isFinal, hm, hy, hstate]
  · have hsame := hends.others _ hm
    simpa only [State.isFinal, hsame] using hes e he hm

/-- The board whose last result started the halt of its block. -/
def State.haltedAlone (s : State) (b : Block) : State :=
  (s.setChain { s.chain with block := some b.markHalted }).freshOrder

theorem haltedAlone_same (s : State) (b : Block) : sameBut [.chain, .order] s (s.haltedAlone b) := fun p hp => by
  cases p <;> simp_all [Part.same, State.haltedAlone, State.freshOrder]

/-- The two courses of the settlement of the last entry: its result starts the halt of the block, or not. -/
theorem settle_last {die : Die} {outcome : CloseOutcome} (hb : s.chain.block = some b)
    (hw : b.work = .touchdown es true released halted) (hs : s.chain.state = .running) (hwait : s.waitsAfter b tag)
    (hq : s.dies.queue = .settle n die outcome :: rest) (hc : s.sites[n] = some c)
    (hothers : ∀ (m : Site) (x : SiteCtx), m ≠ n → s.sites[m] = some x → x.state = .final)
    (hes : ∀ e ∈ es, e.site ≠ n → s.isFinal e.site = true)
    (hap : apart (s.linkOf b.offset) 2 (b.offset + 80 + 48 * c.index + 10) 38) :
    ∃ t, exec .entrySettle s = .next t ∧ lastSettled s t b c outcome rest ∧
      (b.haltsOn (closeResult outcome c.stop) = false →
        touchdownEnds (s.settledFinal n c die outcome) t b tag released halted) ∧
      (b.haltsOn (closeResult outcome c.stop) = true →
        touchdownEnds ((s.settledFinal n c die outcome).haltedAlone b) t b.markHalted tag false true) := by
  have hexec : exec .entrySettle s = .next (((s.settledFinal n c die outcome).reportResult
      (closeResult outcome c.stop)).settleTouchdown) := exec_entrySettle hq hc
  have hchain : (s.settledFinal n c die outcome).chain = s.chain :=
    (settledFinal_ends s n c die outcome).frame.chain (by simp)
  have hwait' := settledFinal_waits (n := n) (die := die) (outcome := outcome) hb hwait hap
  have hfinal := settledFinal_final (c := c) (die := die) (outcome := outcome) hothers
  have hallFinal := settledFinal_isFinal (c := c) (die := die) (outcome := outcome) hes
  have hsettled := fun t => lastSettled_of (t := t) (c := c) hwait.memory hb hq
  generalize hv : s.settledFinal n c die outcome = v at *
  have hbv : v.chain.block = some b := by rw [hchain]; exact hb
  have hreport : v.reportResult (closeResult outcome c.stop) =
      if b.haltsOn (closeResult outcome c.stop) then v.startHalt b else v := by
    simp only [State.reportResult, hbv]
  refine ⟨_, hexec, ?_⟩
  rw [hreport]
  cases hhalts : b.haltsOn (closeResult outcome c.stop) with
  | false =>
    have hends := settleTouchdown_ends hbv hw (by rw [hchain]; exact hs) hwait' hallFinal
    exact ⟨hsettled _ hends.sites hends.keeps.1 (hends.keeps.2.mono (by simp)), fun _ => hends, nofun⟩
  | true =>
    have hmark : b.markHalted = { b with work := .touchdown es true released true } := by
      simp only [Block.markHalted, hw]
    have hreleased : released = false := by
      rw [haltsOn_of_touchdown hw] at hhalts
      revert hhalts
      cases released <;> simp
    subst hreleased
    have hhalted := startHalt_final (b := b) hfinal
    have hends : touchdownEnds (v.haltedAlone b) (v.haltedAlone b).settleTouchdown b.markHalted tag false true :=
      settleTouchdown_ends (es := es) rfl (by rw [hmark])
        (by show v.chain.state = _; rw [hchain]; exact hs)
        (by rw [hmark]
            exact ⟨⟨⟨hwait'.memory, hwait'.aligned, hwait'.inside, hwait'.expected, hwait'.tagRange⟩, hwait'.link,
              hwait'.notReady⟩, hwait'.quiet⟩) hallFinal
    refine ⟨?_, nofun, fun _ => ?_⟩
    · rw [if_pos rfl, hhalted]
      have hkeeps := hends.keeps
      rw [hmark] at hkeeps
      exact hsettled _ hends.sites hkeeps.1 (((haltedAlone_same v b).mono (by simp)).trans (hkeeps.2.mono (by simp)))
    · rw [if_pos rfl, hhalted]
      exact hends

theorem lastEntryEnds (b : Block) (es : List SiteEntry) (released halted : Bool) (tag : Nat) (n : Site) (die : Die)
    (outcome : CloseOutcome) (rest : List TableRequest) (c : SiteCtx) (s : State) (hb : s.chain.block = some b)
    (hw : b.work = .touchdown es true released halted) (hs : s.chain.state = .running) (hwait : s.waitsAfter b tag)
    (hq : s.dies.queue = .settle n die outcome :: rest) (hc : s.sites[n] = some c)
    (hothers : ∀ (m : Site) (x : SiteCtx), m ≠ n → s.sites[m] = some x → x.state = .final)
    (hes : ∀ e ∈ es, e.site ≠ n → s.isFinal e.site = true)
    (hap : apart (s.linkOf b.offset) 2 (b.offset + 80 + 48 * c.index + 10) 38) :
    ∃ t, exec .entrySettle s = .next t ∧ lastSettled s t b c outcome rest ∧
      (released = true →
        t.chain = { s.chain with state := .held .release } ∧ (t.mem.read (b.offset + 16)).toNat = 2 ∧
          t.reg = s.reg.setEvent .held ∧ sameBut [.reg, .mem, .chain, .sites, .dies] s t) ∧
      (released = false → halted = true →
        t.chain = { s.chain with state := .held .halt } ∧ (t.mem.read (b.offset + 16)).toNat = 3 ∧
          t.reg = s.reg.setEvent .held ∧ sameBut [.reg, .mem, .chain, .sites, .dies] s t) ∧
      (released = false → halted = false → outcome = .burned ∨ b.haltOnError = false →
        blockDoneWaiting s t b tag .ok ∧ sameBut [.reg, .mem, .chain, .sites, .dies] s t) ∧
      (released = false → halted = false → outcome = .failedFuse → b.haltOnError = true →
        t.chain =
            { s.chain with
              state := .held .halt, block := some { b with work := .touchdown es true false true } } ∧
          (t.mem.read (b.offset + 16)).toNat = 3 ∧ t.reg = s.reg.setEvent .held ∧
          sameBut [.reg, .mem, .chain, .sites, .dies, .order] s t) := by
  obtain ⟨t, hexec, hlast, hquiet, hhalts⟩ := settle_last hb hw hs hwait hq hc hothers hes hap
  have hends := settledFinal_ends s n c die outcome
  have hchain := hends.frame.chain (by simp)
  have hreg := hends.frame .reg (by simp)
  generalize s.settledFinal n c die outcome = v at *
  replace hreg : v.reg = s.reg := hreg
  have hon := haltsOn_of_touchdown hw (closeResult outcome c.stop)
  have hframe : ∀ {ps}, sameBut ps v t → ps ⊆ [.reg, .mem, .chain, .sites, .dies] →
      sameBut [.reg, .mem, .chain, .sites, .dies] s t := fun h hps =>
    (hends.frame.mono (by simp)).trans (h.mono hps)
  refine ⟨t, hexec, hlast, fun hr => ?_, fun hr hh => ?_, fun hr hh hcalm => ?_, fun hr hh ho herr => ?_⟩
  · obtain ⟨hc', hm, -, hg, hsame⟩ := (hquiet (by simp [hon, hr])).release hr
    exact ⟨by rw [hc', hchain], hm, by rw [hg, hreg], hframe hsame (by simp)⟩
  · obtain ⟨hc', hm, -, hg, hsame⟩ := (hquiet (by simp [hon, hh])).halt hr hh
    exact ⟨by rw [hc', hchain], hm, by rw [hg, hreg], hframe hsame (by simp)⟩
  · have hfalse : b.haltsOn (closeResult outcome c.stop) = false := by
      rw [hon]
      rcases hcalm with rfl | herr
      · simp [closeResult, SiteResult.startsHalt, SiteResult.code]
      · simp [herr]
    obtain ⟨hdone, -, hsame⟩ := (hquiet hfalse).done hr hh
    have hlink : v.linkOf b.offset = s.linkOf b.offset :=
      Memory.read32_congr fun a h1 h2 => hends.bytes b hb a (by omega)
    exact ⟨⟨by rw [hdone.chain, hchain, hlink], hdone.result, hdone.doneTag, by rw [hdone.events, hreg]⟩,
      hframe hsame (by simp)⟩
  · have htrue : b.haltsOn (closeResult outcome c.stop) = true := by
      rw [hon, hr, hh, ho, herr]
      rfl
    obtain ⟨hc', hm, -, hg, -⟩ := (hhalts htrue).halt rfl rfl
    have hmark : b.markHalted = { b with work := .touchdown es true false true } := by
      simp only [Block.markHalted, hw, hr]
    rw [hmark] at hm
    refine ⟨hc'.trans ?_, hm, hg.trans (congrArg (·.setEvent .held) hreg), hlast.frame⟩
    show { v.chain with state := .held .halt, block := some b.markHalted } = _
    rw [hchain, hmark]

/-! ### A touchdown done before a linked block that is ready, or none (R148, R152) -/

theorem doneTouchdown_link (hb : s.chain.block = some b) (hw : b.work = .touchdown es true false false)
    (hs : s.chain.state = .running) (hf : ∀ e ∈ es, s.isFinal e.site = true) :
    (s.linkReady b tag → ∃ u, (∀ n : Site, u.sites[n] = none) ∧ blockEnds { s with sites := u.sites } u b tag .ok ∧
      takesReady u (s.linkOf b.offset) (.next s.settleTouchdown)) ∧
    (s.linkFails b tag → (∀ n : Site, s.settleTouchdown.sites[n] = none) ∧
      blockEndsFaulty { s with sites := s.settleTouchdown.sites } s.settleTouchdown b tag .ok) := by
  rw [settleTouchdown_done hs hb hw (List.all_eq_true.2 hf)]
  have hends : s.endsBlock b tag → s.leaveSites.endsBlock b tag := fun h =>
    ⟨h.memory, h.aligned, h.inside, h.expected, h.tagRange⟩
  refine ⟨fun h => ?_, fun h => ?_⟩
  · obtain ⟨u, he, htakes⟩ := blockDone_takes (s := s.leaveSites) .ok ⟨hends h.toendsBlock, h.link, h.ready⟩
    have hsites : u.sites = s.leaveSites.sites := he.frame .sites (by simp)
    refine ⟨u, fun n => by rw [hsites, leaveSites_none], ?_, htakes⟩
    rw [hsites]
    exact he
  · have he := blockDone_fails (s := s.leaveSites) .ok ⟨hends h.toendsBlock, h.link, h.quiet⟩
    have hsites : (s.leaveSites.blockDone b .ok).sites = s.leaveSites.sites := he.frame .sites (by simp)
    refine ⟨fun n => by rw [hsites, leaveSites_none], ?_⟩
    rw [hsites]
    exact he

/-! ### The WAFER_SUMMARY (R158) -/

/-- The board whose WAFER_SUMMARY was written and flushed, its wafer closed. -/
def State.summaryFlushed (s : State) : State := s.handOver.setChain { s.handOver.chain with wafer := none }

theorem summaryWritten_flushes {page slot records : Nat} (hb : s.chain.block = some b) (hw : b.work = .waferEnd)
    (hwriter : s.escrow.writer = .opened page slot (records + 1)) (hq : s.escrow.queue = []) :
    s.summaryWritten = s.summaryFlushed.blockDone b .ok := by
  have hflush : s.flush = s.handOver := by
    simp [State.flush, State.recordInProgress, State.handOverRecords, hwriter, hq]
  simp only [State.summaryWritten, hb, hw, hflush]
  rfl

theorem summaryWritten_ends (page slot records tag : Nat) (b : Block) (s : State)
    (h : s.writesRecord page slot records { record := .summary, report := .chain } []) (hb : s.chain.block = some b)
    (hw : b.work = .waferEnd) (hwait : s.linkWaits b tag) (hv : validPage (s.mem.read32 (page + 12)) = true)
    (ho : s.mem.read32 (s.mem.read32 (page + 12)) = ownerEngine) (hap : apart page 1088 (s.mem.read32 (page + 12)) 1088)
    (hblock : apart b.offset 64 page 1088) (hblock' : apart b.offset 64 (s.mem.read32 (page + 12)) 1088)
    (hlink : apart (s.linkOf b.offset) 2 page 1088)
    (hlink' : apart (s.linkOf b.offset) 2 (s.mem.read32 (page + 12)) 1088) :
    ∃ t, exec .escrowRecordWrite s = .next t ∧
      t.chain =
        { s.chain with
          state := .waiting, expected := some (nextTag tag), offset := some (s.linkOf b.offset), block := none
          lastDone := some b.offset, wafer := none } ∧
      (t.mem.read (b.offset + 16)).toNat = BlockResult.ok.code ∧ t.mem.read16 (b.offset + 12) = tag ∧
      t.mem.read32 page = ownerHostRead ∧ t.mem.read32 (page + 8) = records + 1 ∧
      t.mem.readBytes (page + 64 + 64 * slot) 128 = EscrowRecord.summary.bytes s.counters ∧
      (∀ a, ¬(b.offset + 12 ≤ a ∧ a < b.offset + 14) → a ≠ b.offset + 16 → ¬(page ≤ a ∧ a < page + 12) →
        ¬(page + 64 + 64 * slot ≤ a ∧ a < page + 64 + 64 * (slot + 2)) →
        ¬(s.mem.read32 (page + 12) + 4 ≤ a ∧ a < s.mem.read32 (page + 12) + 12) → t.mem.read a = s.mem.read a) ∧
      t.escrow.writer = .opened (s.mem.read32 (page + 12)) 0 0 ∧ t.escrow.queue = [] ∧
      sameBut [.reg, .mem, .chain, .escrow] s t := by
  obtain ⟨u, hstands, hsame, hwf, hexec⟩ := exec_recordWrite h
  generalize hnext : s.mem.read32 (page + 12) = next at *
  have hroom : slot + 2 ≤ 15 := h.room
  have hmem : ∀ a, ¬(page + 8 ≤ a ∧ a < page + 12) →
      ¬(page + 64 + 64 * slot ≤ a ∧ a < page + 64 + 64 * (slot + 2)) → u.mem.read a = s.mem.read a := hstands.memory
  have hescrow := hstands.escrow
  have hchain : u.chain = s.chain := hsame.chain (by simp)
  obtain ⟨hreleased, hwriter, -, -, -, hkeep⟩ := handOver_opens (congrArg EscrowWriter.writer hescrow) hwf h.inside
    (Nat.succ_le_of_lt h.count)
    ((Memory.read32_congr fun a h1 h2 => hmem a (by omega) (by omega)).trans hnext) hv
    ((Memory.read32_congr fun a h1 h2 => hmem a (by unfold apart at hap; omega) (by unfold apart at hap; omega)).trans ho)
    hap
  have hwriter' : u.handOver.escrow.writer = .opened next 0 0 := congrArg EscrowWriter.writer hwriter
  have hqueue : u.handOver.escrow.queue = [] :=
    (congrArg EscrowWriter.queue hwriter).trans (congrArg EscrowWriter.queue hescrow)
  have hflushed : u.reportWritten { record := .summary, report := .chain } = u.summaryFlushed.blockDone b .ok :=
    summaryWritten_flushes (hchain ▸ hb) hw (congrArg EscrowWriter.writer hescrow) (congrArg EscrowWriter.queue hescrow)
  have hchain' : u.summaryFlushed.chain = { s.chain with wafer := none } := by
    have hout : u.handOver.chain = s.chain := (hreleased.frame.chain (by simp)).trans hchain
    show { u.handOver.chain with wafer := none } = _
    rw [hout]
  have hout : ∀ a, ¬(page ≤ a ∧ a < page + 12) → ¬(page + 64 + 64 * slot ≤ a ∧ a < page + 64 + 64 * (slot + 2)) →
      ¬(next + 4 ≤ a ∧ a < next + 12) → u.summaryFlushed.mem.read a = s.mem.read a := fun a h1 h2 h3 =>
    (hkeep a h1 h3).trans (hmem a (by omega) h2)
  have hlinkOf : u.summaryFlushed.linkOf b.offset = s.linkOf b.offset :=
    Memory.read32_congr fun a h1 h2 => hout a (by unfold apart at hblock; omega) (by unfold apart at hblock; omega)
      (by unfold apart at hblock'; omega)
  have hwaits : u.summaryFlushed.waitsAfter b tag := by
    refine ⟨⟨⟨hreleased.wf, hwait.aligned, hwait.inside, by rw [hchain']; exact hwait.expected, hwait.tagRange⟩,
      hlinkOf ▸ hwait.link, ?_⟩, fun p l k hk => ?_⟩
    · rw [hlinkOf, Memory.read16_congr fun a h1 h2 => hout a (by unfold apart at hlink; omega)
        (by unfold apart at hlink; omega) (by unfold apart at hlink'; omega)]
      exact hwait.notReady
    · have hk' : WriterState.opened next 0 0 = .opened p l k := hwriter'.symm.trans hk
      cases hk'
      exact ⟨rfl, hqueue⟩
  obtain ⟨hdone, hbytes, hframe⟩ := blockDone_waits .ok hwaits
  have hpage : ∀ a, page ≤ a → a < page + 1088 →
      (u.summaryFlushed.blockDone b .ok).mem.read a = u.handOver.mem.read a := fun a h1 h2 =>
    hbytes a (by unfold apart at hblock; omega) (by unfold apart at hblock; omega)
  have hescrow' : (u.summaryFlushed.blockDone b .ok).escrow = u.handOver.escrow := hframe .escrow (by simp)
  have hinside := h.inside
  rw [hflushed, handOverFull_id ((congrArg EscrowWriter.writer hescrow').trans hwriter') (by omega)] at hexec
  refine ⟨_, hexec, ?_, hdone.result, hdone.doneTag,
    (Memory.read32_congr fun a h1 h2 => hpage a (by omega) (by omega)).trans hreleased.owner,
    (Memory.read32_congr fun a h1 h2 => hpage a (by omega) (by omega)).trans hreleased.count, ?_,
    fun a h1 h2 h3 h4 h5 => (hbytes a h1 h2).trans (hout a h3 h4 h5),
    (congrArg EscrowWriter.writer hescrow').trans hwriter', (congrArg EscrowWriter.queue hescrow').trans hqueue, ?_⟩
  · rw [hdone.chain, hchain', hlinkOf]
  · refine (Memory.readBytes_congr fun a h1 h2 => (hpage a (by omega) (by omega)).trans
      (hkeep a (by omega) (by unfold apart at hap; omega))).trans ?_
    exact hstands.bytes
  · have hclosed : sameBut [.chain] u.handOver u.summaryFlushed := setChain_same _ _
    exact ((hsame.mono (by simp)).trans (hreleased.frame.mono (by simp))).trans
      ((hclosed.mono (by simp)).trans (hframe.mono (by simp)))

/-- Settles O52: the touchdown whose entries are all final, the settlement that makes the last one so, and the end of a
WAFER_END. -/
theorem blockWorkEnds : Obligations.BlockWorkEnds := by
  refine ⟨fun b es released halted tag s hb hw hs hwait hf => ?_, ?_, fun b es tag s hb hw hs hf =>
    doneTouchdown_link hb hw hs hf, ?_⟩
  · obtain ⟨hsites, hrelease, hhalt, hdone⟩ := settleTouchdown_ends hb hw hs hwait hf
    exact ⟨hsites, hrelease, hhalt, hdone⟩
  · intro b es released halted tag n die outcome rest c s hb hw hs hwait hq hc hothers hes hap
    obtain ⟨t, hexec, hlast, hreleased, hhalted, hdone, hhalts⟩ :=
      lastEntryEnds b es released halted tag n die outcome rest c s hb hw hs hwait hq hc hothers hes hap
    refine ⟨t, hexec, hlast.sites, hlast.queue, fun hin => ⟨fun ho => ?_, fun ho => ?_⟩, hlast.bytes, hreleased, hhalted,
      hdone, hhalts⟩
    all_goals
      subst ho
      exact hlast.code hin
  · intro page slot records tag b s h hb hw hwait
    exact summaryWritten_ends page slot records tag b s h hb hw hwait

end Sys2Proof.Machine

/-! The start of a halt (R81, R154): the sweep over the sites, and what it makes of each kind of site state. -/

namespace Sys2Proof.Machine

variable {s t u v : State} {n m : Site} {c x : SiteCtx} {b : Block} {es : List SiteEntry} {result : SiteResult}

/-! ### A halt at one site (R81, log 9) -/

/-- The states in which a halt only marks the site. -/
def SiteState.goesOn (st : SiteState) : Prop :=
  st ∈ [.hail, .reading, .closing, .parking, .resumeCheck, .burnRow, .pulsing, .settling, .sensing, .rowVerify,
    .spareSelect, .remapBurn, .lockBurn]

theorem haltSite_goesOn (hc : s.sites[n] = some c) (h : c.state.goesOn) :
    s.haltSite n = s.setSite n { c with haltPending := true } := by
  unfold State.haltSite
  rw [hc]
  dsimp only
  split <;> simp_all [SiteState.goesOn]

theorem haltSite_asked (hc : s.sites[n] = some c) (h : c.state ∈ [.lookup, .prep]) :
    s.haltSite n = if s.hasTableRequest n then (s.withdrawTable n).endEarly n { c with haltPending := true } .halt
      else s.setSite n { c with haltPending := true } := by
  unfold State.haltSite
  rw [hc]
  dsimp only
  split <;> simp_all

theorem haltSite_issueWait (hc : s.sites[n] = some c) (h : c.state = .issueWait) :
    s.haltSite n = (s.withdrawDerivation n).endEarly n { c with haltPending := true } .halt := by
  unfold State.haltSite
  rw [hc]
  simp [h]

theorem haltSite_escrowWait (hc : s.sites[n] = some c) (h : c.state = .escrowWait) :
    s.haltSite n = s.stopBurn n { c with haltPending := true } .halt := by
  unfold State.haltSite
  rw [hc]
  simp [h]

theorem haltSite_waitGrant (hc : s.sites[n] = some c) (h : c.state = .waitGrant) :
    s.haltSite n = (s.leaveWaiting n).stopBurn n { c with haltPending := true } .halt := by
  unfold State.haltSite
  rw [hc]
  simp [h]

/-- A site that waits for the escrow log or for a grant stops its burn. -/
theorem haltSite_stops (hc : s.sites[n] = some c) (h : c.state ∈ [.escrowWait, .waitGrant]) :
    ∃ u : State, u.sites = s.sites ∧ s.haltSite n = u.stopBurn n { c with haltPending := true } .halt := by
  rcases List.mem_cons.1 h with h | h
  · exact ⟨s, rfl, haltSite_escrowWait hc h⟩
  · exact ⟨s.leaveWaiting n, rfl, haltSite_waitGrant hc (List.mem_singleton.1 h)⟩

/-- An entry that ends early: its site final, nothing left for the key unit, no request added that it could withdraw. -/
theorem endEarly_ends (s : State) (n : Site) (c : SiteCtx) (cause : StopCause) :
    (s.endEarly n c cause).endedWith n cause.endResult ∧ (s.endEarly n c cause).keys = s.keys ∧
      ((∀ r ∈ s.dies.queue, r.withdrawn n = false) →
        ∀ r ∈ (s.endEarly n c cause).dies.queue, r.withdrawn n = false) := by
  have hends := enterFinal_ends (s.giveBack n c) n { c with stop := cause, placeHeld := false }
    { c with stop := cause, placeHeld := false } cause.endResult none rfl
  have hdies : (s.endEarly n c cause).dies = (s.giveBack n c).dies := hends.frame .dies (by simp)
  have hkeys : (s.giveBack n c).keys = s.keys := by
    unfold State.giveBack
    split <;> simp
  refine ⟨hends.ended, Eq.trans (hends.frame .keys (by simp)) hkeys, fun hnone r hr => ?_⟩
  rw [hdies] at hr
  exact (giveBack_visits (S := fun _ => True) s n c).noTableRequest hnone r hr

/-! ### The sweep (R154, log 10) -/

/-- The board whose block is marked as halted. -/
def State.halting (s : State) (b : Block) : State := s.setChain { s.chain with block := some b.markHalted }

/-- The board once the halt has reached every site. -/
def State.haltSwept (s : State) (b : Block) : State := (s.halting b).siteOrder.foldl State.haltSite (s.halting b)

theorem startHalt_eq (s : State) (b : Block) : s.startHalt b = (s.haltSwept b).freshOrder := rfl

theorem haltSwept_at (s : State) (b : Block) (m : Site) :
    ∃ u, sitesVisited (· ≠ m) (s.halting b) u ∧ sitesVisited (· ≠ m) (u.haltSite m) (s.haltSwept b) :=
  sweep_at haltSite_visits _ (siteOrder_nodup _).1 ((siteOrder_nodup _).2 m) _

theorem haltSwept_chain (s : State) (b : Block) :
    (s.haltSwept b).chain = { s.chain with block := some b.markHalted } :=
  (foldl_visits haltSite_visits (s.halting b).siteOrder (s.halting b)).chain

theorem endedWith_of_sites {r : SiteResult} (h : t.sites[n] = u.sites[n]) (he : u.endedWith n r) : t.endedWith n r := by
  obtain ⟨y, hy, hrest⟩ := he
  exact ⟨y, h.trans hy, hrest⟩

/-- A site that is final, or has no entry, is passed over. -/
theorem haltSwept_final (h : ∀ x, s.sites[m] = some x → x.state = .final) : (s.haltSwept b).sites[m] = s.sites[m] := by
  obtain ⟨u, hbefore, hafter⟩ := haltSwept_at s b m
  have hu : u.sites[m] = s.sites[m] := hbefore.others m (by simp)
  rw [haltSite_final (by rwa [hu])] at hafter
  exact (hafter.others m (by simp)).trans hu

theorem haltSwept_goesOn (hx : s.sites[m] = some x)
    (h : x.state.goesOn ∨ (x.state ∈ [.lookup, .prep] ∧ s.hasTableRequest m = false)) :
    (s.haltSwept b).sites[m] = some { x with haltPending := true } := by
  obtain ⟨u, hbefore, hafter⟩ := haltSwept_at s b m
  have hu : u.sites[m] = some x := (hbefore.others m (by simp)).trans hx
  have hvisit : u.haltSite m = u.setSite m { x with haltPending := true } := by
    rcases h with h | ⟨h, hreq⟩
    · exact haltSite_goesOn hu h
    · rw [haltSite_asked hu h, hbefore.hasTableRequest]
      exact if_neg (by simpa [State.halting, State.hasTableRequest] using hreq)
  rw [hvisit] at hafter
  exact (hafter.others m (by simp)).trans (setSite_moves u m _).here

theorem haltSwept_keyWait (hx : s.sites[m] = some x) (h : x.state = .issueWait) :
    (s.haltSwept b).endedWith m .halted ∧ ∀ r ∈ (s.haltSwept b).keys.queue, r.site ≠ m := by
  obtain ⟨u, hbefore, hafter⟩ := haltSwept_at s b m
  have hu : u.sites[m] = some x := (hbefore.others m (by simp)).trans hx
  obtain ⟨hended, hkeys, -⟩ := endEarly_ends (u.withdrawDerivation m) m { x with haltPending := true } .halt
  rw [haltSite_issueWait hu h] at hafter
  refine ⟨endedWith_of_sites (hafter.others m (by simp)) hended, fun r hr => ?_⟩
  have hin := hafter.keyQueue r hr
  rw [hkeys] at hin
  simpa using (List.mem_filter.1 hin).2

theorem haltSwept_stops (hx : s.sites[m] = some x) (h : x.state ∈ [.escrowWait, .waitGrant]) :
    (x.totalPulses = 0 → (s.haltSwept b).sites[m] = some
      { x with
        haltPending := true, stop := .halt, state := .closing, outcome := some .voidUnused, exch := none
        closeWritten := false }) ∧
      (x.totalPulses ≠ 0 → (s.haltSwept b).sites[m] =
        some { x with haltPending := true, stop := .halt, state := .parking, exch := none }) := by
  obtain ⟨u, hbefore, hafter⟩ := haltSwept_at s b m
  have hu : u.sites[m] = some x := (hbefore.others m (by simp)).trans hx
  obtain ⟨w, -, hvisit⟩ := haltSite_stops hu h
  rw [hvisit] at hafter
  refine ⟨fun h0 => (hafter.others m (by simp)).trans ?_, fun h0 => (hafter.others m (by simp)).trans ?_⟩
  · exact stopBurn_here_unused (c := { x with haltPending := true }) .halt h0
  · exact (stopBurn_park w m { x with haltPending := true } .halt h0).1.here

theorem haltSwept_waiting (hx : s.sites[m] = some x) (h : x.state = .waitGrant) :
    ∀ r ∈ (s.haltSwept b).waiting, r.site ≠ m := by
  obtain ⟨u, hbefore, hafter⟩ := haltSwept_at s b m
  have hu : u.sites[m] = some x := (hbefore.others m (by simp)).trans hx
  rw [haltSite_waitGrant hu h] at hafter
  intro r hr
  have hin := (stopBurn_visits (s := u.leaveWaiting m) (c := x) (d := { x with haltPending := true }) .halt hu rfl).waiting r
    (hafter.waiting r hr)
  simpa using (List.mem_filter.1 hin).2

theorem haltSwept_withdraws (hx : s.sites[m] = some x) (h : x.state ∈ [.lookup, .prep])
    (hreq : s.hasTableRequest m = true) :
    (s.haltSwept b).endedWith m .halted ∧ ∀ r ∈ (s.haltSwept b).dies.queue, r.withdrawn m = false := by
  obtain ⟨u, hbefore, hafter⟩ := haltSwept_at s b m
  have hu : u.sites[m] = some x := (hbefore.others m (by simp)).trans hx
  obtain ⟨hended, -, hqueue⟩ := endEarly_ends (u.withdrawTable m) m { x with haltPending := true } .halt
  have hreq' : u.hasTableRequest m = true := hbefore.hasTableRequest.trans hreq
  rw [haltSite_asked hu h, if_pos hreq'] at hafter
  exact ⟨endedWith_of_sites (hafter.others m (by simp)) hended,
    hafter.noTableRequest (hqueue fun r hr => by simpa using (List.mem_filter.1 hr).2)⟩

/-- The sweep reaches every site as R81 says. -/
theorem haltSwept_reaches (s : State) (b : Block) (n : Site) : haltReaches s (s.haltSwept b) n where
  goesOn _ _ _ hx h := haltSwept_goesOn hx h
  keyWait _ _ _ hx h := haltSwept_keyWait hx h
  voids _ _ _ hx h h0 := (haltSwept_stops hx h).1 h0
  parks _ _ _ hx h h0 := (haltSwept_stops hx h).2 h0
  waits _ _ _ hx h := haltSwept_waiting hx h
  withdraws _ _ _ hx h hreq := haltSwept_withdraws hx h hreq
  ended _ _ h := haltSwept_final h

/-- A halt reaches the other sites from every board on which they and their requests stand the same. -/
theorem haltReaches.of_agree (h : haltReaches u t n) (hs : ∀ m : Site, m ≠ n → u.sites[m] = s.sites[m])
    (hr : ∀ m : Site, m ≠ n → u.hasTableRequest m = s.hasTableRequest m) : haltReaches s t n where
  goesOn m x hm hx hst := h.goesOn m x hm ((hs m hm).trans hx) (hst.imp_right fun ⟨h1, h2⟩ => ⟨h1, (hr m hm).trans h2⟩)
  keyWait m x hm hx hst := h.keyWait m x hm ((hs m hm).trans hx) hst
  voids m x hm hx hst h0 := h.voids m x hm ((hs m hm).trans hx) hst h0
  parks m x hm hx hst h0 := h.parks m x hm ((hs m hm).trans hx) hst h0
  waits m x hm hx hst := h.waits m x hm ((hs m hm).trans hx) hst
  withdraws m x hm hx hst hreq := h.withdraws m x hm ((hs m hm).trans hx) hst ((hr m hm).trans hreq)
  ended m hm hf := (h.ended m hm fun x hx => hf x ((hs m hm).symm.trans hx)).trans (hs m hm)

/-! ### The result that starts the halt (R154) -/

theorem markHalted_touchdown {released halted : Bool} (hw : b.work = .touchdown es true released halted) :
    b.markHalted = { b with work := .touchdown es true released true } := by
  simp only [Block.markHalted, hw]

theorem inTouchdown_halted (hb : s.chain.block = some b) (h : s.inTouchdown m)
    (ht : t.chain = { s.chain with block := some b.markHalted }) : t.inTouchdown m := by
  obtain ⟨b', es, rel, hal, hb', hw, hin⟩ := h
  obtain rfl := Option.some.inj (hb.symm.trans hb')
  exact ⟨b.markHalted, es, rel, true, by rw [ht], by rw [markHalted_touchdown hw], hin⟩

/-- From `s` the entry of site n ended with a result that starts the halt of the block, on the board `v`. -/
theorem result_starts_halt (hb : s.chain.block = some b) (hw : b.work = .touchdown es true false false)
    (herr : b.haltOnError = true) (hresult : result.startsHalt = true) (hended : v.endedWith n result)
    (hchain : v.chain = s.chain) (hsites : ∀ m : Site, m ≠ n → v.sites[m] = s.sites[m])
    (hrequests : ∀ m : Site, m ≠ n → v.hasTableRequest m = s.hasTableRequest m) (hstill : s.stillEnding n) :
    (v.reportResult result).settleTouchdown.endedWith n result ∧
      haltReaches s (v.reportResult result).settleTouchdown n ∧
      (v.reportResult result).settleTouchdown.chain =
        { s.chain with block := some { b with work := .touchdown es true false true } } := by
  have hreport : v.reportResult result = (v.haltSwept b).freshOrder := by
    have hon : b.haltsOn result = true := by
      simp only [Block.haltsOn, hw, herr, hresult, Bool.and_self]
    simp only [State.reportResult, hchain, hb, hon, if_true, startHalt_eq]
  have hswept : (v.haltSwept b).chain = { s.chain with block := some b.markHalted } := by
    rw [haltSwept_chain, hchain]
  have hreaches := (haltSwept_reaches v b n).of_agree hsites hrequests
  have hsettled : (v.reportResult result).settleTouchdown = (v.haltSwept b).freshOrder := by
    obtain ⟨m, x, hm, hin, hx, hst⟩ := hstill
    have hgoes : x.state.goesOn := by rcases hst with h | h <;> simp [SiteState.goesOn, h]
    have hmark := hreaches.goesOn m x hm hx (.inl hgoes)
    rw [hreport]
    refine settleTouchdown_running (n := m) (inTouchdown_halted hb hin hswept) ?_
    have hmark' : (v.haltSwept b).freshOrder.sites[m] = some { x with haltPending := true } := hmark
    unfold State.isFinal
    rw [hmark']
    rcases hst with h | h <;> simp [h]
  rw [hsettled]
  refine ⟨?_, ⟨hreaches.goesOn, hreaches.keyWait, hreaches.voids, hreaches.parks, hreaches.waits, hreaches.withdraws,
    hreaches.ended⟩, ?_⟩
  · obtain ⟨y, hy, hstate, hrest⟩ := hended
    have hsite : (v.haltSwept b).sites[n] = v.sites[n] := haltSwept_final fun x hx => by
      rw [hy] at hx
      cases hx
      exact hstate
    exact ⟨y, hsite.trans hy, hstate, hrest⟩
  · exact hswept.trans (by rw [markHalted_touchdown hw])

/-- The head of the die table unit's queue, served for a site, is no request of another. -/
theorem hasTableRequest_popped {r : TableRequest} {rest : List TableRequest} (hq : s.dies.queue = r :: rest)
    (hv : v.dies.queue = rest) (hr : ∀ m : Site, m ≠ n → r.withdrawn m = false) :
    ∀ m : Site, m ≠ n → v.hasTableRequest m = s.hasTableRequest m := fun m hm => by
  simp only [State.hasTableRequest, hq, hv, List.any_cons, hr m hm, Bool.false_or]

theorem parkResult_startsHalt (cause : StopCause) : cause.parkResult.startsHalt = true := by cases cause <;> decide

/-- A contact failure that ends a HELLO. -/
theorem timeout_ended {e : Exchange} (hc : s.sites[n] = some c) (hst : c.state = .hail) (he : c.exch = some e)
    (hlast : min 3 s.profile.frameRetries ≤ e.resends) (hauto : ¬(c.lanesAsked = .auto ∧ c.lanesUsed = .normal)) :
    ∃ v, exec (.frameTimeout n) s = .next (v.reportResult .failedContact).settleTouchdown ∧
      entryEnds s v n c .failedContact [.counters] := by
  have hexec := exec_frameTimeout_last hc he hlast fun h => hauto h.2
  rw [contactLost_ends (c := { c with exch := none }) (.inl hst)] at hexec
  exact ⟨_, hexec, (enterFinal_ends (s.bump .contactFails) n c { c with exch := none, stop := .contact } .failedContact
    none rfl).of_bump⟩

/-- A lookup that finds its die VOID. -/
theorem lookup_ended {die : Die} {e : DieEntry} {rest : List TableRequest} (hc : s.sites[n] = some c)
    (hq : s.dies.queue = .lookup n die :: rest) (he : tableFind s.dies.entries die = some e) (hst : e.state = .void) :
    ∃ v, exec .dieLookup s = .next (v.reportResult .refusedVoid).settleTouchdown ∧
      entryEnds s v n c .refusedVoid [.dies] ∧ v.dies.queue = rest := by
  have hfind : tableFind s.popTable.dies.entries die = some e := he
  have hends := enterFinal_ends s.popTable n c c .refusedVoid (some e.serial) rfl
  have hexec := exec_dieLookup hq hc
  have hlooked : s.popTable.lookedUp n c die = s.popTable.finish n c .refusedVoid (some e.serial) := by
    simp only [State.lookedUp, hfind, hst]
  rw [hlooked] at hexec
  have hdies : (s.popTable.enterFinal n c .refusedVoid (some e.serial)).dies = s.popTable.dies :=
    hends.frame .dies (by simp)
  exact ⟨_, hexec, hends.after (popTable_same s) (by simp) (by simp) (by simp), by rw [hdies, popTable_head hq]⟩

/-- A park that the list takes. -/
theorem park_ended {rest : List TableRequest} (hc : s.sites[n] = some c) (hq : s.dies.queue = .park n :: rest)
    (hroom : s.dies.parked.length < 64) :
    ∃ v, exec .contextPark s = .next (v.reportResult c.stop.parkResult).settleTouchdown ∧
      entryEnds s v n c c.stop.parkResult [.dies] ∧ v.dies.queue = rest := by
  obtain ⟨hends, hdies, -⟩ := joinPark_ends s.popTable n c
  have hexec := exec_contextPark hq hc
  rw [if_pos hroom] at hexec
  refine ⟨_, hexec, (hends.after (popTable_same s) (by simp) (by simp) (by simp)).mono (by simp), ?_⟩
  rw [hdies, popTable_head hq]
  rfl

theorem haltStarts (n : Site) (c : SiteCtx) (b : Block) (es : List SiteEntry) (cmd : Instr) (result : SiteResult)
    (s : State) (hb : s.chain.block = some b) (hw : b.work = .touchdown es true false false) (herr : b.haltOnError = true)
    (hc : s.sites[n] = some c) (hstill : s.stillEnding n)
    (h : (cmd = .frameTimeout n ∧ c.state = .hail ∧ (∃ e, c.exch = some e ∧ min 3 s.profile.frameRetries ≤ e.resends) ∧
        ¬(c.lanesAsked = .auto ∧ c.lanesUsed = .normal) ∧ result = .failedContact) ∨
      (cmd = .dieLookup ∧ result = .refusedVoid ∧ ∃ die e rest, s.dies.queue = .lookup n die :: rest ∧
        tableFind s.dies.entries die = some e ∧ e.state = .void) ∨
      (cmd = .contextPark ∧ result = c.stop.parkResult ∧ s.dies.parked.length < 64 ∧
        ∃ rest, s.dies.queue = .park n :: rest)) :
    ∃ t, exec cmd s = .next t ∧ t.endedWith n result ∧ haltReaches s t n ∧
      t.chain = { s.chain with block := some { b with work := .touchdown es true false true } } := by
  rcases h with ⟨rfl, hst, ⟨e, he, hlast⟩, hauto, rfl⟩ | ⟨rfl, rfl, die, e, rest, hq, he, hst⟩ |
    ⟨rfl, rfl, hroom, rest, hq⟩
  · obtain ⟨v, hexec, hends⟩ := timeout_ended hc hst he hlast hauto
    have hdies : v.dies = s.dies := hends.frame .dies (by simp)
    exact ⟨_, hexec, result_starts_halt hb hw herr (by decide) hends.ended (hends.frame.chain (by simp)) hends.others
      (fun m _ => by simp only [State.hasTableRequest, hdies]) hstill⟩
  · obtain ⟨v, hexec, hends, hqueue⟩ := lookup_ended hc hq he hst
    exact ⟨_, hexec, result_starts_halt hb hw herr (by decide) hends.ended (hends.frame.chain (by simp)) hends.others
      (hasTableRequest_popped hq hqueue fun m hm => decide_eq_false hm.symm) hstill⟩
  · obtain ⟨v, hexec, hends, hqueue⟩ := park_ended hc hq hroom
    exact ⟨_, hexec, result_starts_halt hb hw herr (parkResult_startsHalt _) hends.ended (hends.frame.chain (by simp))
      hends.others (hasTableRequest_popped hq hqueue fun _ _ => rfl) hstill⟩

end Sys2Proof.Machine

/-! A halt pending at a site's boundary (R58, R78, R81): where the burn stops, and where the entry ends. -/

namespace Sys2Proof.Machine

variable {s t u : State} {n : Site} {c x : SiteCtx} {b b' : BurnState} {tg : Vector FuseRow 12} {f : ResponseFrame}
  {o : Host.Outcome State Fault Refusal} {pulses : Nat} {ps : List Part} {die : Die} {rest : List TableRequest}

/-! ### A burn that stops (R78, R81) -/

/-- A burn that stops, as the outcome of a step. -/
theorem burnStops.step (h : burnStops s u n x pulses) (ho : o = .next u.settleTouchdown) (hin : s.inTouchdown n) :
    ∃ t, o = .next t ∧ burnStops s t n x pulses := by
  refine ⟨_, ho, fun h0 hd => ?_, fun h0 => ?_⟩
  · rw [(h.unused h0 hd).settle hin (by simp)]
    exact h.unused h0 hd
  · rw [(h.parks h0).1.settle hin (by simp) (by simp)]
    exact h.parks h0

theorem burnOn_halted (hh : c.haltPending = true) : s.burnOn n c b = s.stopBurn n { c with burn := some b } .halt :=
  if_pos hh

/-- The step that would go on with a burn state stops there while a halt is pending. -/
theorem burnOn_stops (ho : o = .next (s.burnOn n c b').settleTouchdown) (hin : s.inTouchdown n)
    (hh : c.haltPending = true) (hpulses : b'.totalPulses = pulses) :
    ∃ t, o = .next t ∧ burnStops s t n { c with burn := some b', stop := .halt } pulses := by
  subst hpulses
  rw [burnOn_halted hh] at ho
  exact (stopBurn_stops s n { c with burn := some b' } .halt).step ho hin

theorem armed_halted (hh : c.haltPending = true) : s.armed n c = s.stopBurn n c .halt := if_pos hh

theorem exec_recheck_halted {row : Nat} {target : FuseRow} (hst : c.state = .resumeCheck) (hb : c.burn = some b)
    (htg : c.targets = some tg) (hrow : b.rowAt s.profile tg c.checkIndex row target)
    (h : s.answers n c .rowCheck f) (hblown : blownMask f.data = target) (hmarginal : marginalMask f.data = 0)
    (hh : c.haltPending = true) :
    exec (.rowCheckResponse n f) s = .next (s.stopBurn n c .halt).settleTouchdown := by
  rw [exec_rowCheck_answered h, resumeCheckEnded hst, burnState_of hb, burnTargets_of htg, resumeRow_at hrow]
  simp [State.resumeChecked, masksMatch_eq_true hblown hmarginal, hh]

/-- A site in WAIT_GRANT that a halt reaches leaves the waiting set (R58). -/
theorem haltSite_leaves (hc : s.sites[n] = some c) (hst : c.state = .waitGrant) :
    (∀ r ∈ (s.haltSite n).waiting, r.site ≠ n) ∧ (∀ r ∈ s.waiting, r.site ≠ n → r ∈ (s.haltSite n).waiting) ∧
      (c.totalPulses = 0 → s.dryRun = false →
        closesWith s (s.haltSite n) n { c with haltPending := true, stop := .halt } .voidUnused [.waiting]) ∧
      (c.totalPulses ≠ 0 →
        siteMoves s (s.haltSite n) n { c with haltPending := true, stop := .halt, state := .parking, exch := none }
          [.waiting, .dies] ∧
        (s.haltSite n).dies = { s.dies with queue := s.dies.queue ++ [.park n] }) := by
  have hleft : sameBut [.waiting] s (s.leaveWaiting n) := fun p hp => by cases p <;> simp_all [Part.same]
  have hwaiting : ((s.leaveWaiting n).stopBurn n { c with haltPending := true } .halt).waiting =
      s.waiting.filter fun r => decide (r.site ≠ n) := by simp [State.leaveWaiting]
  rw [haltSite_waitGrant hc hst, hwaiting]
  refine ⟨fun r hr => by simpa using (List.mem_filter.1 hr).2, fun r hr hn => List.mem_filter.2 ⟨hr, by simpa using hn⟩,
    fun h0 hd => ?_, fun h0 => ?_⟩
  · exact (stopBurn_void (s.leaveWaiting n) n { c with haltPending := true } .halt h0 hd).after hleft (by simp) (by simp)
  · obtain ⟨hmoves, hdies⟩ := stopBurn_park (s.leaveWaiting n) n { c with haltPending := true } .halt h0
    exact ⟨hmoves.after hleft (by simp), hdies⟩

/-- The boundaries at which a burn stops. -/
theorem boundary_stops (n : Site) (c : SiteCtx) (b b' : BurnState) (tg : Vector FuseRow 12) (f : ResponseFrame)
    (cmd : Instr) (s : State) (hin : s.inTouchdown n) (hb : c.burn = some b) (htg : c.targets = some tg)
    (hh : c.haltPending = true)
    (h : (cmd = .senseBitResponse n f ∧ c.state = .sensing ∧ s.answers n c .senseBit f ∧
         senseCode f.data ≤ s.profile.tb ∧
         ∃ st row target i, b.onRow s.profile tg st row target ∧ topBit target b.bit i ∧
           b' = { b with bit := i, step := .bits, width := s.profile.w0, bitPulses := 0, unsensed := false }) ∨
       (cmd = .senseBitResponse n f ∧ c.state = .sensing ∧ s.answers n c .senseBit f ∧
         s.profile.tb < senseCode f.data ∧
         b' =
           { b with width := min s.profile.wmax (b.width + b.width * s.profile.growth / 8), unsensed := false }) ∨
       (cmd = .rowCheckResponse n f ∧ c.state = .rowVerify ∧ s.answers n c .rowCheck f ∧ marginalMask f.data = 0 ∧
         ∃ k j : Fin 12, b.cur = .logical k ∧ j.val = k.val + 1 ∧ blownMask f.data = tg[k] ∧
           b' =
             { b with
               rowStates := b.rowStates.set k .done, maxStress := max b.maxStress b.rowStress, cur := .logical j
               bit := 31, step := .bits, rowStress := 0 }) ∨
       (cmd = .rowCheckResponse n f ∧ c.state = .burnRow ∧ s.answers n c .rowCheck f ∧ blownMask f.data = 0 ∧
         marginalMask f.data = 0 ∧
         ∃ (k : Fin 12) (i : Nat), b.cur = .logical k ∧ topBit tg[k] 32 i ∧
           b' =
             { b with
               rowStates := b.rowStates.set k .inProgress, rowStress := 0, bit := i, step := .bits
               width := s.profile.w0, bitPulses := 0, unsensed := false }) ∨
       (cmd = .rowCheckResponse n f ∧ c.state = .burnRow ∧
         (s.refuses n c .rowCheck f ∨
           (s.answers n c .rowCheck f ∧ (blownMask f.data ≠ 0 ∨ marginalMask f.data ≠ 0))) ∧
         ∃ (k : Fin 12) (i : Nat), b.cur = .logical k ∧ b.spareLeft s.profile i ∧
           b' =
             { b with
               rowStates := b.rowStates.set k .inProgress, maxStress := max b.maxStress b.rowStress
               spareWanted := true }) ∨
       (cmd = .rowCheckResponse n f ∧ c.state = .resumeCheck ∧ s.answers n c .rowCheck f ∧ marginalMask f.data = 0 ∧
         b' = b ∧ ∃ row, b.rowAt s.profile tg c.checkIndex row (blownMask f.data))) :
    ∃ t, exec cmd s = .next t ∧ burnStops s t n { c with burn := some b', stop := .halt } b.totalPulses := by
  rcases h with ⟨rfl, -, h, hcode, st, row, target, i, hrow, hi, rfl⟩ | ⟨rfl, -, h, hcode, rfl⟩ |
    ⟨rfl, hst, h, h2, k, j, hcur, hj, h1, rfl⟩ | ⟨rfl, hst, h, h1, h2, k, i, hcur, hi, rfl⟩ |
    ⟨rfl, hst, h, k, i, hcur, hi, rfl⟩ | ⟨rfl, hst, h, h2, rfl, row, hrow⟩
  case inl =>
    obtain ⟨hcur, -, -, -, htarget⟩ := hrow.fields
    have hexec := exec_senseBit_answered h
    rw [sensed_low hb hcode, burnTargets_of htg, htarget, bitDone_row (b := { b with unsensed := false }) hcur,
      topBitBelow_of_topBit (n := BurnState.bit _) hi] at hexec
    exact burnOn_stops hexec hin hh rfl
  case inr.inl =>
    have hexec := exec_senseBit_answered h
    rw [sensed_high hb hcode] at hexec
    exact burnOn_stops hexec hin hh rfl
  case inr.inr.inl =>
    have hexec := exec_rowVerified_pass h hst hb htg (by simpa [BurnState.curTarget, hcur] using h1) h2
    rw [rowVerified_pass hb, rowDone_logical hcur hj] at hexec
    exact burnOn_stops hexec hin hh rfl
  case inr.inr.inr.inl =>
    have hexec := exec_rowChecked_clean h (.inl hst) h1 h2
    rw [rowChecked_clean_logical 0 hb hcur htg, startBits_top hi] at hexec
    exact burnOn_stops hexec hin hh rfl
  case inr.inr.inr.inr.inl =>
    have hexec := exec_recordRowBad hb hcur htg (.inl ⟨rfl, hst, h⟩)
    have hleft : b.rowBad.freeSpares s.profile ≠ [] := by
      have hmem : i ∈ b.rowBad.freeSpares s.profile := mem_freeSpares.2 (by rw [rowBad_logical hcur]; exact hi)
      exact List.ne_nil_of_mem hmem
    rw [State.afterBadRow, if_neg hleft, rowBad_logical hcur] at hexec
    exact burnOn_stops hexec hin hh rfl
  case inr.inr.inr.inr.inr =>
    have hexec := exec_recheck_halted hst hb htg hrow h rfl h2 hh
    have hself : { c with burn := some b', stop := .halt } = { c with stop := .halt } := by rw [← hb]
    rw [hself]
    exact totalPulses_of hb ▸ (stopBurn_stops s n c .halt).step hexec hin

/-! ### An entry that ends (R78, R81) -/

/-- A site without a place that ends early with HALTED. -/
theorem endEarly_halts (s : State) (n : Site) {d : SiteCtx} (hp : d.placeHeld = false) (hi : d.index = c.index) :
    entryEnds s (s.endEarly n d .halt) n c .halted [] := by
  have hback : s.giveBack n d = s := if_neg (by simp [hp])
  unfold State.endEarly
  rw [hback]
  exact enterFinal_ends s n c { d with stop := .halt, placeHeld := false } .halted none hi

theorem helloOk_halted {d : BitVec 64} (hh : c.haltPending = true)
    (h : c.action = .provision ∨ d.extractLsb' 40 8 = 1) :
    s.helloOk n c d = s.endEarly n { c with rows := some (helloRows d), locked := some (helloLocked d), exch := none }
      .halt := by
  unfold State.helloOk
  dsimp only
  split
  · exact if_pos hh
  · rename_i hact
    have hlock : helloLocked d = true := helloLocked_eq (locked := true) (h.resolve_left hact)
    rw [hlock, if_neg (by simp), if_pos hh]

theorem absentDie_halted (hl : c.locked = some false) (hh : c.haltPending = true) :
    s.absentDie n c = s.endEarly n c .halt := by
  simp [State.absentDie, hl, hh]

theorem blankPassed_halted (hh : c.haltPending = true) :
    s.blankPassed n c = s.endEarly n { c with exch := none } .halt := if_pos hh

theorem placeGranted_halted (hh : c.haltPending = true) :
    s.placeGranted n c = s.endEarly n { c with placeHeld := true } .halt := if_pos hh

/-- A site whose place is given back as it ends with HALTED. -/
theorem endEarly_givesBack (s : State) (n : Site) {d : SiteCtx} (hp : d.placeHeld = true) (hi : d.index = c.index) :
    entryEnds s (s.endEarly n d .halt) n c .halted [.dies] ∧
      (s.endEarly n d .halt).dies = { s.dies with queue := s.dies.queue ++ [.giveBack n] } := by
  have hback : s.giveBack n d = s.queueTable (.giveBack n) := if_pos hp
  have hends := enterFinal_ends (s.queueTable (.giveBack n)) n c { d with stop := .halt, placeHeld := false } .halted
    none hi
  unfold State.endEarly
  rw [hback]
  exact ⟨(hends.after (queueTable_same s _) (by simp) (by simp) (by simp)).mono (by simp), hends.frame .dies (by simp)⟩

/-- A lookup that finds its die PARKED with a halt pending parks the context again. -/
theorem lookup_reparks (n : Site) (die : Die) (rest : List TableRequest) (c : SiteCtx) (e : DieEntry)
    (p : ParkedContext) (s : State) (hq : s.dies.queue = .lookup n die :: rest) (hc : s.sites[n] = some c)
    (hh : c.haltPending = true) (hin : s.inTouchdown n) (he : tableFind s.dies.entries die = some e)
    (hst : e.state = .parked) (hp : (s.dies.parked.filter fun q => q.isHeld && decide (q.die = die)) = [p])
    (hpulses : p.burn.totalPulses ≠ 0) : ∃ t, exec .dieLookup s = .next t ∧
      siteMoves s t n
        { c with
          serial := some p.serial, key := some p.key, check := some p.check, identity := some p.identity
          burn := some p.burn, touchdowns := some (min 255 (p.touchdowns + 1))
          targets := some (recordTargets p.key p.check p.serial p.identity.codes)
          state := .parking, stop := .halt, exch := none } [.dies, .counters] ∧
      t.dies.queue = rest ++ [.park n] ∧ tableFind t.dies.entries die = some { e with state := .issued } ∧
      t.counter .diesResumed = satInc (s.counter .diesResumed) ∧ countersBut [.diesResumed] s t := by
  have hlooked : s.popTable.lookedUp n c die = (s.handedOver p).stopBurn n (c.resume p) .halt := by
    have he' : tableFind s.popTable.dies.entries die = some e := he
    have hp' : heldContext s.popTable.dies.parked die = some p := heldContext_of_filter hp
    simp only [State.lookedUp, he', hst, hp', State.resumeDie, hh]
    rfl
  have hexec := exec_dieLookup hq hc
  rw [hlooked] at hexec
  obtain ⟨hmoves, hdies⟩ := stopBurn_park (s.handedOver p) n (c.resume p) .halt hpulses
  obtain ⟨-, hentry, -, -, hqueue⟩ := handedOver_dies hq he hp
  have hcounters := hmoves.frame .counters (by simp)
  have hmoves' := hmoves.after (handedOver_same s p) (by simp)
  have hnext := hmoves'.next hexec hin (by simp) (by simp)
  refine ⟨_, hnext, hmoves'.mono (by simp), ?_⟩
  generalize (s.handedOver p).stopBurn n (c.resume p) .halt = t at *
  rw [hdies]
  exact ⟨by rw [hqueue], hentry, counts_of_bump (s := s) hcounters⟩

/-- Settles O32: the start of the halt, and each boundary. -/
theorem haltStopsAtBoundary : Obligations.HaltStopsAtBoundary := by
  refine ⟨fun n c b f s h hin hb hh => ?_, fun n c s hc hst => haltSite_leaves hc hst, haltStarts, boundary_stops,
    fun n c cmd s hc hh hrun hp => ?_, lookup_reparks⟩
  · have hexec := exec_armBit_answered h
    rw [armed_halted hh] at hexec
    have hpulses := totalPulses_of hb
    refine ⟨fun h0 hd => ?_, fun h0 => ?_⟩
    · have hcloses := stopBurn_void s n c .halt (hpulses.trans h0) hd
      exact ⟨_, hcloses.next hexec hin (by simp), hcloses⟩
    · obtain ⟨hmoves, hdies⟩ := stopBurn_park s n c .halt (by rwa [hpulses])
      exact ⟨_, hmoves.next hexec hin (by simp) (by simp), hmoves, hdies⟩
  · refine ⟨fun f hcmd h h1 h2 hact => ?_, fun die rest hcmd hq hnone hl => ?_, fun f hcmd hst h h1 h2 => ?_,
      fun r rest w i hcmd hq hr hw hlot hok => ?_, fun die rest hcmd hq hroom => ?_⟩
    · subst hcmd
      have hexec := exec_hello_answered h h1 h2
      rw [helloOk_halted hh hact] at hexec
      exact (endEarly_halts (c := c) s n (d := { c with
        rows := some (helloRows f.data), locked := some (helloLocked f.data), exch := none }) hp rfl).step hexec hrun
          (by simp)
    · subst hcmd
      have hfind : tableFind s.popTable.dies.entries die = none := hnone
      have hexec := exec_dieLookup hq hc
      have hlooked : s.popTable.lookedUp n c die = s.popTable.endEarly n c .halt := by
        simp only [State.lookedUp, hfind, absentDie_halted hl hh]
      rw [hlooked] at hexec
      have hends := endEarly_halts (c := c) s.popTable n hp rfl
      have hends' := hends.after (popTable_same s) (by simp) (by simp) (by simp)
      exact ⟨_, hends'.next hexec hrun (by simp), hends', (hends.frame .dies (by simp)).trans (popTable_head hq)⟩
    · subst hcmd
      have hexec := exec_rowCheck_blank hst h h1 h2
      rw [blankPassed_halted hh] at hexec
      exact (endEarly_halts (c := c) s n (d := { c with exch := none }) hp rfl).step hexec hrun (by simp)
    · subst hcmd hr
      have hexec := exec_compositionComplete hq hw hlot
      have hcomposed : (s.setComp rest).composed r (compose w r) =
          (s.setComp rest).endEarly r.site { c with identity := some i } .halt := by
        simp [State.composed, hc, hok, State.identityReturned, hh]
      rw [hcomposed] at hexec
      have hends := endEarly_halts (c := c) (s.setComp rest) r.site (d := { c with identity := some i }) hp rfl
      have hends' := hends.after (setComp_same s rest) (by simp) (by simp) (by simp)
      exact ⟨_, hends'.next hexec hrun (by simp), hends', hends.frame .comp (by simp)⟩
    · subst hcmd
      have hexec := exec_placeHold hq hc
      rw [if_pos hroom, placeGranted_halted hh] at hexec
      obtain ⟨hends, hdies⟩ := endEarly_givesBack (c := c) (s.placed n die) n (d := { c with placeHeld := true }) rfl rfl
      have hends' := hends.after (placed_same s n die) (by simp) (by simp) (by simp)
      refine ⟨_, hends'.next hexec hrun (by simp), hends'.mono (by simp), ?_⟩
      exact hdies.trans (by rw [placed_dies hq])

end Sys2Proof.Machine

/-! What is written into the fuse rows reads back: the identity of a composition (R5, R83, R108, R112 to R119), and the
remap entries (R4, R6, R7). -/

namespace Sys2Proof.Machine

variable {w : WaferContext} {r : CompRequest} {c c' : Composition} {l : List (Fin 12 × Nat)} {d : FuseDie}

/-! ### A composition keeps to the table (R112 to R116) -/

/-- A composition in progress: at most sixteen characters, each of the table. -/
def Composition.kept (w : WaferContext) (c : Composition) : Prop :=
  c.out.length ≤ 16 ∧ ∀ ch ∈ c.out, ch ∈ w.table

theorem Composition.kept.append {cs : List Byte} (h : c.kept w) (hlen : c.out.length + cs.length ≤ 16)
    (hcs : ∀ ch ∈ cs, ch ∈ w.table) (cursor : Nat) (supp : Byte) :
    Composition.kept w { out := c.out ++ cs, cursor := cursor, supp := supp } :=
  ⟨by rw [List.length_append]; exact hlen, fun ch hch => (List.mem_append.1 hch).elim (h.2 ch) (hcs ch)⟩

theorem lotChars_length (w : WaferContext) : ∀ (n cursor : Nat), (lotChars w cursor n).length = n
  | 0, _ => rfl
  | n + 1, cursor => by rw [lotChars, List.length_cons, lotChars_length w n]

theorem digitChars_length : ∀ d v : Nat, (digitChars d v).length = d
  | 0, _ => rfl
  | d + 1, v => by rw [digitChars, List.length_append, digitChars_length d]; rfl

/-- What a LOT finds is of the table: its lot characters are, and the pad character is where it is needed (R113). -/
theorem lotChars_table (hlot : ∀ ch ∈ w.lot, ch ∈ w.table) (hlen : w.lot.length ≤ 12) :
    ∀ (n cursor : Nat), (w.pad ∈ w.table ∨ cursor + n ≤ w.lot.length) → ∀ ch ∈ lotChars w cursor n, ch ∈ w.table
  | 0, _, _, ch, hch => nomatch hch
  | n + 1, cursor, h, ch, hch => by
    rcases List.mem_cons.1 hch with rfl | hrest
    · cases hget : w.lot[cursor]? with
      | some x => exact hlot _ (List.mem_of_getElem? hget)
      | none =>
        have hout := List.getElem?_eq_none_iff.1 hget
        exact h.resolve_right (by omega)
    · exact lotChars_table hlot hlen n _ (h.imp_right fun h => by omega) ch hrest

theorem composeLot_kept {n : Nat} (hlot : ∀ ch ∈ w.lot, ch ∈ w.table) (hlen : w.lot.length ≤ 12) (h : c.kept w)
    (hc : composeLot w c n = .ok c') : c'.kept w := by
  unfold composeLot at hc
  split at hc
  · cases hc
  rename_i hroom
  split at hc
  · cases hc
  rename_i hpad
  cases hc
  refine h.append (by rw [lotChars_length]; omega) (fun ch hch => ?_) _ _
  by_cases hn : n = 0
  · subst hn
    cases hch
  · refine lotChars_table hlot hlen n c.cursor ?_ ch hch
    by_cases hin : w.pad ∈ w.table
    · exact .inl hin
    · refine .inr (Nat.le_of_not_lt fun hlt => hpad ⟨?_, by simpa using hin⟩)
      simp only [lotPads, Bool.and_eq_true, decide_eq_true_eq]
      omega

theorem composeLit_kept {ch : Byte} (h : c.kept w) (hc : composeLit w c ch = .ok c') : c'.kept w := by
  unfold composeLit at hc
  split at hc
  · cases hc
  rename_i hfull
  split at hc
  · cases hc
  rename_i hin
  cases hc
  have hlen := h.1
  exact h.append (by rw [List.length_singleton]; omega) (fun x hx => by
    rw [List.mem_singleton.1 hx]
    simpa using hin) _ _

theorem composeNum_kept {v n : Nat} (h : c.kept w) (hc : composeNum w c v n = .ok c') : c'.kept w := by
  unfold composeNum at hc
  dsimp only at hc
  split at hc
  · cases hc
  rename_i hdigits
  split at hc
  · cases hc
  rename_i hroom
  split at hc
  · cases hc
  rename_i hin
  cases hc
  rw [not_or, not_and] at hin
  refine h.append ?_ (fun ch hch => ?_) _ _
  · rw [List.length_append, List.length_replicate, digitChars_length]
    omega
  · rcases List.mem_append.1 hch with hsupp | hdigit
    · obtain ⟨hpos, rfl⟩ := List.mem_replicate.1 hsupp
      simpa using hin.2 (by omega)
    · have hall : (digitChars (digitCount v) v).all w.table.contains = true := by simpa using hin.1
      simpa using List.all_eq_true.1 hall ch hdigit

theorem composeStep_kept {st : CompStep} (hlot : ∀ ch ∈ w.lot, ch ∈ w.table) (hlen : w.lot.length ≤ 12) (h : c.kept w)
    (hc : composeStep w r c st = .ok c') : c'.kept w := by
  cases st with
  | lot n => exact composeLot_kept hlot hlen h hc
  | lit ch => exact composeLit_kept h hc
  | num f n => exact composeNum_kept h hc
  | skip n | supp ch =>
    cases hc
    exact h

theorem composeSteps_kept (hlot : ∀ ch ∈ w.lot, ch ∈ w.table) (hlen : w.lot.length ≤ 12) :
    ∀ (steps : List CompStep) (c c' : Composition), c.kept w → composeSteps w r c steps = .ok c' → c'.kept w
  | [], c, c', h, hc => by
    cases hc
    exact h
  | st :: rest, c, c', h, hc => by
    rw [composeSteps] at hc
    split at hc
    · rename_i c₁ hst
      exact composeSteps_kept hlot hlen rest c₁ c' (composeStep_kept hlot hlen h hst) hc
    · cases hc

/-- A composition that gives an identity: sixteen characters of the table, and their codes. -/
theorem compose_ok {i : Identity} (hlot : ∀ ch ∈ w.lot, ch ∈ w.table) (hlen : w.lot.length ≤ 12)
    (hc : compose w r = .ok i) :
    i.chars.length = 16 ∧ (∀ ch ∈ i.chars, ch ∈ w.table) ∧ i.codes = i.chars.map (codeOf w.table) := by
  unfold compose at hc
  split at hc
  · cases hc
  rename_i c hsteps
  split at hc
  · cases hc
  rename_i hpad
  cases hc
  obtain ⟨hout, htable⟩ := composeSteps_kept hlot hlen w.steps .start c ⟨Nat.zero_le _, nofun⟩ hsteps
  refine ⟨?_, fun ch hch => ?_, rfl⟩
  · rw [List.length_append, List.length_replicate]
    omega
  · rcases List.mem_append.1 hch with hch | hch
    · exact htable ch hch
    · obtain ⟨hpos, rfl⟩ := List.mem_replicate.1 hch
      by_contra hnot
      exact hpad ⟨by omega, by simpa using hnot⟩

/-! ### The identity stream (R5) -/

theorem streamOfCodes_append (codes : List Nat) (code : Nat) :
    streamOfCodes (codes ++ [code]) = streamOfCodes codes * 64 + code % 64 := by
  simp [streamOfCodes]

theorem streamOfCodes_lt (codes : List Nat) : streamOfCodes codes < 64 ^ codes.length := by
  induction codes using List.reverseRecOn with
  | nil => decide
  | append_singleton codes code ih =>
    rw [streamOfCodes_append, List.length_append, List.length_singleton, pow_succ]
    omega

/-- The codes stand in the stream most significant first. -/
theorem streamOfCodes_digit (codes : List Nat) (h : ∀ code ∈ codes, code < 64) (i : Nat) (hi : i < codes.length) :
    streamOfCodes codes / 64 ^ (codes.length - 1 - i) % 64 = codes[i] := by
  induction codes using List.reverseRecOn with
  | nil => exact absurd hi (Nat.not_lt_zero i)
  | append_singleton codes code ih =>
    have hcode : code < 64 := h code (by simp)
    rw [streamOfCodes_append]
    by_cases hlast : i = codes.length
    · subst hlast
      simp only [List.length_append, List.length_singleton, Nat.add_sub_cancel, Nat.sub_self, pow_zero, Nat.div_one,
        List.getElem_concat_length]
      omega
    · have hlt : i < codes.length := by
        rw [List.length_append, List.length_singleton] at hi
        omega
      have hexp : (codes ++ [code]).length - 1 - i = (codes.length - 1 - i) + 1 := by
        rw [List.length_append, List.length_singleton]
        omega
      have hshift : (streamOfCodes codes * 64 + code % 64) / 64 = streamOfCodes codes := by omega
      rw [hexp, pow_succ', ← Nat.div_div_eq_div_mul, hshift, ih (fun x hx => h x (List.mem_append_left _ hx)) hlt,
        List.getElem_append_left hlt]

/-- Sixteen codes are read back from their stream. -/
theorem codesOfStream_stream {codes : List Nat} (hlen : codes.length = 16) (h : ∀ code ∈ codes, code < 64) :
    codesOfStream (BitVec.ofNat 96 (streamOfCodes codes)) = codes := by
  have hlt : streamOfCodes codes < 2 ^ 96 := by
    have hbound := streamOfCodes_lt codes
    rw [hlen] at hbound
    omega
  refine List.ext_getElem (by simp [codesOfStream, hlen]) fun i h1 h2 => ?_
  have hdigit := streamOfCodes_digit codes h i h2
  have hpow : 2 ^ (6 * (15 - i)) = 64 ^ (15 - i) := pow_mul 2 6 (15 - i)
  simp only [codesOfStream, List.getElem_map, List.getElem_range, BitVec.extractLsb'_toNat, BitVec.toNat_ofNat,
    Nat.mod_eq_of_lt hlt, Nat.shiftRight_eq_div_pow, hpow]
  rw [hlen] at hdigit
  exact hdigit

/-- The three identity rows are the stream. -/
theorem identityRows_stream (key : Key) (chk : BitVec 16) (serial : Nat) (codes : List Nat) :
    (recordTargets key chk serial codes)[9] ++ (recordTargets key chk serial codes)[10] ++
      (recordTargets key chk serial codes)[11] = BitVec.ofNat 96 (streamOfCodes codes) := by
  simp only [recordTargets, Vector.getElem_ofFn]
  generalize BitVec.ofNat 96 (streamOfCodes codes) = v
  exact (congrArg (· ++ v.extractLsb' 0 32) (BitVec.extractLsb'_append_extractLsb'_eq_extractLsb' (x := v) (by decide))).trans
    ((BitVec.extractLsb'_append_extractLsb'_eq_extractLsb' (x := v) (by decide)).trans BitVec.extractLsb'_eq_self)

/-- Settles O39: the characters and codes of a composition, and their way through the fuse rows. -/
theorem composedIdentityReadsBack : Obligations.ComposedIdentityReadsBack := by
  intro w r i key chk serial htable _ hlot hlen hc
  obtain ⟨hchars, hin, hcodes⟩ := compose_ok hlot hlen hc
  have hcount : i.codes.length = 16 := by rw [hcodes, List.length_map, hchars]
  have hsmall : ∀ code ∈ i.codes, code < 64 := fun code hcode => by
    rw [hcodes] at hcode
    obtain ⟨ch, hch, rfl⟩ := List.mem_map.1 hcode
    rw [← htable]
    exact List.idxOf_lt_length_of_mem (hin ch hch)
  refine ⟨hchars, hcount, hin, hcodes, ?_⟩
  have hback : i.codes.map (charOf w.table) = i.chars := by
    rw [hcodes, List.map_map]
    refine (List.map_congr_left fun ch hch => ?_).trans (List.map_id _)
    have hlt : w.table.idxOf ch < w.table.length := List.idxOf_lt_length_of_mem (hin ch hch)
    simp [charOf, codeOf, List.getD_eq_getElem?_getD, List.getElem?_eq_getElem hlt, List.getElem_idxOf]
  rw [identityRows_stream, decodeIdentity, codesOfStream_stream hcount hsmall]
  exact congrArg (fun chars => Identity.mk chars i.codes) hback

/-! ### The remap rows (R4, R6, R7) -/

/-- The four bytes of a row, most significant first. -/
theorem bytes_of_row (b₀ b₁ b₂ b₃ : Byte) :
    (b₀ ++ b₁ ++ b₂ ++ b₃ : BitVec 32).extractLsb' 24 8 = b₀ ∧ (b₀ ++ b₁ ++ b₂ ++ b₃ : BitVec 32).extractLsb' 16 8 = b₁ ∧
      (b₀ ++ b₁ ++ b₂ ++ b₃ : BitVec 32).extractLsb' 8 8 = b₂ ∧ (b₀ ++ b₁ ++ b₂ ++ b₃ : BitVec 32).extractLsb' 0 8 = b₃ := by
  refine ⟨?_, ?_, ?_, ?_⟩
  all_goals
    refine BitVec.eq_of_getLsbD_eq fun i hi => ?_
    simp only [BitVec.getLsbD_extractLsb', hi, decide_true, Bool.true_and, BitVec.getLsbD_append]
  · rw [if_neg (by omega), if_neg (by omega), if_neg (by omega)]
    exact congrArg _ (by omega)
  · rw [if_neg (by omega), if_neg (by omega), if_pos (by omega)]
    exact congrArg _ (by omega)
  · rw [if_neg (by omega), if_pos (by omega)]
    exact congrArg _ (by omega)
  · rw [if_pos (by omega), Nat.zero_add]

/-- The die reads the remap bytes as the engine placed them. -/
theorem remapBytes_places (h₀ : d.value d.design.remapBase = remapTarget l 0)
    (h₁ : d.value (d.design.remapBase + 1) = remapTarget l 1) :
    d.remapBytes = (List.range 8).map (remapPlace l) := by
  obtain ⟨a0, a1, a2, a3⟩ := bytes_of_row (remapPlace l 0) (remapPlace l 1) (remapPlace l 2) (remapPlace l 3)
  obtain ⟨a4, a5, a6, a7⟩ := bytes_of_row (remapPlace l 4) (remapPlace l 5) (remapPlace l 6) (remapPlace l 7)
  refine List.map_congr_left fun i hi => ?_
  have hi' := List.mem_range.1 hi
  interval_cases i <;> simp only [Nat.reduceDiv, Nat.reduceMod, Nat.reduceSub, Nat.reduceMul, Nat.add_zero, h₀, h₁]
  · exact a0
  · exact a1
  · exact a2
  · exact a3
  · exact a4
  · exact a5
  · exact a6
  · exact a7

/-- The places of a remap list: its entries, then empty ones. -/
theorem places_eq (h : l.length ≤ 8) :
    (List.range 8).map (remapPlace l) = l.map remapByte ++ List.replicate (8 - l.length) 0 := by
  refine List.ext_getElem (by simp; omega) fun i h1 h2 => ?_
  rw [List.getElem_map, List.getElem_range, remapPlace]
  by_cases hi : i < l.length
  · rw [List.getElem?_eq_getElem hi, List.getElem_append_left (by simpa using hi), List.getElem_map]
  · rw [List.getElem?_eq_none (by omega), List.getElem_append_right (by simpa using hi), List.getElem_replicate]

theorem remapByte_fields : ∀ (k : Fin 12) (i : Fin 8), (BitVec.ofNat 8 (128 + k.val * 8 + i.val)).getLsbD 7 = true ∧
    ((BitVec.ofNat 8 (128 + k.val * 8 + i.val)).extractLsb' 3 4).toNat = k.val ∧
    ((BitVec.ofNat 8 (128 + k.val * 8 + i.val)).extractLsb' 0 3).toNat = i.val := by decide

/-- A remap entry names its logical row and its spare to the die. -/
theorem spareOf_remapByte {g : DieDesign} {e : Fin 12 × Nat} (he : e.2 < g.spareCount) (hg : g.spareCount ≤ 8)
    (k : Fin 12) : g.spareOf k.val (remapByte e) = if e.1 = k then some e.2 else none := by
  obtain ⟨hvalid, hrow, hspare⟩ := remapByte_fields e.1 ⟨e.2, by omega⟩
  have hbyte : remapByte e = BitVec.ofNat 8 (128 + e.1.val * 8 + e.2) := by
    rw [remapByte, Nat.mod_eq_of_lt (by omega)]
  rw [DieDesign.spareOf, hbyte, hrow, hspare, hvalid]
  simp only [true_and, he, and_true, Fin.val_inj]

theorem spareOf_zero (g : DieDesign) (k : Nat) : g.spareOf k 0 = none := by simp [DieDesign.spareOf]

/-- The entries that name a row to the die, the last one first. -/
theorem spares_read {g : DieDesign} (hl : ∀ e ∈ l, e.2 < g.spareCount) (hg : g.spareCount ≤ 8) (k : Fin 12) :
    (l.map remapByte).filterMap (g.spareOf k.val) = (l.filter fun e => decide (e.1 = k)).map Prod.snd := by
  rw [List.filterMap_map]
  induction l with
  | nil => rfl
  | cons e l ih =>
    have hbyte := spareOf_remapByte (hl e (by simp)) hg k
    have ih' := ih fun x hx => hl x (List.mem_cons_of_mem _ hx)
    by_cases hk : e.1 = k
    · rw [if_pos hk] at hbyte
      rw [List.filterMap_cons_some (by exact hbyte), List.filter_cons_of_pos (by simpa using hk), List.map_cons, ih']
    · rw [if_neg hk] at hbyte
      rw [List.filterMap_cons_none (by exact hbyte), List.filter_cons_of_neg (by simpa using hk), ih']

/-- Settles O54: the entries as bytes of the two rows, and the last one that names the row. -/
theorem remapsReadBack : Obligations.RemapsReadBack := by
  intro d l hlen hspares hl h₀ h₁ k
  have hread : d.remapBytes.reverse.filterMap (d.design.spareOf k.val) =
      ((l.filter fun e => decide (e.1 = k)).map Prod.snd).reverse := by
    rw [List.filterMap_reverse, remapBytes_places h₀ h₁, places_eq hlen, List.filterMap_append, spares_read hl hspares,
      List.filterMap_eq_nil_iff.2 fun b hb => by rw [(List.mem_replicate.1 hb).2, spareOf_zero], List.append_nil]
  rw [FuseDie.locate, hread, List.head?_reverse, List.getLast?_map]
  cases (l.filter fun e => decide (e.1 = k)).getLast? <;> rfl

end Sys2Proof.Machine
